-- ==== Sys2Proof/Word.lean ====
section
/-!
DEFINITION. The machine's word types.

Native storage is 64 bits for both running widths (00_scope.md R7); memory is made of bytes
(20_memory.md R120); a register field is a 5-bit number (30_encoding.md R181).
-/

namespace Sys2Proof

/-- A 64-bit native value: a register, the program counter, a CSR, an address. -/
abbrev Word := BitVec 64

/-- One byte of raw memory. -/
abbrev Byte := BitVec 8

/-- A 5-bit register field, naming `x0`..`x31` or `f0`..`f31` (R181). -/
abbrev RegIdx := BitVec 5

/-- A 12-bit CSR address (R41). -/
abbrev CsrAddr := BitVec 12

end Sys2Proof
end

