-- ==== Sys2Proof/Config.lean ====
section
/-!
DEFINITION. What is fixed at start-up: the block's parameters (00_scope.md R6 to R10, R16) and the
external floating-point library.

The parameters are plain data and stand in State (field `params`), so every statement about a state
holds for every choice of them. The library is a set of constants without bodies: nothing can be
proved of the value or the flags it returns.
-/

namespace Sys2Proof

/-- The running width: `ARCH` of R7 and the `XLEN` every core runs at (10_state.md R44). -/
inductive Xlen where
  | w32
  | w64
  deriving DecidableEq, Repr

/-- The number of bits of the running width. -/
def Xlen.bits : Xlen → Nat
  | .w32 => 32
  | .w64 => 64

/-- The parameter `ECALL_CODE` of R16: the cause code an environment call writes. -/
inductive EcallCode where
  | const8
  | perPrivilege
  deriving DecidableEq, Repr

/-- The parameter `HYP_CSR_WRITES` of R16: whether CSR instructions can write the hypervisor bank. -/
inductive HypCsrWrites where
  | inert
  | symmetric
  deriving DecidableEq, Repr

/-- The block's parameter list (R16), but for `FPLib`. -/
structure Params where
  /-- `ARCH` (R7). -/
  arch : Xlen
  /-- `NCORES`, 1 to 256 (R6). -/
  ncores : Nat
  /-- `TLB_ENTRIES`, at least 1 (R8). -/
  tlbEntries : Nat
  /-- `TICK_RATIO`, at least 1 (R8). -/
  tickRatio : Nat
  /-- `ENTRY`, the reset value of every core's `pc` (R9). -/
  entry : Word
  /-- `MEM0`, the initial memory: the bytes that are not zero, in rising order of address (R9, R530). -/
  mem0 : List (Nat × Byte)
  /-- `EXIT_ADDR`, the test-completion address (R9). -/
  exitAddr : Word
  /-- `ECALL_CODE` (R16). -/
  ecallCode : EcallCode
  /-- `HYP_CSR_WRITES` (R16). -/
  hypCsrWrites : HypCsrWrites
  deriving DecidableEq, Repr

/-- The bounds R6 and R8 put on the parameters. -/
def Params.wf (p : Params) : Bool :=
  decide (1 ≤ p.ncores) && decide (p.ncores ≤ 256) && decide (1 ≤ p.tlbEntries)
    && decide (1 ≤ p.tickRatio)

/-- The parameters of `State.reset`: the spec's defaults where it gives one (`TLB_ENTRIES`,
`ECALL_CODE`, `HYP_CSR_WRITES`), and for the others the values 95_test_vectors.md runs its vectors
and programs with. DESIGN CHOICE (log entry 1), unsafe: only a claim about `State.reset` rests on it. -/
def Params.default : Params where
  arch := .w64
  ncores := 1
  tlbEntries := 16
  tickRatio := 1
  entry := 0x80000000#64
  mem0 := []
  exitAddr := 0x80001000#64
  ecallCode := .const8
  hypCsrWrites := .inert

/-- A rounding mode the library takes, codes 0 to 4 (00_scope.md R10, 10_state.md R92). -/
inductive RoundingMode where
  | rne
  | rtz
  | rdn
  | rup
  | rmm
  deriving DecidableEq, Repr

/-- A 5-bit flag set in the order of `fflags`: NV 4, DZ 3, OF 2, UF 1, NX 0 (10_state.md R93). -/
abbrev FpFlags := BitVec 5

namespace FPLib

/-! The library `FPLib` (R10): total functions that depend on their arguments alone. Free values
without a body (log entry 3): safe, since a claim holds whatever they return. A conversion is named
`cvt_<to>_<from>` (90_conflicts.md C11). -/

opaque add32 : RoundingMode → BitVec 32 → BitVec 32 → BitVec 32 × FpFlags
opaque sub32 : RoundingMode → BitVec 32 → BitVec 32 → BitVec 32 × FpFlags
opaque mul32 : RoundingMode → BitVec 32 → BitVec 32 → BitVec 32 × FpFlags
opaque div32 : RoundingMode → BitVec 32 → BitVec 32 → BitVec 32 × FpFlags
opaque sqrt32 : RoundingMode → BitVec 32 → BitVec 32 × FpFlags
opaque eq32 : BitVec 32 → BitVec 32 → Bool × FpFlags
opaque lt32 : BitVec 32 → BitVec 32 → Bool × FpFlags
opaque le32 : BitVec 32 → BitVec 32 → Bool × FpFlags
opaque classify32 : BitVec 32 → BitVec 10

opaque add64 : RoundingMode → BitVec 64 → BitVec 64 → BitVec 64 × FpFlags
opaque sub64 : RoundingMode → BitVec 64 → BitVec 64 → BitVec 64 × FpFlags
opaque mul64 : RoundingMode → BitVec 64 → BitVec 64 → BitVec 64 × FpFlags
opaque div64 : RoundingMode → BitVec 64 → BitVec 64 → BitVec 64 × FpFlags
opaque sqrt64 : RoundingMode → BitVec 64 → BitVec 64 × FpFlags
opaque eq64 : BitVec 64 → BitVec 64 → Bool × FpFlags
opaque lt64 : BitVec 64 → BitVec 64 → Bool × FpFlags
opaque le64 : BitVec 64 → BitVec 64 → Bool × FpFlags
opaque classify64 : BitVec 64 → BitVec 10

opaque cvt_f32_f64 : RoundingMode → BitVec 64 → BitVec 32 × FpFlags
opaque cvt_f64_f32 : RoundingMode → BitVec 32 → BitVec 64 × FpFlags

opaque cvt_i32_f32 : RoundingMode → BitVec 32 → BitVec 32 × FpFlags
opaque cvt_u32_f32 : RoundingMode → BitVec 32 → BitVec 32 × FpFlags
opaque cvt_i64_f32 : RoundingMode → BitVec 32 → BitVec 64 × FpFlags
opaque cvt_u64_f32 : RoundingMode → BitVec 32 → BitVec 64 × FpFlags
opaque cvt_i32_f64 : RoundingMode → BitVec 64 → BitVec 32 × FpFlags
opaque cvt_u32_f64 : RoundingMode → BitVec 64 → BitVec 32 × FpFlags
opaque cvt_i64_f64 : RoundingMode → BitVec 64 → BitVec 64 × FpFlags
opaque cvt_u64_f64 : RoundingMode → BitVec 64 → BitVec 64 × FpFlags

opaque cvt_f32_i32 : RoundingMode → BitVec 32 → BitVec 32 × FpFlags
opaque cvt_f32_u32 : RoundingMode → BitVec 32 → BitVec 32 × FpFlags
opaque cvt_f32_i64 : RoundingMode → BitVec 64 → BitVec 32 × FpFlags
opaque cvt_f32_u64 : RoundingMode → BitVec 64 → BitVec 32 × FpFlags
opaque cvt_f64_i32 : RoundingMode → BitVec 32 → BitVec 64 × FpFlags
opaque cvt_f64_u32 : RoundingMode → BitVec 32 → BitVec 64 × FpFlags
opaque cvt_f64_i64 : RoundingMode → BitVec 64 → BitVec 64 × FpFlags
opaque cvt_f64_u64 : RoundingMode → BitVec 64 → BitVec 64 × FpFlags

end FPLib

end Sys2Proof
end

