-- ==== Sys2Proof/Syntax.lean ====
section
/-!
DEFINITION. The instructions: one constructor per row of spec/opcode_table.json (30_encoding.md R185).

Fields are those of the row's format (R182, R183) as numbers of their own width. A branch or jump
offset is the assembled byte offset, 13 or 21 bits with bit 0 clear (`WellFormed`); every other
immediate is the raw field. The bits R192 ignores (the operand fields of FENCE and FENCE.I, `aq` and
`rl` of the atomics) are no part of an instruction: the encoder writes them as zero (R189).
-/

namespace Sys2Proof

/-- A tagged instruction (R186). The three pseudo-instructions of 40_step_and_fetch.md R218 to R220
have no encoding and are no constructors: the step handles them (`execFetchMisaligned`,
`execFetchFault`, `execUnknown`). -/
inductive Instr where
  -- Integer computational instructions (41_integer.md)
  /-- LUI (R231). -/
  | lui (rd : RegIdx) (imm : BitVec 20)
  /-- AUIPC (R232). -/
  | auipc (rd : RegIdx) (imm : BitVec 20)
  /-- ADDI (R233). -/
  | addi (rd : RegIdx) (rs1 : RegIdx) (imm : BitVec 12)
  /-- SLTI (R234). -/
  | slti (rd : RegIdx) (rs1 : RegIdx) (imm : BitVec 12)
  /-- SLTIU (R235). -/
  | sltiu (rd : RegIdx) (rs1 : RegIdx) (imm : BitVec 12)
  /-- XORI (R236). -/
  | xori (rd : RegIdx) (rs1 : RegIdx) (imm : BitVec 12)
  /-- ORI (R237). -/
  | ori (rd : RegIdx) (rs1 : RegIdx) (imm : BitVec 12)
  /-- ANDI (R238). -/
  | andi (rd : RegIdx) (rs1 : RegIdx) (imm : BitVec 12)
  /-- SLLI (R239). -/
  | slli (rd : RegIdx) (rs1 : RegIdx) (shamt : BitVec 6)
  /-- SRLI (R240). -/
  | srli (rd : RegIdx) (rs1 : RegIdx) (shamt : BitVec 6)
  /-- SRAI (R241). -/
  | srai (rd : RegIdx) (rs1 : RegIdx) (shamt : BitVec 6)
  /-- ADD (R242). -/
  | add (rd : RegIdx) (rs1 : RegIdx) (rs2 : RegIdx)
  /-- SUB (R243). -/
  | sub (rd : RegIdx) (rs1 : RegIdx) (rs2 : RegIdx)
  /-- SLL (R244). -/
  | sll (rd : RegIdx) (rs1 : RegIdx) (rs2 : RegIdx)
  /-- SLT (R245). -/
  | slt (rd : RegIdx) (rs1 : RegIdx) (rs2 : RegIdx)
  /-- SLTU (R246). -/
  | sltu (rd : RegIdx) (rs1 : RegIdx) (rs2 : RegIdx)
  /-- XOR (R247). -/
  | xor (rd : RegIdx) (rs1 : RegIdx) (rs2 : RegIdx)
  /-- SRL (R248). -/
  | srl (rd : RegIdx) (rs1 : RegIdx) (rs2 : RegIdx)
  /-- SRA (R249). -/
  | sra (rd : RegIdx) (rs1 : RegIdx) (rs2 : RegIdx)
  /-- OR (R250). -/
  | or (rd : RegIdx) (rs1 : RegIdx) (rs2 : RegIdx)
  /-- AND (R251). -/
  | and (rd : RegIdx) (rs1 : RegIdx) (rs2 : RegIdx)
  /-- ADDIW (R252). -/
  | addiw (rd : RegIdx) (rs1 : RegIdx) (imm : BitVec 12)
  /-- SLLIW (R253). -/
  | slliw (rd : RegIdx) (rs1 : RegIdx) (shamt : BitVec 5)
  /-- SRLIW (R254). -/
  | srliw (rd : RegIdx) (rs1 : RegIdx) (shamt : BitVec 5)
  /-- SRAIW (R255). -/
  | sraiw (rd : RegIdx) (rs1 : RegIdx) (shamt : BitVec 5)
  /-- ADDW (R256). -/
  | addw (rd : RegIdx) (rs1 : RegIdx) (rs2 : RegIdx)
  /-- SUBW (R257). -/
  | subw (rd : RegIdx) (rs1 : RegIdx) (rs2 : RegIdx)
  /-- SLLW (R258). -/
  | sllw (rd : RegIdx) (rs1 : RegIdx) (rs2 : RegIdx)
  /-- SRLW (R259). -/
  | srlw (rd : RegIdx) (rs1 : RegIdx) (rs2 : RegIdx)
  /-- SRAW (R260). -/
  | sraw (rd : RegIdx) (rs1 : RegIdx) (rs2 : RegIdx)
  -- Control transfer (42_control_transfer.md)
  /-- JAL (R291). -/
  | jal (rd : RegIdx) (off : BitVec 21)
  /-- JALR (R292). -/
  | jalr (rd : RegIdx) (rs1 : RegIdx) (imm : BitVec 12)
  /-- BEQ (R293). -/
  | beq (rs1 : RegIdx) (rs2 : RegIdx) (off : BitVec 13)
  /-- BNE (R294). -/
  | bne (rs1 : RegIdx) (rs2 : RegIdx) (off : BitVec 13)
  /-- BLT (R295). -/
  | blt (rs1 : RegIdx) (rs2 : RegIdx) (off : BitVec 13)
  /-- BGE (R296). -/
  | bge (rs1 : RegIdx) (rs2 : RegIdx) (off : BitVec 13)
  /-- BLTU (R297). -/
  | bltu (rs1 : RegIdx) (rs2 : RegIdx) (off : BitVec 13)
  /-- BGEU (R298). -/
  | bgeu (rs1 : RegIdx) (rs2 : RegIdx) (off : BitVec 13)
  -- Integer loads and stores, FENCE, FENCE.I (43_load_store.md)
  /-- LB (R301). -/
  | lb (rd : RegIdx) (rs1 : RegIdx) (imm : BitVec 12)
  /-- LH (R302). -/
  | lh (rd : RegIdx) (rs1 : RegIdx) (imm : BitVec 12)
  /-- LW (R303). -/
  | lw (rd : RegIdx) (rs1 : RegIdx) (imm : BitVec 12)
  /-- LBU (R304). -/
  | lbu (rd : RegIdx) (rs1 : RegIdx) (imm : BitVec 12)
  /-- LHU (R305). -/
  | lhu (rd : RegIdx) (rs1 : RegIdx) (imm : BitVec 12)
  /-- LWU (R306). -/
  | lwu (rd : RegIdx) (rs1 : RegIdx) (imm : BitVec 12)
  /-- LD (R307). -/
  | ld (rd : RegIdx) (rs1 : RegIdx) (imm : BitVec 12)
  /-- SB (R308). -/
  | sb (rs1 : RegIdx) (rs2 : RegIdx) (imm : BitVec 12)
  /-- SH (R309). -/
  | sh (rs1 : RegIdx) (rs2 : RegIdx) (imm : BitVec 12)
  /-- SW (R310). -/
  | sw (rs1 : RegIdx) (rs2 : RegIdx) (imm : BitVec 12)
  /-- SD (R311). -/
  | sd (rs1 : RegIdx) (rs2 : RegIdx) (imm : BitVec 12)
  /-- FENCE (R316). -/
  | fence
  /-- FENCE.I (R317). -/
  | fenceI
  -- Multiply, divide, remainder (44_muldiv.md)
  /-- MUL (R321). -/
  | mul (rd : RegIdx) (rs1 : RegIdx) (rs2 : RegIdx)
  /-- MULH (R322). -/
  | mulh (rd : RegIdx) (rs1 : RegIdx) (rs2 : RegIdx)
  /-- MULHSU (R323). -/
  | mulhsu (rd : RegIdx) (rs1 : RegIdx) (rs2 : RegIdx)
  /-- MULHU (R324). -/
  | mulhu (rd : RegIdx) (rs1 : RegIdx) (rs2 : RegIdx)
  /-- DIV (R325). -/
  | div (rd : RegIdx) (rs1 : RegIdx) (rs2 : RegIdx)
  /-- DIVU (R326). -/
  | divu (rd : RegIdx) (rs1 : RegIdx) (rs2 : RegIdx)
  /-- REM (R327). -/
  | rem (rd : RegIdx) (rs1 : RegIdx) (rs2 : RegIdx)
  /-- REMU (R328). -/
  | remu (rd : RegIdx) (rs1 : RegIdx) (rs2 : RegIdx)
  /-- MULW (R329). -/
  | mulw (rd : RegIdx) (rs1 : RegIdx) (rs2 : RegIdx)
  /-- DIVW (R330). -/
  | divw (rd : RegIdx) (rs1 : RegIdx) (rs2 : RegIdx)
  /-- DIVUW (R331). -/
  | divuw (rd : RegIdx) (rs1 : RegIdx) (rs2 : RegIdx)
  /-- REMW (R332). -/
  | remw (rd : RegIdx) (rs1 : RegIdx) (rs2 : RegIdx)
  /-- REMUW (R333). -/
  | remuw (rd : RegIdx) (rs1 : RegIdx) (rs2 : RegIdx)
  -- Atomics (45_atomics.md); `aq` and `rl` are ignored by decode (R192)
  /-- LR.W (R341). -/
  | lrW (rd : RegIdx) (rs1 : RegIdx)
  /-- LR.D (R342). -/
  | lrD (rd : RegIdx) (rs1 : RegIdx)
  /-- SC.W (R343). -/
  | scW (rd : RegIdx) (rs1 : RegIdx) (rs2 : RegIdx)
  /-- SC.D (R344). -/
  | scD (rd : RegIdx) (rs1 : RegIdx) (rs2 : RegIdx)
  /-- AMOSWAP.W (R349). -/
  | amoswapW (rd : RegIdx) (rs1 : RegIdx) (rs2 : RegIdx)
  /-- AMOADD.W (R350). -/
  | amoaddW (rd : RegIdx) (rs1 : RegIdx) (rs2 : RegIdx)
  /-- AMOXOR.W (R351). -/
  | amoxorW (rd : RegIdx) (rs1 : RegIdx) (rs2 : RegIdx)
  /-- AMOAND.W (R352). -/
  | amoandW (rd : RegIdx) (rs1 : RegIdx) (rs2 : RegIdx)
  /-- AMOOR.W (R353). -/
  | amoorW (rd : RegIdx) (rs1 : RegIdx) (rs2 : RegIdx)
  /-- AMOMIN.W (R354). -/
  | amominW (rd : RegIdx) (rs1 : RegIdx) (rs2 : RegIdx)
  /-- AMOMAX.W (R355). -/
  | amomaxW (rd : RegIdx) (rs1 : RegIdx) (rs2 : RegIdx)
  /-- AMOMINU.W (R356). -/
  | amominuW (rd : RegIdx) (rs1 : RegIdx) (rs2 : RegIdx)
  /-- AMOMAXU.W (R357). -/
  | amomaxuW (rd : RegIdx) (rs1 : RegIdx) (rs2 : RegIdx)
  /-- AMOSWAP.D (R358). -/
  | amoswapD (rd : RegIdx) (rs1 : RegIdx) (rs2 : RegIdx)
  /-- AMOADD.D (R359). -/
  | amoaddD (rd : RegIdx) (rs1 : RegIdx) (rs2 : RegIdx)
  /-- AMOXOR.D (R360). -/
  | amoxorD (rd : RegIdx) (rs1 : RegIdx) (rs2 : RegIdx)
  /-- AMOAND.D (R361). -/
  | amoandD (rd : RegIdx) (rs1 : RegIdx) (rs2 : RegIdx)
  /-- AMOOR.D (R362). -/
  | amoorD (rd : RegIdx) (rs1 : RegIdx) (rs2 : RegIdx)
  /-- AMOMIN.D (R363). -/
  | amominD (rd : RegIdx) (rs1 : RegIdx) (rs2 : RegIdx)
  /-- AMOMAX.D (R364). -/
  | amomaxD (rd : RegIdx) (rs1 : RegIdx) (rs2 : RegIdx)
  /-- AMOMINU.D (R365). -/
  | amominuD (rd : RegIdx) (rs1 : RegIdx) (rs2 : RegIdx)
  /-- AMOMAXU.D (R366). -/
  | amomaxuD (rd : RegIdx) (rs1 : RegIdx) (rs2 : RegIdx)
  -- CSR access and system instructions (46_csr_system.md)
  /-- CSRRW (R372). -/
  | csrrw (rd : RegIdx) (csr : CsrAddr) (rs1 : RegIdx)
  /-- CSRRS (R373). -/
  | csrrs (rd : RegIdx) (csr : CsrAddr) (rs1 : RegIdx)
  /-- CSRRC (R374). -/
  | csrrc (rd : RegIdx) (csr : CsrAddr) (rs1 : RegIdx)
  /-- CSRRWI (R375). -/
  | csrrwi (rd : RegIdx) (csr : CsrAddr) (zimm : BitVec 5)
  /-- CSRRSI (R376). -/
  | csrrsi (rd : RegIdx) (csr : CsrAddr) (zimm : BitVec 5)
  /-- CSRRCI (R377). -/
  | csrrci (rd : RegIdx) (csr : CsrAddr) (zimm : BitVec 5)
  /-- ECALL (R380). -/
  | ecall
  /-- EBREAK (R381). -/
  | ebreak
  /-- URET (R382). -/
  | uret
  /-- SRET (R383). -/
  | sret
  /-- HRET (R384). -/
  | hret
  /-- MRET (R385). -/
  | mret
  /-- WFI (R388). -/
  | wfi
  /-- SFENCE.VM (R390). -/
  | sfenceVm (rs1 : RegIdx)
  -- Single-precision floating point (47_float_single.md)
  /-- FLW (R403). -/
  | flw (fd : RegIdx) (rs1 : RegIdx) (imm : BitVec 12)
  /-- FSW (R404). -/
  | fsw (rs1 : RegIdx) (fs2 : RegIdx) (imm : BitVec 12)
  /-- FMADD.S (R405). -/
  | fmaddS (fd : RegIdx) (fs1 : RegIdx) (fs2 : RegIdx) (fs3 : RegIdx) (rm : BitVec 3)
  /-- FMSUB.S (R406). -/
  | fmsubS (fd : RegIdx) (fs1 : RegIdx) (fs2 : RegIdx) (fs3 : RegIdx) (rm : BitVec 3)
  /-- FNMSUB.S (R407). -/
  | fnmsubS (fd : RegIdx) (fs1 : RegIdx) (fs2 : RegIdx) (fs3 : RegIdx) (rm : BitVec 3)
  /-- FNMADD.S (R408). -/
  | fnmaddS (fd : RegIdx) (fs1 : RegIdx) (fs2 : RegIdx) (fs3 : RegIdx) (rm : BitVec 3)
  /-- FADD.S (R409). -/
  | faddS (fd : RegIdx) (fs1 : RegIdx) (fs2 : RegIdx) (rm : BitVec 3)
  /-- FSUB.S (R410). -/
  | fsubS (fd : RegIdx) (fs1 : RegIdx) (fs2 : RegIdx) (rm : BitVec 3)
  /-- FMUL.S (R411). -/
  | fmulS (fd : RegIdx) (fs1 : RegIdx) (fs2 : RegIdx) (rm : BitVec 3)
  /-- FDIV.S (R412). -/
  | fdivS (fd : RegIdx) (fs1 : RegIdx) (fs2 : RegIdx) (rm : BitVec 3)
  /-- FSQRT.S (R413). -/
  | fsqrtS (fd : RegIdx) (fs1 : RegIdx) (rm : BitVec 3)
  /-- FSGNJ.S (R414). -/
  | fsgnjS (fd : RegIdx) (fs1 : RegIdx) (fs2 : RegIdx)
  /-- FSGNJN.S (R415). -/
  | fsgnjnS (fd : RegIdx) (fs1 : RegIdx) (fs2 : RegIdx)
  /-- FSGNJX.S (R416). -/
  | fsgnjxS (fd : RegIdx) (fs1 : RegIdx) (fs2 : RegIdx)
  /-- FMIN.S (R417). -/
  | fminS (fd : RegIdx) (fs1 : RegIdx) (fs2 : RegIdx)
  /-- FMAX.S (R418). -/
  | fmaxS (fd : RegIdx) (fs1 : RegIdx) (fs2 : RegIdx)
  /-- FCVT.W.S (R419). -/
  | fcvtWS (rd : RegIdx) (fs1 : RegIdx) (rm : BitVec 3)
  /-- FCVT.WU.S (R420). -/
  | fcvtWUS (rd : RegIdx) (fs1 : RegIdx) (rm : BitVec 3)
  /-- FMV.X.S (R421). -/
  | fmvXS (rd : RegIdx) (fs1 : RegIdx)
  /-- FEQ.S (R422). -/
  | feqS (rd : RegIdx) (fs1 : RegIdx) (fs2 : RegIdx)
  /-- FLT.S (R423). -/
  | fltS (rd : RegIdx) (fs1 : RegIdx) (fs2 : RegIdx)
  /-- FLE.S (R424). -/
  | fleS (rd : RegIdx) (fs1 : RegIdx) (fs2 : RegIdx)
  /-- FCLASS.S (R425). -/
  | fclassS (rd : RegIdx) (fs1 : RegIdx)
  /-- FCVT.S.W (R426). -/
  | fcvtSW (fd : RegIdx) (rs1 : RegIdx) (rm : BitVec 3)
  /-- FCVT.S.WU (R427). -/
  | fcvtSWU (fd : RegIdx) (rs1 : RegIdx) (rm : BitVec 3)
  /-- FMV.S.X (R428). -/
  | fmvSX (fd : RegIdx) (rs1 : RegIdx)
  /-- FCVT.L.S (R429). -/
  | fcvtLS (rd : RegIdx) (fs1 : RegIdx) (rm : BitVec 3)
  /-- FCVT.LU.S (R430). -/
  | fcvtLUS (rd : RegIdx) (fs1 : RegIdx) (rm : BitVec 3)
  /-- FCVT.S.L (R431). -/
  | fcvtSL (fd : RegIdx) (rs1 : RegIdx) (rm : BitVec 3)
  /-- FCVT.S.LU (R432). -/
  | fcvtSLU (fd : RegIdx) (rs1 : RegIdx) (rm : BitVec 3)
  -- Double-precision floating point (48_float_double.md)
  /-- FLD (R441). -/
  | fld (fd : RegIdx) (rs1 : RegIdx) (imm : BitVec 12)
  /-- FSD (R442). -/
  | fsd (rs1 : RegIdx) (fs2 : RegIdx) (imm : BitVec 12)
  /-- FMADD.D (R443). -/
  | fmaddD (fd : RegIdx) (fs1 : RegIdx) (fs2 : RegIdx) (fs3 : RegIdx) (rm : BitVec 3)
  /-- FMSUB.D (R444). -/
  | fmsubD (fd : RegIdx) (fs1 : RegIdx) (fs2 : RegIdx) (fs3 : RegIdx) (rm : BitVec 3)
  /-- FNMSUB.D (R445). -/
  | fnmsubD (fd : RegIdx) (fs1 : RegIdx) (fs2 : RegIdx) (fs3 : RegIdx) (rm : BitVec 3)
  /-- FNMADD.D (R446). -/
  | fnmaddD (fd : RegIdx) (fs1 : RegIdx) (fs2 : RegIdx) (fs3 : RegIdx) (rm : BitVec 3)
  /-- FADD.D (R447). -/
  | faddD (fd : RegIdx) (fs1 : RegIdx) (fs2 : RegIdx) (rm : BitVec 3)
  /-- FSUB.D (R448). -/
  | fsubD (fd : RegIdx) (fs1 : RegIdx) (fs2 : RegIdx) (rm : BitVec 3)
  /-- FMUL.D (R449). -/
  | fmulD (fd : RegIdx) (fs1 : RegIdx) (fs2 : RegIdx) (rm : BitVec 3)
  /-- FDIV.D (R450). -/
  | fdivD (fd : RegIdx) (fs1 : RegIdx) (fs2 : RegIdx) (rm : BitVec 3)
  /-- FSQRT.D (R451). -/
  | fsqrtD (fd : RegIdx) (fs1 : RegIdx) (rm : BitVec 3)
  /-- FSGNJ.D (R452). -/
  | fsgnjD (fd : RegIdx) (fs1 : RegIdx) (fs2 : RegIdx)
  /-- FSGNJN.D (R453). -/
  | fsgnjnD (fd : RegIdx) (fs1 : RegIdx) (fs2 : RegIdx)
  /-- FSGNJX.D (R454). -/
  | fsgnjxD (fd : RegIdx) (fs1 : RegIdx) (fs2 : RegIdx)
  /-- FMIN.D (R455). -/
  | fminD (fd : RegIdx) (fs1 : RegIdx) (fs2 : RegIdx)
  /-- FMAX.D (R456). -/
  | fmaxD (fd : RegIdx) (fs1 : RegIdx) (fs2 : RegIdx)
  /-- FCVT.S.D (R457). -/
  | fcvtSD (fd : RegIdx) (fs1 : RegIdx) (rm : BitVec 3)
  /-- FCVT.D.S (R458). -/
  | fcvtDS (fd : RegIdx) (fs1 : RegIdx) (rm : BitVec 3)
  /-- FEQ.D (R459). -/
  | feqD (rd : RegIdx) (fs1 : RegIdx) (fs2 : RegIdx)
  /-- FLT.D (R460). -/
  | fltD (rd : RegIdx) (fs1 : RegIdx) (fs2 : RegIdx)
  /-- FLE.D (R461). -/
  | fleD (rd : RegIdx) (fs1 : RegIdx) (fs2 : RegIdx)
  /-- FCLASS.D (R462). -/
  | fclassD (rd : RegIdx) (fs1 : RegIdx)
  /-- FCVT.W.D (R463). -/
  | fcvtWD (rd : RegIdx) (fs1 : RegIdx) (rm : BitVec 3)
  /-- FCVT.WU.D (R464). -/
  | fcvtWUD (rd : RegIdx) (fs1 : RegIdx) (rm : BitVec 3)
  /-- FCVT.D.W (R465). -/
  | fcvtDW (fd : RegIdx) (rs1 : RegIdx) (rm : BitVec 3)
  /-- FCVT.D.WU (R466). -/
  | fcvtDWU (fd : RegIdx) (rs1 : RegIdx) (rm : BitVec 3)
  /-- FCVT.L.D (R467). -/
  | fcvtLD (rd : RegIdx) (fs1 : RegIdx) (rm : BitVec 3)
  /-- FCVT.LU.D (R468). -/
  | fcvtLUD (rd : RegIdx) (fs1 : RegIdx) (rm : BitVec 3)
  /-- FMV.X.D (R469). -/
  | fmvXD (rd : RegIdx) (fs1 : RegIdx)
  /-- FCVT.D.L (R470). -/
  | fcvtDL (fd : RegIdx) (rs1 : RegIdx) (rm : BitVec 3)
  /-- FCVT.D.LU (R471). -/
  | fcvtDLU (fd : RegIdx) (rs1 : RegIdx) (rm : BitVec 3)
  /-- FMV.D.X (R472). -/
  | fmvDX (fd : RegIdx) (rs1 : RegIdx)
  deriving DecidableEq, Repr

end Sys2Proof
end

