-- ==== Sys2Proof/WellFormed.lean ====
section
/-!
DEFINITION. Which instructions exist at a running width: the ones some word decodes to.

Three checks: a row whose XLEN column is 64 exists at width 64 only (30_encoding.md R190 (a)); a
shift amount of SLLI, SRLI, SRAI has bit 5 clear at width 32 (R190 (b)); a branch or jump offset is
even (R182). A register, CSR or rounding-mode field may hold any value of its width.
-/

namespace Sys2Proof

/-- The XLEN column of rule R185 is `64`: the instruction exists only at width 64 (R190 (a)). -/
def Instr.rv64Only : Instr → Bool
  | .lui _ _ => false
  | .auipc _ _ => false
  | .addi _ _ _ => false
  | .slti _ _ _ => false
  | .sltiu _ _ _ => false
  | .xori _ _ _ => false
  | .ori _ _ _ => false
  | .andi _ _ _ => false
  | .slli _ _ _ => false
  | .srli _ _ _ => false
  | .srai _ _ _ => false
  | .add _ _ _ => false
  | .sub _ _ _ => false
  | .sll _ _ _ => false
  | .slt _ _ _ => false
  | .sltu _ _ _ => false
  | .xor _ _ _ => false
  | .srl _ _ _ => false
  | .sra _ _ _ => false
  | .or _ _ _ => false
  | .and _ _ _ => false
  | .addiw _ _ _ => true
  | .slliw _ _ _ => true
  | .srliw _ _ _ => true
  | .sraiw _ _ _ => true
  | .addw _ _ _ => true
  | .subw _ _ _ => true
  | .sllw _ _ _ => true
  | .srlw _ _ _ => true
  | .sraw _ _ _ => true
  | .jal _ _ => false
  | .jalr _ _ _ => false
  | .beq _ _ _ => false
  | .bne _ _ _ => false
  | .blt _ _ _ => false
  | .bge _ _ _ => false
  | .bltu _ _ _ => false
  | .bgeu _ _ _ => false
  | .lb _ _ _ => false
  | .lh _ _ _ => false
  | .lw _ _ _ => false
  | .lbu _ _ _ => false
  | .lhu _ _ _ => false
  | .lwu _ _ _ => true
  | .ld _ _ _ => true
  | .sb _ _ _ => false
  | .sh _ _ _ => false
  | .sw _ _ _ => false
  | .sd _ _ _ => true
  | .fence => false
  | .fenceI => false
  | .mul _ _ _ => false
  | .mulh _ _ _ => false
  | .mulhsu _ _ _ => false
  | .mulhu _ _ _ => false
  | .div _ _ _ => false
  | .divu _ _ _ => false
  | .rem _ _ _ => false
  | .remu _ _ _ => false
  | .mulw _ _ _ => true
  | .divw _ _ _ => true
  | .divuw _ _ _ => true
  | .remw _ _ _ => true
  | .remuw _ _ _ => true
  | .lrW _ _ => false
  | .lrD _ _ => true
  | .scW _ _ _ => false
  | .scD _ _ _ => true
  | .amoswapW _ _ _ => false
  | .amoaddW _ _ _ => false
  | .amoxorW _ _ _ => false
  | .amoandW _ _ _ => false
  | .amoorW _ _ _ => false
  | .amominW _ _ _ => false
  | .amomaxW _ _ _ => false
  | .amominuW _ _ _ => false
  | .amomaxuW _ _ _ => false
  | .amoswapD _ _ _ => true
  | .amoaddD _ _ _ => true
  | .amoxorD _ _ _ => true
  | .amoandD _ _ _ => true
  | .amoorD _ _ _ => true
  | .amominD _ _ _ => true
  | .amomaxD _ _ _ => true
  | .amominuD _ _ _ => true
  | .amomaxuD _ _ _ => true
  | .csrrw _ _ _ => false
  | .csrrs _ _ _ => false
  | .csrrc _ _ _ => false
  | .csrrwi _ _ _ => false
  | .csrrsi _ _ _ => false
  | .csrrci _ _ _ => false
  | .ecall => false
  | .ebreak => false
  | .uret => false
  | .sret => false
  | .hret => false
  | .mret => false
  | .wfi => false
  | .sfenceVm _ => false
  | .flw _ _ _ => false
  | .fsw _ _ _ => false
  | .fmaddS _ _ _ _ _ => false
  | .fmsubS _ _ _ _ _ => false
  | .fnmsubS _ _ _ _ _ => false
  | .fnmaddS _ _ _ _ _ => false
  | .faddS _ _ _ _ => false
  | .fsubS _ _ _ _ => false
  | .fmulS _ _ _ _ => false
  | .fdivS _ _ _ _ => false
  | .fsqrtS _ _ _ => false
  | .fsgnjS _ _ _ => false
  | .fsgnjnS _ _ _ => false
  | .fsgnjxS _ _ _ => false
  | .fminS _ _ _ => false
  | .fmaxS _ _ _ => false
  | .fcvtWS _ _ _ => false
  | .fcvtWUS _ _ _ => false
  | .fmvXS _ _ => false
  | .feqS _ _ _ => false
  | .fltS _ _ _ => false
  | .fleS _ _ _ => false
  | .fclassS _ _ => false
  | .fcvtSW _ _ _ => false
  | .fcvtSWU _ _ _ => false
  | .fmvSX _ _ => false
  | .fcvtLS _ _ _ => true
  | .fcvtLUS _ _ _ => true
  | .fcvtSL _ _ _ => true
  | .fcvtSLU _ _ _ => true
  | .fld _ _ _ => false
  | .fsd _ _ _ => false
  | .fmaddD _ _ _ _ _ => false
  | .fmsubD _ _ _ _ _ => false
  | .fnmsubD _ _ _ _ _ => false
  | .fnmaddD _ _ _ _ _ => false
  | .faddD _ _ _ _ => false
  | .fsubD _ _ _ _ => false
  | .fmulD _ _ _ _ => false
  | .fdivD _ _ _ _ => false
  | .fsqrtD _ _ _ => false
  | .fsgnjD _ _ _ => false
  | .fsgnjnD _ _ _ => false
  | .fsgnjxD _ _ _ => false
  | .fminD _ _ _ => false
  | .fmaxD _ _ _ => false
  | .fcvtSD _ _ _ => false
  | .fcvtDS _ _ _ => false
  | .feqD _ _ _ => false
  | .fltD _ _ _ => false
  | .fleD _ _ _ => false
  | .fclassD _ _ => false
  | .fcvtWD _ _ _ => false
  | .fcvtWUD _ _ _ => false
  | .fcvtDW _ _ _ => false
  | .fcvtDWU _ _ _ => false
  | .fcvtLD _ _ _ => true
  | .fcvtLUD _ _ _ => true
  | .fmvXD _ _ => true
  | .fcvtDL _ _ _ => true
  | .fcvtDLU _ _ _ => true
  | .fmvDX _ _ => true

/-- The offset of a branch or jump is even: its bit 0 is no bit of the encoding (R182). -/
def Instr.evenOffset : Instr → Bool
  | .lui _ _ => true
  | .auipc _ _ => true
  | .addi _ _ _ => true
  | .slti _ _ _ => true
  | .sltiu _ _ _ => true
  | .xori _ _ _ => true
  | .ori _ _ _ => true
  | .andi _ _ _ => true
  | .slli _ _ _ => true
  | .srli _ _ _ => true
  | .srai _ _ _ => true
  | .add _ _ _ => true
  | .sub _ _ _ => true
  | .sll _ _ _ => true
  | .slt _ _ _ => true
  | .sltu _ _ _ => true
  | .xor _ _ _ => true
  | .srl _ _ _ => true
  | .sra _ _ _ => true
  | .or _ _ _ => true
  | .and _ _ _ => true
  | .addiw _ _ _ => true
  | .slliw _ _ _ => true
  | .srliw _ _ _ => true
  | .sraiw _ _ _ => true
  | .addw _ _ _ => true
  | .subw _ _ _ => true
  | .sllw _ _ _ => true
  | .srlw _ _ _ => true
  | .sraw _ _ _ => true
  | .jal _ off => !off.getLsbD 0
  | .jalr _ _ _ => true
  | .beq _ _ off => !off.getLsbD 0
  | .bne _ _ off => !off.getLsbD 0
  | .blt _ _ off => !off.getLsbD 0
  | .bge _ _ off => !off.getLsbD 0
  | .bltu _ _ off => !off.getLsbD 0
  | .bgeu _ _ off => !off.getLsbD 0
  | .lb _ _ _ => true
  | .lh _ _ _ => true
  | .lw _ _ _ => true
  | .lbu _ _ _ => true
  | .lhu _ _ _ => true
  | .lwu _ _ _ => true
  | .ld _ _ _ => true
  | .sb _ _ _ => true
  | .sh _ _ _ => true
  | .sw _ _ _ => true
  | .sd _ _ _ => true
  | .fence => true
  | .fenceI => true
  | .mul _ _ _ => true
  | .mulh _ _ _ => true
  | .mulhsu _ _ _ => true
  | .mulhu _ _ _ => true
  | .div _ _ _ => true
  | .divu _ _ _ => true
  | .rem _ _ _ => true
  | .remu _ _ _ => true
  | .mulw _ _ _ => true
  | .divw _ _ _ => true
  | .divuw _ _ _ => true
  | .remw _ _ _ => true
  | .remuw _ _ _ => true
  | .lrW _ _ => true
  | .lrD _ _ => true
  | .scW _ _ _ => true
  | .scD _ _ _ => true
  | .amoswapW _ _ _ => true
  | .amoaddW _ _ _ => true
  | .amoxorW _ _ _ => true
  | .amoandW _ _ _ => true
  | .amoorW _ _ _ => true
  | .amominW _ _ _ => true
  | .amomaxW _ _ _ => true
  | .amominuW _ _ _ => true
  | .amomaxuW _ _ _ => true
  | .amoswapD _ _ _ => true
  | .amoaddD _ _ _ => true
  | .amoxorD _ _ _ => true
  | .amoandD _ _ _ => true
  | .amoorD _ _ _ => true
  | .amominD _ _ _ => true
  | .amomaxD _ _ _ => true
  | .amominuD _ _ _ => true
  | .amomaxuD _ _ _ => true
  | .csrrw _ _ _ => true
  | .csrrs _ _ _ => true
  | .csrrc _ _ _ => true
  | .csrrwi _ _ _ => true
  | .csrrsi _ _ _ => true
  | .csrrci _ _ _ => true
  | .ecall => true
  | .ebreak => true
  | .uret => true
  | .sret => true
  | .hret => true
  | .mret => true
  | .wfi => true
  | .sfenceVm _ => true
  | .flw _ _ _ => true
  | .fsw _ _ _ => true
  | .fmaddS _ _ _ _ _ => true
  | .fmsubS _ _ _ _ _ => true
  | .fnmsubS _ _ _ _ _ => true
  | .fnmaddS _ _ _ _ _ => true
  | .faddS _ _ _ _ => true
  | .fsubS _ _ _ _ => true
  | .fmulS _ _ _ _ => true
  | .fdivS _ _ _ _ => true
  | .fsqrtS _ _ _ => true
  | .fsgnjS _ _ _ => true
  | .fsgnjnS _ _ _ => true
  | .fsgnjxS _ _ _ => true
  | .fminS _ _ _ => true
  | .fmaxS _ _ _ => true
  | .fcvtWS _ _ _ => true
  | .fcvtWUS _ _ _ => true
  | .fmvXS _ _ => true
  | .feqS _ _ _ => true
  | .fltS _ _ _ => true
  | .fleS _ _ _ => true
  | .fclassS _ _ => true
  | .fcvtSW _ _ _ => true
  | .fcvtSWU _ _ _ => true
  | .fmvSX _ _ => true
  | .fcvtLS _ _ _ => true
  | .fcvtLUS _ _ _ => true
  | .fcvtSL _ _ _ => true
  | .fcvtSLU _ _ _ => true
  | .fld _ _ _ => true
  | .fsd _ _ _ => true
  | .fmaddD _ _ _ _ _ => true
  | .fmsubD _ _ _ _ _ => true
  | .fnmsubD _ _ _ _ _ => true
  | .fnmaddD _ _ _ _ _ => true
  | .faddD _ _ _ _ => true
  | .fsubD _ _ _ _ => true
  | .fmulD _ _ _ _ => true
  | .fdivD _ _ _ _ => true
  | .fsqrtD _ _ _ => true
  | .fsgnjD _ _ _ => true
  | .fsgnjnD _ _ _ => true
  | .fsgnjxD _ _ _ => true
  | .fminD _ _ _ => true
  | .fmaxD _ _ _ => true
  | .fcvtSD _ _ _ => true
  | .fcvtDS _ _ _ => true
  | .feqD _ _ _ => true
  | .fltD _ _ _ => true
  | .fleD _ _ _ => true
  | .fclassD _ _ => true
  | .fcvtWD _ _ _ => true
  | .fcvtWUD _ _ _ => true
  | .fcvtDW _ _ _ => true
  | .fcvtDWU _ _ _ => true
  | .fcvtLD _ _ _ => true
  | .fcvtLUD _ _ _ => true
  | .fmvXD _ _ => true
  | .fcvtDL _ _ _ => true
  | .fcvtDLU _ _ _ => true
  | .fmvDX _ _ => true

/-- Bit 5 of a 6-bit shift amount, which must be clear at width 32 (R190 (b)). -/
def Instr.shamtBit5 : Instr → Bool
  | .lui _ _ => false
  | .auipc _ _ => false
  | .addi _ _ _ => false
  | .slti _ _ _ => false
  | .sltiu _ _ _ => false
  | .xori _ _ _ => false
  | .ori _ _ _ => false
  | .andi _ _ _ => false
  | .slli _ _ shamt => shamt.getLsbD 5
  | .srli _ _ shamt => shamt.getLsbD 5
  | .srai _ _ shamt => shamt.getLsbD 5
  | .add _ _ _ => false
  | .sub _ _ _ => false
  | .sll _ _ _ => false
  | .slt _ _ _ => false
  | .sltu _ _ _ => false
  | .xor _ _ _ => false
  | .srl _ _ _ => false
  | .sra _ _ _ => false
  | .or _ _ _ => false
  | .and _ _ _ => false
  | .addiw _ _ _ => false
  | .slliw _ _ _ => false
  | .srliw _ _ _ => false
  | .sraiw _ _ _ => false
  | .addw _ _ _ => false
  | .subw _ _ _ => false
  | .sllw _ _ _ => false
  | .srlw _ _ _ => false
  | .sraw _ _ _ => false
  | .jal _ _ => false
  | .jalr _ _ _ => false
  | .beq _ _ _ => false
  | .bne _ _ _ => false
  | .blt _ _ _ => false
  | .bge _ _ _ => false
  | .bltu _ _ _ => false
  | .bgeu _ _ _ => false
  | .lb _ _ _ => false
  | .lh _ _ _ => false
  | .lw _ _ _ => false
  | .lbu _ _ _ => false
  | .lhu _ _ _ => false
  | .lwu _ _ _ => false
  | .ld _ _ _ => false
  | .sb _ _ _ => false
  | .sh _ _ _ => false
  | .sw _ _ _ => false
  | .sd _ _ _ => false
  | .fence => false
  | .fenceI => false
  | .mul _ _ _ => false
  | .mulh _ _ _ => false
  | .mulhsu _ _ _ => false
  | .mulhu _ _ _ => false
  | .div _ _ _ => false
  | .divu _ _ _ => false
  | .rem _ _ _ => false
  | .remu _ _ _ => false
  | .mulw _ _ _ => false
  | .divw _ _ _ => false
  | .divuw _ _ _ => false
  | .remw _ _ _ => false
  | .remuw _ _ _ => false
  | .lrW _ _ => false
  | .lrD _ _ => false
  | .scW _ _ _ => false
  | .scD _ _ _ => false
  | .amoswapW _ _ _ => false
  | .amoaddW _ _ _ => false
  | .amoxorW _ _ _ => false
  | .amoandW _ _ _ => false
  | .amoorW _ _ _ => false
  | .amominW _ _ _ => false
  | .amomaxW _ _ _ => false
  | .amominuW _ _ _ => false
  | .amomaxuW _ _ _ => false
  | .amoswapD _ _ _ => false
  | .amoaddD _ _ _ => false
  | .amoxorD _ _ _ => false
  | .amoandD _ _ _ => false
  | .amoorD _ _ _ => false
  | .amominD _ _ _ => false
  | .amomaxD _ _ _ => false
  | .amominuD _ _ _ => false
  | .amomaxuD _ _ _ => false
  | .csrrw _ _ _ => false
  | .csrrs _ _ _ => false
  | .csrrc _ _ _ => false
  | .csrrwi _ _ _ => false
  | .csrrsi _ _ _ => false
  | .csrrci _ _ _ => false
  | .ecall => false
  | .ebreak => false
  | .uret => false
  | .sret => false
  | .hret => false
  | .mret => false
  | .wfi => false
  | .sfenceVm _ => false
  | .flw _ _ _ => false
  | .fsw _ _ _ => false
  | .fmaddS _ _ _ _ _ => false
  | .fmsubS _ _ _ _ _ => false
  | .fnmsubS _ _ _ _ _ => false
  | .fnmaddS _ _ _ _ _ => false
  | .faddS _ _ _ _ => false
  | .fsubS _ _ _ _ => false
  | .fmulS _ _ _ _ => false
  | .fdivS _ _ _ _ => false
  | .fsqrtS _ _ _ => false
  | .fsgnjS _ _ _ => false
  | .fsgnjnS _ _ _ => false
  | .fsgnjxS _ _ _ => false
  | .fminS _ _ _ => false
  | .fmaxS _ _ _ => false
  | .fcvtWS _ _ _ => false
  | .fcvtWUS _ _ _ => false
  | .fmvXS _ _ => false
  | .feqS _ _ _ => false
  | .fltS _ _ _ => false
  | .fleS _ _ _ => false
  | .fclassS _ _ => false
  | .fcvtSW _ _ _ => false
  | .fcvtSWU _ _ _ => false
  | .fmvSX _ _ => false
  | .fcvtLS _ _ _ => false
  | .fcvtLUS _ _ _ => false
  | .fcvtSL _ _ _ => false
  | .fcvtSLU _ _ _ => false
  | .fld _ _ _ => false
  | .fsd _ _ _ => false
  | .fmaddD _ _ _ _ _ => false
  | .fmsubD _ _ _ _ _ => false
  | .fnmsubD _ _ _ _ _ => false
  | .fnmaddD _ _ _ _ _ => false
  | .faddD _ _ _ _ => false
  | .fsubD _ _ _ _ => false
  | .fmulD _ _ _ _ => false
  | .fdivD _ _ _ _ => false
  | .fsqrtD _ _ _ => false
  | .fsgnjD _ _ _ => false
  | .fsgnjnD _ _ _ => false
  | .fsgnjxD _ _ _ => false
  | .fminD _ _ _ => false
  | .fmaxD _ _ _ => false
  | .fcvtSD _ _ _ => false
  | .fcvtDS _ _ _ => false
  | .feqD _ _ _ => false
  | .fltD _ _ _ => false
  | .fleD _ _ _ => false
  | .fclassD _ _ => false
  | .fcvtWD _ _ _ => false
  | .fcvtWUD _ _ _ => false
  | .fcvtDW _ _ _ => false
  | .fcvtDWU _ _ _ => false
  | .fcvtLD _ _ _ => false
  | .fcvtLUD _ _ _ => false
  | .fmvXD _ _ => false
  | .fcvtDL _ _ _ => false
  | .fcvtDLU _ _ _ => false
  | .fmvDX _ _ => false

/-- The instruction exists at running width `x`. -/
def Instr.wf (x : Xlen) (i : Instr) : Bool :=
  i.evenOffset &&
    match x with
    | .w64 => true
    | .w32 => !i.rv64Only && !i.shamtBit5

end Sys2Proof
end

