-- ==== Sys2Proof/Decode.lean ====
section
/-!
DEFINITION. Decoding and encoding (30_encoding.md R180 to R192).

`table` is the decode table of R185, row by row: a word `w` fits a row when `w &&& mask = match`.
`decode` finds the row, excludes by width (R190) and extracts the fields (R181 to R183); it is total
and rejects by name. `encode` is the inverse (R189): the row's `match` with each field at its place.
-/

namespace Sys2Proof

/-! ## Fields of a word (R181, R182) -/

/-- `rd`, bits 11:7. -/
def rdField (w : BitVec 32) : BitVec 5 := w.extractLsb' 7 5
/-- `rs1` (or `zimm`), bits 19:15. -/
def rs1Field (w : BitVec 32) : BitVec 5 := w.extractLsb' 15 5
/-- `rs2` (or the 5-bit `shamt`), bits 24:20. -/
def rs2Field (w : BitVec 32) : BitVec 5 := w.extractLsb' 20 5
/-- `rs3`, bits 31:27. -/
def rs3Field (w : BitVec 32) : BitVec 5 := w.extractLsb' 27 5
/-- The rounding mode `rm`, bits 14:12. -/
def rmField (w : BitVec 32) : BitVec 3 := w.extractLsb' 12 3
/-- The 6-bit `shamt`, bits 25:20 (R183, I-shift64). -/
def shamt6 (w : BitVec 32) : BitVec 6 := w.extractLsb' 20 6
/-- The I immediate, or the CSR address: bits 31:20. -/
def immI (w : BitVec 32) : BitVec 12 := w.extractLsb' 20 12
/-- The S immediate, `w[31:25]` then `w[11:7]`. -/
def immS (w : BitVec 32) : BitVec 12 := w.extractLsb' 25 7 ++ w.extractLsb' 7 5
/-- The U immediate field, bits 31:12. -/
def immU (w : BitVec 32) : BitVec 20 := w.extractLsb' 12 20
/-- The B offset, `w[31], w[7], w[30:25], w[11:8], 0`. -/
def immB (w : BitVec 32) : BitVec 13 :=
  w.extractLsb' 31 1 ++ w.extractLsb' 7 1 ++ w.extractLsb' 25 6 ++ w.extractLsb' 8 4 ++ 0#1
/-- The J offset, `w[31], w[19:12], w[20], w[30:21], 0`. -/
def immJ (w : BitVec 32) : BitVec 21 :=
  w.extractLsb' 31 1 ++ w.extractLsb' 12 8 ++ w.extractLsb' 20 1 ++ w.extractLsb' 21 10 ++ 0#1

/-! ## The decode table (R185) -/

/-- One row of R185: `match`, `mask`, whether its XLEN column is `64`, whether its format is
I-shift64, and the fields of its format. -/
structure Row where
  mtch : BitVec 32
  mask : BitVec 32
  only64 : Bool
  shift6 : Bool
  build : BitVec 32 → Instr

/-- `(w & mask) = match` (R185). -/
def Row.fits (r : Row) (w : BitVec 32) : Bool := w &&& r.mask == r.mtch

/-- A row recognised at both widths. -/
def row (mtch mask : BitVec 32) (build : BitVec 32 → Instr) : Row :=
  ⟨mtch, mask, false, false, build⟩
/-- A row recognised at width 64 only. -/
def row64 (mtch mask : BitVec 32) (build : BitVec 32 → Instr) : Row :=
  ⟨mtch, mask, true, false, build⟩
/-- A row of format I-shift64: at width 32 bit 25 must be clear. -/
def rowShift6 (mtch mask : BitVec 32) (build : BitVec 32 → Instr) : Row :=
  ⟨mtch, mask, false, true, build⟩

/-- Integer computational instructions (41_integer.md). -/
def tableInteger : List Row := [
  row 0x00000037#32 0x0000007f#32 fun w => .lui (rdField w) (immU w),
  row 0x00000017#32 0x0000007f#32 fun w => .auipc (rdField w) (immU w),
  row 0x00000013#32 0x0000707f#32 fun w => .addi (rdField w) (rs1Field w) (immI w),
  row 0x00002013#32 0x0000707f#32 fun w => .slti (rdField w) (rs1Field w) (immI w),
  row 0x00003013#32 0x0000707f#32 fun w => .sltiu (rdField w) (rs1Field w) (immI w),
  row 0x00004013#32 0x0000707f#32 fun w => .xori (rdField w) (rs1Field w) (immI w),
  row 0x00006013#32 0x0000707f#32 fun w => .ori (rdField w) (rs1Field w) (immI w),
  row 0x00007013#32 0x0000707f#32 fun w => .andi (rdField w) (rs1Field w) (immI w),
  rowShift6 0x00001013#32 0xfc00707f#32 fun w => .slli (rdField w) (rs1Field w) (shamt6 w),
  rowShift6 0x00005013#32 0xfc00707f#32 fun w => .srli (rdField w) (rs1Field w) (shamt6 w),
  rowShift6 0x40005013#32 0xfc00707f#32 fun w => .srai (rdField w) (rs1Field w) (shamt6 w),
  row 0x00000033#32 0xfe00707f#32 fun w => .add (rdField w) (rs1Field w) (rs2Field w),
  row 0x40000033#32 0xfe00707f#32 fun w => .sub (rdField w) (rs1Field w) (rs2Field w),
  row 0x00001033#32 0xfe00707f#32 fun w => .sll (rdField w) (rs1Field w) (rs2Field w),
  row 0x00002033#32 0xfe00707f#32 fun w => .slt (rdField w) (rs1Field w) (rs2Field w),
  row 0x00003033#32 0xfe00707f#32 fun w => .sltu (rdField w) (rs1Field w) (rs2Field w),
  row 0x00004033#32 0xfe00707f#32 fun w => .xor (rdField w) (rs1Field w) (rs2Field w),
  row 0x00005033#32 0xfe00707f#32 fun w => .srl (rdField w) (rs1Field w) (rs2Field w),
  row 0x40005033#32 0xfe00707f#32 fun w => .sra (rdField w) (rs1Field w) (rs2Field w),
  row 0x00006033#32 0xfe00707f#32 fun w => .or (rdField w) (rs1Field w) (rs2Field w),
  row 0x00007033#32 0xfe00707f#32 fun w => .and (rdField w) (rs1Field w) (rs2Field w),
  row64 0x0000001b#32 0x0000707f#32 fun w => .addiw (rdField w) (rs1Field w) (immI w),
  row64 0x0000101b#32 0xfe00707f#32 fun w => .slliw (rdField w) (rs1Field w) (rs2Field w),
  row64 0x0000501b#32 0xfe00707f#32 fun w => .srliw (rdField w) (rs1Field w) (rs2Field w),
  row64 0x4000501b#32 0xfe00707f#32 fun w => .sraiw (rdField w) (rs1Field w) (rs2Field w),
  row64 0x0000003b#32 0xfe00707f#32 fun w => .addw (rdField w) (rs1Field w) (rs2Field w),
  row64 0x4000003b#32 0xfe00707f#32 fun w => .subw (rdField w) (rs1Field w) (rs2Field w),
  row64 0x0000103b#32 0xfe00707f#32 fun w => .sllw (rdField w) (rs1Field w) (rs2Field w),
  row64 0x0000503b#32 0xfe00707f#32 fun w => .srlw (rdField w) (rs1Field w) (rs2Field w),
  row64 0x4000503b#32 0xfe00707f#32 fun w => .sraw (rdField w) (rs1Field w) (rs2Field w)]

/-- Control transfer (42_control_transfer.md). -/
def tableControl : List Row := [
  row 0x0000006f#32 0x0000007f#32 fun w => .jal (rdField w) (immJ w),
  row 0x00000067#32 0x0000707f#32 fun w => .jalr (rdField w) (rs1Field w) (immI w),
  row 0x00000063#32 0x0000707f#32 fun w => .beq (rs1Field w) (rs2Field w) (immB w),
  row 0x00001063#32 0x0000707f#32 fun w => .bne (rs1Field w) (rs2Field w) (immB w),
  row 0x00004063#32 0x0000707f#32 fun w => .blt (rs1Field w) (rs2Field w) (immB w),
  row 0x00005063#32 0x0000707f#32 fun w => .bge (rs1Field w) (rs2Field w) (immB w),
  row 0x00006063#32 0x0000707f#32 fun w => .bltu (rs1Field w) (rs2Field w) (immB w),
  row 0x00007063#32 0x0000707f#32 fun w => .bgeu (rs1Field w) (rs2Field w) (immB w)]

/-- Integer loads and stores, FENCE, FENCE.I (43_load_store.md). -/
def tableLoadStore : List Row := [
  row 0x00000003#32 0x0000707f#32 fun w => .lb (rdField w) (rs1Field w) (immI w),
  row 0x00001003#32 0x0000707f#32 fun w => .lh (rdField w) (rs1Field w) (immI w),
  row 0x00002003#32 0x0000707f#32 fun w => .lw (rdField w) (rs1Field w) (immI w),
  row 0x00004003#32 0x0000707f#32 fun w => .lbu (rdField w) (rs1Field w) (immI w),
  row 0x00005003#32 0x0000707f#32 fun w => .lhu (rdField w) (rs1Field w) (immI w),
  row64 0x00006003#32 0x0000707f#32 fun w => .lwu (rdField w) (rs1Field w) (immI w),
  row64 0x00003003#32 0x0000707f#32 fun w => .ld (rdField w) (rs1Field w) (immI w),
  row 0x00000023#32 0x0000707f#32 fun w => .sb (rs1Field w) (rs2Field w) (immS w),
  row 0x00001023#32 0x0000707f#32 fun w => .sh (rs1Field w) (rs2Field w) (immS w),
  row 0x00002023#32 0x0000707f#32 fun w => .sw (rs1Field w) (rs2Field w) (immS w),
  row64 0x00003023#32 0x0000707f#32 fun w => .sd (rs1Field w) (rs2Field w) (immS w),
  row 0x0000000f#32 0x0000707f#32 fun _ => .fence,
  row 0x0000100f#32 0x0000707f#32 fun _ => .fenceI]

/-- Multiply, divide, remainder (44_muldiv.md). -/
def tableMulDiv : List Row := [
  row 0x02000033#32 0xfe00707f#32 fun w => .mul (rdField w) (rs1Field w) (rs2Field w),
  row 0x02001033#32 0xfe00707f#32 fun w => .mulh (rdField w) (rs1Field w) (rs2Field w),
  row 0x02002033#32 0xfe00707f#32 fun w => .mulhsu (rdField w) (rs1Field w) (rs2Field w),
  row 0x02003033#32 0xfe00707f#32 fun w => .mulhu (rdField w) (rs1Field w) (rs2Field w),
  row 0x02004033#32 0xfe00707f#32 fun w => .div (rdField w) (rs1Field w) (rs2Field w),
  row 0x02005033#32 0xfe00707f#32 fun w => .divu (rdField w) (rs1Field w) (rs2Field w),
  row 0x02006033#32 0xfe00707f#32 fun w => .rem (rdField w) (rs1Field w) (rs2Field w),
  row 0x02007033#32 0xfe00707f#32 fun w => .remu (rdField w) (rs1Field w) (rs2Field w),
  row64 0x0200003b#32 0xfe00707f#32 fun w => .mulw (rdField w) (rs1Field w) (rs2Field w),
  row64 0x0200403b#32 0xfe00707f#32 fun w => .divw (rdField w) (rs1Field w) (rs2Field w),
  row64 0x0200503b#32 0xfe00707f#32 fun w => .divuw (rdField w) (rs1Field w) (rs2Field w),
  row64 0x0200603b#32 0xfe00707f#32 fun w => .remw (rdField w) (rs1Field w) (rs2Field w),
  row64 0x0200703b#32 0xfe00707f#32 fun w => .remuw (rdField w) (rs1Field w) (rs2Field w)]

/-- Atomics (45_atomics.md). -/
def tableAtomic : List Row := [
  row 0x1000202f#32 0xf9f0707f#32 fun w => .lrW (rdField w) (rs1Field w),
  row64 0x1000302f#32 0xf9f0707f#32 fun w => .lrD (rdField w) (rs1Field w),
  row 0x1800202f#32 0xf800707f#32 fun w => .scW (rdField w) (rs1Field w) (rs2Field w),
  row64 0x1800302f#32 0xf800707f#32 fun w => .scD (rdField w) (rs1Field w) (rs2Field w),
  row 0x0800202f#32 0xf800707f#32 fun w => .amoswapW (rdField w) (rs1Field w) (rs2Field w),
  row 0x0000202f#32 0xf800707f#32 fun w => .amoaddW (rdField w) (rs1Field w) (rs2Field w),
  row 0x2000202f#32 0xf800707f#32 fun w => .amoxorW (rdField w) (rs1Field w) (rs2Field w),
  row 0x6000202f#32 0xf800707f#32 fun w => .amoandW (rdField w) (rs1Field w) (rs2Field w),
  row 0x4000202f#32 0xf800707f#32 fun w => .amoorW (rdField w) (rs1Field w) (rs2Field w),
  row 0x8000202f#32 0xf800707f#32 fun w => .amominW (rdField w) (rs1Field w) (rs2Field w),
  row 0xa000202f#32 0xf800707f#32 fun w => .amomaxW (rdField w) (rs1Field w) (rs2Field w),
  row 0xc000202f#32 0xf800707f#32 fun w => .amominuW (rdField w) (rs1Field w) (rs2Field w),
  row 0xe000202f#32 0xf800707f#32 fun w => .amomaxuW (rdField w) (rs1Field w) (rs2Field w),
  row64 0x0800302f#32 0xf800707f#32 fun w => .amoswapD (rdField w) (rs1Field w) (rs2Field w),
  row64 0x0000302f#32 0xf800707f#32 fun w => .amoaddD (rdField w) (rs1Field w) (rs2Field w),
  row64 0x2000302f#32 0xf800707f#32 fun w => .amoxorD (rdField w) (rs1Field w) (rs2Field w),
  row64 0x6000302f#32 0xf800707f#32 fun w => .amoandD (rdField w) (rs1Field w) (rs2Field w),
  row64 0x4000302f#32 0xf800707f#32 fun w => .amoorD (rdField w) (rs1Field w) (rs2Field w),
  row64 0x8000302f#32 0xf800707f#32 fun w => .amominD (rdField w) (rs1Field w) (rs2Field w),
  row64 0xa000302f#32 0xf800707f#32 fun w => .amomaxD (rdField w) (rs1Field w) (rs2Field w),
  row64 0xc000302f#32 0xf800707f#32 fun w => .amominuD (rdField w) (rs1Field w) (rs2Field w),
  row64 0xe000302f#32 0xf800707f#32 fun w => .amomaxuD (rdField w) (rs1Field w) (rs2Field w)]

/-- CSR access and system instructions (46_csr_system.md). -/
def tableSystem : List Row := [
  row 0x00001073#32 0x0000707f#32 fun w => .csrrw (rdField w) (immI w) (rs1Field w),
  row 0x00002073#32 0x0000707f#32 fun w => .csrrs (rdField w) (immI w) (rs1Field w),
  row 0x00003073#32 0x0000707f#32 fun w => .csrrc (rdField w) (immI w) (rs1Field w),
  row 0x00005073#32 0x0000707f#32 fun w => .csrrwi (rdField w) (immI w) (rs1Field w),
  row 0x00006073#32 0x0000707f#32 fun w => .csrrsi (rdField w) (immI w) (rs1Field w),
  row 0x00007073#32 0x0000707f#32 fun w => .csrrci (rdField w) (immI w) (rs1Field w),
  row 0x00000073#32 0xffffffff#32 fun _ => .ecall,
  row 0x00100073#32 0xffffffff#32 fun _ => .ebreak,
  row 0x00200073#32 0xffffffff#32 fun _ => .uret,
  row 0x10200073#32 0xffffffff#32 fun _ => .sret,
  row 0x20200073#32 0xffffffff#32 fun _ => .hret,
  row 0x30200073#32 0xffffffff#32 fun _ => .mret,
  row 0x10500073#32 0xffffffff#32 fun _ => .wfi,
  row 0x10400073#32 0xfff07fff#32 fun w => .sfenceVm (rs1Field w)]

/-- Single-precision floating point (47_float_single.md). -/
def tableFloatSingle : List Row := [
  row 0x00002007#32 0x0000707f#32 fun w => .flw (rdField w) (rs1Field w) (immI w),
  row 0x00002027#32 0x0000707f#32 fun w => .fsw (rs1Field w) (rs2Field w) (immS w),
  row 0x00000043#32 0x0600007f#32 fun w => .fmaddS (rdField w) (rs1Field w) (rs2Field w) (rs3Field w) (rmField w),
  row 0x00000047#32 0x0600007f#32 fun w => .fmsubS (rdField w) (rs1Field w) (rs2Field w) (rs3Field w) (rmField w),
  row 0x0000004b#32 0x0600007f#32 fun w => .fnmsubS (rdField w) (rs1Field w) (rs2Field w) (rs3Field w) (rmField w),
  row 0x0000004f#32 0x0600007f#32 fun w => .fnmaddS (rdField w) (rs1Field w) (rs2Field w) (rs3Field w) (rmField w),
  row 0x00000053#32 0xfe00007f#32 fun w => .faddS (rdField w) (rs1Field w) (rs2Field w) (rmField w),
  row 0x08000053#32 0xfe00007f#32 fun w => .fsubS (rdField w) (rs1Field w) (rs2Field w) (rmField w),
  row 0x10000053#32 0xfe00007f#32 fun w => .fmulS (rdField w) (rs1Field w) (rs2Field w) (rmField w),
  row 0x18000053#32 0xfe00007f#32 fun w => .fdivS (rdField w) (rs1Field w) (rs2Field w) (rmField w),
  row 0x58000053#32 0xfff0007f#32 fun w => .fsqrtS (rdField w) (rs1Field w) (rmField w),
  row 0x20000053#32 0xfe00707f#32 fun w => .fsgnjS (rdField w) (rs1Field w) (rs2Field w),
  row 0x20001053#32 0xfe00707f#32 fun w => .fsgnjnS (rdField w) (rs1Field w) (rs2Field w),
  row 0x20002053#32 0xfe00707f#32 fun w => .fsgnjxS (rdField w) (rs1Field w) (rs2Field w),
  row 0x28000053#32 0xfe00707f#32 fun w => .fminS (rdField w) (rs1Field w) (rs2Field w),
  row 0x28001053#32 0xfe00707f#32 fun w => .fmaxS (rdField w) (rs1Field w) (rs2Field w),
  row 0xc0000053#32 0xfff0007f#32 fun w => .fcvtWS (rdField w) (rs1Field w) (rmField w),
  row 0xc0100053#32 0xfff0007f#32 fun w => .fcvtWUS (rdField w) (rs1Field w) (rmField w),
  row 0xe0000053#32 0xfff0707f#32 fun w => .fmvXS (rdField w) (rs1Field w),
  row 0xa0002053#32 0xfe00707f#32 fun w => .feqS (rdField w) (rs1Field w) (rs2Field w),
  row 0xa0001053#32 0xfe00707f#32 fun w => .fltS (rdField w) (rs1Field w) (rs2Field w),
  row 0xa0000053#32 0xfe00707f#32 fun w => .fleS (rdField w) (rs1Field w) (rs2Field w),
  row 0xe0001053#32 0xfff0707f#32 fun w => .fclassS (rdField w) (rs1Field w),
  row 0xd0000053#32 0xfff0007f#32 fun w => .fcvtSW (rdField w) (rs1Field w) (rmField w),
  row 0xd0100053#32 0xfff0007f#32 fun w => .fcvtSWU (rdField w) (rs1Field w) (rmField w),
  row 0xf0000053#32 0xfff0707f#32 fun w => .fmvSX (rdField w) (rs1Field w),
  row64 0xc0200053#32 0xfff0007f#32 fun w => .fcvtLS (rdField w) (rs1Field w) (rmField w),
  row64 0xc0300053#32 0xfff0007f#32 fun w => .fcvtLUS (rdField w) (rs1Field w) (rmField w),
  row64 0xd0200053#32 0xfff0007f#32 fun w => .fcvtSL (rdField w) (rs1Field w) (rmField w),
  row64 0xd0300053#32 0xfff0007f#32 fun w => .fcvtSLU (rdField w) (rs1Field w) (rmField w)]

/-- Double-precision floating point (48_float_double.md). -/
def tableFloatDouble : List Row := [
  row 0x00003007#32 0x0000707f#32 fun w => .fld (rdField w) (rs1Field w) (immI w),
  row 0x00003027#32 0x0000707f#32 fun w => .fsd (rs1Field w) (rs2Field w) (immS w),
  row 0x02000043#32 0x0600007f#32 fun w => .fmaddD (rdField w) (rs1Field w) (rs2Field w) (rs3Field w) (rmField w),
  row 0x02000047#32 0x0600007f#32 fun w => .fmsubD (rdField w) (rs1Field w) (rs2Field w) (rs3Field w) (rmField w),
  row 0x0200004b#32 0x0600007f#32 fun w => .fnmsubD (rdField w) (rs1Field w) (rs2Field w) (rs3Field w) (rmField w),
  row 0x0200004f#32 0x0600007f#32 fun w => .fnmaddD (rdField w) (rs1Field w) (rs2Field w) (rs3Field w) (rmField w),
  row 0x02000053#32 0xfe00007f#32 fun w => .faddD (rdField w) (rs1Field w) (rs2Field w) (rmField w),
  row 0x0a000053#32 0xfe00007f#32 fun w => .fsubD (rdField w) (rs1Field w) (rs2Field w) (rmField w),
  row 0x12000053#32 0xfe00007f#32 fun w => .fmulD (rdField w) (rs1Field w) (rs2Field w) (rmField w),
  row 0x1a000053#32 0xfe00007f#32 fun w => .fdivD (rdField w) (rs1Field w) (rs2Field w) (rmField w),
  row 0x5a000053#32 0xfff0007f#32 fun w => .fsqrtD (rdField w) (rs1Field w) (rmField w),
  row 0x22000053#32 0xfe00707f#32 fun w => .fsgnjD (rdField w) (rs1Field w) (rs2Field w),
  row 0x22001053#32 0xfe00707f#32 fun w => .fsgnjnD (rdField w) (rs1Field w) (rs2Field w),
  row 0x22002053#32 0xfe00707f#32 fun w => .fsgnjxD (rdField w) (rs1Field w) (rs2Field w),
  row 0x2a000053#32 0xfe00707f#32 fun w => .fminD (rdField w) (rs1Field w) (rs2Field w),
  row 0x2a001053#32 0xfe00707f#32 fun w => .fmaxD (rdField w) (rs1Field w) (rs2Field w),
  row 0x40100053#32 0xfff0007f#32 fun w => .fcvtSD (rdField w) (rs1Field w) (rmField w),
  row 0x42000053#32 0xfff0007f#32 fun w => .fcvtDS (rdField w) (rs1Field w) (rmField w),
  row 0xa2002053#32 0xfe00707f#32 fun w => .feqD (rdField w) (rs1Field w) (rs2Field w),
  row 0xa2001053#32 0xfe00707f#32 fun w => .fltD (rdField w) (rs1Field w) (rs2Field w),
  row 0xa2000053#32 0xfe00707f#32 fun w => .fleD (rdField w) (rs1Field w) (rs2Field w),
  row 0xe2001053#32 0xfff0707f#32 fun w => .fclassD (rdField w) (rs1Field w),
  row 0xc2000053#32 0xfff0007f#32 fun w => .fcvtWD (rdField w) (rs1Field w) (rmField w),
  row 0xc2100053#32 0xfff0007f#32 fun w => .fcvtWUD (rdField w) (rs1Field w) (rmField w),
  row 0xd2000053#32 0xfff0007f#32 fun w => .fcvtDW (rdField w) (rs1Field w) (rmField w),
  row 0xd2100053#32 0xfff0007f#32 fun w => .fcvtDWU (rdField w) (rs1Field w) (rmField w),
  row64 0xc2200053#32 0xfff0007f#32 fun w => .fcvtLD (rdField w) (rs1Field w) (rmField w),
  row64 0xc2300053#32 0xfff0007f#32 fun w => .fcvtLUD (rdField w) (rs1Field w) (rmField w),
  row64 0xe2000053#32 0xfff0707f#32 fun w => .fmvXD (rdField w) (rs1Field w),
  row64 0xd2200053#32 0xfff0007f#32 fun w => .fcvtDL (rdField w) (rs1Field w) (rmField w),
  row64 0xd2300053#32 0xfff0007f#32 fun w => .fcvtDLU (rdField w) (rs1Field w) (rmField w),
  row64 0xf2000053#32 0xfff0707f#32 fun w => .fmvDX (rdField w) (rs1Field w)]

/-- The full decode table (R185). -/
def table : List Row :=
  tableInteger ++ tableControl ++ tableLoadStore ++ tableMulDiv ++
    tableAtomic ++ tableSystem ++ tableFloatSingle ++ tableFloatDouble

/-! ## Decode -/

/-- Why a word is not an instruction (R186, R187, R190). -/
inductive DecodeError where
  /-- No row of the table matches (R186). -/
  | unknownPattern
  /-- The row exists at width 64 only (R190 (a)). -/
  | rv64Only
  /-- A shift amount with bit 5 set at width 32 (R190 (b)). -/
  | shamtTooWide
  /-- Fewer than the four bytes of an instruction word (R180). -/
  | truncated
  deriving DecidableEq, Repr

/-- `Decode(w)` of R186 at running width `x`; an error is the tag `UNKNOWN`. -/
def decode (x : Xlen) (w : BitVec 32) : Except DecodeError Instr :=
  match table.find? (·.fits w) with
  | none => .error .unknownPattern
  | some r =>
    match x with
    | .w64 => .ok (r.build w)
    | .w32 =>
      if r.only64 then .error .rv64Only
      else if r.shift6 && w.getLsbD 25 then .error .shamtTooWide
      else .ok (r.build w)

/-- Four bytes assembled little-endian: the first is bits 7:0 of the word (R180). -/
def wordOfBytes (b0 b1 b2 b3 : Byte) : BitVec 32 := b3 ++ b2 ++ b1 ++ b0

/-- The four bytes of a word as they stand in memory, the first at the lowest address (R180). -/
def bytesOfWord (w : BitVec 32) : List Byte :=
  [w.extractLsb' 0 8, w.extractLsb' 8 8, w.extractLsb' 16 8, w.extractLsb' 24 8]

/-- Decode the first instruction of a byte string, with the rest of it. -/
def decodeBytes (x : Xlen) : List Byte → Except DecodeError (Instr × List Byte)
  | b0 :: b1 :: b2 :: b3 :: rest =>
    match decode x (wordOfBytes b0 b1 b2 b3) with
    | .ok i => .ok (i, rest)
    | .error e => .error e
  | _ => .error .truncated

/-- The instruction the decoder reads, at width 64, from a row's `nbits` bits `w`: one 32-bit word,
laid out little-endian, the bits above `nbits` zero. -/
def decodeTableWord (nbits w : Nat) : Option Instr :=
  match decodeBytes .w64 (bytesOfWord (BitVec.ofNat 32 (w % 2 ^ nbits))) with
  | .ok (i, _) => some i
  | .error _ => none

/-! ## Encode (R189, R197) -/

/-- A field with its lowest bit at position `lo`. -/
def place {n : Nat} (lo : Nat) (v : BitVec n) : BitVec 32 := v.setWidth 32 <<< lo

/-- Format U. -/
def encU (m : BitVec 32) (rd : RegIdx) (imm : BitVec 20) : BitVec 32 :=
  m ||| place 7 rd ||| place 12 imm
/-- Format J. -/
def encJ (m : BitVec 32) (rd : RegIdx) (off : BitVec 21) : BitVec 32 :=
  m ||| place 7 rd ||| place 12 (off.extractLsb' 12 8) ||| place 20 (off.extractLsb' 11 1)
    ||| place 21 (off.extractLsb' 1 10) ||| place 31 (off.extractLsb' 20 1)
/-- Format B. -/
def encB (m : BitVec 32) (rs1 rs2 : RegIdx) (off : BitVec 13) : BitVec 32 :=
  m ||| place 15 rs1 ||| place 20 rs2 ||| place 7 (off.extractLsb' 11 1)
    ||| place 8 (off.extractLsb' 1 4) ||| place 25 (off.extractLsb' 5 6)
    ||| place 31 (off.extractLsb' 12 1)
/-- Format I. -/
def encI (m : BitVec 32) (rd rs1 : RegIdx) (imm : BitVec 12) : BitVec 32 :=
  m ||| place 7 rd ||| place 15 rs1 ||| place 20 imm
/-- Format S. -/
def encS (m : BitVec 32) (rs1 rs2 : RegIdx) (imm : BitVec 12) : BitVec 32 :=
  m ||| place 15 rs1 ||| place 20 rs2 ||| place 7 (imm.extractLsb' 0 5)
    ||| place 25 (imm.extractLsb' 5 7)
/-- Format I-shift64. -/
def encShift64 (m : BitVec 32) (rd rs1 : RegIdx) (shamt : BitVec 6) : BitVec 32 :=
  m ||| place 7 rd ||| place 15 rs1 ||| place 20 shamt
/-- Format I-shift32. -/
def encShift32 (m : BitVec 32) (rd rs1 : RegIdx) (shamt : BitVec 5) : BitVec 32 :=
  m ||| place 7 rd ||| place 15 rs1 ||| place 20 shamt
/-- Formats R, R-amo and R-fp3. -/
def encR (m : BitVec 32) (rd rs1 rs2 : RegIdx) : BitVec 32 :=
  m ||| place 7 rd ||| place 15 rs1 ||| place 20 rs2
/-- Formats R-lr and R-fp13: one source. -/
def encR1 (m : BitVec 32) (rd rs1 : RegIdx) : BitVec 32 := m ||| place 7 rd ||| place 15 rs1
/-- Format I-sfence. -/
def encRs1 (m : BitVec 32) (rs1 : RegIdx) : BitVec 32 := m ||| place 15 rs1
/-- Formats I-csr and I-csri. -/
def encCsr (m : BitVec 32) (rd : RegIdx) (csr : CsrAddr) (rs1 : BitVec 5) : BitVec 32 :=
  m ||| place 7 rd ||| place 15 rs1 ||| place 20 csr
/-- Format R-fp. -/
def encRm (m : BitVec 32) (rd rs1 rs2 : RegIdx) (rm : BitVec 3) : BitVec 32 :=
  m ||| place 7 rd ||| place 12 rm ||| place 15 rs1 ||| place 20 rs2
/-- Format R-fp1. -/
def encRm1 (m : BitVec 32) (rd rs1 : RegIdx) (rm : BitVec 3) : BitVec 32 :=
  m ||| place 7 rd ||| place 12 rm ||| place 15 rs1
/-- Format R4. -/
def encR4 (m : BitVec 32) (rd rs1 rs2 rs3 : RegIdx) (rm : BitVec 3) : BitVec 32 :=
  m ||| place 7 rd ||| place 12 rm ||| place 15 rs1 ||| place 20 rs2 ||| place 27 rs3

/-- The word of an instruction (R189): its row's `match` and its fields; ignored bits are zero. -/
def encode : Instr → BitVec 32
  | .lui rd imm => encU 0x00000037#32 rd imm
  | .auipc rd imm => encU 0x00000017#32 rd imm
  | .addi rd rs1 imm => encI 0x00000013#32 rd rs1 imm
  | .slti rd rs1 imm => encI 0x00002013#32 rd rs1 imm
  | .sltiu rd rs1 imm => encI 0x00003013#32 rd rs1 imm
  | .xori rd rs1 imm => encI 0x00004013#32 rd rs1 imm
  | .ori rd rs1 imm => encI 0x00006013#32 rd rs1 imm
  | .andi rd rs1 imm => encI 0x00007013#32 rd rs1 imm
  | .slli rd rs1 shamt => encShift64 0x00001013#32 rd rs1 shamt
  | .srli rd rs1 shamt => encShift64 0x00005013#32 rd rs1 shamt
  | .srai rd rs1 shamt => encShift64 0x40005013#32 rd rs1 shamt
  | .add rd rs1 rs2 => encR 0x00000033#32 rd rs1 rs2
  | .sub rd rs1 rs2 => encR 0x40000033#32 rd rs1 rs2
  | .sll rd rs1 rs2 => encR 0x00001033#32 rd rs1 rs2
  | .slt rd rs1 rs2 => encR 0x00002033#32 rd rs1 rs2
  | .sltu rd rs1 rs2 => encR 0x00003033#32 rd rs1 rs2
  | .xor rd rs1 rs2 => encR 0x00004033#32 rd rs1 rs2
  | .srl rd rs1 rs2 => encR 0x00005033#32 rd rs1 rs2
  | .sra rd rs1 rs2 => encR 0x40005033#32 rd rs1 rs2
  | .or rd rs1 rs2 => encR 0x00006033#32 rd rs1 rs2
  | .and rd rs1 rs2 => encR 0x00007033#32 rd rs1 rs2
  | .addiw rd rs1 imm => encI 0x0000001b#32 rd rs1 imm
  | .slliw rd rs1 shamt => encShift32 0x0000101b#32 rd rs1 shamt
  | .srliw rd rs1 shamt => encShift32 0x0000501b#32 rd rs1 shamt
  | .sraiw rd rs1 shamt => encShift32 0x4000501b#32 rd rs1 shamt
  | .addw rd rs1 rs2 => encR 0x0000003b#32 rd rs1 rs2
  | .subw rd rs1 rs2 => encR 0x4000003b#32 rd rs1 rs2
  | .sllw rd rs1 rs2 => encR 0x0000103b#32 rd rs1 rs2
  | .srlw rd rs1 rs2 => encR 0x0000503b#32 rd rs1 rs2
  | .sraw rd rs1 rs2 => encR 0x4000503b#32 rd rs1 rs2
  | .jal rd off => encJ 0x0000006f#32 rd off
  | .jalr rd rs1 imm => encI 0x00000067#32 rd rs1 imm
  | .beq rs1 rs2 off => encB 0x00000063#32 rs1 rs2 off
  | .bne rs1 rs2 off => encB 0x00001063#32 rs1 rs2 off
  | .blt rs1 rs2 off => encB 0x00004063#32 rs1 rs2 off
  | .bge rs1 rs2 off => encB 0x00005063#32 rs1 rs2 off
  | .bltu rs1 rs2 off => encB 0x00006063#32 rs1 rs2 off
  | .bgeu rs1 rs2 off => encB 0x00007063#32 rs1 rs2 off
  | .lb rd rs1 imm => encI 0x00000003#32 rd rs1 imm
  | .lh rd rs1 imm => encI 0x00001003#32 rd rs1 imm
  | .lw rd rs1 imm => encI 0x00002003#32 rd rs1 imm
  | .lbu rd rs1 imm => encI 0x00004003#32 rd rs1 imm
  | .lhu rd rs1 imm => encI 0x00005003#32 rd rs1 imm
  | .lwu rd rs1 imm => encI 0x00006003#32 rd rs1 imm
  | .ld rd rs1 imm => encI 0x00003003#32 rd rs1 imm
  | .sb rs1 rs2 imm => encS 0x00000023#32 rs1 rs2 imm
  | .sh rs1 rs2 imm => encS 0x00001023#32 rs1 rs2 imm
  | .sw rs1 rs2 imm => encS 0x00002023#32 rs1 rs2 imm
  | .sd rs1 rs2 imm => encS 0x00003023#32 rs1 rs2 imm
  | .fence => 0x0000000f#32
  | .fenceI => 0x0000100f#32
  | .mul rd rs1 rs2 => encR 0x02000033#32 rd rs1 rs2
  | .mulh rd rs1 rs2 => encR 0x02001033#32 rd rs1 rs2
  | .mulhsu rd rs1 rs2 => encR 0x02002033#32 rd rs1 rs2
  | .mulhu rd rs1 rs2 => encR 0x02003033#32 rd rs1 rs2
  | .div rd rs1 rs2 => encR 0x02004033#32 rd rs1 rs2
  | .divu rd rs1 rs2 => encR 0x02005033#32 rd rs1 rs2
  | .rem rd rs1 rs2 => encR 0x02006033#32 rd rs1 rs2
  | .remu rd rs1 rs2 => encR 0x02007033#32 rd rs1 rs2
  | .mulw rd rs1 rs2 => encR 0x0200003b#32 rd rs1 rs2
  | .divw rd rs1 rs2 => encR 0x0200403b#32 rd rs1 rs2
  | .divuw rd rs1 rs2 => encR 0x0200503b#32 rd rs1 rs2
  | .remw rd rs1 rs2 => encR 0x0200603b#32 rd rs1 rs2
  | .remuw rd rs1 rs2 => encR 0x0200703b#32 rd rs1 rs2
  | .lrW rd rs1 => encR1 0x1000202f#32 rd rs1
  | .lrD rd rs1 => encR1 0x1000302f#32 rd rs1
  | .scW rd rs1 rs2 => encR 0x1800202f#32 rd rs1 rs2
  | .scD rd rs1 rs2 => encR 0x1800302f#32 rd rs1 rs2
  | .amoswapW rd rs1 rs2 => encR 0x0800202f#32 rd rs1 rs2
  | .amoaddW rd rs1 rs2 => encR 0x0000202f#32 rd rs1 rs2
  | .amoxorW rd rs1 rs2 => encR 0x2000202f#32 rd rs1 rs2
  | .amoandW rd rs1 rs2 => encR 0x6000202f#32 rd rs1 rs2
  | .amoorW rd rs1 rs2 => encR 0x4000202f#32 rd rs1 rs2
  | .amominW rd rs1 rs2 => encR 0x8000202f#32 rd rs1 rs2
  | .amomaxW rd rs1 rs2 => encR 0xa000202f#32 rd rs1 rs2
  | .amominuW rd rs1 rs2 => encR 0xc000202f#32 rd rs1 rs2
  | .amomaxuW rd rs1 rs2 => encR 0xe000202f#32 rd rs1 rs2
  | .amoswapD rd rs1 rs2 => encR 0x0800302f#32 rd rs1 rs2
  | .amoaddD rd rs1 rs2 => encR 0x0000302f#32 rd rs1 rs2
  | .amoxorD rd rs1 rs2 => encR 0x2000302f#32 rd rs1 rs2
  | .amoandD rd rs1 rs2 => encR 0x6000302f#32 rd rs1 rs2
  | .amoorD rd rs1 rs2 => encR 0x4000302f#32 rd rs1 rs2
  | .amominD rd rs1 rs2 => encR 0x8000302f#32 rd rs1 rs2
  | .amomaxD rd rs1 rs2 => encR 0xa000302f#32 rd rs1 rs2
  | .amominuD rd rs1 rs2 => encR 0xc000302f#32 rd rs1 rs2
  | .amomaxuD rd rs1 rs2 => encR 0xe000302f#32 rd rs1 rs2
  | .csrrw rd csr rs1 => encCsr 0x00001073#32 rd csr rs1
  | .csrrs rd csr rs1 => encCsr 0x00002073#32 rd csr rs1
  | .csrrc rd csr rs1 => encCsr 0x00003073#32 rd csr rs1
  | .csrrwi rd csr zimm => encCsr 0x00005073#32 rd csr zimm
  | .csrrsi rd csr zimm => encCsr 0x00006073#32 rd csr zimm
  | .csrrci rd csr zimm => encCsr 0x00007073#32 rd csr zimm
  | .ecall => 0x00000073#32
  | .ebreak => 0x00100073#32
  | .uret => 0x00200073#32
  | .sret => 0x10200073#32
  | .hret => 0x20200073#32
  | .mret => 0x30200073#32
  | .wfi => 0x10500073#32
  | .sfenceVm rs1 => encRs1 0x10400073#32 rs1
  | .flw fd rs1 imm => encI 0x00002007#32 fd rs1 imm
  | .fsw rs1 fs2 imm => encS 0x00002027#32 rs1 fs2 imm
  | .fmaddS fd fs1 fs2 fs3 rm => encR4 0x00000043#32 fd fs1 fs2 fs3 rm
  | .fmsubS fd fs1 fs2 fs3 rm => encR4 0x00000047#32 fd fs1 fs2 fs3 rm
  | .fnmsubS fd fs1 fs2 fs3 rm => encR4 0x0000004b#32 fd fs1 fs2 fs3 rm
  | .fnmaddS fd fs1 fs2 fs3 rm => encR4 0x0000004f#32 fd fs1 fs2 fs3 rm
  | .faddS fd fs1 fs2 rm => encRm 0x00000053#32 fd fs1 fs2 rm
  | .fsubS fd fs1 fs2 rm => encRm 0x08000053#32 fd fs1 fs2 rm
  | .fmulS fd fs1 fs2 rm => encRm 0x10000053#32 fd fs1 fs2 rm
  | .fdivS fd fs1 fs2 rm => encRm 0x18000053#32 fd fs1 fs2 rm
  | .fsqrtS fd fs1 rm => encRm1 0x58000053#32 fd fs1 rm
  | .fsgnjS fd fs1 fs2 => encR 0x20000053#32 fd fs1 fs2
  | .fsgnjnS fd fs1 fs2 => encR 0x20001053#32 fd fs1 fs2
  | .fsgnjxS fd fs1 fs2 => encR 0x20002053#32 fd fs1 fs2
  | .fminS fd fs1 fs2 => encR 0x28000053#32 fd fs1 fs2
  | .fmaxS fd fs1 fs2 => encR 0x28001053#32 fd fs1 fs2
  | .fcvtWS rd fs1 rm => encRm1 0xc0000053#32 rd fs1 rm
  | .fcvtWUS rd fs1 rm => encRm1 0xc0100053#32 rd fs1 rm
  | .fmvXS rd fs1 => encR1 0xe0000053#32 rd fs1
  | .feqS rd fs1 fs2 => encR 0xa0002053#32 rd fs1 fs2
  | .fltS rd fs1 fs2 => encR 0xa0001053#32 rd fs1 fs2
  | .fleS rd fs1 fs2 => encR 0xa0000053#32 rd fs1 fs2
  | .fclassS rd fs1 => encR1 0xe0001053#32 rd fs1
  | .fcvtSW fd rs1 rm => encRm1 0xd0000053#32 fd rs1 rm
  | .fcvtSWU fd rs1 rm => encRm1 0xd0100053#32 fd rs1 rm
  | .fmvSX fd rs1 => encR1 0xf0000053#32 fd rs1
  | .fcvtLS rd fs1 rm => encRm1 0xc0200053#32 rd fs1 rm
  | .fcvtLUS rd fs1 rm => encRm1 0xc0300053#32 rd fs1 rm
  | .fcvtSL fd rs1 rm => encRm1 0xd0200053#32 fd rs1 rm
  | .fcvtSLU fd rs1 rm => encRm1 0xd0300053#32 fd rs1 rm
  | .fld fd rs1 imm => encI 0x00003007#32 fd rs1 imm
  | .fsd rs1 fs2 imm => encS 0x00003027#32 rs1 fs2 imm
  | .fmaddD fd fs1 fs2 fs3 rm => encR4 0x02000043#32 fd fs1 fs2 fs3 rm
  | .fmsubD fd fs1 fs2 fs3 rm => encR4 0x02000047#32 fd fs1 fs2 fs3 rm
  | .fnmsubD fd fs1 fs2 fs3 rm => encR4 0x0200004b#32 fd fs1 fs2 fs3 rm
  | .fnmaddD fd fs1 fs2 fs3 rm => encR4 0x0200004f#32 fd fs1 fs2 fs3 rm
  | .faddD fd fs1 fs2 rm => encRm 0x02000053#32 fd fs1 fs2 rm
  | .fsubD fd fs1 fs2 rm => encRm 0x0a000053#32 fd fs1 fs2 rm
  | .fmulD fd fs1 fs2 rm => encRm 0x12000053#32 fd fs1 fs2 rm
  | .fdivD fd fs1 fs2 rm => encRm 0x1a000053#32 fd fs1 fs2 rm
  | .fsqrtD fd fs1 rm => encRm1 0x5a000053#32 fd fs1 rm
  | .fsgnjD fd fs1 fs2 => encR 0x22000053#32 fd fs1 fs2
  | .fsgnjnD fd fs1 fs2 => encR 0x22001053#32 fd fs1 fs2
  | .fsgnjxD fd fs1 fs2 => encR 0x22002053#32 fd fs1 fs2
  | .fminD fd fs1 fs2 => encR 0x2a000053#32 fd fs1 fs2
  | .fmaxD fd fs1 fs2 => encR 0x2a001053#32 fd fs1 fs2
  | .fcvtSD fd fs1 rm => encRm1 0x40100053#32 fd fs1 rm
  | .fcvtDS fd fs1 rm => encRm1 0x42000053#32 fd fs1 rm
  | .feqD rd fs1 fs2 => encR 0xa2002053#32 rd fs1 fs2
  | .fltD rd fs1 fs2 => encR 0xa2001053#32 rd fs1 fs2
  | .fleD rd fs1 fs2 => encR 0xa2000053#32 rd fs1 fs2
  | .fclassD rd fs1 => encR1 0xe2001053#32 rd fs1
  | .fcvtWD rd fs1 rm => encRm1 0xc2000053#32 rd fs1 rm
  | .fcvtWUD rd fs1 rm => encRm1 0xc2100053#32 rd fs1 rm
  | .fcvtDW fd rs1 rm => encRm1 0xd2000053#32 fd rs1 rm
  | .fcvtDWU fd rs1 rm => encRm1 0xd2100053#32 fd rs1 rm
  | .fcvtLD rd fs1 rm => encRm1 0xc2200053#32 rd fs1 rm
  | .fcvtLUD rd fs1 rm => encRm1 0xc2300053#32 rd fs1 rm
  | .fmvXD rd fs1 => encR1 0xe2000053#32 rd fs1
  | .fcvtDL fd rs1 rm => encRm1 0xd2200053#32 fd rs1 rm
  | .fcvtDLU fd rs1 rm => encRm1 0xd2300053#32 fd rs1 rm
  | .fmvDX fd rs1 => encR1 0xf2000053#32 fd rs1

/-- The four bytes of an instruction in memory order. -/
def encodeBytes (i : Instr) : List Byte := bytesOfWord (encode i)

end Sys2Proof
end

