-- ==== Sys2Proof/Machine/Bits.lean ====
section
/-!
DEFINITION. Bit-field helpers and the projections between the running width and native storage
(10_state.md R22, R28; 20_memory.md R167).

An `XLEN`-bit value travels in a 64-bit word whose upper bits are not significant at width 32: `lift2`
reads its operands and leaves its result so, `Xlen.sext` and `Xlen.zext` give the stored forms.
-/

namespace Sys2Proof

/-- `sext_64(v[XLEN-1:0])`: what an integer register receives (R22). -/
def Xlen.sext (x : Xlen) (v : Word) : Word :=
  match x with
  | .w64 => v
  | .w32 => (v.setWidth 32).signExtend 64

/-- `zext_64(v[XLEN-1:0])`: what `pc` receives (R28) and what a virtual address is (R167). -/
def Xlen.zext (x : Xlen) (v : Word) : Word :=
  match x with
  | .w64 => v
  | .w32 => (v.setWidth 32).setWidth 64

/-- An operation on two `XLEN`-bit operands. -/
def Xlen.lift2 (x : Xlen) (op : (n : Nat) → BitVec n → BitVec n → BitVec n) (a b : Word) : Word :=
  match x with
  | .w64 => op 64 a b
  | .w32 => (op 32 (a.setWidth 32) (b.setWidth 32)).setWidth 64

/-- A comparison of two `XLEN`-bit operands. -/
def Xlen.test (x : Xlen) (p : (n : Nat) → BitVec n → BitVec n → Bool) (a b : Word) : Bool :=
  match x with
  | .w64 => p 64 a b
  | .w32 => p 32 (a.setWidth 32) (b.setWidth 32)

/-- An operation on the low 32 bits of two operands, its result sign-extended: the `*W` forms
(41_integer.md section 5, 44_muldiv.md section 4). -/
def liftW (op : BitVec 32 → BitVec 32 → BitVec 32) (a b : Word) : Word :=
  (op (a.setWidth 32) (b.setWidth 32)).signExtend 64

/-- 1 for true, 0 for false, as a comparison writes it. -/
def boolWord (b : Bool) : Word := if b then 1#64 else 0#64

/-- `w` with bit `i` set to `b`. -/
def setBit (w : Word) (i : Nat) (b : Bool) : Word :=
  if b then w ||| (1#64 <<< i) else w &&& ~~~(1#64 <<< i)

/-- The word with its low `n` bits set. -/
def lowMask (n : Nat) : Word := (1#64 <<< n) - 1#64

/-- `w` with its `n`-bit field at `lo` replaced by the low `n` bits of `v`. -/
def putField (w : Word) (lo n : Nat) (v : Word) : Word :=
  (w &&& ~~~(lowMask n <<< lo)) ||| ((v &&& lowMask n) <<< lo)

/-- `old` with the bits of `mask` taken from `w`: the write through a masked view (R63 to R65,
R74 to R77). -/
def maskWrite (old mask w : Word) : Word := (old &&& ~~~mask) ||| (w &&& mask)

end Sys2Proof
end

