-- ==== Sys2Proof/Machine/State.lean ====
section
/-!
DEFINITION. The machine's state, its reset, and the reasons a step can stop (10_state.md).

State is plain data. It holds the current core in full, the other cores parked beside it, what all
cores share (raw memory, `clock`, `halted`, `fatal`), the parameters, and the environment's pending
calls. `misa`, `mvendorid`, `marchid` and `mimpid` are constants and have no field (R66, R67).
-/

namespace Sys2Proof.Machine

/-- A privilege level (R29). -/
inductive Priv where
  | user
  | supervisor
  | hypervisor
  | machine
  deriving DecidableEq, Repr

/-- The kind of an access given to `translate` (20_memory.md R132). -/
inductive AccessKind where
  | read
  | write
  | readWrite
  | execute
  deriving DecidableEq, Repr

/-- A virtual-address format: the 2-level and the 3-level scheme (20_memory.md R134). -/
inductive VmFormat where
  | sv32
  | sv39
  deriving DecidableEq, Repr

/-- The width of an address-space id (R33, 20_memory.md R135). -/
abbrev VmFormat.asidBits : VmFormat → Nat
  | .sv32 => 10
  | .sv39 => 26

/-- The width of a page-table entry (20_memory.md R134). -/
abbrev VmFormat.pteBits : VmFormat → Nat
  | .sv32 => 32
  | .sv39 => 64

/-- A TLB entry (R33). -/
structure TlbEntry (f : VmFormat) where
  asid : BitVec f.asidBits
  global : Bool
  vtag : Word
  vmatch : Word
  pbase : Word
  voff : Word
  pte : BitVec f.pteBits
  pteAddr : Word
  age : Word
  deriving DecidableEq, Repr

/-- A TLB: an array of slots, each empty or holding one entry (R32). -/
abbrev Tlb (f : VmFormat) := List (Option (TlbEntry f))

/-- The pending-fetch-outcome slot (R30). -/
inductive Next where
  /-- Straight-line continuation. -/
  | none
  /-- A synchronous exception: 4-bit code and optional faulting address. -/
  | trap (code : BitVec 4) (badaddr : Option Word)
  /-- A privilege return. -/
  | ret (p : Priv)
  /-- A control transfer. -/
  | branch (target : Word)
  deriving DecidableEq, Repr

/-- The state-delta record (R36). -/
structure Delta where
  excTaken : Bool
  fetchExc : Bool
  pc : Word
  rinstr : BitVec 32
  addr : Option Word
  data1 : Option Word
  data2 : Option Word
  fpData : Option Word
  stWidth : Option Nat
  deriving DecidableEq, Repr

/-- The record with every field clear but the retiring `pc`: its value at reset and at the start of
every step (R36). -/
def Delta.clear (pc : Word) : Delta :=
  ⟨false, false, pc, 0#32, none, none, none, none, none⟩

/-- The trap-handling registers of one level: `xtvec`, `xscratch`, `xepc`, `xcause`, `xbadaddr`
(R78 to R82). -/
structure TrapBank where
  tvec : Word
  scratch : Word
  epc : Word
  cause : Word
  badaddr : Word
  deriving DecidableEq, Repr

/-- One core (10_state.md sections 1 to 9, 11, 12). -/
structure Core where
  /-- The core's id, read through `mhartid` (R68). -/
  hartid : Nat
  /-- General registers (R20). -/
  x : Vector Word 32
  /-- Floating-point registers (R24). -/
  f : Vector Word 32
  /-- The program counter (R27). -/
  pc : Word
  /-- The current privilege level (R29). -/
  cur : Priv
  /-- The pending-fetch-outcome slot (R30). -/
  next : Next
  /-- The load reservation (R31). -/
  resv : Option Word
  /-- The TLB of the 2-level format (R32). -/
  tlb32 : Tlb .sv32
  /-- The TLB of the 3-level format (R32). -/
  tlb39 : Tlb .sv39
  /-- The cycle counter (R35), read as `mcycle` and `cycle`. -/
  cycles : Word
  /-- The instruction-retired counter (R35), read as `minstret` and `instret`. -/
  instret : Word
  /-- The state-delta record (R36). -/
  delta : Delta
  /-- The machine status register (R60). -/
  mstatus : Word
  /-- Exception and interrupt delegation (R69 to R72). -/
  medeleg : Word
  mideleg : Word
  hedeleg : Word
  hideleg : Word
  sedeleg : Word
  sideleg : Word
  /-- Interrupt enable and pending (R73, R74). -/
  mie : Word
  mip : Word
  /-- The trap-handling registers of each level (R78 to R82). -/
  mBank : TrapBank
  hBank : TrapBank
  sBank : TrapBank
  uBank : TrapBank
  /-- The page-table base (R83). -/
  sptbr : Word
  /-- The counter-enable registers (R87). -/
  mucounteren : Word
  mscounteren : Word
  mhcounteren : Word
  /-- The floating-point control and status register; bits 63:8 are always zero (R91). -/
  fcsr : BitVec 8
  deriving DecidableEq, Repr

/-- Raw memory: (address, byte) in the canonical form `Memory.wf` (20_memory.md R120). -/
abbrev Memory := List Host.Cell

/-- A call of the environment (00_scope.md R11). -/
inductive Input where
  /-- The scheduler chooses the core of the next `Step` (40_step_and_fetch.md R221). -/
  | select (c : Nat)
  /-- `SetIrq(c, i, v)`, `i` in 0..11 (60_exceptions.md R497). -/
  | setIrq (c : Nat) (i : Fin 12) (v : Bool)
  /-- `Reset()` (70_reset_and_hazards.md R531). -/
  | reset
  deriving DecidableEq, Repr

/-- The state of the block. -/
structure State where
  /-- The current core. -/
  core : Core
  /-- The other cores, in rising order of id (60_exceptions.md R517). -/
  parked : List Core
  /-- Raw memory, shared by all cores (R38). -/
  mem : Memory
  /-- The shared clock (R39). -/
  clock : Word
  /-- `None`, or the status the run ended with (R39, 20_memory.md R128). -/
  halted : Option Word
  /-- The fatal flag (R39, 60_exceptions.md R520). A step that ends in `fatal` answers a fault and
  gives no state; the flag stands for that outcome in a state given from outside. -/
  fatal : Bool
  /-- The parameters; no step changes them (00_scope.md R16). -/
  params : Params
  /-- The environment's calls still to be made, the next one first. -/
  inputs : List Input
  deriving DecidableEq, Repr

/-- The host-level fatal errors: the complete list of 60_exceptions.md R521. The machine stops for
good and nothing is said of its state (R520): safe, a claim about the state after one has no subject. -/
inductive Fault where
  /-- A translation is needed and `mstatus.VM` holds a recognised mode other than 0, 8, 9
  (20_memory.md R140): raised by fetch and by every load, store and atomic. Safe. -/
  | unimplementedTranslationMode
  /-- `xRET` executed below its level (46_csr_system.md R386): raised by SRET, HRET, MRET. Safe. -/
  | returnBelowLevel
  /-- A return whose previous-privilege field is above the returning level (60_exceptions.md R510):
  raised by the resolution of HRET with `HPP = 3`. Safe. -/
  | returnAboveLevel
  deriving DecidableEq, Repr

/-- Why a call is refused with no effect (40_step_and_fetch.md R211). -/
inductive Refusal where
  /-- An instruction without a meaning: no arm answers it. Safe. -/
  | notModelled (mnemonic : String)
  /-- `Step` or `SetIrq` after a store to the test-completion address (R211, R531). Safe. -/
  | runEnded
  /-- `Step` or `SetIrq` after a fatal error (R211, R531). Safe. -/
  | fatalSet
  /-- `Step(c)` or `SetIrq(c, ..)` with no core of id `c` (R211). Safe. -/
  | noSuchCore
  deriving DecidableEq, Repr

/-! ## Reset (R100, 70_reset_and_hazards.md R530) -/

/-- All five registers of a level at 0. -/
def TrapBank.reset : TrapBank := ⟨0#64, 0#64, 0#64, 0#64, 0#64⟩

/-- Core `c` after `Reset()`. -/
def Core.reset (p : Params) (c : Nat) : Core where
  hartid := c
  x := Vector.replicate 32 0#64
  f := Vector.replicate 32 0#64
  pc := p.arch.zext p.entry
  cur := .machine
  next := .none
  resv := none
  tlb32 := List.replicate p.tlbEntries none
  tlb39 := List.replicate p.tlbEntries none
  cycles := 0#64
  instret := 0#64
  delta := Delta.clear (p.arch.zext p.entry)
  mstatus := 0#64
  medeleg := 0#64
  mideleg := 0#64
  hedeleg := 0#64
  hideleg := 0#64
  sedeleg := 0#64
  sideleg := 0#64
  mie := 0#64
  mip := 0#64
  mBank := TrapBank.reset
  hBank := TrapBank.reset
  sBank := TrapBank.reset
  uBank := TrapBank.reset
  sptbr := 0#64
  mucounteren := 0#64
  mscounteren := 0#64
  mhcounteren := 0#64
  fcsr := 0#8

/-- The machine after `Reset()` with parameters `p` (R100): core 0 current, the others parked. -/
def State.resetOf (p : Params) : State where
  core := Core.reset p 0
  parked := (List.range (p.ncores - 1)).map fun k => Core.reset p (k + 1)
  mem := p.mem0
  clock := 0#64
  halted := none
  fatal := false
  params := p
  inputs := []

/-- The machine right after reset, with the parameters of `Params.default`. -/
def State.reset : State := State.resetOf Params.default

end Sys2Proof.Machine
end

