-- ==== Sys2Proof/Machine/Ops.lean ====
section
/-!
DEFINITION. The named operations over registers, memory and the delta record; recording an exception,
taking it, and returning from it.
-/

namespace Sys2Proof.Machine

/-- The answer of a meaning. -/
abbrev Result := Host.Outcome State Fault Refusal

/-! ## Privilege levels (R29) -/

/-- The code of a level: user 0, supervisor 1, hypervisor 2, machine 3. -/
def Priv.num : Priv → Nat
  | .user => 0
  | .supervisor => 1
  | .hypervisor => 2
  | .machine => 3

/-- The code as a word. -/
def Priv.word (p : Priv) : Word := BitVec.ofNat 64 p.num

/-- The level a 2-bit field names. -/
def Priv.ofCode (c : BitVec 2) : Priv :=
  if c = 0#2 then .user else if c = 1#2 then .supervisor else if c = 2#2 then .hypervisor
  else .machine

/-- The higher of two levels. -/
def Priv.max (a b : Priv) : Priv := if a.num < b.num then b else a

/-! ## The running width (R44, R66) -/

/-- The constant `misa` of R66: `MXL` in bits 63:62 from `ARCH`, extension bits A D F I M S U. -/
def misaOf (x : Xlen) : Word :=
  match x with
  | .w32 => 0x4000000000141129#64
  | .w64 => 0x8000000000141129#64

/-- `misa` (0x301). -/
def State.misa (s : State) : Word := misaOf s.params.arch

/-- `XLEN`, which R44 derives from `misa.MXL`: 1 gives 32, otherwise 64 (40_step_and_fetch.md R210).
`misa` is the constant of `ARCH`, so this is `ARCH` (the law `xlen_eq_of_misa_mxl`). -/
def State.xlen (s : State) : Xlen := s.params.arch

/-! ## General and floating-point registers -/

/-- `x[i]`: 0 when `i = 0` (R20). -/
def State.getX (s : State) (i : RegIdx) : Word :=
  if i = 0#5 then 0#64 else s.core.x[i.toNat]'i.isLt

/-- `x[i] <- v`: discarded when `i = 0` (R20). -/
def State.setX (s : State) (i : RegIdx) (v : Word) : State :=
  { s with core := { s.core with x := if i = 0#5 then s.core.x else s.core.x.set i.toNat v i.isLt } }

/-- `f[i]` (R24). -/
def State.getF (s : State) (i : RegIdx) : Word := s.core.f[i.toNat]'i.isLt

/-- The register file part of `f[i] <- v`; the whole write is `State.wrF` (R24). -/
def State.setF (s : State) (i : RegIdx) (v : Word) : State :=
  { s with core := { s.core with f := s.core.f.set i.toNat v i.isLt } }

/-! ## The delta record (R36, R37) -/

/-- `delta.addr <- Some(v)`. -/
def State.recAddr (s : State) (v : Word) : State :=
  { s with core := { s.core with delta := { s.core.delta with addr := some v } } }
/-- `delta.data1 <- Some(v)`. -/
def State.recData1 (s : State) (v : Word) : State :=
  { s with core := { s.core with delta := { s.core.delta with data1 := some v } } }
/-- `delta.data2 <- Some(v)`. -/
def State.recData2 (s : State) (v : Word) : State :=
  { s with core := { s.core with delta := { s.core.delta with data2 := some v } } }
/-- `delta.fp_data <- Some(v)`. -/
def State.recFp (s : State) (v : Word) : State :=
  { s with core := { s.core with delta := { s.core.delta with fpData := some v } } }
/-- `delta.st_width <- Some(n)`. -/
def State.recStWidth (s : State) (n : Nat) : State :=
  { s with core := { s.core with delta := { s.core.delta with stWidth := some n } } }
/-- `delta.rinstr <- w`. -/
def State.recRinstr (s : State) (w : BitVec 32) : State :=
  { s with core := { s.core with delta := { s.core.delta with rinstr := w } } }
/-- `delta.fetch_exc <- true`. -/
def State.recFetchExc (s : State) : State :=
  { s with core := { s.core with delta := { s.core.delta with fetchExc := true } } }

/-! ## Raw memory (20_memory.md R120 to R124) -/

/-- What an unlisted address reads as: memory is zero outside the loaded segments (R530). -/
def Memory.unlisted : Byte := 0#8

/-- The byte at an address. -/
def Memory.read : Memory → Nat → Byte
  | [], _ => Memory.unlisted
  | (k, b) :: m, a => if k = a then b else Memory.read m a

/-- No entry for an address. -/
def Memory.erase : Memory → Nat → Memory
  | [], _ => []
  | (k, b) :: m, a => if k = a then Memory.erase m a else (k, b) :: Memory.erase m a

/-- An entry before the first one with a greater address. -/
def Memory.insert : Memory → Nat → Byte → Memory
  | [], a, b => [(a, b)]
  | (k, c) :: m, a, b => if a < k then (a, b) :: (k, c) :: m else (k, c) :: Memory.insert m a b

/-- Write one byte, keeping the canonical form: a byte equal to what an unlisted address reads as is
not listed. -/
def Memory.write (m : Memory) (a : Nat) (b : Byte) : Memory :=
  if b = Memory.unlisted then m.erase a else (m.erase a).insert a b

/-- Addresses rise from `lo`, lie in the 64-bit space, and no listed byte is the unlisted one. -/
def Memory.wfFrom : Nat → Memory → Bool
  | _, [] => true
  | lo, (k, b) :: m =>
    decide (lo ≤ k) && decide (k < 2 ^ 64) && (b != Memory.unlisted) && Memory.wfFrom (k + 1) m

/-- The canonical form, so that equal memories are equal data. -/
def Memory.wf (m : Memory) : Bool := Memory.wfFrom 0 m

/-- `MemRead(pa, n)`, zero-extended: byte `k` at `(pa + k) mod 2^64`, little-endian (R122, R124). -/
def Memory.readLE (m : Memory) (pa : Word) : Nat → Word
  | 0 => 0#64
  | n + 1 => (m.read pa.toNat).setWidth 64 ||| (m.readLE (pa + 1#64) n <<< 8)

/-- `MemWrite(pa, n, v)`: the low `n` bytes of `v`, little-endian (R123, R124). -/
def Memory.writeLE (m : Memory) (pa : Word) : Nat → Word → Memory
  | 0, _ => m
  | n + 1, v => (m.write pa.toNat (v.setWidth 8)).writeLE (pa + 1#64) n (v >>> 8)

/-- `zext_64(v[8n-1:0])`. -/
def lowBytes (n : Nat) (v : Word) : Word := v &&& lowMask (8 * n)

/-! ## Recording an exception (60_exceptions.md R482) -/

/-- `raise E(code, badaddr)`: the trap descriptor goes into `next` and the instruction ends; the
resolution stage takes it. -/
def State.raise (s : State) (code : BitVec 4) (badaddr : Option Word) : State :=
  { s with core := { s.core with
      next := .trap code badaddr
      delta := { s.core.delta with
        excTaken := true
        addr := badaddr.or s.core.delta.addr } } }

/-- `next <- Branch(t)` or `next <- Ret(P)` (R30). -/
def State.setNext (s : State) (n : Next) : State :=
  { s with core := { s.core with next := n } }

/-- `resv <- r` (R31). -/
def State.setResv (s : State) (r : Option Word) : State :=
  { s with core := { s.core with resv := r } }

/-! ## The status register (R60) -/

/-- `mstatus.IE[p]`: UIE, SIE, HIE, MIE, bits 0 to 3. -/
def statusIE (m : Word) (p : Priv) : Bool := m.getLsbD p.num
/-- `mstatus.PIE[p]`: UPIE, SPIE, HPIE, MPIE, bits 4 to 7. -/
def statusPIE (m : Word) (p : Priv) : Bool := m.getLsbD (4 + p.num)
/-- `mstatus.MPRV`, bit 17. -/
def statusMPRV (m : Word) : Bool := m.getLsbD 17
/-- `mstatus.PUM`, bit 18. -/
def statusPUM (m : Word) : Bool := m.getLsbD 18
/-- `mstatus.MXR`, bit 19. -/
def statusMXR (m : Word) : Bool := m.getLsbD 19
/-- `mstatus.VM`, bits 28:24. -/
def statusVM (m : Word) : BitVec 5 := m.extractLsb' 24 5

/-- The previous privilege of a level: MPP 12:11, HPP 10:9, SPP 8; user has none and returns to
user (R60, R510). -/
def statusPrev (m : Word) : Priv → Priv
  | .machine => Priv.ofCode (m.extractLsb' 11 2)
  | .hypervisor => Priv.ofCode (m.extractLsb' 9 2)
  | .supervisor => if m.getLsbD 8 then .supervisor else .user
  | .user => .user

/-- Write the previous privilege of a level; `SPP` takes bit 0 of the code (R505). -/
def statusPutPrev (m : Word) (p q : Priv) : Word :=
  match p with
  | .machine => putField m 11 2 q.word
  | .hypervisor => putField m 9 2 q.word
  | .supervisor => putField m 8 1 q.word
  | .user => m

/-- The status register after a trap from level `cur` into level `t` (R505): `PIE[t]` takes the
current level's enable, the previous privilege is `cur`, `IE[t]` is cleared. -/
def statusTrap (m : Word) (cur t : Priv) : Word :=
  setBit (statusPutPrev (setBit m (4 + t.num) (statusIE m cur)) t cur) t.num false

/-- The status register after a return from level `p` (R510): the enable of the level returned to is
`PIE[p]`, the previous privilege becomes user, `PIE[p]` becomes 1. -/
def statusReturn (m : Word) (p : Priv) : Word :=
  setBit (statusPutPrev (setBit m (statusPrev m p).num (statusPIE m p)) p .user) (4 + p.num) true

/-! ## Taking an exception and returning from it -/

/-- The trap-handling registers of a level. -/
def Core.bank (c : Core) : Priv → TrapBank
  | .machine => c.mBank
  | .hypervisor => c.hBank
  | .supervisor => c.sBank
  | .user => c.uBank

/-- Replace the trap-handling registers of a level. -/
def Core.setBank (c : Core) (p : Priv) (b : TrapBank) : Core :=
  { c with
    mBank := if p = .machine then b else c.mBank
    hBank := if p = .hypervisor then b else c.hBank
    sBank := if p = .supervisor then b else c.sBank
    uBank := if p = .user then b else c.uBank }

/-- The cause register's value at dispatch: bit 63 the interrupt flag, bits 3:0 the code (R81). -/
def causeWord (intr : Bool) (code : BitVec 4) : Word := setBit (code.setWidth 64) 63 intr

/-- The bank of the target level after a trap: return PC, cause, and for an exception with a faulting
address the address (R505). -/
def TrapBank.enter (b : TrapBank) (intr : Bool) (code : BitVec 4) (epc : Word)
    (badaddr : Option Word) : TrapBank :=
  { b with
    epc := epc
    cause := causeWord intr code
    badaddr := if intr then b.badaddr else badaddr.getD b.badaddr }

/-- `trap_entry(intr, code, T, epc, badaddr)` (R505). -/
def State.trapEntry (s : State) (intr : Bool) (code : BitVec 4) (t : Priv) (epc : Word)
    (badaddr : Option Word) : State :=
  { s with core :=
    { s.core.setBank t ((s.core.bank t).enter intr code epc badaddr) with
      mstatus := statusTrap s.core.mstatus s.core.cur t
      pc := s.xlen.zext (s.core.bank t).tvec
      cur := t
      delta := { s.core.delta with excTaken := true } } }

/-- `priv_return(P)` (R510); `fatal` when the previous privilege is above `P`. -/
def State.privReturn (s : State) (p : Priv) : Result :=
  if p.num < (statusPrev s.core.mstatus p).num then .fault .returnAboveLevel
  else .next { s with core := { s.core with
    mstatus := statusReturn s.core.mstatus p
    cur := statusPrev s.core.mstatus p
    pc := s.xlen.zext ((s.core.bank p).epc &&& ~~~3#64) } }

end Sys2Proof.Machine
end

