-- ==== Sys2Proof/Machine/Cores.lean ====
section
/-!
DEFINITION. The environment's calls between steps: choosing the core, `SetIrq`, `Reset`
(40_step_and_fetch.md R211, R221; 60_exceptions.md R497; 70_reset_and_hazards.md R531).
-/

namespace Sys2Proof.Machine

/-- Put a core among the parked ones, kept in rising order of id. -/
def insertCore (c : Core) : List Core → List Core
  | [] => [c]
  | d :: rest => if c.hartid < d.hartid then c :: d :: rest else d :: insertCore c rest

/-- The parked core of an id, and the others. -/
def takeCore (id : Nat) : List Core → Option (Core × List Core)
  | [] => none
  | d :: rest =>
    if d.hartid = id then some (d, rest)
    else match takeCore id rest with
      | none => none
      | some (c, others) => some (c, d :: others)

/-- The scheduler chooses core `c`; an id that is no core's is refused (R211). -/
def State.selectCore (s : State) (c : Nat) : Result :=
  if s.core.hartid = c then .next s
  else match takeCore c s.parked with
    | none => .refused .noSuchCore
    | some (d, others) => .next { s with core := d, parked := insertCore s.core others }

/-- `mip[i] <- v` (R497). -/
def Core.setIrq (c : Core) (i : Fin 12) (v : Bool) : Core := { c with mip := setBit c.mip i.val v }

/-- `SetIrq(c, i, v)` (R497); after the run has ended or failed only `Reset` is accepted (R531). -/
def State.setIrq (s : State) (c : Nat) (i : Fin 12) (v : Bool) : Result :=
  if s.fatal then .refused .fatalSet
  else if s.halted.isSome then .refused .runEnded
  else if s.core.hartid = c then .next { s with core := s.core.setIrq i v }
  else if s.parked.any fun d => d.hartid == c then
    .next { s with parked := s.parked.map fun d => if d.hartid = c then d.setIrq i v else d }
  else .refused .noSuchCore

/-- Make the calls of the list up to and including the first choice of a core; with none left the same
core steps again (log entry 6). -/
def State.applyCalls (s : State) : List Input → Result
  | [] => .next { s with inputs := [] }
  | .select c :: rest => ({ s with inputs := rest } : State).selectCore c
  | .setIrq c i v :: rest => match s.setIrq c i v with
    | .next t => t.applyCalls rest
    | .fault r => .fault r
    | .refused r => .refused r
  | .reset :: rest => (State.resetOf s.params).applyCalls rest

/-- The calls pending in the state. -/
def State.applyInputs (s : State) : Result := s.applyCalls s.inputs

end Sys2Proof.Machine
end

