-- ==== Sys2Proof/Machine/Translate.lean ====
section
/-!
DEFINITION. Address translation and the TLBs (20_memory.md R130 to R160).

A page-table entry keeps the width of its format, 32 or 64 bits; the functions on entries are the
same for both.
-/

namespace Sys2Proof.Machine

/-! ## Formats (R134, R135) -/

/-- The level of the root table: `L - 1`. -/
def VmFormat.rootLevel : VmFormat → Nat
  | .sv32 => 1
  | .sv39 => 2

/-- The width of an index. -/
def VmFormat.indexBits : VmFormat → Nat
  | .sv32 => 10
  | .sv39 => 9

/-- The size `S` of a page-table entry in bytes. -/
def VmFormat.pteBytes : VmFormat → Nat
  | .sv32 => 4
  | .sv39 => 8

/-- The virtual-address bits the format uses: 31:0 or 38:0. -/
def VmFormat.vaBits : VmFormat → Nat
  | .sv32 => 32
  | .sv39 => 39

/-- The width of a page number: 22 or 38. -/
def VmFormat.ppnBits : VmFormat → Nat
  | .sv32 => 22
  | .sv39 => 38

/-- The lowest virtual-address bit that selects a page of level `i`: `12 + i * index width`. -/
def VmFormat.pageShift (f : VmFormat) (i : Nat) : Nat := 12 + i * f.indexBits

/-- `vpn(va, i)` (R134). -/
def VmFormat.vpn (f : VmFormat) (va : Word) (i : Nat) : Word :=
  (va >>> f.pageShift i) &&& lowMask f.indexBits

/-- The address-space id in `sptbr` (R135): bits 31:22 or 63:38. -/
def VmFormat.asidOf : (f : VmFormat) → Word → BitVec f.asidBits
  | .sv32, sptbr => sptbr.extractLsb' 22 10
  | .sv39, sptbr => sptbr.extractLsb' 38 26

/-- The root table's address (R135): the page number in `sptbr`, bits 21:0 or 37:0, times 4096. -/
def VmFormat.root (f : VmFormat) (sptbr : Word) : Word := (sptbr &&& lowMask f.ppnBits) <<< 12

/-! ## Page-table entries (R136, R138) -/

def pteV {n : Nat} (p : BitVec n) : Bool := p.getLsbD 0
def pteR {n : Nat} (p : BitVec n) : Bool := p.getLsbD 1
def pteW {n : Nat} (p : BitVec n) : Bool := p.getLsbD 2
def pteX {n : Nat} (p : BitVec n) : Bool := p.getLsbD 3
def pteU {n : Nat} (p : BitVec n) : Bool := p.getLsbD 4
def pteG {n : Nat} (p : BitVec n) : Bool := p.getLsbD 5

/-- Invalid: `V = 0`, or writable without readable (R138). -/
def pteInvalid {n : Nat} (p : BitVec n) : Bool := !pteV p || (pteW p && !pteR p)

/-- A pointer to the next level: every permission bit clear (R138). -/
def ptePointer {n : Nat} (p : BitVec n) : Bool := !pteR p && !pteW p && !pteX p

/-- `zext_64(ppn(pte)) << 12`: bits 31:10 or 47:10 (R136). -/
def VmFormat.ppnBase (f : VmFormat) {n : Nat} (p : BitVec n) : Word :=
  ((p.setWidth 64 >>> 10) &&& lowMask f.ppnBits) <<< 12

/-- `ad_update(pte, kind)`: A is set, and D for `Write` and `ReadWrite` (R144). -/
def adUpdate {n : Nat} (p : BitVec n) (k : AccessKind) : BitVec n :=
  match k with
  | .read | .execute => p ||| BitVec.ofNat n 0x40
  | .write | .readWrite => p ||| BitVec.ofNat n 0xC0

/-- `perm_ok(pte, kind, priv, mxr, pum)` (R147). -/
def permOk {n : Nat} (p : BitVec n) (k : AccessKind) (priv : Priv) (mxr pum : Bool) : Bool :=
  if priv = .user ∧ pteU p = false then false
  else if priv = .supervisor ∧ pteU p = true ∧ pum = true then false
  else
    match k with
    | .read => pteR p || (pteX p && mxr)
    | .write => pteW p
    | .readWrite => (pteR p || (pteX p && mxr)) && pteW p
    | .execute => pteX p

/-! ## Masks of a leaf at level `i` (R33, R146) -/

/-- `voff`: the virtual-address bits copied into the physical address. -/
def VmFormat.voff (f : VmFormat) (i : Nat) : Word := lowMask (f.pageShift i)

/-- `vmatch`: the virtual-address bits that select the page. -/
def VmFormat.vmatch (f : VmFormat) (i : Nat) : Word := lowMask f.vaBits &&& ~~~(f.voff i)

/-- `pbase`: the first byte of the page; the page-number fields below level `i` are ignored (R146). -/
def VmFormat.pbase (f : VmFormat) (i : Nat) {n : Nat} (p : BitVec n) : Word :=
  f.ppnBase p &&& ~~~(f.voff i)

/-- `phys(fmt, i, pte, va)` (R146). -/
def VmFormat.phys (f : VmFormat) (i : Nat) {n : Nat} (p : BitVec n) (va : Word) : Word :=
  f.pbase i p ||| (va &&& f.voff i)

/-! ## The walk (R145) -/

/-- A leaf the walk found: its level, the entry, the address it was read from, and the global flag,
the OR of the G bits along the path (R150). -/
structure Leaf (f : VmFormat) where
  level : Nat
  pte : BitVec f.pteBits
  pteAddr : Word
  global : Bool
  deriving DecidableEq, Repr

/-- The walk from level `i` with table address `a`: physical, untranslated reads. -/
def walkFrom (f : VmFormat) (m : Memory) (va : Word) (k : AccessKind) (priv : Priv) (mxr pum : Bool) :
    (i : Nat) → (a : Word) → (g : Bool) → Option (Leaf f)
  | i, a, g =>
    let pteAddr := a + f.vpn va i * BitVec.ofNat 64 f.pteBytes
    let pte : BitVec f.pteBits := (m.readLE pteAddr f.pteBytes).setWidth f.pteBits
    if pteInvalid pte then none
    else if ptePointer pte then
      match i with
      | 0 => none
      | j + 1 => walkFrom f m va k priv mxr pum j (f.ppnBase pte) (g || pteG pte)
    else if permOk pte k priv mxr pum then some ⟨i, pte, pteAddr, g || pteG pte⟩
    else none

/-- `walk(fmt, va, kind, priv, mxr, pum)` from the root (R145). -/
def walk (f : VmFormat) (m : Memory) (sptbr va : Word) (k : AccessKind) (priv : Priv)
    (mxr pum : Bool) : Option (Leaf f) :=
  walkFrom f m va k priv mxr pum f.rootLevel (f.root sptbr) false

/-! ## The TLB (R142, R149, R160) -/

/-- The entry answers for this id and address (R142). -/
def TlbEntry.hit {f : VmFormat} (e : TlbEntry f) (asid : BitVec f.asidBits) (va : Word) : Bool :=
  (e.global || e.asid == asid) && (va &&& e.vmatch) == e.vtag

/-- `tlb_lookup`: the lowest-numbered slot whose entry answers, with the entry (R142). -/
def Tlb.lookup {f : VmFormat} (t : Tlb f) (asid : BitVec f.asidBits) (va : Word) :
    Option (Nat × TlbEntry f) :=
  match t with
  | [] => none
  | none :: rest => (Tlb.lookup rest asid va).map fun r => (r.1 + 1, r.2)
  | some e :: rest =>
    if e.hit asid va then some (0, e) else (Tlb.lookup rest asid va).map fun r => (r.1 + 1, r.2)

/-- The lowest-numbered empty slot. -/
def Tlb.firstEmpty {f : VmFormat} (t : Tlb f) : Option Nat :=
  match t with
  | [] => none
  | none :: _ => some 0
  | some _ :: rest => (Tlb.firstEmpty rest).map (· + 1)

/-- The slot with the smallest age, the lowest-numbered among equals, with that age (R149). -/
def Tlb.oldest {f : VmFormat} (t : Tlb f) : Option (Nat × Word) :=
  match t with
  | [] => none
  | none :: rest => (Tlb.oldest rest).map fun r => (r.1 + 1, r.2)
  | some e :: rest =>
    match Tlb.oldest rest with
    | none => some (0, e.age)
    | some (k, a) => if a < e.age then some (k + 1, a) else some (0, e.age)

/-- The slot an insertion takes: an empty one if there is one, else the oldest (R149). -/
def Tlb.victim {f : VmFormat} (t : Tlb f) : Nat :=
  match t.firstEmpty with
  | some k => k
  | none => match t.oldest with
    | some (k, _) => k
    | none => 0

/-- Put an entry into a slot. -/
def Tlb.put {f : VmFormat} (t : Tlb f) (k : Nat) (e : TlbEntry f) : Tlb f := List.set t k (some e)

/-- The entry an insertion makes (R149). -/
def TlbEntry.make {f : VmFormat} (asid : BitVec f.asidBits) (l : Leaf f) (pte : BitVec f.pteBits)
    (va cycles : Word) : TlbEntry f where
  asid := asid
  global := l.global
  vtag := va &&& f.vmatch l.level
  vmatch := f.vmatch l.level
  pbase := f.pbase l.level pte
  voff := f.voff l.level
  pte := pte
  pteAddr := l.pteAddr
  age := cycles

/-- `tlb_flush` clears the entry (R160): without an address, every entry when the id is 0 and
otherwise the entries of the id that are not global; with an address, every entry whose page holds
it. -/
def TlbEntry.flushed {f : VmFormat} (e : TlbEntry f) (id : BitVec f.asidBits) (va : Option Word) :
    Bool :=
  match va with
  | none => id == BitVec.ofNat _ 0 || (e.asid == id && !e.global)
  | some v => (v &&& e.vmatch) == e.vtag

/-- `tlb_flush(fmt, id, vaddr_opt)` (R160). -/
def Tlb.flush {f : VmFormat} (t : Tlb f) (id : BitVec f.asidBits) (va : Option Word) : Tlb f :=
  t.map fun slot =>
    match slot with
    | none => none
    | some e => if e.flushed id va then none else some e

/-- The TLB of a format (R134). -/
def Core.tlb (c : Core) : (f : VmFormat) → Tlb f
  | .sv32 => c.tlb32
  | .sv39 => c.tlb39

/-- The 2-level TLB after replacing the TLB of format `f`. -/
def putTlb32 (old : Tlb .sv32) : (f : VmFormat) → Tlb f → Tlb .sv32
  | .sv32, t => t
  | .sv39, _ => old

/-- The 3-level TLB after replacing the TLB of format `f`. -/
def putTlb39 (old : Tlb .sv39) : (f : VmFormat) → Tlb f → Tlb .sv39
  | .sv32, _ => old
  | .sv39, t => t

/-- Replace the TLB of a format. -/
def Core.setTlb (c : Core) (f : VmFormat) (t : Tlb f) : Core :=
  { c with tlb32 := putTlb32 c.tlb32 f t, tlb39 := putTlb39 c.tlb39 f t }

/-! ## Translation (R140, R141) -/

/-- The answer of `translate`: a physical address with the state after accessed and dirty bits and
the TLB are updated; no translation, which changes nothing (R153); or a fatal error. -/
inductive Xlat where
  | mapped (pa : Word) (s : State)
  | unmapped
  | fatal
  deriving DecidableEq, Repr

/-- The write-back of an updated entry: raw memory, `S` bytes, no test-completion check (R128,
R144). -/
def State.writePte (s : State) (f : VmFormat) (pteAddr : Word) (p : BitVec f.pteBits) : State :=
  { s with mem := s.mem.writeLE pteAddr f.pteBytes (p.setWidth 64) }

/-- The state after a hit in slot `k`: when the access sets a bit that was clear, the entry is
written back, kept in the slot, and its age refreshed (R141, R152). -/
def State.hitUpdate (s : State) (f : VmFormat) (k : Nat) (e : TlbEntry f) (p : BitVec f.pteBits) :
    State :=
  if p = e.pte then s
  else { s.writePte f e.pteAddr p with
    core := s.core.setTlb f ((s.core.tlb f).put k { e with pte := p, age := s.core.cycles }) }

/-- The state after a miss whose walk found leaf `l`: write-back if a bit was clear, then insertion
(R141, R149). -/
def State.missUpdate (s : State) (f : VmFormat) (asid : BitVec f.asidBits) (l : Leaf f)
    (p : BitVec f.pteBits) (va : Word) : State :=
  { s with
    mem := if p = l.pte then s.mem else s.mem.writeLE l.pteAddr f.pteBytes (p.setWidth 64)
    core := s.core.setTlb f
      ((s.core.tlb f).put (s.core.tlb f).victim (TlbEntry.make asid l p va s.core.cycles)) }

/-- `translate_paged(fmt, va, kind, priv, mxr, pum)` (R141). -/
def State.translatePaged (s : State) (f : VmFormat) (va : Word) (k : AccessKind) (priv : Priv)
    (mxr pum : Bool) : Xlat :=
  let asid := f.asidOf s.core.sptbr
  match (s.core.tlb f).lookup asid va with
  | some (slot, e) =>
    if permOk e.pte k priv mxr pum then
      .mapped (e.pbase ||| (va &&& e.voff)) (s.hitUpdate f slot e (adUpdate e.pte k))
    else .unmapped
  | none =>
    match walk f s.mem s.core.sptbr va k priv mxr pum with
    | none => .unmapped
    | some l =>
      .mapped (f.phys l.level (adUpdate l.pte k) va)
        (s.missUpdate f asid l (adUpdate l.pte k) va)

/-- `translate(va, kind, priv, mxr, pum)` (R140): machine level and mode 0 are the identity, modes 8
and 9 the two formats, any other mode fatal. -/
def State.translate (s : State) (va : Word) (k : AccessKind) (priv : Priv) (mxr pum : Bool) : Xlat :=
  if priv = .machine then .mapped va s
  else if statusVM s.core.mstatus = 0#5 then .mapped va s
  else if statusVM s.core.mstatus = 8#5 then s.translatePaged .sv32 va k priv mxr pum
  else if statusVM s.core.mstatus = 9#5 then s.translatePaged .sv39 va k priv mxr pum
  else .fatal

/-- The recognised modes, which a status write accepts (R130). -/
def vmRecognised (v : BitVec 5) : Bool :=
  v == 0#5 || v == 1#5 || v == 2#5 || v == 8#5 || v == 9#5 || v == 10#5 || v == 11#5 || v == 12#5

end Sys2Proof.Machine
end

