-- ==== Sys2Proof/Machine/Access.lean ====
section
/-!
DEFINITION. Virtual access helpers: the reads and writes an instruction makes (20_memory.md R165,
R166) and the test-completion channel (R128).
-/

namespace Sys2Proof.Machine

/-- `data_priv()`: `mstatus.MPP` when `MPRV` is set, else the current level (R131, R165). -/
def State.dataPriv (s : State) : Priv :=
  if statusMPRV s.core.mstatus then statusPrev s.core.mstatus .machine else s.core.cur

/-- The translation of a data access (R131). -/
def State.translateData (s : State) (va : Word) (k : AccessKind) : Xlat :=
  s.translate va k s.dataPriv (statusMXR s.core.mstatus) (statusPUM s.core.mstatus)

/-- `vread(va, n, kind)` and the instruction's continuation with the physical address and the value:
a failed translation raises code 13 for a read and 15 otherwise (R165). -/
def State.vread (s : State) (va : Word) (n : Nat) (k : AccessKind)
    (cont : Word → Word → State → Result) : Result :=
  match s.translateData va k with
  | .fatal => .fault .unimplementedTranslationMode
  | .unmapped => .next (s.raise (if k = .read then 13#4 else 15#4) (some va))
  | .mapped pa t => cont pa (t.mem.readLE pa n) (t.recAddr va)

/-- `pwrite(va, pa, n, v)` (R166): the bytes, the test-completion check on the first byte's address
(R128), and the reservation cleared when it is exactly `va` (45_atomics.md R346). -/
def State.pwrite (s : State) (va pa : Word) (n : Nat) (v : Word) : State :=
  { s with
    mem := s.mem.writeLE pa n v
    halted := if pa = s.params.exitAddr then some (lowBytes n v) else s.halted
    core := { s.core with
      resv := if s.core.resv = some va then none else s.core.resv
      delta := { s.core.delta with addr := some va, stWidth := some n } } }

/-- `vwrite(va, n, v)` and the instruction's continuation: a failed translation raises code 15
(R166). -/
def State.vwrite (s : State) (va : Word) (n : Nat) (v : Word) (cont : State → Result) : Result :=
  match s.translateData va .write with
  | .fatal => .fault .unimplementedTranslationMode
  | .unmapped => .next (s.raise 15#4 (some va))
  | .mapped pa t => cont (t.pwrite va pa n v)

end Sys2Proof.Machine
end

