-- ==== Sys2Proof/Machine/Operands.lean ====
section
/-!
DEFINITION. Operands and results at the running width (10_state.md R22, 30_encoding.md R182,
43_load_store.md R300).

A register operand is read whole; the operation takes its low `XLEN` bits (`Xlen.lift2`,
`Xlen.test`), so the upper half of a source is never used at width 32.
-/

namespace Sys2Proof.Machine

/-- `wr(rd, v)`: `x[rd]` and `delta.data1` receive `sext_64(v)`, the record also when `rd = 0` (R22). -/
def State.wr (s : State) (rd : RegIdx) (v : Word) : State :=
  (s.setX rd (s.xlen.sext v)).recData1 (s.xlen.sext v)

/-- The 12-bit I or S immediate, sign-extended (R182). -/
def immWord (imm : BitVec 12) : Word := imm.signExtend 64

/-- The U immediate: `{imm20, 0x000}`, sign-extended from bit 31 (R182). -/
def upperImm (imm : BitVec 20) : Word := (imm ++ 0#12).signExtend 64

/-- A branch or jump offset, sign-extended (R182). -/
def offWord {n : Nat} (off : BitVec n) : Word := off.signExtend 64

/-- The effective address of a load or store: the `XLEN`-bit sum, zero-extended (R300). -/
def State.ea (s : State) (rs1 : RegIdx) (imm : BitVec 12) : Word :=
  s.xlen.zext (s.getX rs1 + immWord imm)

/-- The address of an atomic: `zext_64(src(rs1))` (45_atomics.md R340). -/
def State.amoAddr (s : State) (rs1 : RegIdx) : Word := s.xlen.zext (s.getX rs1)

/-- The address is a multiple of `n`, a power of two (R341, R343, R348). -/
def aligned (va : Word) (n : Nat) : Bool := va.toNat % n == 0

/-- The target of a transfer relative to `pc` (42_control_transfer.md R290, R291). -/
def State.relTarget (s : State) {n : Nat} (off : BitVec n) : Word :=
  s.xlen.zext (s.core.pc + offWord off)

/-! ## Operations on `XLEN`-bit operands -/

def opAdd (n : Nat) (a b : BitVec n) : BitVec n := a + b
def opSub (n : Nat) (a b : BitVec n) : BitVec n := a - b
def opAnd (n : Nat) (a b : BitVec n) : BitVec n := a &&& b
def opOr (n : Nat) (a b : BitVec n) : BitVec n := a ||| b
def opXor (n : Nat) (a b : BitVec n) : BitVec n := a ^^^ b

/-- The shift amount: the low 6 bits of an operand at width 64, the low 5 at width 32 (R244). -/
def shiftAmount {n : Nat} (b : BitVec n) : Nat := b.toNat % n

def opSll (n : Nat) (a b : BitVec n) : BitVec n := a <<< shiftAmount b
def opSrl (n : Nat) (a b : BitVec n) : BitVec n := a >>> shiftAmount b
def opSra (n : Nat) (a b : BitVec n) : BitVec n := a.sshiftRight (shiftAmount b)

def testEq (n : Nat) (a b : BitVec n) : Bool := a == b
def testLt (n : Nat) (a b : BitVec n) : Bool := a.slt b
def testLtu (n : Nat) (a b : BitVec n) : Bool := a.ult b

/-! ## Multiply, divide, remainder (44_muldiv.md R320: exact products, then sliced) -/

def opMul (n : Nat) (a b : BitVec n) : BitVec n := a * b
/-- Bits `2n-1:n` of the signed product. -/
def opMulh (n : Nat) (a b : BitVec n) : BitVec n := BitVec.ofInt n (a.toInt * b.toInt / 2 ^ n)
/-- Bits `2n-1:n` of the product of `a` signed and `b` unsigned. -/
def opMulhsu (n : Nat) (a b : BitVec n) : BitVec n := BitVec.ofInt n (a.toInt * b.toNat / 2 ^ n)
/-- Bits `2n-1:n` of the unsigned product. -/
def opMulhu (n : Nat) (a b : BitVec n) : BitVec n := BitVec.ofNat n (a.toNat * b.toNat / 2 ^ n)

/-- The least signed value, `MIN` of R320. -/
def minSigned (n : Nat) : BitVec n := BitVec.ofNat n (2 ^ (n - 1))

/-- DIV: all ones by zero, the dividend for `MIN / -1`, otherwise truncated toward zero (R325). -/
def opDiv (n : Nat) (a b : BitVec n) : BitVec n :=
  if b = BitVec.ofNat n 0 then BitVec.allOnes n
  else if a = minSigned n ∧ b = BitVec.allOnes n then a
  else BitVec.ofInt n (a.toInt.tdiv b.toInt)
/-- DIVU: all ones by zero, otherwise the floor of the quotient (R326). -/
def opDivu (n : Nat) (a b : BitVec n) : BitVec n :=
  if b = BitVec.ofNat n 0 then BitVec.allOnes n else BitVec.ofNat n (a.toNat / b.toNat)
/-- REM: the dividend by zero, 0 for `MIN / -1`, otherwise with the sign of the dividend (R327). -/
def opRem (n : Nat) (a b : BitVec n) : BitVec n :=
  if b = BitVec.ofNat n 0 then a
  else if a = minSigned n ∧ b = BitVec.allOnes n then BitVec.ofNat n 0
  else BitVec.ofInt n (a.toInt - a.toInt.tdiv b.toInt * b.toInt)
/-- REMU: the dividend by zero, otherwise the remainder (R328). -/
def opRemu (n : Nat) (a b : BitVec n) : BitVec n :=
  if b = BitVec.ofNat n 0 then a else BitVec.ofNat n (a.toNat % b.toNat)

/-! ## The operations of the AMOs, on `8n`-bit values (45_atomics.md R349 to R366) -/

def amoSwap (k : Nat) (_ s : BitVec k) : BitVec k := s
def amoMin (k : Nat) (old s : BitVec k) : BitVec k := if old.slt s then old else s
def amoMax (k : Nat) (old s : BitVec k) : BitVec k := if old.slt s then s else old
def amoMinu (k : Nat) (old s : BitVec k) : BitVec k := if old.ult s then old else s
def amoMaxu (k : Nat) (old s : BitVec k) : BitVec k := if old.ult s then s else old

end Sys2Proof.Machine
end

