-- ==== Sys2Proof/Machine/Atomic.lean ====
section
/-!
DEFINITION. Load-reserved, store-conditional and the atomic memory operations (45_atomics.md). The alignment test
comes first.
-/

namespace Sys2Proof.Machine

/-- LR of `n` bytes at `va` (R341, R342). -/
def State.loadReserved (s : State) (rd : RegIdx) (va : Word) (n : Nat) : Result :=
  if aligned va n then
    s.vread va n .read fun _ v t => .next ((t.setResv (some va)).wr rd ((v.setWidth (8 * n)).signExtend 64))
  else .next (s.raise 4#4 (some va))

/-- SC of the low `n` bytes of `d` at `va` (R343, R344): alignment, then the reservation, then the
translation; a failing one makes no access and keeps the reservation. -/
def State.storeConditional (s : State) (rd : RegIdx) (va : Word) (n : Nat) (d : Word) : Result :=
  if aligned va n then
    if s.core.resv = some va then
      s.vwrite va n d fun t => .next (((t.setResv none).recData2 (lowBytes n d)).wr rd 0#64)
    else .next ((s.recAddr va).wr rd 1#64)
  else .next (s.raise 6#4 (some va))

/-- The common operation of the AMOs: one translation for the read and the write (R348). -/
def State.amo (s : State) (rd : RegIdx) (va : Word) (n : Nat)
    (op : BitVec (8 * n) → BitVec (8 * n) → BitVec (8 * n)) (src : Word) : Result :=
  if aligned va n then
    s.vread va n .readWrite fun pa m t =>
      let new := (op (m.setWidth (8 * n)) (src.setWidth (8 * n))).setWidth 64
      .next (((t.pwrite va pa n new).recData2 new).wr rd ((m.setWidth (8 * n)).signExtend 64))
  else .next (s.raise 6#4 (some va))

/-- LR.W (R341). -/
def execLrW (rd : RegIdx) (rs1 : RegIdx) (s : State) : Result :=
  s.loadReserved rd (s.amoAddr rs1) 4

/-- LR.D (R342). -/
def execLrD (rd : RegIdx) (rs1 : RegIdx) (s : State) : Result :=
  s.loadReserved rd (s.amoAddr rs1) 8

/-- SC.W (R343). -/
def execScW (rd : RegIdx) (rs1 : RegIdx) (rs2 : RegIdx) (s : State) : Result :=
  s.storeConditional rd (s.amoAddr rs1) 4 (s.getX rs2)

/-- SC.D (R344). -/
def execScD (rd : RegIdx) (rs1 : RegIdx) (rs2 : RegIdx) (s : State) : Result :=
  s.storeConditional rd (s.amoAddr rs1) 8 (s.getX rs2)

/-- AMOSWAP.W (R349). -/
def execAmoswapW (rd : RegIdx) (rs1 : RegIdx) (rs2 : RegIdx) (s : State) : Result :=
  s.amo rd (s.amoAddr rs1) 4 (amoSwap 32) (s.getX rs2)

/-- AMOADD.W (R350). -/
def execAmoaddW (rd : RegIdx) (rs1 : RegIdx) (rs2 : RegIdx) (s : State) : Result :=
  s.amo rd (s.amoAddr rs1) 4 (opAdd 32) (s.getX rs2)

/-- AMOXOR.W (R351). -/
def execAmoxorW (rd : RegIdx) (rs1 : RegIdx) (rs2 : RegIdx) (s : State) : Result :=
  s.amo rd (s.amoAddr rs1) 4 (opXor 32) (s.getX rs2)

/-- AMOAND.W (R352). -/
def execAmoandW (rd : RegIdx) (rs1 : RegIdx) (rs2 : RegIdx) (s : State) : Result :=
  s.amo rd (s.amoAddr rs1) 4 (opAnd 32) (s.getX rs2)

/-- AMOOR.W (R353). -/
def execAmoorW (rd : RegIdx) (rs1 : RegIdx) (rs2 : RegIdx) (s : State) : Result :=
  s.amo rd (s.amoAddr rs1) 4 (opOr 32) (s.getX rs2)

/-- AMOMIN.W (R354). -/
def execAmominW (rd : RegIdx) (rs1 : RegIdx) (rs2 : RegIdx) (s : State) : Result :=
  s.amo rd (s.amoAddr rs1) 4 (amoMin 32) (s.getX rs2)

/-- AMOMAX.W (R355). -/
def execAmomaxW (rd : RegIdx) (rs1 : RegIdx) (rs2 : RegIdx) (s : State) : Result :=
  s.amo rd (s.amoAddr rs1) 4 (amoMax 32) (s.getX rs2)

/-- AMOMINU.W (R356). -/
def execAmominuW (rd : RegIdx) (rs1 : RegIdx) (rs2 : RegIdx) (s : State) : Result :=
  s.amo rd (s.amoAddr rs1) 4 (amoMinu 32) (s.getX rs2)

/-- AMOMAXU.W (R357). -/
def execAmomaxuW (rd : RegIdx) (rs1 : RegIdx) (rs2 : RegIdx) (s : State) : Result :=
  s.amo rd (s.amoAddr rs1) 4 (amoMaxu 32) (s.getX rs2)

/-- AMOSWAP.D (R358). -/
def execAmoswapD (rd : RegIdx) (rs1 : RegIdx) (rs2 : RegIdx) (s : State) : Result :=
  s.amo rd (s.amoAddr rs1) 8 (amoSwap 64) (s.getX rs2)

/-- AMOADD.D (R359). -/
def execAmoaddD (rd : RegIdx) (rs1 : RegIdx) (rs2 : RegIdx) (s : State) : Result :=
  s.amo rd (s.amoAddr rs1) 8 (opAdd 64) (s.getX rs2)

/-- AMOXOR.D (R360). -/
def execAmoxorD (rd : RegIdx) (rs1 : RegIdx) (rs2 : RegIdx) (s : State) : Result :=
  s.amo rd (s.amoAddr rs1) 8 (opXor 64) (s.getX rs2)

/-- AMOAND.D (R361). -/
def execAmoandD (rd : RegIdx) (rs1 : RegIdx) (rs2 : RegIdx) (s : State) : Result :=
  s.amo rd (s.amoAddr rs1) 8 (opAnd 64) (s.getX rs2)

/-- AMOOR.D (R362). -/
def execAmoorD (rd : RegIdx) (rs1 : RegIdx) (rs2 : RegIdx) (s : State) : Result :=
  s.amo rd (s.amoAddr rs1) 8 (opOr 64) (s.getX rs2)

/-- AMOMIN.D (R363). -/
def execAmominD (rd : RegIdx) (rs1 : RegIdx) (rs2 : RegIdx) (s : State) : Result :=
  s.amo rd (s.amoAddr rs1) 8 (amoMin 64) (s.getX rs2)

/-- AMOMAX.D (R364). -/
def execAmomaxD (rd : RegIdx) (rs1 : RegIdx) (rs2 : RegIdx) (s : State) : Result :=
  s.amo rd (s.amoAddr rs1) 8 (amoMax 64) (s.getX rs2)

/-- AMOMINU.D (R365). -/
def execAmominuD (rd : RegIdx) (rs1 : RegIdx) (rs2 : RegIdx) (s : State) : Result :=
  s.amo rd (s.amoAddr rs1) 8 (amoMinu 64) (s.getX rs2)

/-- AMOMAXU.D (R366). -/
def execAmomaxuD (rd : RegIdx) (rs1 : RegIdx) (rs2 : RegIdx) (s : State) : Result :=
  s.amo rd (s.amoAddr rs1) 8 (amoMaxu 64) (s.getX rs2)

end Sys2Proof.Machine
end

