-- ==== Sys2Proof/Machine/Control.lean ====
section
/-!
DEFINITION. Control transfer (42_control_transfer.md). A taken transfer is requested in `next`; `pc` changes in the
resolution stage (R290).
-/

namespace Sys2Proof.Machine

/-- `t[1:0] != 0` (R290). -/
def misalignedTarget (t : Word) : Bool := t.extractLsb' 0 2 != 0#2

/-- A misaligned target raises code 0 with the target as faulting address, before anything is written
(R290). -/
def State.raiseTarget (s : State) (t : Word) : State := s.raise 0#4 (some t)

/-- The common part of JAL and JALR: the link value is `pc + 4` (R291, R292). -/
def State.jump (s : State) (rd : RegIdx) (t : Word) : Result :=
  if misalignedTarget t then .next (s.raiseTarget t)
  else .next ((s.wr rd (s.core.pc + 4#64)).setNext (.branch t))

/-- The target of JALR: the sum with bit 0 cleared (R292). -/
def State.jalrTarget (s : State) (rs1 : RegIdx) (imm : BitVec 12) : Word :=
  s.xlen.zext ((s.getX rs1 + immWord imm) &&& ~~~1#64)

/-- The common operation of the branches: one that is not taken changes nothing and never raises
(R290). -/
def State.branchIf (s : State) (taken : Bool) (t : Word) : Result :=
  if taken then
    if misalignedTarget t then .next (s.raiseTarget t) else .next (s.setNext (.branch t))
  else .next s

/-- JAL (R291). -/
def execJal (rd : RegIdx) (off : BitVec 21) (s : State) : Result :=
  s.jump rd (s.relTarget off)

/-- JALR (R292). -/
def execJalr (rd : RegIdx) (rs1 : RegIdx) (imm : BitVec 12) (s : State) : Result :=
  s.jump rd (s.jalrTarget rs1 imm)

/-- BEQ (R293). -/
def execBeq (rs1 : RegIdx) (rs2 : RegIdx) (off : BitVec 13) (s : State) : Result :=
  s.branchIf (s.xlen.test testEq (s.getX rs1) (s.getX rs2)) (s.relTarget off)

/-- BNE (R294). -/
def execBne (rs1 : RegIdx) (rs2 : RegIdx) (off : BitVec 13) (s : State) : Result :=
  s.branchIf (!s.xlen.test testEq (s.getX rs1) (s.getX rs2)) (s.relTarget off)

/-- BLT (R295). -/
def execBlt (rs1 : RegIdx) (rs2 : RegIdx) (off : BitVec 13) (s : State) : Result :=
  s.branchIf (s.xlen.test testLt (s.getX rs1) (s.getX rs2)) (s.relTarget off)

/-- BGE (R296). -/
def execBge (rs1 : RegIdx) (rs2 : RegIdx) (off : BitVec 13) (s : State) : Result :=
  s.branchIf (!s.xlen.test testLt (s.getX rs1) (s.getX rs2)) (s.relTarget off)

/-- BLTU (R297). -/
def execBltu (rs1 : RegIdx) (rs2 : RegIdx) (off : BitVec 13) (s : State) : Result :=
  s.branchIf (s.xlen.test testLtu (s.getX rs1) (s.getX rs2)) (s.relTarget off)

/-- BGEU (R298). -/
def execBgeu (rs1 : RegIdx) (rs2 : RegIdx) (off : BitVec 13) (s : State) : Result :=
  s.branchIf (!s.xlen.test testLtu (s.getX rs1) (s.getX rs2)) (s.relTarget off)

end Sys2Proof.Machine
end

