-- ==== Sys2Proof/Machine/Flags.lean ====
section
/-!
DEFINITION. Floating-point status: boxing, rounding mode, flag accrual, dirty marking
(10_state.md R24, R25, R91 to R94; 47_float_single.md R400 to R402). The processor has no other flags
(41_integer.md R230).
-/

namespace Sys2Proof.Machine

/-- `mstatus` with `FS = 3` and `SD = 1` (R94). -/
def statusDirty (m : Word) : Word := m ||| 0x8000000000006000#64

/-- `SD` recomputed: bit 63 is 1 exactly when `FS = 3` or `XS = 3` (R62). -/
def statusSummary (m : Word) : Word :=
  setBit m 63 (m.extractLsb' 13 2 == 3#2 || m.extractLsb' 15 2 == 3#2)

/-- Mark the floating-point context dirty (R94). -/
def State.dirty (s : State) : State :=
  { s with core := { s.core with mstatus := statusDirty s.core.mstatus } }

/-- `f[i] <- v`: the register, `delta.fp_data`, and the dirty marking (R24). -/
def State.wrF (s : State) (i : RegIdx) (v : Word) : State := ((s.setF i v).recFp v).dirty

/-- `box(s) = {0xFFFFFFFF, s}` (R25). -/
def box (v : BitVec 32) : Word := 0xFFFFFFFF#32 ++ v

/-- `unbox(v) = v[31:0]`, with no check of the upper half (R25). -/
def unbox (v : Word) : BitVec 32 := v.setWidth 32

/-- A single-precision operand (R400). -/
def State.getS (s : State) (i : RegIdx) : BitVec 32 := unbox (s.getF i)

/-- `fcsr[7:5]`, the dynamic rounding mode (R92). -/
def fcsrFrm (c : BitVec 8) : BitVec 3 := c.extractLsb' 5 3
/-- `fcsr[4:0]`, the accrued flags (R93). -/
def fcsrFflags (c : BitVec 8) : FpFlags := c.extractLsb' 0 5

/-- The rounding mode of a code 0 to 4 (R92); the others are not valid. -/
def roundingMode (c : BitVec 3) : Option RoundingMode :=
  if c = 0#3 then some .rne else if c = 1#3 then some .rtz else if c = 2#3 then some .rdn
  else if c = 3#3 then some .rup else if c = 4#3 then some .rmm else none

/-- `rm_eff(rm)` of R401: static 0 to 4, dynamic 7 through `frm`; `none` is the illegal instruction. -/
def rmEff (rm : BitVec 3) (fcsr : BitVec 8) : Option RoundingMode :=
  if rm = 7#3 then roundingMode (fcsrFrm fcsr) else roundingMode rm

/-- `accrue(fl)` of R402: the flags are ORed into `fcsr[4:0]`; a nonempty set marks the context
dirty. -/
def State.accrue (s : State) (fl : FpFlags) : State :=
  { s with core := { s.core with
      fcsr := s.core.fcsr ||| fl.setWidth 8
      mstatus := if fl = 0#5 then s.core.mstatus else statusDirty s.core.mstatus } }

/-- Evaluate the rounding mode first; an invalid one changes nothing and raises illegal instruction
(R401). -/
def State.withRm (s : State) (rm : BitVec 3) (k : RoundingMode → Result) : Result :=
  match rmEff rm s.core.fcsr with
  | some m => k m
  | none => .next (s.raise 2#4 none)

end Sys2Proof.Machine
end

