-- ==== Sys2Proof/Machine/FloatSingle.lean ====
section
/-!
DEFINITION. Single-precision dispatch (47_float_single.md), and the shapes 48_float_double.md shares. The values
and flags come from `FPLib`; the flags are accrued before the result is written. No instruction tests
`mstatus.FS` (R400).
-/

namespace Sys2Proof.Machine

/-- `accrue(fl); f[fd] <- v`. -/
def State.fpResult (s : State) (fd : RegIdx) (v : Word) (fl : FpFlags) : Result :=
  .next ((s.accrue fl).wrF fd v)

/-- `accrue(fl); wr(rd, v)`. -/
def State.intResult (s : State) (rd : RegIdx) (v : Word) (fl : FpFlags) : Result :=
  .next ((s.accrue fl).wr rd v)

/-- A multiply and then an add or subtract, each rounded, with the flags of both (R405 to R408). -/
def mulThen {k : Nat} (mul op : RoundingMode → BitVec k → BitVec k → BitVec k × FpFlags)
    (m : RoundingMode) (a b c : BitVec k) : BitVec k × FpFlags :=
  let p := mul m a b
  let r := op m p.1 c
  (r.1, p.2 ||| r.2)

/-- A floating-point load (R403, R441). -/
def State.loadF (s : State) (fd : RegIdx) (va : Word) (n : Nat) (ext : Word → Word) : Result :=
  s.vread va n .read fun _ v t => .next (t.wrF fd (ext v))

/-- A floating-point store: no register is written and the context is not marked dirty (R404, R442). -/
def State.storeF (s : State) (va : Word) (n : Nat) (d : Word) : Result :=
  s.vwrite va n d fun t => .next (t.recFp (lowBytes n d))

/-- The sign bit flipped, NaNs included. -/
def neg32 (v : BitVec 32) : BitVec 32 := v ^^^ 0x80000000#32

/-- The magnitude of `a` with the sign bit of `b`. -/
def signFrom32 (a b : BitVec 32) : BitVec 32 := b.extractLsb' 31 1 ++ a.extractLsb' 0 31

/-- A NaN (R417). -/
def isNan32 (v : BitVec 32) : Bool :=
  v.extractLsb' 23 8 == BitVec.allOnes 8 && v.extractLsb' 0 23 != 0#23

/-- A signaling NaN (R417). -/
def isSnan32 (v : BitVec 32) : Bool := isNan32 v && !v.getLsbD 22

/-- Both values are zeros, of either sign (R417). -/
def bothZero32 (a b : BitVec 32) : Bool :=
  a.extractLsb' 0 31 == 0#31 && b.extractLsb' 0 31 == 0#31

/-- The flags of minimum and maximum: NV for a signaling NaN (R417). -/
def minMaxFlags32 (a b : BitVec 32) : FpFlags := if isSnan32 a || isSnan32 b then 0x10#5 else 0#5

/-- The value of the minimum (R417); the flags of `lt` are dropped. -/
def min32 (a b : BitVec 32) : BitVec 32 :=
  if isNan32 a && isNan32 b then 0x7FC00000#32
  else if isNan32 a then b
  else if isNan32 b then a
  else if bothZero32 a b then (a ||| b) &&& 0x80000000#32
  else if (FPLib.lt32 a b).1 then a else b

/-- The value of the maximum (R418). -/
def max32 (a b : BitVec 32) : BitVec 32 :=
  if isNan32 a && isNan32 b then 0x7FC00000#32
  else if isNan32 a then b
  else if isNan32 b then a
  else if bothZero32 a b then (a &&& b) &&& 0x80000000#32
  else if (FPLib.lt32 a b).1 then b else a

/-- FLW (R403). -/
def execFlw (fd : RegIdx) (rs1 : RegIdx) (imm : BitVec 12) (s : State) : Result :=
  s.loadF fd (s.ea rs1 imm) 4 fun v => box (unbox v)

/-- FSW (R404). -/
def execFsw (rs1 : RegIdx) (fs2 : RegIdx) (imm : BitVec 12) (s : State) : Result :=
  s.storeF (s.ea rs1 imm) 4 (s.getF fs2)

/-- FMADD.S (R405). -/
def execFmaddS (fd : RegIdx) (fs1 : RegIdx) (fs2 : RegIdx) (fs3 : RegIdx) (rm : BitVec 3) (s : State) : Result :=
  s.withRm rm fun m =>
    let r := mulThen FPLib.mul32 FPLib.add32 m (s.getS fs1) (s.getS fs2) (s.getS fs3)
    s.fpResult fd (box r.1) r.2

/-- FMSUB.S (R406). -/
def execFmsubS (fd : RegIdx) (fs1 : RegIdx) (fs2 : RegIdx) (fs3 : RegIdx) (rm : BitVec 3) (s : State) : Result :=
  s.withRm rm fun m =>
    let r := mulThen FPLib.mul32 FPLib.sub32 m (s.getS fs1) (s.getS fs2) (s.getS fs3)
    s.fpResult fd (box r.1) r.2

/-- FNMSUB.S (R407). -/
def execFnmsubS (fd : RegIdx) (fs1 : RegIdx) (fs2 : RegIdx) (fs3 : RegIdx) (rm : BitVec 3) (s : State) : Result :=
  s.withRm rm fun m =>
    let r := mulThen FPLib.mul32 FPLib.sub32 m (s.getS fs1) (s.getS fs2) (s.getS fs3)
    s.fpResult fd (box (neg32 r.1)) r.2

/-- FNMADD.S (R408). -/
def execFnmaddS (fd : RegIdx) (fs1 : RegIdx) (fs2 : RegIdx) (fs3 : RegIdx) (rm : BitVec 3) (s : State) : Result :=
  s.withRm rm fun m =>
    let r := mulThen FPLib.mul32 FPLib.add32 m (s.getS fs1) (s.getS fs2) (s.getS fs3)
    s.fpResult fd (box (neg32 r.1)) r.2

/-- FADD.S (R409). -/
def execFaddS (fd : RegIdx) (fs1 : RegIdx) (fs2 : RegIdx) (rm : BitVec 3) (s : State) : Result :=
  s.withRm rm fun m =>
    let r := FPLib.add32 m (s.getS fs1) (s.getS fs2)
    s.fpResult fd (box r.1) r.2

/-- FSUB.S (R410). -/
def execFsubS (fd : RegIdx) (fs1 : RegIdx) (fs2 : RegIdx) (rm : BitVec 3) (s : State) : Result :=
  s.withRm rm fun m =>
    let r := FPLib.sub32 m (s.getS fs1) (s.getS fs2)
    s.fpResult fd (box r.1) r.2

/-- FMUL.S (R411). -/
def execFmulS (fd : RegIdx) (fs1 : RegIdx) (fs2 : RegIdx) (rm : BitVec 3) (s : State) : Result :=
  s.withRm rm fun m =>
    let r := FPLib.mul32 m (s.getS fs1) (s.getS fs2)
    s.fpResult fd (box r.1) r.2

/-- FDIV.S (R412). -/
def execFdivS (fd : RegIdx) (fs1 : RegIdx) (fs2 : RegIdx) (rm : BitVec 3) (s : State) : Result :=
  s.withRm rm fun m =>
    let r := FPLib.div32 m (s.getS fs1) (s.getS fs2)
    s.fpResult fd (box r.1) r.2

/-- FSQRT.S (R413). -/
def execFsqrtS (fd : RegIdx) (fs1 : RegIdx) (rm : BitVec 3) (s : State) : Result :=
  s.withRm rm fun m =>
    let r := FPLib.sqrt32 m (s.getS fs1)
    s.fpResult fd (box r.1) r.2

/-- FSGNJ.S (R414). -/
def execFsgnjS (fd : RegIdx) (fs1 : RegIdx) (fs2 : RegIdx) (s : State) : Result :=
  .next (s.wrF fd (box (signFrom32 (s.getS fs1) (s.getS fs2))))

/-- FSGNJN.S (R415). -/
def execFsgnjnS (fd : RegIdx) (fs1 : RegIdx) (fs2 : RegIdx) (s : State) : Result :=
  .next (s.wrF fd (box (signFrom32 (s.getS fs1) (~~~(s.getS fs2)))))

/-- FSGNJX.S (R416). -/
def execFsgnjxS (fd : RegIdx) (fs1 : RegIdx) (fs2 : RegIdx) (s : State) : Result :=
  .next (s.wrF fd (box (signFrom32 (s.getS fs1) ((s.getS fs1) ^^^ (s.getS fs2)))))

/-- FMIN.S (R417). -/
def execFminS (fd : RegIdx) (fs1 : RegIdx) (fs2 : RegIdx) (s : State) : Result :=
  s.fpResult fd (box (min32 (s.getS fs1) (s.getS fs2))) (minMaxFlags32 (s.getS fs1) (s.getS fs2))

/-- FMAX.S (R418). -/
def execFmaxS (fd : RegIdx) (fs1 : RegIdx) (fs2 : RegIdx) (s : State) : Result :=
  s.fpResult fd (box (max32 (s.getS fs1) (s.getS fs2))) (minMaxFlags32 (s.getS fs1) (s.getS fs2))

/-- FCVT.W.S (R419). -/
def execFcvtWS (rd : RegIdx) (fs1 : RegIdx) (rm : BitVec 3) (s : State) : Result :=
  s.withRm rm fun m =>
    let r := FPLib.cvt_i32_f32 m (s.getS fs1)
    s.intResult rd (r.1.signExtend 64) r.2

/-- FCVT.WU.S (R420). -/
def execFcvtWUS (rd : RegIdx) (fs1 : RegIdx) (rm : BitVec 3) (s : State) : Result :=
  s.withRm rm fun m =>
    let r := FPLib.cvt_u32_f32 m (s.getS fs1)
    s.intResult rd (r.1.signExtend 64) r.2

/-- FMV.X.S (R421). -/
def execFmvXS (rd : RegIdx) (fs1 : RegIdx) (s : State) : Result :=
  .next (s.wr rd ((s.getS fs1).signExtend 64))

/-- FEQ.S (R422). -/
def execFeqS (rd : RegIdx) (fs1 : RegIdx) (fs2 : RegIdx) (s : State) : Result :=
  let r := FPLib.eq32 (s.getS fs1) (s.getS fs2)
  s.intResult rd (boolWord r.1) r.2

/-- FLT.S (R423). -/
def execFltS (rd : RegIdx) (fs1 : RegIdx) (fs2 : RegIdx) (s : State) : Result :=
  let r := FPLib.lt32 (s.getS fs1) (s.getS fs2)
  s.intResult rd (boolWord r.1) r.2

/-- FLE.S (R424). -/
def execFleS (rd : RegIdx) (fs1 : RegIdx) (fs2 : RegIdx) (s : State) : Result :=
  let r := FPLib.le32 (s.getS fs1) (s.getS fs2)
  s.intResult rd (boolWord r.1) r.2

/-- FCLASS.S (R425). -/
def execFclassS (rd : RegIdx) (fs1 : RegIdx) (s : State) : Result :=
  .next (s.wr rd ((FPLib.classify32 (s.getS fs1)).setWidth 64))

/-- FCVT.S.W (R426). -/
def execFcvtSW (fd : RegIdx) (rs1 : RegIdx) (rm : BitVec 3) (s : State) : Result :=
  s.withRm rm fun m =>
    let r := FPLib.cvt_f32_i32 m ((s.getX rs1).setWidth 32)
    s.fpResult fd (box r.1) r.2

/-- FCVT.S.WU (R427). -/
def execFcvtSWU (fd : RegIdx) (rs1 : RegIdx) (rm : BitVec 3) (s : State) : Result :=
  s.withRm rm fun m =>
    let r := FPLib.cvt_f32_u32 m ((s.getX rs1).setWidth 32)
    s.fpResult fd (box r.1) r.2

/-- FMV.S.X (R428). -/
def execFmvSX (fd : RegIdx) (rs1 : RegIdx) (s : State) : Result :=
  .next (s.wrF fd (box ((s.getX rs1).setWidth 32)))

/-- FCVT.L.S (R429). -/
def execFcvtLS (rd : RegIdx) (fs1 : RegIdx) (rm : BitVec 3) (s : State) : Result :=
  s.withRm rm fun m =>
    let r := FPLib.cvt_i64_f32 m (s.getS fs1)
    s.intResult rd r.1 r.2

/-- FCVT.LU.S (R430). -/
def execFcvtLUS (rd : RegIdx) (fs1 : RegIdx) (rm : BitVec 3) (s : State) : Result :=
  s.withRm rm fun m =>
    let r := FPLib.cvt_u64_f32 m (s.getS fs1)
    s.intResult rd r.1 r.2

/-- FCVT.S.L (R431). -/
def execFcvtSL (fd : RegIdx) (rs1 : RegIdx) (rm : BitVec 3) (s : State) : Result :=
  s.withRm rm fun m =>
    let r := FPLib.cvt_f32_i64 m (s.getX rs1)
    s.fpResult fd (box r.1) r.2

/-- FCVT.S.LU (R432). -/
def execFcvtSLU (fd : RegIdx) (rs1 : RegIdx) (rm : BitVec 3) (s : State) : Result :=
  s.withRm rm fun m =>
    let r := FPLib.cvt_f32_u64 m (s.getX rs1)
    s.fpResult fd (box r.1) r.2

end Sys2Proof.Machine
end

