-- ==== Sys2Proof/Machine/FloatDouble.lean ====
section
/-!
DEFINITION. Double-precision dispatch (48_float_double.md). An operand and a result is the whole register
(R440).
-/

namespace Sys2Proof.Machine

/-- The sign bit flipped, NaNs included. -/
def neg64 (v : BitVec 64) : BitVec 64 := v ^^^ 0x8000000000000000#64

/-- The magnitude of `a` with the sign bit of `b`. -/
def signFrom64 (a b : BitVec 64) : BitVec 64 := b.extractLsb' 63 1 ++ a.extractLsb' 0 63

/-- A NaN (R455). -/
def isNan64 (v : BitVec 64) : Bool :=
  v.extractLsb' 52 11 == BitVec.allOnes 11 && v.extractLsb' 0 52 != 0#52

/-- A signaling NaN (R455). -/
def isSnan64 (v : BitVec 64) : Bool := isNan64 v && !v.getLsbD 51

/-- Both values are zeros, of either sign (R455). -/
def bothZero64 (a b : BitVec 64) : Bool :=
  a.extractLsb' 0 63 == 0#63 && b.extractLsb' 0 63 == 0#63

/-- The flags of minimum and maximum: NV for a signaling NaN (R455). -/
def minMaxFlags64 (a b : BitVec 64) : FpFlags := if isSnan64 a || isSnan64 b then 0x10#5 else 0#5

/-- The value of the minimum (R455); the flags of `lt` are dropped. -/
def min64 (a b : BitVec 64) : BitVec 64 :=
  if isNan64 a && isNan64 b then 0x7FF8000000000000#64
  else if isNan64 a then b
  else if isNan64 b then a
  else if bothZero64 a b then (a ||| b) &&& 0x8000000000000000#64
  else if (FPLib.lt64 a b).1 then a else b

/-- The value of the maximum (R456). -/
def max64 (a b : BitVec 64) : BitVec 64 :=
  if isNan64 a && isNan64 b then 0x7FF8000000000000#64
  else if isNan64 a then b
  else if isNan64 b then a
  else if bothZero64 a b then (a &&& b) &&& 0x8000000000000000#64
  else if (FPLib.lt64 a b).1 then b else a

/-- FLD (R441). -/
def execFld (fd : RegIdx) (rs1 : RegIdx) (imm : BitVec 12) (s : State) : Result :=
  s.loadF fd (s.ea rs1 imm) 8 id

/-- FSD (R442). -/
def execFsd (rs1 : RegIdx) (fs2 : RegIdx) (imm : BitVec 12) (s : State) : Result :=
  s.storeF (s.ea rs1 imm) 8 (s.getF fs2)

/-- FMADD.D (R443). -/
def execFmaddD (fd : RegIdx) (fs1 : RegIdx) (fs2 : RegIdx) (fs3 : RegIdx) (rm : BitVec 3) (s : State) : Result :=
  s.withRm rm fun m =>
    let r := mulThen FPLib.mul64 FPLib.add64 m (s.getF fs1) (s.getF fs2) (s.getF fs3)
    s.fpResult fd r.1 r.2

/-- FMSUB.D (R444). -/
def execFmsubD (fd : RegIdx) (fs1 : RegIdx) (fs2 : RegIdx) (fs3 : RegIdx) (rm : BitVec 3) (s : State) : Result :=
  s.withRm rm fun m =>
    let r := mulThen FPLib.mul64 FPLib.sub64 m (s.getF fs1) (s.getF fs2) (s.getF fs3)
    s.fpResult fd r.1 r.2

/-- FNMSUB.D (R445). -/
def execFnmsubD (fd : RegIdx) (fs1 : RegIdx) (fs2 : RegIdx) (fs3 : RegIdx) (rm : BitVec 3) (s : State) : Result :=
  s.withRm rm fun m =>
    let r := mulThen FPLib.mul64 FPLib.sub64 m (s.getF fs1) (s.getF fs2) (s.getF fs3)
    s.fpResult fd (neg64 r.1) r.2

/-- FNMADD.D (R446). -/
def execFnmaddD (fd : RegIdx) (fs1 : RegIdx) (fs2 : RegIdx) (fs3 : RegIdx) (rm : BitVec 3) (s : State) : Result :=
  s.withRm rm fun m =>
    let r := mulThen FPLib.mul64 FPLib.add64 m (s.getF fs1) (s.getF fs2) (s.getF fs3)
    s.fpResult fd (neg64 r.1) r.2

/-- FADD.D (R447). -/
def execFaddD (fd : RegIdx) (fs1 : RegIdx) (fs2 : RegIdx) (rm : BitVec 3) (s : State) : Result :=
  s.withRm rm fun m =>
    let r := FPLib.add64 m (s.getF fs1) (s.getF fs2)
    s.fpResult fd r.1 r.2

/-- FSUB.D (R448). -/
def execFsubD (fd : RegIdx) (fs1 : RegIdx) (fs2 : RegIdx) (rm : BitVec 3) (s : State) : Result :=
  s.withRm rm fun m =>
    let r := FPLib.sub64 m (s.getF fs1) (s.getF fs2)
    s.fpResult fd r.1 r.2

/-- FMUL.D (R449). -/
def execFmulD (fd : RegIdx) (fs1 : RegIdx) (fs2 : RegIdx) (rm : BitVec 3) (s : State) : Result :=
  s.withRm rm fun m =>
    let r := FPLib.mul64 m (s.getF fs1) (s.getF fs2)
    s.fpResult fd r.1 r.2

/-- FDIV.D (R450). -/
def execFdivD (fd : RegIdx) (fs1 : RegIdx) (fs2 : RegIdx) (rm : BitVec 3) (s : State) : Result :=
  s.withRm rm fun m =>
    let r := FPLib.div64 m (s.getF fs1) (s.getF fs2)
    s.fpResult fd r.1 r.2

/-- FSQRT.D (R451). -/
def execFsqrtD (fd : RegIdx) (fs1 : RegIdx) (rm : BitVec 3) (s : State) : Result :=
  s.withRm rm fun m =>
    let r := FPLib.sqrt64 m (s.getF fs1)
    s.fpResult fd r.1 r.2

/-- FSGNJ.D (R452). -/
def execFsgnjD (fd : RegIdx) (fs1 : RegIdx) (fs2 : RegIdx) (s : State) : Result :=
  .next (s.wrF fd (signFrom64 (s.getF fs1) (s.getF fs2)))

/-- FSGNJN.D (R453). -/
def execFsgnjnD (fd : RegIdx) (fs1 : RegIdx) (fs2 : RegIdx) (s : State) : Result :=
  .next (s.wrF fd (signFrom64 (s.getF fs1) (~~~(s.getF fs2))))

/-- FSGNJX.D (R454). -/
def execFsgnjxD (fd : RegIdx) (fs1 : RegIdx) (fs2 : RegIdx) (s : State) : Result :=
  .next (s.wrF fd (signFrom64 (s.getF fs1) ((s.getF fs1) ^^^ (s.getF fs2))))

/-- FMIN.D (R455). -/
def execFminD (fd : RegIdx) (fs1 : RegIdx) (fs2 : RegIdx) (s : State) : Result :=
  s.fpResult fd (min64 (s.getF fs1) (s.getF fs2)) (minMaxFlags64 (s.getF fs1) (s.getF fs2))

/-- FMAX.D (R456). -/
def execFmaxD (fd : RegIdx) (fs1 : RegIdx) (fs2 : RegIdx) (s : State) : Result :=
  s.fpResult fd (max64 (s.getF fs1) (s.getF fs2)) (minMaxFlags64 (s.getF fs1) (s.getF fs2))

/-- FCVT.S.D (R457). -/
def execFcvtSD (fd : RegIdx) (fs1 : RegIdx) (rm : BitVec 3) (s : State) : Result :=
  s.withRm rm fun m =>
    let r := FPLib.cvt_f32_f64 m (s.getF fs1)
    s.fpResult fd (box r.1) r.2

/-- FCVT.D.S (R458). -/
def execFcvtDS (fd : RegIdx) (fs1 : RegIdx) (rm : BitVec 3) (s : State) : Result :=
  s.withRm rm fun m =>
    let r := FPLib.cvt_f64_f32 m (s.getS fs1)
    s.fpResult fd r.1 r.2

/-- FEQ.D (R459). -/
def execFeqD (rd : RegIdx) (fs1 : RegIdx) (fs2 : RegIdx) (s : State) : Result :=
  let r := FPLib.eq64 (s.getF fs1) (s.getF fs2)
  s.intResult rd (boolWord r.1) r.2

/-- FLT.D (R460). -/
def execFltD (rd : RegIdx) (fs1 : RegIdx) (fs2 : RegIdx) (s : State) : Result :=
  let r := FPLib.lt64 (s.getF fs1) (s.getF fs2)
  s.intResult rd (boolWord r.1) r.2

/-- FLE.D (R461). -/
def execFleD (rd : RegIdx) (fs1 : RegIdx) (fs2 : RegIdx) (s : State) : Result :=
  let r := FPLib.le64 (s.getF fs1) (s.getF fs2)
  s.intResult rd (boolWord r.1) r.2

/-- FCLASS.D (R462). -/
def execFclassD (rd : RegIdx) (fs1 : RegIdx) (s : State) : Result :=
  .next (s.wr rd ((FPLib.classify64 (s.getF fs1)).setWidth 64))

/-- FCVT.W.D (R463). -/
def execFcvtWD (rd : RegIdx) (fs1 : RegIdx) (rm : BitVec 3) (s : State) : Result :=
  s.withRm rm fun m =>
    let r := FPLib.cvt_i32_f64 m (s.getF fs1)
    s.intResult rd (r.1.signExtend 64) r.2

/-- FCVT.WU.D (R464). -/
def execFcvtWUD (rd : RegIdx) (fs1 : RegIdx) (rm : BitVec 3) (s : State) : Result :=
  s.withRm rm fun m =>
    let r := FPLib.cvt_u32_f64 m (s.getF fs1)
    s.intResult rd (r.1.signExtend 64) r.2

/-- FCVT.D.W (R465). -/
def execFcvtDW (fd : RegIdx) (rs1 : RegIdx) (rm : BitVec 3) (s : State) : Result :=
  s.withRm rm fun m =>
    let r := FPLib.cvt_f64_i32 m ((s.getX rs1).setWidth 32)
    s.fpResult fd r.1 r.2

/-- FCVT.D.WU (R466). -/
def execFcvtDWU (fd : RegIdx) (rs1 : RegIdx) (rm : BitVec 3) (s : State) : Result :=
  s.withRm rm fun m =>
    let r := FPLib.cvt_f64_u32 m ((s.getX rs1).setWidth 32)
    s.fpResult fd r.1 r.2

/-- FCVT.L.D (R467). -/
def execFcvtLD (rd : RegIdx) (fs1 : RegIdx) (rm : BitVec 3) (s : State) : Result :=
  s.withRm rm fun m =>
    let r := FPLib.cvt_i64_f64 m (s.getF fs1)
    s.intResult rd r.1 r.2

/-- FCVT.LU.D (R468). -/
def execFcvtLUD (rd : RegIdx) (fs1 : RegIdx) (rm : BitVec 3) (s : State) : Result :=
  s.withRm rm fun m =>
    let r := FPLib.cvt_u64_f64 m (s.getF fs1)
    s.intResult rd r.1 r.2

/-- FMV.X.D (R469). -/
def execFmvXD (rd : RegIdx) (fs1 : RegIdx) (s : State) : Result :=
  .next (s.wr rd (s.getF fs1))

/-- FCVT.D.L (R470). -/
def execFcvtDL (fd : RegIdx) (rs1 : RegIdx) (rm : BitVec 3) (s : State) : Result :=
  s.withRm rm fun m =>
    let r := FPLib.cvt_f64_i64 m (s.getX rs1)
    s.fpResult fd r.1 r.2

/-- FCVT.D.LU (R471). -/
def execFcvtDLU (fd : RegIdx) (rs1 : RegIdx) (rm : BitVec 3) (s : State) : Result :=
  s.withRm rm fun m =>
    let r := FPLib.cvt_f64_u64 m (s.getX rs1)
    s.fpResult fd r.1 r.2

/-- FMV.D.X (R472). -/
def execFmvDX (fd : RegIdx) (rs1 : RegIdx) (s : State) : Result :=
  .next (s.wrF fd (s.getX rs1))

end Sys2Proof.Machine
end

