-- ==== Sys2Proof/Machine/Integer.lean ====
section
/-!
DEFINITION. Integer computational instructions (41_integer.md). Each writes `x[rd]` and `delta.data1` and nothing
else (R230).
-/

namespace Sys2Proof.Machine

/-- `wr(rd, op(a, b))` at `XLEN` bits. -/
def State.alu (s : State) (rd : RegIdx) (op : (n : Nat) → BitVec n → BitVec n → BitVec n)
    (a b : Word) : Result :=
  .next (s.wr rd (s.xlen.lift2 op a b))

/-- `wr(rd, if p(a, b) then 1 else 0)` at `XLEN` bits. -/
def State.aluTest (s : State) (rd : RegIdx) (p : (n : Nat) → BitVec n → BitVec n → Bool)
    (a b : Word) : Result :=
  .next (s.wr rd (boolWord (s.xlen.test p a b)))

/-- `wr(rd, sext_64(op(a[31:0], b[31:0])))`: the word forms. -/
def State.aluW (s : State) (rd : RegIdx) (op : BitVec 32 → BitVec 32 → BitVec 32) (a b : Word) :
    Result :=
  .next (s.wr rd (liftW op a b))

/-- LUI (R231). -/
def execLui (rd : RegIdx) (imm : BitVec 20) (s : State) : Result :=
  .next (s.wr rd (upperImm imm))

/-- AUIPC (R232). -/
def execAuipc (rd : RegIdx) (imm : BitVec 20) (s : State) : Result :=
  .next (s.wr rd (s.core.pc + upperImm imm))

/-- ADDI (R233). -/
def execAddi (rd : RegIdx) (rs1 : RegIdx) (imm : BitVec 12) (s : State) : Result :=
  s.alu rd opAdd (s.getX rs1) (immWord imm)

/-- SLTI (R234). -/
def execSlti (rd : RegIdx) (rs1 : RegIdx) (imm : BitVec 12) (s : State) : Result :=
  s.aluTest rd testLt (s.getX rs1) (immWord imm)

/-- SLTIU (R235). -/
def execSltiu (rd : RegIdx) (rs1 : RegIdx) (imm : BitVec 12) (s : State) : Result :=
  s.aluTest rd testLtu (s.getX rs1) (immWord imm)

/-- XORI (R236). -/
def execXori (rd : RegIdx) (rs1 : RegIdx) (imm : BitVec 12) (s : State) : Result :=
  s.alu rd opXor (s.getX rs1) (immWord imm)

/-- ORI (R237). -/
def execOri (rd : RegIdx) (rs1 : RegIdx) (imm : BitVec 12) (s : State) : Result :=
  s.alu rd opOr (s.getX rs1) (immWord imm)

/-- ANDI (R238). -/
def execAndi (rd : RegIdx) (rs1 : RegIdx) (imm : BitVec 12) (s : State) : Result :=
  s.alu rd opAnd (s.getX rs1) (immWord imm)

/-- SLLI (R239). -/
def execSlli (rd : RegIdx) (rs1 : RegIdx) (shamt : BitVec 6) (s : State) : Result :=
  s.alu rd opSll (s.getX rs1) (shamt.setWidth 64)

/-- SRLI (R240). -/
def execSrli (rd : RegIdx) (rs1 : RegIdx) (shamt : BitVec 6) (s : State) : Result :=
  s.alu rd opSrl (s.getX rs1) (shamt.setWidth 64)

/-- SRAI (R241). -/
def execSrai (rd : RegIdx) (rs1 : RegIdx) (shamt : BitVec 6) (s : State) : Result :=
  s.alu rd opSra (s.getX rs1) (shamt.setWidth 64)

/-- ADD (R242). -/
def execAdd (rd : RegIdx) (rs1 : RegIdx) (rs2 : RegIdx) (s : State) : Result :=
  s.alu rd opAdd (s.getX rs1) (s.getX rs2)

/-- SUB (R243). -/
def execSub (rd : RegIdx) (rs1 : RegIdx) (rs2 : RegIdx) (s : State) : Result :=
  s.alu rd opSub (s.getX rs1) (s.getX rs2)

/-- SLL (R244). -/
def execSll (rd : RegIdx) (rs1 : RegIdx) (rs2 : RegIdx) (s : State) : Result :=
  s.alu rd opSll (s.getX rs1) (s.getX rs2)

/-- SLT (R245). -/
def execSlt (rd : RegIdx) (rs1 : RegIdx) (rs2 : RegIdx) (s : State) : Result :=
  s.aluTest rd testLt (s.getX rs1) (s.getX rs2)

/-- SLTU (R246). -/
def execSltu (rd : RegIdx) (rs1 : RegIdx) (rs2 : RegIdx) (s : State) : Result :=
  s.aluTest rd testLtu (s.getX rs1) (s.getX rs2)

/-- XOR (R247). -/
def execXor (rd : RegIdx) (rs1 : RegIdx) (rs2 : RegIdx) (s : State) : Result :=
  s.alu rd opXor (s.getX rs1) (s.getX rs2)

/-- SRL (R248). -/
def execSrl (rd : RegIdx) (rs1 : RegIdx) (rs2 : RegIdx) (s : State) : Result :=
  s.alu rd opSrl (s.getX rs1) (s.getX rs2)

/-- SRA (R249). -/
def execSra (rd : RegIdx) (rs1 : RegIdx) (rs2 : RegIdx) (s : State) : Result :=
  s.alu rd opSra (s.getX rs1) (s.getX rs2)

/-- OR (R250). -/
def execOr (rd : RegIdx) (rs1 : RegIdx) (rs2 : RegIdx) (s : State) : Result :=
  s.alu rd opOr (s.getX rs1) (s.getX rs2)

/-- AND (R251). -/
def execAnd (rd : RegIdx) (rs1 : RegIdx) (rs2 : RegIdx) (s : State) : Result :=
  s.alu rd opAnd (s.getX rs1) (s.getX rs2)

/-- ADDIW (R252). -/
def execAddiw (rd : RegIdx) (rs1 : RegIdx) (imm : BitVec 12) (s : State) : Result :=
  s.aluW rd (opAdd 32) (s.getX rs1) (immWord imm)

/-- SLLIW (R253). -/
def execSlliw (rd : RegIdx) (rs1 : RegIdx) (shamt : BitVec 5) (s : State) : Result :=
  s.aluW rd (opSll 32) (s.getX rs1) (shamt.setWidth 64)

/-- SRLIW (R254). -/
def execSrliw (rd : RegIdx) (rs1 : RegIdx) (shamt : BitVec 5) (s : State) : Result :=
  s.aluW rd (opSrl 32) (s.getX rs1) (shamt.setWidth 64)

/-- SRAIW (R255). -/
def execSraiw (rd : RegIdx) (rs1 : RegIdx) (shamt : BitVec 5) (s : State) : Result :=
  s.aluW rd (opSra 32) (s.getX rs1) (shamt.setWidth 64)

/-- ADDW (R256). -/
def execAddw (rd : RegIdx) (rs1 : RegIdx) (rs2 : RegIdx) (s : State) : Result :=
  s.aluW rd (opAdd 32) (s.getX rs1) (s.getX rs2)

/-- SUBW (R257). -/
def execSubw (rd : RegIdx) (rs1 : RegIdx) (rs2 : RegIdx) (s : State) : Result :=
  s.aluW rd (opSub 32) (s.getX rs1) (s.getX rs2)

/-- SLLW (R258). -/
def execSllw (rd : RegIdx) (rs1 : RegIdx) (rs2 : RegIdx) (s : State) : Result :=
  s.aluW rd (opSll 32) (s.getX rs1) (s.getX rs2)

/-- SRLW (R259). -/
def execSrlw (rd : RegIdx) (rs1 : RegIdx) (rs2 : RegIdx) (s : State) : Result :=
  s.aluW rd (opSrl 32) (s.getX rs1) (s.getX rs2)

/-- SRAW (R260). -/
def execSraw (rd : RegIdx) (rs1 : RegIdx) (rs2 : RegIdx) (s : State) : Result :=
  s.aluW rd (opSra 32) (s.getX rs1) (s.getX rs2)

end Sys2Proof.Machine
end

