-- ==== Sys2Proof/Machine/LoadStore.lean ====
section
/-!
DEFINITION. Integer loads and stores, FENCE, FENCE.I (43_load_store.md). Any alignment is allowed; one translation
is made, of the first byte (R312).
-/

namespace Sys2Proof.Machine

/-- `sext(v[k-1:0])`. -/
def signExt (k : Nat) (v : Word) : Word := (v.setWidth k).signExtend 64

/-- The common operation of the loads: `n` bytes at `va`, extended by `ext` (R313). -/
def State.load (s : State) (rd : RegIdx) (va : Word) (n : Nat) (ext : Word → Word) : Result :=
  s.vread va n .read fun _ v t => .next (t.wr rd (ext v))

/-- The common operation of the stores: the low `n` bytes of `d` at `va` (R314). -/
def State.store (s : State) (va : Word) (n : Nat) (d : Word) : Result :=
  s.vwrite va n d fun t => .next (t.recData1 (lowBytes n d))

/-- LB (R301). -/
def execLb (rd : RegIdx) (rs1 : RegIdx) (imm : BitVec 12) (s : State) : Result :=
  s.load rd (s.ea rs1 imm) 1 (signExt 8)

/-- LH (R302). -/
def execLh (rd : RegIdx) (rs1 : RegIdx) (imm : BitVec 12) (s : State) : Result :=
  s.load rd (s.ea rs1 imm) 2 (signExt 16)

/-- LW (R303). -/
def execLw (rd : RegIdx) (rs1 : RegIdx) (imm : BitVec 12) (s : State) : Result :=
  s.load rd (s.ea rs1 imm) 4 (signExt 32)

/-- LBU (R304). -/
def execLbu (rd : RegIdx) (rs1 : RegIdx) (imm : BitVec 12) (s : State) : Result :=
  s.load rd (s.ea rs1 imm) 1 id

/-- LHU (R305). -/
def execLhu (rd : RegIdx) (rs1 : RegIdx) (imm : BitVec 12) (s : State) : Result :=
  s.load rd (s.ea rs1 imm) 2 id

/-- LWU (R306). -/
def execLwu (rd : RegIdx) (rs1 : RegIdx) (imm : BitVec 12) (s : State) : Result :=
  s.load rd (s.ea rs1 imm) 4 id

/-- LD (R307). -/
def execLd (rd : RegIdx) (rs1 : RegIdx) (imm : BitVec 12) (s : State) : Result :=
  s.load rd (s.ea rs1 imm) 8 id

/-- SB (R308). -/
def execSb (rs1 : RegIdx) (rs2 : RegIdx) (imm : BitVec 12) (s : State) : Result :=
  s.store (s.ea rs1 imm) 1 (s.getX rs2)

/-- SH (R309). -/
def execSh (rs1 : RegIdx) (rs2 : RegIdx) (imm : BitVec 12) (s : State) : Result :=
  s.store (s.ea rs1 imm) 2 (s.getX rs2)

/-- SW (R310). -/
def execSw (rs1 : RegIdx) (rs2 : RegIdx) (imm : BitVec 12) (s : State) : Result :=
  s.store (s.ea rs1 imm) 4 (s.getX rs2)

/-- SD (R311). -/
def execSd (rs1 : RegIdx) (rs2 : RegIdx) (imm : BitVec 12) (s : State) : Result :=
  s.store (s.ea rs1 imm) 8 (s.getX rs2)

/-- FENCE (R316). -/
def execFence (s : State) : Result :=
  .next s

/-- FENCE.I (R317). -/
def execFenceI (s : State) : Result :=
  .next s

end Sys2Proof.Machine
end

