-- ==== Sys2Proof/Machine/MulDiv.lean ====
section
/-!
DEFINITION. Multiply, divide, remainder (44_muldiv.md). No instruction traps; the special results are ordinary
values (R320).
-/

namespace Sys2Proof.Machine

/-- MUL (R321). -/
def execMul (rd : RegIdx) (rs1 : RegIdx) (rs2 : RegIdx) (s : State) : Result :=
  s.alu rd opMul (s.getX rs1) (s.getX rs2)

/-- MULH (R322). -/
def execMulh (rd : RegIdx) (rs1 : RegIdx) (rs2 : RegIdx) (s : State) : Result :=
  s.alu rd opMulh (s.getX rs1) (s.getX rs2)

/-- MULHSU (R323). -/
def execMulhsu (rd : RegIdx) (rs1 : RegIdx) (rs2 : RegIdx) (s : State) : Result :=
  s.alu rd opMulhsu (s.getX rs1) (s.getX rs2)

/-- MULHU (R324). -/
def execMulhu (rd : RegIdx) (rs1 : RegIdx) (rs2 : RegIdx) (s : State) : Result :=
  s.alu rd opMulhu (s.getX rs1) (s.getX rs2)

/-- DIV (R325). -/
def execDiv (rd : RegIdx) (rs1 : RegIdx) (rs2 : RegIdx) (s : State) : Result :=
  s.alu rd opDiv (s.getX rs1) (s.getX rs2)

/-- DIVU (R326). -/
def execDivu (rd : RegIdx) (rs1 : RegIdx) (rs2 : RegIdx) (s : State) : Result :=
  s.alu rd opDivu (s.getX rs1) (s.getX rs2)

/-- REM (R327). -/
def execRem (rd : RegIdx) (rs1 : RegIdx) (rs2 : RegIdx) (s : State) : Result :=
  s.alu rd opRem (s.getX rs1) (s.getX rs2)

/-- REMU (R328). -/
def execRemu (rd : RegIdx) (rs1 : RegIdx) (rs2 : RegIdx) (s : State) : Result :=
  s.alu rd opRemu (s.getX rs1) (s.getX rs2)

/-- MULW (R329). -/
def execMulw (rd : RegIdx) (rs1 : RegIdx) (rs2 : RegIdx) (s : State) : Result :=
  s.aluW rd (opMul 32) (s.getX rs1) (s.getX rs2)

/-- DIVW (R330). -/
def execDivw (rd : RegIdx) (rs1 : RegIdx) (rs2 : RegIdx) (s : State) : Result :=
  s.aluW rd (opDiv 32) (s.getX rs1) (s.getX rs2)

/-- DIVUW (R331). -/
def execDivuw (rd : RegIdx) (rs1 : RegIdx) (rs2 : RegIdx) (s : State) : Result :=
  s.aluW rd (opDivu 32) (s.getX rs1) (s.getX rs2)

/-- REMW (R332). -/
def execRemw (rd : RegIdx) (rs1 : RegIdx) (rs2 : RegIdx) (s : State) : Result :=
  s.aluW rd (opRem 32) (s.getX rs1) (s.getX rs2)

/-- REMUW (R333). -/
def execRemuw (rd : RegIdx) (rs1 : RegIdx) (rs2 : RegIdx) (s : State) : Result :=
  s.aluW rd (opRemu 32) (s.getX rs1) (s.getX rs2)

end Sys2Proof.Machine
end

