-- ==== Sys2Proof/Machine/Csr.lean ====
section
/-!
DEFINITION. Control and status registers: the map, the checks, reading and writing
(10_state.md R40 to R94).

Every address names one register (`Csr.ofAddr`); a register's native value is 64 bits; at width 32 a
read shows a 32-bit view of it, sign-extended, and a write is turned back into a native value.
-/

namespace Sys2Proof.Machine

/-- The registers of the CSR map (R49). -/
inductive Csr where
  /-- 0x000, user bank, view of mstatus (R64). -/
  | ustatus
  /-- 0x001, user bank, view of fcsr (R93). -/
  | fflags
  /-- 0x002, user bank, view of fcsr (R92). -/
  | frm
  /-- 0x003, user bank, reg (R91). -/
  | fcsr
  /-- 0x004, user bank, view of mie (R76). -/
  | uie
  /-- 0x005, user bank, reg (R78). -/
  | utvec
  /-- 0x040, user bank, reg (R79). -/
  | uscratch
  /-- 0x041, user bank, reg (R80). -/
  | uepc
  /-- 0x042, user bank, reg (R81). -/
  | ucause
  /-- 0x043, user bank, reg (R82). -/
  | ubadaddr
  /-- 0x044, user bank, view of mip (R76). -/
  | uip
  /-- 0xC00, user bank, ctr (R85). -/
  | cycle
  /-- 0xC01, user bank, ctr (R85). -/
  | time
  /-- 0xC02, user bank, ctr (R85). -/
  | instret
  /-- 0xC80, user bank, ctr, XLEN = 32 only (R86). -/
  | cycleh
  /-- 0xC81, user bank, ctr, XLEN = 32 only (R86). -/
  | timeh
  /-- 0xC82, user bank, ctr, XLEN = 32 only (R86). -/
  | instreth
  /-- 0x100, supervisor bank, view of mstatus (R63). -/
  | sstatus
  /-- 0x102, supervisor bank, reg (R72). -/
  | sedeleg
  /-- 0x103, supervisor bank, reg (R72). -/
  | sideleg
  /-- 0x104, supervisor bank, view of mie (R75). -/
  | sie
  /-- 0x105, supervisor bank, reg (R78). -/
  | stvec
  /-- 0x140, supervisor bank, reg (R79). -/
  | sscratch
  /-- 0x141, supervisor bank, reg (R80). -/
  | sepc
  /-- 0x142, supervisor bank, reg (R81). -/
  | scause
  /-- 0x143, supervisor bank, reg (R82). -/
  | sbadaddr
  /-- 0x144, supervisor bank, view of mip (R75). -/
  | sip
  /-- 0x180, supervisor bank, reg (R83). -/
  | sptbr
  /-- 0x200, hypervisor bank, view of mstatus (R65). -/
  | hstatus
  /-- 0x202, hypervisor bank, reg (R71). -/
  | hedeleg
  /-- 0x203, hypervisor bank, reg (R71). -/
  | hideleg
  /-- 0x204, hypervisor bank, view of mie (R77). -/
  | hie
  /-- 0x205, hypervisor bank, reg (R78). -/
  | htvec
  /-- 0x240, hypervisor bank, reg (R79). -/
  | hscratch
  /-- 0x241, hypervisor bank, reg (R80). -/
  | hepc
  /-- 0x242, hypervisor bank, reg (R81). -/
  | hcause
  /-- 0x243, hypervisor bank, reg (R82). -/
  | hbadaddr
  /-- 0x244, hypervisor bank, view of mip (R77). -/
  | hip
  /-- 0x300, machine bank, reg (R60 to R62). -/
  | mstatus
  /-- 0x301, machine bank, const (R66). -/
  | misa
  /-- 0x302, machine bank, reg (R69). -/
  | medeleg
  /-- 0x303, machine bank, reg (R70). -/
  | mideleg
  /-- 0x304, machine bank, reg (R73). -/
  | mie
  /-- 0x305, machine bank, reg (R78). -/
  | mtvec
  /-- 0x320, machine bank, reg (R87). -/
  | mucounteren
  /-- 0x321, machine bank, reg (R87). -/
  | mscounteren
  /-- 0x322, machine bank, reg (R87). -/
  | mhcounteren
  /-- 0x340, machine bank, reg (R79). -/
  | mscratch
  /-- 0x341, machine bank, reg (R80). -/
  | mepc
  /-- 0x342, machine bank, reg (R81). -/
  | mcause
  /-- 0x343, machine bank, reg (R82). -/
  | mbadaddr
  /-- 0x344, machine bank, reg (R74). -/
  | mip
  /-- 0xB00, machine bank, ctr (R84). -/
  | mcycle
  /-- 0xB02, machine bank, ctr (R84). -/
  | minstret
  /-- 0xB80, machine bank, ctr, XLEN = 32 only (R84). -/
  | mcycleh
  /-- 0xB82, machine bank, ctr, XLEN = 32 only (R84). -/
  | minstreth
  /-- 0xF11, machine bank, const (R67). -/
  | mvendorid
  /-- 0xF12, machine bank, const (R67). -/
  | marchid
  /-- 0xF13, machine bank, const (R67). -/
  | mimpid
  /-- 0xF14, machine bank, const (R68). -/
  | mhartid
  deriving DecidableEq, Repr

/-- The CSR map (R49); any other address is undefined (R42). -/
def Csr.ofAddr (a : CsrAddr) : Option Csr :=
  match a.toNat with
  | 0x000 => some .ustatus
  | 0x001 => some .fflags
  | 0x002 => some .frm
  | 0x003 => some .fcsr
  | 0x004 => some .uie
  | 0x005 => some .utvec
  | 0x040 => some .uscratch
  | 0x041 => some .uepc
  | 0x042 => some .ucause
  | 0x043 => some .ubadaddr
  | 0x044 => some .uip
  | 0xC00 => some .cycle
  | 0xC01 => some .time
  | 0xC02 => some .instret
  | 0xC80 => some .cycleh
  | 0xC81 => some .timeh
  | 0xC82 => some .instreth
  | 0x100 => some .sstatus
  | 0x102 => some .sedeleg
  | 0x103 => some .sideleg
  | 0x104 => some .sie
  | 0x105 => some .stvec
  | 0x140 => some .sscratch
  | 0x141 => some .sepc
  | 0x142 => some .scause
  | 0x143 => some .sbadaddr
  | 0x144 => some .sip
  | 0x180 => some .sptbr
  | 0x200 => some .hstatus
  | 0x202 => some .hedeleg
  | 0x203 => some .hideleg
  | 0x204 => some .hie
  | 0x205 => some .htvec
  | 0x240 => some .hscratch
  | 0x241 => some .hepc
  | 0x242 => some .hcause
  | 0x243 => some .hbadaddr
  | 0x244 => some .hip
  | 0x300 => some .mstatus
  | 0x301 => some .misa
  | 0x302 => some .medeleg
  | 0x303 => some .mideleg
  | 0x304 => some .mie
  | 0x305 => some .mtvec
  | 0x320 => some .mucounteren
  | 0x321 => some .mscounteren
  | 0x322 => some .mhcounteren
  | 0x340 => some .mscratch
  | 0x341 => some .mepc
  | 0x342 => some .mcause
  | 0x343 => some .mbadaddr
  | 0x344 => some .mip
  | 0xB00 => some .mcycle
  | 0xB02 => some .minstret
  | 0xB80 => some .mcycleh
  | 0xB82 => some .minstreth
  | 0xF11 => some .mvendorid
  | 0xF12 => some .marchid
  | 0xF13 => some .mimpid
  | 0xF14 => some .mhartid
  | _ => none

/-! ## Existence and access (R42, R43) -/

/-- The counter's enable bit `b` for an access made at level `p` (R42, R87). -/
def State.counterEnabled (s : State) (p : Priv) (b : Nat) : Bool :=
  match p with
  | .machine => true
  | .hypervisor => s.core.mhcounteren.getLsbD b
  | .supervisor => s.core.mscounteren.getLsbD b
  | .user => s.core.mucounteren.getLsbD b

/-- The conditions R42 puts on a mapped register for an access made at level `p`. -/
def State.csrExists (s : State) (c : Csr) (p : Priv) : Bool :=
  match c with
  | .fflags | .frm | .fcsr => s.misa.getLsbD 5
  | .cycle => s.counterEnabled p 0
  | .time => s.counterEnabled p 1
  | .instret => s.counterEnabled p 2
  | .cycleh => s.xlen == .w32 && s.counterEnabled p 0
  | .timeh => s.xlen == .w32 && s.counterEnabled p 1
  | .instreth => s.xlen == .w32 && s.counterEnabled p 2
  | .mcycleh | .minstreth => s.xlen == .w32
  | _ => true

/-- `is_defined(a, p)` (R42). -/
def State.csrDefined (s : State) (a : CsrAddr) (p : Priv) : Bool :=
  match Csr.ofAddr a with
  | none => false
  | some c => s.csrExists c p

/-- `check_access(a, p, kind)` (R43): the level is at least `a[9:8]`, and an address with
`a[11:10] = 3` is not written. -/
def csrAccess (a : CsrAddr) (p : Priv) (write : Bool) : Bool :=
  decide ((a.extractLsb' 8 2).toNat ≤ p.num) && !(write && a.extractLsb' 10 2 == 3#2)

/-! ## Views (R45, R46, R63 to R65, R74 to R77) -/

/-- The four addresses of the status register. -/
def Csr.isStatus : Csr → Bool
  | .mstatus | .hstatus | .sstatus | .ustatus => true
  | _ => false

/-- The four cause registers. -/
def Csr.isCause : Csr → Bool
  | .mcause | .hcause | .scause | .ucause => true
  | _ => false

/-- The high-half counter addresses. -/
def Csr.isHigh : Csr → Bool
  | .mcycleh | .minstreth | .cycleh | .timeh | .instreth => true
  | _ => false

/-- `SSTATUS_MASK` (R63). -/
def sstatusMask : Word := 0x800000000005E133#64
/-- `USTATUS_MASK` (R64). -/
def ustatusMask : Word := 0x11#64
/-- `HSTATUS_MASK` (R65). -/
def hstatusMask : Word := 0x800000000005E777#64

/-- The native value of a register (R50): the stored one, the underlying one under the view's read
mask, a counter, or a constant. -/
def State.csrNative (s : State) : Csr → Word
  | .ustatus => s.core.mstatus &&& ustatusMask
  | .fflags => (fcsrFflags s.core.fcsr).setWidth 64
  | .frm => (fcsrFrm s.core.fcsr).setWidth 64
  | .fcsr => s.core.fcsr.setWidth 64
  | .uie => s.core.mie &&& 0x111#64
  | .utvec => s.core.uBank.tvec
  | .uscratch => s.core.uBank.scratch
  | .uepc => s.core.uBank.epc
  | .ucause => s.core.uBank.cause
  | .ubadaddr => s.core.uBank.badaddr
  | .uip => s.core.mip &&& 0x111#64
  | .cycle | .cycleh | .mcycle | .mcycleh => s.core.cycles
  | .time | .timeh => s.clock
  | .instret | .instreth | .minstret | .minstreth => s.core.instret
  | .sstatus => s.core.mstatus &&& sstatusMask
  | .sedeleg => s.core.sedeleg
  | .sideleg => s.core.sideleg
  | .sie => s.core.mie &&& 0x333#64
  | .stvec => s.core.sBank.tvec
  | .sscratch => s.core.sBank.scratch
  | .sepc => s.core.sBank.epc
  | .scause => s.core.sBank.cause
  | .sbadaddr => s.core.sBank.badaddr
  | .sip => s.core.mip &&& 0x333#64
  | .sptbr => s.core.sptbr
  | .hstatus => s.core.mstatus &&& hstatusMask
  | .hedeleg => s.core.hedeleg
  | .hideleg => s.core.hideleg
  | .hie => s.core.mie &&& 0x777#64
  | .htvec => s.core.hBank.tvec
  | .hscratch => s.core.hBank.scratch
  | .hepc => s.core.hBank.epc
  | .hcause => s.core.hBank.cause
  | .hbadaddr => s.core.hBank.badaddr
  | .hip => s.core.mip &&& 0x777#64
  | .mstatus => s.core.mstatus
  | .misa => s.misa
  | .medeleg => s.core.medeleg
  | .mideleg => s.core.mideleg
  | .mie => s.core.mie
  | .mtvec => s.core.mBank.tvec
  | .mucounteren => s.core.mucounteren
  | .mscounteren => s.core.mscounteren
  | .mhcounteren => s.core.mhcounteren
  | .mscratch => s.core.mBank.scratch
  | .mepc => s.core.mBank.epc
  | .mcause => s.core.mBank.cause
  | .mbadaddr => s.core.mBank.badaddr
  | .mip => s.core.mip
  | .mvendorid | .marchid | .mimpid => 0#64
  | .mhartid => BitVec.ofNat 64 s.core.hartid

/-- `view32(a, v)` (R45): the dirty summary and the interrupt flag move from bit 63 to bit 31,
`misa.MXL` from 63:62 to 31:30, a high-half address shows bits 63:32. -/
def Csr.view32 (c : Csr) (v : Word) : BitVec 32 :=
  if c.isStatus || c.isCause then v.extractLsb' 63 1 ++ v.extractLsb' 0 31
  else if c == .misa then v.extractLsb' 62 2 ++ 0#4 ++ v.extractLsb' 0 26
  else if c.isHigh then v.extractLsb' 32 32
  else v.setWidth 32

/-- `csr_read(a)` (R45, R50): no side effect. -/
def State.csrRead (s : State) (c : Csr) : Word :=
  match s.xlen with
  | .w64 => s.csrNative c
  | .w32 => (c.view32 (s.csrNative c)).signExtend 64

/-- `unview32(a, w, old)` (R46). -/
def Csr.unview32 (c : Csr) (w old : Word) : Word :=
  if c.isStatus then old.extractLsb' 31 33 ++ w.extractLsb' 0 31
  else if c.isCause then w.extractLsb' 31 1 ++ 0#32 ++ w.extractLsb' 0 31
  else if c.isHigh then w.extractLsb' 0 32 ++ old.extractLsb' 0 32
  else if c == .mcycle || c == .minstret then old.extractLsb' 32 32 ++ w.extractLsb' 0 32
  else (w.setWidth 32).signExtend 64

/-- The native write value (R46). -/
def State.csrNativeWrite (s : State) (c : Csr) (w : Word) : Word :=
  match s.xlen with
  | .w64 => w
  | .w32 => c.unview32 w (s.csrNative c)

/-! ## Writing (R47, R48, R61 to R94) -/

/-- Store a new status register; `SD` is recomputed (R62). -/
def State.putStatus (s : State) (v : Word) : State :=
  { s with core := { s.core with mstatus := statusSummary v } }

/-- The value a write of `w` to `mstatus` stores, before `SD` is recomputed: a mode that is not
recognised leaves the VM field unchanged (R61). -/
def mstatusWrite (old w : Word) : Word :=
  if vmRecognised (statusVM w) then w else putField w 24 5 (old >>> 24)

def State.putMie (s : State) (v : Word) : State := { s with core := { s.core with mie := v } }
def State.putMip (s : State) (v : Word) : State := { s with core := { s.core with mip := v } }
def State.putFcsr (s : State) (v : BitVec 8) : State := { s with core := { s.core with fcsr := v } }

/-- Replace the trap-handling registers of a level. -/
def State.putBank (s : State) (p : Priv) (b : TrapBank) : State :=
  { s with core := s.core.setBank p b }

/-- A write to the hypervisor bank: nothing when `HYP_CSR_WRITES = inert`, else the rule of the
supervisor counterpart (R48). -/
def State.hypWrite (s : State) (t : State) : State :=
  match s.params.hypCsrWrites with
  | .inert => s
  | .symmetric => t

/-- What storing the native value `v` does to each register (R47 and the register's own rule). -/
def State.csrStore (s : State) (c : Csr) (v : Word) : State :=
  match c with
  -- status and its views (R61 to R65)
  | .mstatus => s.putStatus (mstatusWrite s.core.mstatus v)
  | .hstatus => s.hypWrite (s.putStatus (maskWrite s.core.mstatus hstatusMask v))
  | .sstatus => s.putStatus (maskWrite s.core.mstatus sstatusMask v)
  | .ustatus => s.putStatus (maskWrite s.core.mstatus ustatusMask v)
  -- floating point (R91 to R94)
  | .fcsr => (s.putFcsr (v.setWidth 8)).dirty
  | .frm => (s.putFcsr (v.extractLsb' 0 3 ++ s.core.fcsr.extractLsb' 0 5)).dirty
  | .fflags => (s.putFcsr (s.core.fcsr.extractLsb' 5 3 ++ v.extractLsb' 0 5)).dirty
  -- interrupt enable and pending (R73 to R77)
  | .mie => s.putMie v
  | .hie => s.hypWrite (s.putMie (maskWrite s.core.mie 0x777#64 v))
  | .sie => s.putMie (maskWrite s.core.mie 0x333#64 v)
  | .uie => s.putMie (maskWrite s.core.mie 0x111#64 v)
  | .mip => s.putMip (maskWrite s.core.mip 0x777#64 v)
  | .hip => s.hypWrite (s.putMip (maskWrite s.core.mip 0x007#64 v))
  | .sip => s.putMip (maskWrite s.core.mip 0x003#64 v)
  | .uip => s.putMip (maskWrite s.core.mip 0x001#64 v)
  -- delegation (R69 to R72)
  | .medeleg => { s with core := { s.core with medeleg := v } }
  | .mideleg => { s with core := { s.core with mideleg := v } }
  | .hedeleg => s.hypWrite { s with core := { s.core with hedeleg := v } }
  | .hideleg => s.hypWrite { s with core := { s.core with hideleg := v } }
  | .sedeleg => { s with core := { s.core with sedeleg := v } }
  | .sideleg => { s with core := { s.core with sideleg := v } }
  -- trap handling (R78 to R82)
  | .mtvec => s.putBank .machine { s.core.mBank with tvec := v }
  | .mscratch => s.putBank .machine { s.core.mBank with scratch := v }
  | .mepc => s.putBank .machine { s.core.mBank with epc := v }
  | .mcause => s.putBank .machine { s.core.mBank with cause := v }
  | .mbadaddr => s.putBank .machine { s.core.mBank with badaddr := v }
  | .htvec => s.hypWrite (s.putBank .hypervisor { s.core.hBank with tvec := v })
  | .hscratch => s.hypWrite (s.putBank .hypervisor { s.core.hBank with scratch := v })
  | .hepc => s.hypWrite (s.putBank .hypervisor { s.core.hBank with epc := v })
  | .hcause => s.hypWrite (s.putBank .hypervisor { s.core.hBank with cause := v })
  | .hbadaddr => s.hypWrite (s.putBank .hypervisor { s.core.hBank with badaddr := v })
  | .stvec => s.putBank .supervisor { s.core.sBank with tvec := v }
  | .sscratch => s.putBank .supervisor { s.core.sBank with scratch := v }
  | .sepc => s.putBank .supervisor { s.core.sBank with epc := v }
  | .scause => s.putBank .supervisor { s.core.sBank with cause := v }
  | .sbadaddr => s.putBank .supervisor { s.core.sBank with badaddr := v }
  | .utvec => s.putBank .user { s.core.uBank with tvec := v }
  | .uscratch => s.putBank .user { s.core.uBank with scratch := v }
  | .uepc => s.putBank .user { s.core.uBank with epc := v }
  | .ucause => s.putBank .user { s.core.uBank with cause := v }
  | .ubadaddr => s.putBank .user { s.core.uBank with badaddr := v }
  -- page-table base (R83) and counter enables (R87)
  | .sptbr => { s with core := { s.core with sptbr := v } }
  | .mucounteren => { s with core := { s.core with mucounteren := v } }
  | .mscounteren => { s with core := { s.core with mscounteren := v } }
  | .mhcounteren => { s with core := { s.core with mhcounteren := v } }
  -- counters (R84)
  | .mcycle | .mcycleh => { s with core := { s.core with cycles := v } }
  | .minstret | .minstreth => { s with core := { s.core with instret := v } }
  -- the constant `misa` (R66), and the addresses R43 never lets a write reach
  | .misa | .mvendorid | .marchid | .mimpid | .mhartid => s
  | .cycle | .time | .instret | .cycleh | .timeh | .instreth => s

/-- `csr_write(a, w)` (R51): the native write value is stored and recorded in `delta` (R37, R371). -/
def State.csrWrite (s : State) (a : CsrAddr) (c : Csr) (w : Word) : State :=
  ((s.csrStore c (s.csrNativeWrite c w)).recAddr (a.setWidth 64)).recData2 (s.csrNativeWrite c w)

/-- The common procedure of the CSR instructions (46_csr_system.md R371): both checks come before any
change; the old value is read, the register written when `writes`, and `rd` receives the old value. -/
def State.csrInstr (s : State) (a : CsrAddr) (rd : RegIdx) (src : Word) (writes : Bool)
    (f : (n : Nat) → BitVec n → BitVec n → BitVec n) : Result :=
  match Csr.ofAddr a with
  | none => .next (s.raise 2#4 none)
  | some c =>
    if s.csrExists c s.core.cur && csrAccess a s.core.cur writes then
      let old := s.csrRead c
      let t := if writes then s.csrWrite a c (s.xlen.sext (s.xlen.lift2 f old src)) else s
      .next (t.wr rd old)
    else .next (s.raise 2#4 none)

/-- The new value of CSRRW and CSRRWI. -/
def csrSwap (n : Nat) (_ s : BitVec n) : BitVec n := s
/-- The new value of CSRRC and CSRRCI. -/
def csrClear (n : Nat) (old s : BitVec n) : BitVec n := old &&& ~~~s

end Sys2Proof.Machine
end

