-- ==== Sys2Proof/Machine/System.lean ====
section
/-!
DEFINITION. CSR access and system instructions (46_csr_system.md).
-/

namespace Sys2Proof.Machine

/-- The common rule of the return instructions (R386): fatal below the level, otherwise the return is
requested and the resolution stage makes it. -/
def State.xret (s : State) (p : Priv) : Result :=
  if s.core.cur.num < p.num then .fault .returnBelowLevel else .next (s.setNext (.ret p))

/-- Flush both TLBs, each under its own id in `sptbr` (R390). -/
def State.flushTlbs (s : State) (va : Option Word) : State :=
  { s with core := { s.core with
      tlb32 := s.core.tlb32.flush (VmFormat.asidOf .sv32 s.core.sptbr) va
      tlb39 := s.core.tlb39.flush (VmFormat.asidOf .sv39 s.core.sptbr) va } }

/-- CSRRW (R372). -/
def execCsrrw (rd : RegIdx) (csr : CsrAddr) (rs1 : RegIdx) (s : State) : Result :=
  s.csrInstr csr rd (s.getX rs1) true csrSwap

/-- CSRRS (R373). -/
def execCsrrs (rd : RegIdx) (csr : CsrAddr) (rs1 : RegIdx) (s : State) : Result :=
  s.csrInstr csr rd (s.getX rs1) (rs1 != 0#5) opOr

/-- CSRRC (R374). -/
def execCsrrc (rd : RegIdx) (csr : CsrAddr) (rs1 : RegIdx) (s : State) : Result :=
  s.csrInstr csr rd (s.getX rs1) (rs1 != 0#5) csrClear

/-- CSRRWI (R375). -/
def execCsrrwi (rd : RegIdx) (csr : CsrAddr) (zimm : BitVec 5) (s : State) : Result :=
  s.csrInstr csr rd (zimm.setWidth 64) true csrSwap

/-- CSRRSI (R376). -/
def execCsrrsi (rd : RegIdx) (csr : CsrAddr) (zimm : BitVec 5) (s : State) : Result :=
  s.csrInstr csr rd (zimm.setWidth 64) (zimm != 0#5) opOr

/-- CSRRCI (R377). -/
def execCsrrci (rd : RegIdx) (csr : CsrAddr) (zimm : BitVec 5) (s : State) : Result :=
  s.csrInstr csr rd (zimm.setWidth 64) (zimm != 0#5) csrClear

/-- ECALL (R380). -/
def execEcall (s : State) : Result :=
  .next (s.raise 8#4 none)

/-- EBREAK (R381). -/
def execEbreak (s : State) : Result :=
  .next (s.raise 3#4 none)

/-- URET (R382). -/
def execUret (s : State) : Result :=
  s.xret .user

/-- SRET (R383). -/
def execSret (s : State) : Result :=
  s.xret .supervisor

/-- HRET (R384). -/
def execHret (s : State) : Result :=
  s.xret .hypervisor

/-- MRET (R385). -/
def execMret (s : State) : Result :=
  s.xret .machine

/-- WFI (R388). -/
def execWfi (s : State) : Result :=
  .next s

/-- SFENCE.VM (R390). -/
def execSfenceVm (rs1 : RegIdx) (s : State) : Result :=
  if s.core.cur = .user then .next (s.raise 2#4 none)
  else .next (s.flushTlbs (if rs1 = 0#5 then none else some (s.amoAddr rs1)))

end Sys2Proof.Machine
end

