-- ==== Sys2Proof/Machine/Dispatch.lean ====
section
/-!
DEFINITION. The dispatch: one arm per instruction, one direct call of its meaning (40_step_and_fetch.md
R214). `exec` is the execute stage of a step; the clock tick and the resolution come after it.
-/

namespace Sys2Proof.Machine

def exec (i : Instr) (s : State) : Host.Outcome State Fault Refusal :=
  match i with
  -- Integer computational instructions (41_integer.md)
  | .lui rd imm => Sys2Proof.Machine.execLui rd imm s
  | .auipc rd imm => Sys2Proof.Machine.execAuipc rd imm s
  | .addi rd rs1 imm => Sys2Proof.Machine.execAddi rd rs1 imm s
  | .slti rd rs1 imm => Sys2Proof.Machine.execSlti rd rs1 imm s
  | .sltiu rd rs1 imm => Sys2Proof.Machine.execSltiu rd rs1 imm s
  | .xori rd rs1 imm => Sys2Proof.Machine.execXori rd rs1 imm s
  | .ori rd rs1 imm => Sys2Proof.Machine.execOri rd rs1 imm s
  | .andi rd rs1 imm => Sys2Proof.Machine.execAndi rd rs1 imm s
  | .slli rd rs1 shamt => Sys2Proof.Machine.execSlli rd rs1 shamt s
  | .srli rd rs1 shamt => Sys2Proof.Machine.execSrli rd rs1 shamt s
  | .srai rd rs1 shamt => Sys2Proof.Machine.execSrai rd rs1 shamt s
  | .add rd rs1 rs2 => Sys2Proof.Machine.execAdd rd rs1 rs2 s
  | .sub rd rs1 rs2 => Sys2Proof.Machine.execSub rd rs1 rs2 s
  | .sll rd rs1 rs2 => Sys2Proof.Machine.execSll rd rs1 rs2 s
  | .slt rd rs1 rs2 => Sys2Proof.Machine.execSlt rd rs1 rs2 s
  | .sltu rd rs1 rs2 => Sys2Proof.Machine.execSltu rd rs1 rs2 s
  | .xor rd rs1 rs2 => Sys2Proof.Machine.execXor rd rs1 rs2 s
  | .srl rd rs1 rs2 => Sys2Proof.Machine.execSrl rd rs1 rs2 s
  | .sra rd rs1 rs2 => Sys2Proof.Machine.execSra rd rs1 rs2 s
  | .or rd rs1 rs2 => Sys2Proof.Machine.execOr rd rs1 rs2 s
  | .and rd rs1 rs2 => Sys2Proof.Machine.execAnd rd rs1 rs2 s
  | .addiw rd rs1 imm => Sys2Proof.Machine.execAddiw rd rs1 imm s
  | .slliw rd rs1 shamt => Sys2Proof.Machine.execSlliw rd rs1 shamt s
  | .srliw rd rs1 shamt => Sys2Proof.Machine.execSrliw rd rs1 shamt s
  | .sraiw rd rs1 shamt => Sys2Proof.Machine.execSraiw rd rs1 shamt s
  | .addw rd rs1 rs2 => Sys2Proof.Machine.execAddw rd rs1 rs2 s
  | .subw rd rs1 rs2 => Sys2Proof.Machine.execSubw rd rs1 rs2 s
  | .sllw rd rs1 rs2 => Sys2Proof.Machine.execSllw rd rs1 rs2 s
  | .srlw rd rs1 rs2 => Sys2Proof.Machine.execSrlw rd rs1 rs2 s
  | .sraw rd rs1 rs2 => Sys2Proof.Machine.execSraw rd rs1 rs2 s
  -- Control transfer (42_control_transfer.md)
  | .jal rd off => Sys2Proof.Machine.execJal rd off s
  | .jalr rd rs1 imm => Sys2Proof.Machine.execJalr rd rs1 imm s
  | .beq rs1 rs2 off => Sys2Proof.Machine.execBeq rs1 rs2 off s
  | .bne rs1 rs2 off => Sys2Proof.Machine.execBne rs1 rs2 off s
  | .blt rs1 rs2 off => Sys2Proof.Machine.execBlt rs1 rs2 off s
  | .bge rs1 rs2 off => Sys2Proof.Machine.execBge rs1 rs2 off s
  | .bltu rs1 rs2 off => Sys2Proof.Machine.execBltu rs1 rs2 off s
  | .bgeu rs1 rs2 off => Sys2Proof.Machine.execBgeu rs1 rs2 off s
  -- Integer loads and stores, FENCE, FENCE.I (43_load_store.md)
  | .lb rd rs1 imm => Sys2Proof.Machine.execLb rd rs1 imm s
  | .lh rd rs1 imm => Sys2Proof.Machine.execLh rd rs1 imm s
  | .lw rd rs1 imm => Sys2Proof.Machine.execLw rd rs1 imm s
  | .lbu rd rs1 imm => Sys2Proof.Machine.execLbu rd rs1 imm s
  | .lhu rd rs1 imm => Sys2Proof.Machine.execLhu rd rs1 imm s
  | .lwu rd rs1 imm => Sys2Proof.Machine.execLwu rd rs1 imm s
  | .ld rd rs1 imm => Sys2Proof.Machine.execLd rd rs1 imm s
  | .sb rs1 rs2 imm => Sys2Proof.Machine.execSb rs1 rs2 imm s
  | .sh rs1 rs2 imm => Sys2Proof.Machine.execSh rs1 rs2 imm s
  | .sw rs1 rs2 imm => Sys2Proof.Machine.execSw rs1 rs2 imm s
  | .sd rs1 rs2 imm => Sys2Proof.Machine.execSd rs1 rs2 imm s
  | .fence => Sys2Proof.Machine.execFence s
  | .fenceI => Sys2Proof.Machine.execFenceI s
  -- Multiply, divide, remainder (44_muldiv.md)
  | .mul rd rs1 rs2 => Sys2Proof.Machine.execMul rd rs1 rs2 s
  | .mulh rd rs1 rs2 => Sys2Proof.Machine.execMulh rd rs1 rs2 s
  | .mulhsu rd rs1 rs2 => Sys2Proof.Machine.execMulhsu rd rs1 rs2 s
  | .mulhu rd rs1 rs2 => Sys2Proof.Machine.execMulhu rd rs1 rs2 s
  | .div rd rs1 rs2 => Sys2Proof.Machine.execDiv rd rs1 rs2 s
  | .divu rd rs1 rs2 => Sys2Proof.Machine.execDivu rd rs1 rs2 s
  | .rem rd rs1 rs2 => Sys2Proof.Machine.execRem rd rs1 rs2 s
  | .remu rd rs1 rs2 => Sys2Proof.Machine.execRemu rd rs1 rs2 s
  | .mulw rd rs1 rs2 => Sys2Proof.Machine.execMulw rd rs1 rs2 s
  | .divw rd rs1 rs2 => Sys2Proof.Machine.execDivw rd rs1 rs2 s
  | .divuw rd rs1 rs2 => Sys2Proof.Machine.execDivuw rd rs1 rs2 s
  | .remw rd rs1 rs2 => Sys2Proof.Machine.execRemw rd rs1 rs2 s
  | .remuw rd rs1 rs2 => Sys2Proof.Machine.execRemuw rd rs1 rs2 s
  -- Atomics (45_atomics.md); `aq` and `rl` are ignored by decode (R192)
  | .lrW rd rs1 => Sys2Proof.Machine.execLrW rd rs1 s
  | .lrD rd rs1 => Sys2Proof.Machine.execLrD rd rs1 s
  | .scW rd rs1 rs2 => Sys2Proof.Machine.execScW rd rs1 rs2 s
  | .scD rd rs1 rs2 => Sys2Proof.Machine.execScD rd rs1 rs2 s
  | .amoswapW rd rs1 rs2 => Sys2Proof.Machine.execAmoswapW rd rs1 rs2 s
  | .amoaddW rd rs1 rs2 => Sys2Proof.Machine.execAmoaddW rd rs1 rs2 s
  | .amoxorW rd rs1 rs2 => Sys2Proof.Machine.execAmoxorW rd rs1 rs2 s
  | .amoandW rd rs1 rs2 => Sys2Proof.Machine.execAmoandW rd rs1 rs2 s
  | .amoorW rd rs1 rs2 => Sys2Proof.Machine.execAmoorW rd rs1 rs2 s
  | .amominW rd rs1 rs2 => Sys2Proof.Machine.execAmominW rd rs1 rs2 s
  | .amomaxW rd rs1 rs2 => Sys2Proof.Machine.execAmomaxW rd rs1 rs2 s
  | .amominuW rd rs1 rs2 => Sys2Proof.Machine.execAmominuW rd rs1 rs2 s
  | .amomaxuW rd rs1 rs2 => Sys2Proof.Machine.execAmomaxuW rd rs1 rs2 s
  | .amoswapD rd rs1 rs2 => Sys2Proof.Machine.execAmoswapD rd rs1 rs2 s
  | .amoaddD rd rs1 rs2 => Sys2Proof.Machine.execAmoaddD rd rs1 rs2 s
  | .amoxorD rd rs1 rs2 => Sys2Proof.Machine.execAmoxorD rd rs1 rs2 s
  | .amoandD rd rs1 rs2 => Sys2Proof.Machine.execAmoandD rd rs1 rs2 s
  | .amoorD rd rs1 rs2 => Sys2Proof.Machine.execAmoorD rd rs1 rs2 s
  | .amominD rd rs1 rs2 => Sys2Proof.Machine.execAmominD rd rs1 rs2 s
  | .amomaxD rd rs1 rs2 => Sys2Proof.Machine.execAmomaxD rd rs1 rs2 s
  | .amominuD rd rs1 rs2 => Sys2Proof.Machine.execAmominuD rd rs1 rs2 s
  | .amomaxuD rd rs1 rs2 => Sys2Proof.Machine.execAmomaxuD rd rs1 rs2 s
  -- CSR access and system instructions (46_csr_system.md)
  | .csrrw rd csr rs1 => Sys2Proof.Machine.execCsrrw rd csr rs1 s
  | .csrrs rd csr rs1 => Sys2Proof.Machine.execCsrrs rd csr rs1 s
  | .csrrc rd csr rs1 => Sys2Proof.Machine.execCsrrc rd csr rs1 s
  | .csrrwi rd csr zimm => Sys2Proof.Machine.execCsrrwi rd csr zimm s
  | .csrrsi rd csr zimm => Sys2Proof.Machine.execCsrrsi rd csr zimm s
  | .csrrci rd csr zimm => Sys2Proof.Machine.execCsrrci rd csr zimm s
  | .ecall => Sys2Proof.Machine.execEcall s
  | .ebreak => Sys2Proof.Machine.execEbreak s
  | .uret => Sys2Proof.Machine.execUret s
  | .sret => Sys2Proof.Machine.execSret s
  | .hret => Sys2Proof.Machine.execHret s
  | .mret => Sys2Proof.Machine.execMret s
  | .wfi => Sys2Proof.Machine.execWfi s
  | .sfenceVm rs1 => Sys2Proof.Machine.execSfenceVm rs1 s
  -- Single-precision floating point (47_float_single.md)
  | .flw fd rs1 imm => Sys2Proof.Machine.execFlw fd rs1 imm s
  | .fsw rs1 fs2 imm => Sys2Proof.Machine.execFsw rs1 fs2 imm s
  | .fmaddS fd fs1 fs2 fs3 rm => Sys2Proof.Machine.execFmaddS fd fs1 fs2 fs3 rm s
  | .fmsubS fd fs1 fs2 fs3 rm => Sys2Proof.Machine.execFmsubS fd fs1 fs2 fs3 rm s
  | .fnmsubS fd fs1 fs2 fs3 rm => Sys2Proof.Machine.execFnmsubS fd fs1 fs2 fs3 rm s
  | .fnmaddS fd fs1 fs2 fs3 rm => Sys2Proof.Machine.execFnmaddS fd fs1 fs2 fs3 rm s
  | .faddS fd fs1 fs2 rm => Sys2Proof.Machine.execFaddS fd fs1 fs2 rm s
  | .fsubS fd fs1 fs2 rm => Sys2Proof.Machine.execFsubS fd fs1 fs2 rm s
  | .fmulS fd fs1 fs2 rm => Sys2Proof.Machine.execFmulS fd fs1 fs2 rm s
  | .fdivS fd fs1 fs2 rm => Sys2Proof.Machine.execFdivS fd fs1 fs2 rm s
  | .fsqrtS fd fs1 rm => Sys2Proof.Machine.execFsqrtS fd fs1 rm s
  | .fsgnjS fd fs1 fs2 => Sys2Proof.Machine.execFsgnjS fd fs1 fs2 s
  | .fsgnjnS fd fs1 fs2 => Sys2Proof.Machine.execFsgnjnS fd fs1 fs2 s
  | .fsgnjxS fd fs1 fs2 => Sys2Proof.Machine.execFsgnjxS fd fs1 fs2 s
  | .fminS fd fs1 fs2 => Sys2Proof.Machine.execFminS fd fs1 fs2 s
  | .fmaxS fd fs1 fs2 => Sys2Proof.Machine.execFmaxS fd fs1 fs2 s
  | .fcvtWS rd fs1 rm => Sys2Proof.Machine.execFcvtWS rd fs1 rm s
  | .fcvtWUS rd fs1 rm => Sys2Proof.Machine.execFcvtWUS rd fs1 rm s
  | .fmvXS rd fs1 => Sys2Proof.Machine.execFmvXS rd fs1 s
  | .feqS rd fs1 fs2 => Sys2Proof.Machine.execFeqS rd fs1 fs2 s
  | .fltS rd fs1 fs2 => Sys2Proof.Machine.execFltS rd fs1 fs2 s
  | .fleS rd fs1 fs2 => Sys2Proof.Machine.execFleS rd fs1 fs2 s
  | .fclassS rd fs1 => Sys2Proof.Machine.execFclassS rd fs1 s
  | .fcvtSW fd rs1 rm => Sys2Proof.Machine.execFcvtSW fd rs1 rm s
  | .fcvtSWU fd rs1 rm => Sys2Proof.Machine.execFcvtSWU fd rs1 rm s
  | .fmvSX fd rs1 => Sys2Proof.Machine.execFmvSX fd rs1 s
  | .fcvtLS rd fs1 rm => Sys2Proof.Machine.execFcvtLS rd fs1 rm s
  | .fcvtLUS rd fs1 rm => Sys2Proof.Machine.execFcvtLUS rd fs1 rm s
  | .fcvtSL fd rs1 rm => Sys2Proof.Machine.execFcvtSL fd rs1 rm s
  | .fcvtSLU fd rs1 rm => Sys2Proof.Machine.execFcvtSLU fd rs1 rm s
  -- Double-precision floating point (48_float_double.md)
  | .fld fd rs1 imm => Sys2Proof.Machine.execFld fd rs1 imm s
  | .fsd rs1 fs2 imm => Sys2Proof.Machine.execFsd rs1 fs2 imm s
  | .fmaddD fd fs1 fs2 fs3 rm => Sys2Proof.Machine.execFmaddD fd fs1 fs2 fs3 rm s
  | .fmsubD fd fs1 fs2 fs3 rm => Sys2Proof.Machine.execFmsubD fd fs1 fs2 fs3 rm s
  | .fnmsubD fd fs1 fs2 fs3 rm => Sys2Proof.Machine.execFnmsubD fd fs1 fs2 fs3 rm s
  | .fnmaddD fd fs1 fs2 fs3 rm => Sys2Proof.Machine.execFnmaddD fd fs1 fs2 fs3 rm s
  | .faddD fd fs1 fs2 rm => Sys2Proof.Machine.execFaddD fd fs1 fs2 rm s
  | .fsubD fd fs1 fs2 rm => Sys2Proof.Machine.execFsubD fd fs1 fs2 rm s
  | .fmulD fd fs1 fs2 rm => Sys2Proof.Machine.execFmulD fd fs1 fs2 rm s
  | .fdivD fd fs1 fs2 rm => Sys2Proof.Machine.execFdivD fd fs1 fs2 rm s
  | .fsqrtD fd fs1 rm => Sys2Proof.Machine.execFsqrtD fd fs1 rm s
  | .fsgnjD fd fs1 fs2 => Sys2Proof.Machine.execFsgnjD fd fs1 fs2 s
  | .fsgnjnD fd fs1 fs2 => Sys2Proof.Machine.execFsgnjnD fd fs1 fs2 s
  | .fsgnjxD fd fs1 fs2 => Sys2Proof.Machine.execFsgnjxD fd fs1 fs2 s
  | .fminD fd fs1 fs2 => Sys2Proof.Machine.execFminD fd fs1 fs2 s
  | .fmaxD fd fs1 fs2 => Sys2Proof.Machine.execFmaxD fd fs1 fs2 s
  | .fcvtSD fd fs1 rm => Sys2Proof.Machine.execFcvtSD fd fs1 rm s
  | .fcvtDS fd fs1 rm => Sys2Proof.Machine.execFcvtDS fd fs1 rm s
  | .feqD rd fs1 fs2 => Sys2Proof.Machine.execFeqD rd fs1 fs2 s
  | .fltD rd fs1 fs2 => Sys2Proof.Machine.execFltD rd fs1 fs2 s
  | .fleD rd fs1 fs2 => Sys2Proof.Machine.execFleD rd fs1 fs2 s
  | .fclassD rd fs1 => Sys2Proof.Machine.execFclassD rd fs1 s
  | .fcvtWD rd fs1 rm => Sys2Proof.Machine.execFcvtWD rd fs1 rm s
  | .fcvtWUD rd fs1 rm => Sys2Proof.Machine.execFcvtWUD rd fs1 rm s
  | .fcvtDW fd rs1 rm => Sys2Proof.Machine.execFcvtDW fd rs1 rm s
  | .fcvtDWU fd rs1 rm => Sys2Proof.Machine.execFcvtDWU fd rs1 rm s
  | .fcvtLD rd fs1 rm => Sys2Proof.Machine.execFcvtLD rd fs1 rm s
  | .fcvtLUD rd fs1 rm => Sys2Proof.Machine.execFcvtLUD rd fs1 rm s
  | .fmvXD rd fs1 => Sys2Proof.Machine.execFmvXD rd fs1 s
  | .fcvtDL fd rs1 rm => Sys2Proof.Machine.execFcvtDL fd rs1 rm s
  | .fcvtDLU fd rs1 rm => Sys2Proof.Machine.execFcvtDLU fd rs1 rm s
  | .fmvDX fd rs1 => Sys2Proof.Machine.execFmvDX fd rs1 s

end Sys2Proof.Machine
end

