-- ==== Sys2Proof/Machine/Fetch.lean ====
section
/-!
DEFINITION. The start of a step, the fetch, and the three pseudo-instructions (40_step_and_fetch.md
R210, R212, R218 to R220).
-/

namespace Sys2Proof.Machine

/-- The record is cleared but for the retiring `pc`, and the outcome slot emptied (R210). -/
def State.startStep (s : State) : State :=
  { s with core := { s.core with delta := Delta.clear s.core.pc, next := .none } }

/-- What a fetch gives. -/
inductive Fetched where
  /-- `FETCH_MISALIGNED` (R218). -/
  | misaligned
  /-- `FETCH_FAULT` (R219). -/
  | unmapped
  /-- The translation is fatal (R140). -/
  | fatal
  /-- The word read, with the state after the translation, the word recorded in `delta.rinstr`. -/
  | word (w : BitVec 32) (s : State)
  deriving DecidableEq, Repr

/-- The translation of `pc` with execute intent at the current level, `MPRV` ignored (R131, R212). -/
def State.translatePc (s : State) : Xlat :=
  s.translate s.core.pc .execute s.core.cur (statusMXR s.core.mstatus) (statusPUM s.core.mstatus)

/-- `Fetch()` (R212): the alignment test comes first. -/
def State.fetch (s : State) : Fetched :=
  if s.core.pc.extractLsb' 0 2 = 0#2 then
    match s.translatePc with
    | .fatal => .fatal
    | .unmapped => .unmapped
    | .mapped pa t => .word ((t.mem.readLE pa 4).setWidth 32)
        (t.recRinstr ((t.mem.readLE pa 4).setWidth 32))
  else .misaligned

/-- FETCH_MISALIGNED (R218). -/
def execFetchMisaligned (s : State) : Result := .next (s.recFetchExc.raise 0#4 (some s.core.pc))

/-- FETCH_FAULT (R219). -/
def execFetchFault (s : State) : Result := .next (s.recFetchExc.raise 12#4 (some s.core.pc))

/-- UNKNOWN: illegal instruction, no faulting address (R220). -/
def execUnknown (s : State) : Result := .next (s.raise 2#4 none)

/-- The physical address the next fetch reads, `pc` itself where the translation gives none. -/
def State.fetchAddr (s : State) : Word :=
  match s.translatePc with
  | .mapped pa _ => pa
  | _ => s.core.pc

/-- The 4 bytes of an instruction word placed where the next fetch reads. -/
def State.placeWord (s : State) (w : Word) : State :=
  { s with mem := s.mem.writeLE s.fetchAddr 4 w }

end Sys2Proof.Machine
end

