-- ==== Sys2Proof/Machine/Interrupts.lean ====
section
/-!
DEFINITION. The exception and interrupt controller: which interrupt is dispatchable, and which level a
trap enters (60_exceptions.md R486 to R502).
-/

namespace Sys2Proof.Machine

/-- The interrupt indices in search order: machine to user, external before software before timer
(R489). -/
def interruptOrder : List Nat := [11, 3, 7, 10, 2, 6, 9, 1, 5, 8, 0, 4]

/-- The delegation walk over three registers for bit `n`: the first level that does not delegate it
(R491, R500). -/
def delegTarget (m h s : Word) (n : Nat) : Priv :=
  if m.getLsbD n = false then .machine
  else if h.getLsbD n = false then .hypervisor
  else if s.getLsbD n = false then .supervisor
  else .user

/-- `int_target(i)` (R491). -/
def Core.intTarget (c : Core) (i : Nat) : Priv := delegTarget c.mideleg c.hideleg c.sideleg i

/-- Locally enabled (R487). -/
def Core.locallyEnabled (c : Core) (i : Nat) : Bool := c.mip.getLsbD i && c.mie.getLsbD i

/-- Globally enabled, for delegate level `d` (R488). -/
def Core.globallyEnabled (c : Core) (d : Priv) : Bool :=
  decide (c.cur.num < d.num) || (d == c.cur && statusIE c.mstatus c.cur)

/-- The interrupt is dispatchable: locally and globally enabled (R490). -/
def Core.dispatchable (c : Core) (i : Nat) : Bool :=
  c.locallyEnabled i && c.globallyEnabled (c.intTarget i)

/-- `check_interrupts()`: the first dispatchable interrupt in search order, with its target level
(R490). -/
def Core.checkInterrupts (c : Core) : Option (Nat × Priv) :=
  (interruptOrder.find? c.dispatchable).map fun i => (i, c.intTarget i)

/-- `deleg_index(code)`: an environment call is delegated by bit `8 + cur` (R499). -/
def delegIndex (code : BitVec 4) (cur : Priv) : Nat :=
  if code = 8#4 then 8 + cur.num else code.toNat

/-- `public_code(code)`: the code the cause register receives (R499). -/
def publicCode (e : EcallCode) (code : BitVec 4) (cur : Priv) : BitVec 4 :=
  if code = 8#4 ∧ e = .perPrivilege then BitVec.ofNat 4 (8 + cur.num) else code

/-- `exc_deleg(code)` (R500). -/
def Core.excDeleg (c : Core) (code : BitVec 4) : Priv :=
  delegTarget c.medeleg c.hedeleg c.sedeleg (delegIndex code c.cur)

/-- `exc_target(code)`: never below the current level (R502). -/
def Core.excTarget (c : Core) (code : BitVec 4) : Priv := Priv.max (c.excDeleg code) c.cur

end Sys2Proof.Machine
end

