-- ==== Sys2Proof/Machine/Resolve.lean ====
section
/-!
DEFINITION. The clock tick and the resolution stage (40_step_and_fetch.md R215, R216).
-/

namespace Sys2Proof.Machine

/-- One cycle, whatever the instruction did; the shared clock follows the stepping core (R215). -/
def State.tick (s : State) : State :=
  { s with
    core := { s.core with cycles := s.core.cycles + 1#64 }
    clock := BitVec.ofNat 64 ((s.core.cycles + 1#64).toNat / s.params.tickRatio) }

/-- `pc <- v` at the running width (10_state.md R28) and one instruction retired. -/
def State.retireTo (s : State) (v : Word) : State :=
  { s with core := { s.core with pc := s.xlen.zext v, instret := s.core.instret + 1#64 } }

/-- One instruction retired, `pc` already set. -/
def State.retire (s : State) : State :=
  { s with core := { s.core with instret := s.core.instret + 1#64 } }

/-- Dispatch a recorded exception: delegated level, public code, the instruction's own address. -/
def State.takeException (s : State) (code : BitVec 4) (badaddr : Option Word) : State :=
  s.trapEntry false (publicCode s.params.ecallCode code s.core.cur) (s.core.excTarget code)
    s.core.pc badaddr

/-- Dispatch an interrupt. -/
def State.takeInterrupt (s : State) (i : Nat) (t : Priv) : State :=
  s.trapEntry true (BitVec.ofNat 4 i) t s.core.pc none

/-- The outcome the instruction asked for (R216, the arm without an interrupt). -/
def State.applyNext (s : State) : Result :=
  match s.core.next with
  | .none => .next (s.retireTo (s.core.pc + 4#64))
  | .trap code b => .next (s.takeException code b)
  | .ret p => match s.privReturn p with
    | .next t => .next t.retire
    | .fault r => .fault r
    | .refused r => .refused r
  | .branch t => .next (s.retireTo t)

/-- `Resolve()` (R216): a dispatchable interrupt wins over whatever the instruction asked for; the slot
is emptied at the end. -/
def State.resolve (s : State) : Result :=
  match s.core.checkInterrupts with
  | some (i, t) => .next ((s.takeInterrupt i t).setNext .none)
  | none => match s.applyNext with
    | .next t => .next (t.setNext .none)
    | .fault r => .fault r
    | .refused r => .refused r

end Sys2Proof.Machine
end

