-- ==== Sys2Proof/Machine/Stages.lean ====
section
/-!
DEFINITION. The stages of a step put together (40_step_and_fetch.md R210, R211).
-/

namespace Sys2Proof.Machine

/-- Fetch, decode at the running width, execute (R212 to R214). -/
def State.fetchExecute (s : State) : Result :=
  match s.fetch with
  | .misaligned => execFetchMisaligned s
  | .unmapped => execFetchFault s
  | .fatal => .fault .unimplementedTranslationMode
  | .word w t => match decode t.xlen w with
    | .ok i => exec i t
    | .error _ => execUnknown t

/-- `Step` of the current core (R210); refused after a fatal error and after the end of the run
(R211). -/
def State.stepCurrent (s : State) : Result :=
  if s.fatal then .refused .fatalSet
  else if s.halted.isSome then .refused .runEnded
  else match s.startStep.fetchExecute with
    | .next t => t.tick.resolve
    | .fault r => .fault r
    | .refused r => .refused r

end Sys2Proof.Machine
end

