-- ==== Sys2Proof/Machine/Step.lean ====
section
/-!
DEFINITION. The machine's step, and placing an instruction where the next step fetches it.
-/

namespace Sys2Proof.Machine

/-- One call of `Step` (40_step_and_fetch.md R210), after the environment's calls that come before it. -/
def step (s : State) : Host.Outcome State Fault Refusal :=
  match s.applyInputs with
  | .next t => t.stepCurrent
  | .fault r => .fault r
  | .refused r => .refused r

/-- `s` with the instruction of `nbits` bits `w` where the current core fetches next: little-endian, the
first byte at the lowest address (20_memory.md R124). It stands for the load of a program (log
entry 14). -/
def State.withFetchWord (s : State) (nbits w : Nat) : State :=
  s.placeWord (BitVec.ofNat 64 (w % 2 ^ nbits))

end Sys2Proof.Machine
end

