-- ==== Sys2Proof/Safety.lean ====
section
/-!
DEFINITION. What a safe state and a safe run are, and the shapes the statements use to say what an
instruction did and what it left alone.
-/

namespace Sys2Proof

/-! ## Exact arithmetic

The statements give results as integers, computed exactly and then narrowed. -/

/-- The signed integer of the low `XLEN` bits of a register. -/
def Xlen.S (x : Xlen) (v : Word) : Int :=
  match x with
  | .w64 => v.toInt
  | .w32 => (v.setWidth 32).toInt

/-- The unsigned integer of the low `XLEN` bits of a register. -/
def Xlen.U (x : Xlen) (v : Word) : Nat := v.toNat % 2 ^ x.bits

/-- What a register receives for the result `z`: `z` modulo `2^XLEN`, sign-extended (10_state.md
R22). -/
def Xlen.stored (x : Xlen) (z : Int) : Word :=
  match x with
  | .w64 => BitVec.ofInt 64 z
  | .w32 => (BitVec.ofInt 32 z).signExtend 64

/-- The address `z`: `z` modulo `2^XLEN`, zero-extended (10_state.md R28, 20_memory.md R167). -/
def Xlen.addr (x : Xlen) (z : Int) : Word :=
  match x with
  | .w64 => BitVec.ofInt 64 z
  | .w32 => (BitVec.ofInt 32 z).setWidth 64

/-- The signed integer of the low word of a register. -/
def lowS (v : Word) : Int := (v.setWidth 32).toInt

/-- The unsigned integer of the low word of a register. -/
def lowU (v : Word) : Nat := v.toNat % 2 ^ 32

/-- What a word form writes for the result `z`: `z` modulo `2^32`, sign-extended to 64 bits. -/
def storedW (z : Int) : Word := (BitVec.ofInt 32 z).signExtend 64

/-- The code of a rounding mode (10_state.md R92). -/
def RoundingMode.code : RoundingMode → BitVec 3
  | .rne => 0#3
  | .rtz => 1#3
  | .rdn => 2#3
  | .rup => 3#3
  | .rmm => 4#3

/-- `rm` selects the mode `m` (47_float_single.md R401): it is its code, or it is 7 and `fcsr[7:5]`
is. -/
def Selects (rm : BitVec 3) (fcsr : BitVec 8) (m : RoundingMode) : Prop :=
  rm = m.code ∨ (rm = 7#3 ∧ fcsr.extractLsb' 5 3 = m.code)

/-! ## The general registers an instruction names

No instruction uses a register implicitly (10_state.md R21): what it reads and writes of the general
registers is what its register fields name. -/

/-- The general registers an instruction reads: its fields `rs1` and `rs2` (30_encoding.md R182). -/
def Instr.xSources : Instr → List RegIdx
  | .lui _ _ | .auipc _ _ | .jal _ _ | .fence | .fenceI | .csrrwi _ _ _ | .csrrsi _ _ _
  | .csrrci _ _ _ | .ecall | .ebreak | .uret | .sret | .hret | .mret | .wfi | .fmaddS _ _ _ _ _
  | .fmsubS _ _ _ _ _ | .fnmsubS _ _ _ _ _ | .fnmaddS _ _ _ _ _ | .faddS _ _ _ _ | .fsubS _ _ _ _
  | .fmulS _ _ _ _ | .fdivS _ _ _ _ | .fsqrtS _ _ _ | .fsgnjS _ _ _ | .fsgnjnS _ _ _
  | .fsgnjxS _ _ _ | .fminS _ _ _ | .fmaxS _ _ _ | .fcvtWS _ _ _ | .fcvtWUS _ _ _ | .fmvXS _ _
  | .feqS _ _ _ | .fltS _ _ _ | .fleS _ _ _ | .fclassS _ _ | .fcvtLS _ _ _ | .fcvtLUS _ _ _
  | .fmaddD _ _ _ _ _ | .fmsubD _ _ _ _ _ | .fnmsubD _ _ _ _ _ | .fnmaddD _ _ _ _ _
  | .faddD _ _ _ _ | .fsubD _ _ _ _ | .fmulD _ _ _ _ | .fdivD _ _ _ _ | .fsqrtD _ _ _
  | .fsgnjD _ _ _ | .fsgnjnD _ _ _ | .fsgnjxD _ _ _ | .fminD _ _ _ | .fmaxD _ _ _ | .fcvtSD _ _ _
  | .fcvtDS _ _ _ | .feqD _ _ _ | .fltD _ _ _ | .fleD _ _ _ | .fclassD _ _ | .fcvtWD _ _ _
  | .fcvtWUD _ _ _ | .fcvtLD _ _ _ | .fcvtLUD _ _ _ | .fmvXD _ _ => []
  | .addi _ rs1 _ | .slti _ rs1 _ | .sltiu _ rs1 _ | .xori _ rs1 _ | .ori _ rs1 _ | .andi _ rs1 _
  | .slli _ rs1 _ | .srli _ rs1 _ | .srai _ rs1 _ | .addiw _ rs1 _ | .slliw _ rs1 _
  | .srliw _ rs1 _ | .sraiw _ rs1 _ | .jalr _ rs1 _ | .lb _ rs1 _ | .lh _ rs1 _ | .lw _ rs1 _
  | .lbu _ rs1 _ | .lhu _ rs1 _ | .lwu _ rs1 _ | .ld _ rs1 _ | .lrW _ rs1 | .lrD _ rs1
  | .csrrw _ _ rs1 | .csrrs _ _ rs1 | .csrrc _ _ rs1 | .sfenceVm rs1 | .flw _ rs1 _ | .fsw rs1 _ _
  | .fcvtSW _ rs1 _ | .fcvtSWU _ rs1 _ | .fmvSX _ rs1 | .fcvtSL _ rs1 _ | .fcvtSLU _ rs1 _
  | .fld _ rs1 _ | .fsd rs1 _ _ | .fcvtDW _ rs1 _ | .fcvtDWU _ rs1 _ | .fcvtDL _ rs1 _
  | .fcvtDLU _ rs1 _ | .fmvDX _ rs1 => [rs1]
  | .add _ rs1 rs2 | .sub _ rs1 rs2 | .sll _ rs1 rs2 | .slt _ rs1 rs2 | .sltu _ rs1 rs2
  | .xor _ rs1 rs2 | .srl _ rs1 rs2 | .sra _ rs1 rs2 | .or _ rs1 rs2 | .and _ rs1 rs2
  | .addw _ rs1 rs2 | .subw _ rs1 rs2 | .sllw _ rs1 rs2 | .srlw _ rs1 rs2 | .sraw _ rs1 rs2
  | .beq rs1 rs2 _ | .bne rs1 rs2 _ | .blt rs1 rs2 _ | .bge rs1 rs2 _ | .bltu rs1 rs2 _
  | .bgeu rs1 rs2 _ | .sb rs1 rs2 _ | .sh rs1 rs2 _ | .sw rs1 rs2 _ | .sd rs1 rs2 _
  | .mul _ rs1 rs2 | .mulh _ rs1 rs2 | .mulhsu _ rs1 rs2 | .mulhu _ rs1 rs2 | .div _ rs1 rs2
  | .divu _ rs1 rs2 | .rem _ rs1 rs2 | .remu _ rs1 rs2 | .mulw _ rs1 rs2 | .divw _ rs1 rs2
  | .divuw _ rs1 rs2 | .remw _ rs1 rs2 | .remuw _ rs1 rs2 | .scW _ rs1 rs2 | .scD _ rs1 rs2
  | .amoswapW _ rs1 rs2 | .amoaddW _ rs1 rs2 | .amoxorW _ rs1 rs2 | .amoandW _ rs1 rs2
  | .amoorW _ rs1 rs2 | .amominW _ rs1 rs2 | .amomaxW _ rs1 rs2 | .amominuW _ rs1 rs2
  | .amomaxuW _ rs1 rs2 | .amoswapD _ rs1 rs2 | .amoaddD _ rs1 rs2 | .amoxorD _ rs1 rs2
  | .amoandD _ rs1 rs2 | .amoorD _ rs1 rs2 | .amominD _ rs1 rs2 | .amomaxD _ rs1 rs2
  | .amominuD _ rs1 rs2 | .amomaxuD _ rs1 rs2 => [rs1, rs2]

/-- The general register an instruction writes: its field `rd`. -/
def Instr.xDest : Instr → Option RegIdx
  | .lui rd _ | .auipc rd _ | .addi rd _ _ | .slti rd _ _ | .sltiu rd _ _ | .xori rd _ _
  | .ori rd _ _ | .andi rd _ _ | .slli rd _ _ | .srli rd _ _ | .srai rd _ _ | .add rd _ _
  | .sub rd _ _ | .sll rd _ _ | .slt rd _ _ | .sltu rd _ _ | .xor rd _ _ | .srl rd _ _
  | .sra rd _ _ | .or rd _ _ | .and rd _ _ | .addiw rd _ _ | .slliw rd _ _ | .srliw rd _ _
  | .sraiw rd _ _ | .addw rd _ _ | .subw rd _ _ | .sllw rd _ _ | .srlw rd _ _ | .sraw rd _ _
  | .jal rd _ | .jalr rd _ _ | .lb rd _ _ | .lh rd _ _ | .lw rd _ _ | .lbu rd _ _ | .lhu rd _ _
  | .lwu rd _ _ | .ld rd _ _ | .mul rd _ _ | .mulh rd _ _ | .mulhsu rd _ _ | .mulhu rd _ _
  | .div rd _ _ | .divu rd _ _ | .rem rd _ _ | .remu rd _ _ | .mulw rd _ _ | .divw rd _ _
  | .divuw rd _ _ | .remw rd _ _ | .remuw rd _ _ | .lrW rd _ | .lrD rd _ | .scW rd _ _
  | .scD rd _ _ | .amoswapW rd _ _ | .amoaddW rd _ _ | .amoxorW rd _ _ | .amoandW rd _ _
  | .amoorW rd _ _ | .amominW rd _ _ | .amomaxW rd _ _ | .amominuW rd _ _ | .amomaxuW rd _ _
  | .amoswapD rd _ _ | .amoaddD rd _ _ | .amoxorD rd _ _ | .amoandD rd _ _ | .amoorD rd _ _
  | .amominD rd _ _ | .amomaxD rd _ _ | .amominuD rd _ _ | .amomaxuD rd _ _ | .csrrw rd _ _
  | .csrrs rd _ _ | .csrrc rd _ _ | .csrrwi rd _ _ | .csrrsi rd _ _ | .csrrci rd _ _
  | .fcvtWS rd _ _ | .fcvtWUS rd _ _ | .fmvXS rd _ | .feqS rd _ _ | .fltS rd _ _ | .fleS rd _ _
  | .fclassS rd _ | .fcvtLS rd _ _ | .fcvtLUS rd _ _ | .feqD rd _ _ | .fltD rd _ _ | .fleD rd _ _
  | .fclassD rd _ | .fcvtWD rd _ _ | .fcvtWUD rd _ _ | .fcvtLD rd _ _ | .fcvtLUD rd _ _
  | .fmvXD rd _ => some rd
  | .beq _ _ _ | .bne _ _ _ | .blt _ _ _ | .bge _ _ _ | .bltu _ _ _ | .bgeu _ _ _ | .sb _ _ _
  | .sh _ _ _ | .sw _ _ _ | .sd _ _ _ | .fence | .fenceI | .ecall | .ebreak | .uret | .sret
  | .hret | .mret | .wfi | .sfenceVm _ | .flw _ _ _ | .fsw _ _ _ | .fmaddS _ _ _ _ _
  | .fmsubS _ _ _ _ _ | .fnmsubS _ _ _ _ _ | .fnmaddS _ _ _ _ _ | .faddS _ _ _ _ | .fsubS _ _ _ _
  | .fmulS _ _ _ _ | .fdivS _ _ _ _ | .fsqrtS _ _ _ | .fsgnjS _ _ _ | .fsgnjnS _ _ _
  | .fsgnjxS _ _ _ | .fminS _ _ _ | .fmaxS _ _ _ | .fcvtSW _ _ _ | .fcvtSWU _ _ _ | .fmvSX _ _
  | .fcvtSL _ _ _ | .fcvtSLU _ _ _ | .fld _ _ _ | .fsd _ _ _ | .fmaddD _ _ _ _ _
  | .fmsubD _ _ _ _ _ | .fnmsubD _ _ _ _ _ | .fnmaddD _ _ _ _ _ | .faddD _ _ _ _ | .fsubD _ _ _ _
  | .fmulD _ _ _ _ | .fdivD _ _ _ _ | .fsqrtD _ _ _ | .fsgnjD _ _ _ | .fsgnjnD _ _ _
  | .fsgnjxD _ _ _ | .fminD _ _ _ | .fmaxD _ _ _ | .fcvtSD _ _ _ | .fcvtDS _ _ _ | .fcvtDW _ _ _
  | .fcvtDWU _ _ _ | .fcvtDL _ _ _ | .fcvtDLU _ _ _ | .fmvDX _ _ => none

end Sys2Proof

namespace Sys2Proof.Machine

/-- General register `r` given the value `v` from outside the machine. -/
def State.putX (s : State) (r : RegIdx) (v : Word) : State :=
  { s with core := { s.core with x := s.core.x.set r.toNat v r.isLt } }

/-- An answer with general register `r` blanked: what it says of everything but that register. -/
def blankX (r : RegIdx) : Result → Result
  | .next t => .next (t.putX r 0#64)
  | .fault e => .fault e
  | .refused e => .refused e

/-! ## Legal states -/

/-- The status register is legal: `SD` is 1 exactly when `FS = 3` or `XS = 3` (10_state.md R62), and
the translation mode is a recognised one (10_state.md R61, 20_memory.md R130). -/
def statusOk (m : Word) : Bool := statusSummary m == m && vmRecognised (statusVM m)

/-- A TLB entry describes a valid leaf of some level of its format: masks, base and tag are those of
R33 and R146, and the accessed bit of its PTE copy is set (20_memory.md R144, R149). -/
def TlbEntry.Ok {f : VmFormat} (e : TlbEntry f) : Prop :=
  (∃ i, i ≤ f.rootLevel ∧ e.vmatch = f.vmatch i ∧ e.voff = f.voff i ∧ e.pbase = f.pbase i e.pte)
    ∧ e.vtag &&& e.vmatch = e.vtag
    ∧ pteInvalid e.pte = false ∧ ptePointer e.pte = false ∧ e.pte.getLsbD 6 = true

/-- A TLB has its number of slots and only legal entries. -/
def Tlb.Ok {f : VmFormat} (n : Nat) (t : Tlb f) : Prop :=
  t.length = n ∧ ∀ e, some e ∈ t → e.Ok

/-- A core is legal under the parameters `p`, at any point of a step. -/
structure Core.Ok (p : Params) (c : Core) : Prop where
  /-- `pc` is reduced to the running width (R28). -/
  pcWidth : p.arch.zext c.pc = c.pc
  /-- Every general register holds the sign extension of an `XLEN`-bit value (R22). -/
  xWidth : ∀ i : Fin 32, p.arch.sext c.x[i] = c.x[i]
  /-- Nothing was ever stored in `x0` (R20). -/
  x0 : c.x[0] = 0#64
  /-- A reservation is an address at the running width (45_atomics.md R341, R167). -/
  resvWidth : ∀ a, c.resv = some a → p.arch.zext a = a
  tlb32 : c.tlb32.Ok p.tlbEntries
  tlb39 : c.tlb39.Ok p.tlbEntries
  status : statusOk c.mstatus = true
  /-- Only the twelve interrupt indices can be pending (R74, 60_exceptions.md R497). -/
  pending : c.mip &&& ~~~0xFFF#64 = 0#64

/-- The invariant of the machine between steps. -/
structure State.Inv (s : State) : Prop where
  params : s.params.wf = true
  /-- Memory, and the memory a reset loads, are in canonical form. -/
  mem : s.mem.wf = true
  mem0 : Memory.wf s.params.mem0 = true
  cores : ∀ c ∈ s.core :: s.parked, c.Ok s.params
  /-- The outcome slot is empty between steps (R216). -/
  idle : ∀ c ∈ s.core :: s.parked, c.next = .none
  /-- The cores are those of the ids `0 .. NCORES - 1`, each once, the parked ones in order (R6). -/
  ids : (insertCore s.core s.parked).map Core.hartid = List.range s.params.ncores

/-! ## Safe runs -/

/-- The next step completes: no fatal error, no refused call. -/
def State.StepsOn (s : State) : Prop := ∃ t, step s = .next t

/-- The next `n` steps complete. -/
def State.SafeRun : Nat → State → Prop
  | 0, _ => True
  | n + 1, s => ∃ t, step s = .next t ∧ State.SafeRun n t

/-! ## What an instruction did -/

/-- The instruction completes with a next state of which `P` holds. -/
def Completes (i : Instr) (s : State) (P : State → Prop) : Prop := ∃ t, exec i s = .next t ∧ P t

/-- Every byte of memory reads as before. -/
def SameMem (s t : State) : Prop := ∀ a, t.mem.read a = s.mem.read a

/-- `x[rd] <- v` as 10_state.md R20, R22 have it: the other registers keep their values, a write to
`x0` is discarded, the value is recorded in `delta.data1`; nothing else changes. -/
structure WroteX (s t : State) (rd : RegIdx) (v : Word) : Prop where
  value : t.getX rd = if rd = 0#5 then 0#64 else v
  others : ∀ r, r ≠ rd → t.getX r = s.getX r
  mem : SameMem s t
  rest : t = { s with core := { s.core with
    x := t.core.x, delta := { s.core.delta with data1 := some v } } }

/-- The instruction completes and does `x[rd] <- v` and nothing else. -/
def Writes (s : State) (i : Instr) (rd : RegIdx) (v : Word) : Prop :=
  Completes i s fun t => WroteX s t rd v

/-- `f[fd] <- v` as 10_state.md R24, R94 have it: the other registers keep their values, the value is
recorded in `delta.fp_data`, `FS` and `SD` are set; nothing else changes. -/
structure WroteF (s t : State) (fd : RegIdx) (v : Word) : Prop where
  value : t.getF fd = v
  others : ∀ r, r ≠ fd → t.getF r = s.getF r
  mem : SameMem s t
  rest : t = { s with core := { s.core with
    f := t.core.f, mstatus := s.core.mstatus ||| 0x8000000000006000#64,
    delta := { s.core.delta with fpData := some v } } }

/-- The state after the flags `fl` are accrued (47_float_single.md R402): they are ORed into
`fcsr[4:0]`, and a nonempty set marks the context dirty. -/
def State.withFlags (s : State) (fl : FpFlags) : State :=
  { s with core := { s.core with
      fcsr := s.core.fcsr ||| fl.setWidth 8
      mstatus := if fl = 0#5 then s.core.mstatus
        else s.core.mstatus ||| 0x8000000000006000#64 } }

/-- The instruction records exception `code` and ends: the outcome slot, `exc_taken` and, where there is
a faulting address, `delta.addr` change, and nothing else, of the record neither (60_exceptions.md
R482). -/
structure Raised (s t : State) (code : BitVec 4) (badaddr : Option Word) : Prop where
  slot : t.core.next = .trap code badaddr
  record : t.core.delta = { s.core.delta with
    excTaken := true
    addr := match badaddr with
      | some a => some a
      | none => s.core.delta.addr }
  regs : (∀ r, t.getX r = s.getX r) ∧ (∀ r, t.getF r = s.getF r)
  mem : SameMem s t
  rest : t = { s with core := { s.core with next := t.core.next, delta := t.core.delta } }

/-- The `n` bytes of `v`, lowest first, stand at `pa`, `pa + 1`, .. modulo `2^64`, and every other byte
reads as in `s` (20_memory.md R123). -/
def StoredAt (s t : State) (pa : Word) (n : Nat) (v : Word) : Prop :=
  (∀ k, k < n → t.mem.read (pa + BitVec.ofNat 64 k).toNat = (v >>> (8 * k)).setWidth 8) ∧
  ∀ a, (∀ k, k < n → a ≠ (pa + BitVec.ofNat 64 k).toNat) → t.mem.read a = s.mem.read a

/-- The unsigned integer of `n` bytes from `pa`, the byte at `pa + k` with weight `256^k`
(20_memory.md R122). -/
def Memory.nat (m : Memory) (pa : Word) : Nat → Nat
  | 0 => 0
  | n + 1 => m.nat pa n + (m.read (pa + BitVec.ofNat 64 n).toNat).toNat * 256 ^ n

/-- The low `n` bytes of a value, as a word. -/
def low (n : Nat) (d : Word) : Word := BitVec.ofNat 64 (d.toNat % 256 ^ n)

/-- The whole effect of `pwrite(va, pa, n, d)` on the translated state `u` (20_memory.md R166): the
bytes, the test-completion channel, the reservation, the record. -/
structure Stored (u w : State) (va pa : Word) (n : Nat) (d : Word) : Prop where
  bytes : StoredAt u w pa n d
  rest : w = { u with
    mem := w.mem
    halted := if pa = u.params.exitAddr then some (low n d) else u.halted
    core := { u.core with
      resv := if u.core.resv = some va then none else u.core.resv
      delta := { u.core.delta with addr := some va, stWidth := some n } } }

/-- The address a store-class instruction writes at when it writes. -/
def storeAddr (i : Instr) (s : State) : Option Word :=
  match i with
  | .sb rs1 _ imm | .sh rs1 _ imm | .sw rs1 _ imm | .sd rs1 _ imm | .fsw rs1 _ imm
  | .fsd rs1 _ imm => some (s.ea rs1 imm)
  | .scW _ rs1 _ | .scD _ rs1 _
  | .amoswapW _ rs1 _ | .amoaddW _ rs1 _ | .amoxorW _ rs1 _ | .amoandW _ rs1 _ | .amoorW _ rs1 _
  | .amominW _ rs1 _ | .amomaxW _ rs1 _ | .amominuW _ rs1 _ | .amomaxuW _ rs1 _
  | .amoswapD _ rs1 _ | .amoaddD _ rs1 _ | .amoxorD _ rs1 _ | .amoandD _ rs1 _ | .amoorD _ rs1 _
  | .amominD _ rs1 _ | .amomaxD _ rs1 _ | .amominuD _ rs1 _ | .amomaxuD _ rs1 _ =>
    some (s.amoAddr rs1)
  | _ => none

/-- The address a load-reserved instruction reserves. -/
def reserveAddr (i : Instr) (s : State) : Option Word :=
  match i with
  | .lrW _ rs1 | .lrD _ rs1 => some (s.amoAddr rs1)
  | _ => none

/-- The level a return instruction returns from. -/
def returnLevel (i : Instr) : Option Priv :=
  match i with
  | .uret => some .user
  | .sret => some .supervisor
  | .hret => some .hypervisor
  | .mret => some .machine
  | _ => none

/-! ## The shapes of the rules -/

/-- A conditional branch (42_control_transfer.md R290): not taken it changes nothing, taken it requests
the transfer, and taken to a misaligned target it raises instead. -/
structure BranchRule (s : State) (i : Instr) (taken : Prop) (target : Word) : Prop where
  notTaken : ¬taken → exec i s = .next s
  jumps : taken → target.toNat % 4 = 0 → exec i s = .next (s.setNext (.branch target))
  misaligned : taken → target.toNat % 4 ≠ 0 → Completes i s fun t => Raised s t 0#4 (some target)

/-- An unconditional jump (42_control_transfer.md R290 to R292). -/
structure JumpRule (s : State) (i : Instr) (rd : RegIdx) (link target : Word) : Prop where
  jumps : target.toNat % 4 = 0 →
    ∃ t, WroteX s t rd link ∧ exec i s = .next (t.setNext (.branch target))
  misaligned : target.toNat % 4 ≠ 0 → Completes i s fun t => Raised s t 0#4 (some target)

/-- An integer load of `n` bytes at `va` (43_load_store.md R313): `value` of their unsigned integer. -/
def LoadRule (s : State) (i : Instr) (rd : RegIdx) (va : Word) (n : Nat) (value : Nat → Word) : Prop :=
  ∀ pa u, s.translateData va .read = .mapped pa u →
    Completes i s fun t => WroteX (u.recAddr va) t rd (value (u.mem.nat pa n))

/-- A floating-point load (47_float_single.md R403, 48_float_double.md R441). -/
def LoadFRule (s : State) (i : Instr) (fd : RegIdx) (va : Word) (n : Nat) (value : Nat → Word) : Prop :=
  ∀ pa u, s.translateData va .read = .mapped pa u →
    Completes i s fun t => WroteF (u.recAddr va) t fd (value (u.mem.nat pa n))

/-- An integer store of the low `n` bytes of `d` at `va` (43_load_store.md R314). -/
def StoreRule (s : State) (i : Instr) (va : Word) (n : Nat) (d : Word) : Prop :=
  ∀ pa u, s.translateData va .write = .mapped pa u →
    ∃ w, Stored u w va pa n d ∧ exec i s = .next (w.recData1 (low n d))

/-- A floating-point store (47_float_single.md R404, 48_float_double.md R442). -/
def StoreFRule (s : State) (i : Instr) (va : Word) (n : Nat) (d : Word) : Prop :=
  ∀ pa u, s.translateData va .write = .mapped pa u →
    ∃ w, Stored u w va pa n d ∧ exec i s = .next (w.recFp (low n d))

/-- LR of `n` bytes at `va` (45_atomics.md R341, R342). -/
structure ReserveRule (s : State) (i : Instr) (rd : RegIdx) (va : Word) (n : Nat) : Prop where
  reserves : va.toNat % n = 0 → ∀ pa u, s.translateData va .read = .mapped pa u →
    Completes i s fun t => WroteX ((u.recAddr va).setResv (some va)) t rd
      (s.params.arch.stored (BitVec.ofNat (8 * n) (u.mem.nat pa n)).toInt)
  misaligned : va.toNat % n ≠ 0 → Completes i s fun t => Raised s t 4#4 (some va)

/-- SC of the low `n` bytes of `d` at `va` (45_atomics.md R343, R344). -/
structure ConditionalRule (s : State) (i : Instr) (rd : RegIdx) (va : Word) (n : Nat) (d : Word) :
    Prop where
  stores : va.toNat % n = 0 → s.core.resv = some va →
    ∀ pa u, s.translateData va .write = .mapped pa u →
      ∃ w, Stored u w va pa n d ∧ w.core.resv = none ∧
        Completes i s fun t => WroteX (w.recData2 (low n d)) t rd 0#64
  fails : va.toNat % n = 0 → s.core.resv ≠ some va →
    Completes i s fun t => WroteX (s.recAddr va) t rd 1#64
  misaligned : va.toNat % n ≠ 0 → Completes i s fun t => Raised s t 6#4 (some va)

/-- An AMO on `n` bytes at `va` (45_atomics.md R348): `op` of the old value and of the low `n` bytes of
the source, as unsigned integers, modulo `256^n`. -/
structure AmoRule (s : State) (i : Instr) (rd : RegIdx) (va : Word) (n : Nat) (src : Word)
    (op : Nat → Nat → Nat) : Prop where
  swaps : va.toNat % n = 0 → ∀ pa u, s.translateData va .readWrite = .mapped pa u →
    ∃ w, Stored u w va pa n
        (BitVec.ofNat 64 (op (u.mem.nat pa n) (src.toNat % 256 ^ n) % 256 ^ n)) ∧
      Completes i s fun t => WroteX
        (w.recData2 (BitVec.ofNat 64 (op (u.mem.nat pa n) (src.toNat % 256 ^ n) % 256 ^ n))) t rd
        (s.params.arch.stored (BitVec.ofNat (8 * n) (u.mem.nat pa n)).toInt)
  misaligned : va.toNat % n ≠ 0 → Completes i s fun t => Raised s t 6#4 (some va)

/-- A floating-point result with its flags (47_float_single.md R402). -/
def FpWrites (s : State) (i : Instr) (fd : RegIdx) (v : Word) (fl : FpFlags) : Prop :=
  Completes i s fun t => WroteF (s.withFlags fl) t fd v

/-- An integer result of a floating-point instruction, with its flags. -/
def FpWritesX (s : State) (i : Instr) (rd : RegIdx) (v : Word) (fl : FpFlags) : Prop :=
  Completes i s fun t => WroteX (s.withFlags fl) t rd v

/-- A single-precision value in a register (10_state.md R25). -/
def boxed (v : BitVec 32) : Word := BitVec.ofNat 64 (0xFFFFFFFF * 2 ^ 32 + v.toNat)

/-- The low 32 bits of a floating-point register (10_state.md R25). -/
def State.single (s : State) (i : RegIdx) : BitVec 32 := BitVec.ofNat 32 (s.getF i).toNat

/-- The value is a NaN: its magnitude is above infinity (47_float_single.md R417). -/
def nan32 (v : BitVec 32) : Prop := 0x7F800000 < v.toNat % 2 ^ 31
/-- The value is a signaling NaN: bit 22 is clear. -/
def snan32 (v : BitVec 32) : Prop := nan32 v ∧ v.toNat / 2 ^ 22 % 2 = 0
/-- The value is a NaN: its magnitude is above infinity (48_float_double.md R455). -/
def nan64 (v : BitVec 64) : Prop := 0x7FF0000000000000 < v.toNat % 2 ^ 63
/-- The value is a signaling NaN: bit 51 is clear. -/
def snan64 (v : BitVec 64) : Prop := nan64 v ∧ v.toNat / 2 ^ 51 % 2 = 0

/-- Everything the execute stage never touches (R214): `pc`, the privilege level, the id, the other
cores, the shared clock, the parameters and the environment's calls. -/
structure State.ExecFrame (s t : State) : Prop where
  pc : t.core.pc = s.core.pc
  cur : t.core.cur = s.core.cur
  hartid : t.core.hartid = s.core.hartid
  parked : t.parked = s.parked
  clock : t.clock = s.clock
  fatal : t.fatal = s.fatal
  params : t.params = s.params
  inputs : t.inputs = s.inputs

/-! ## Control and status registers -/

/-- The CSR map of R49: the user bank. -/
def csrMapUser : List (CsrAddr × Csr) :=
  [(0x000#12, .ustatus), (0x001#12, .fflags), (0x002#12, .frm), (0x003#12, .fcsr),
   (0x004#12, .uie), (0x005#12, .utvec), (0x040#12, .uscratch), (0x041#12, .uepc),
   (0x042#12, .ucause), (0x043#12, .ubadaddr), (0x044#12, .uip), (0xC00#12, .cycle),
   (0xC01#12, .time), (0xC02#12, .instret), (0xC80#12, .cycleh), (0xC81#12, .timeh),
   (0xC82#12, .instreth)]

/-- The CSR map of R49: the supervisor bank. -/
def csrMapSupervisor : List (CsrAddr × Csr) :=
  [(0x100#12, .sstatus), (0x102#12, .sedeleg), (0x103#12, .sideleg), (0x104#12, .sie),
   (0x105#12, .stvec), (0x140#12, .sscratch), (0x141#12, .sepc), (0x142#12, .scause),
   (0x143#12, .sbadaddr), (0x144#12, .sip), (0x180#12, .sptbr)]

/-- The CSR map of R49: the hypervisor bank. -/
def csrMapHypervisor : List (CsrAddr × Csr) :=
  [(0x200#12, .hstatus), (0x202#12, .hedeleg), (0x203#12, .hideleg), (0x204#12, .hie),
   (0x205#12, .htvec), (0x240#12, .hscratch), (0x241#12, .hepc), (0x242#12, .hcause),
   (0x243#12, .hbadaddr), (0x244#12, .hip)]

/-- The CSR map of R49: the machine bank. -/
def csrMapMachine : List (CsrAddr × Csr) :=
  [(0x300#12, .mstatus), (0x301#12, .misa), (0x302#12, .medeleg), (0x303#12, .mideleg),
   (0x304#12, .mie), (0x305#12, .mtvec), (0x320#12, .mucounteren), (0x321#12, .mscounteren),
   (0x322#12, .mhcounteren), (0x340#12, .mscratch), (0x341#12, .mepc), (0x342#12, .mcause),
   (0x343#12, .mbadaddr), (0x344#12, .mip), (0xB00#12, .mcycle), (0xB02#12, .minstret),
   (0xB80#12, .mcycleh), (0xB82#12, .minstreth), (0xF11#12, .mvendorid), (0xF12#12, .marchid),
   (0xF13#12, .mimpid), (0xF14#12, .mhartid)]

/-- The CSR map (10_state.md R49). -/
def csrMap : List (CsrAddr × Csr) := csrMapUser ++ csrMapSupervisor ++ csrMapHypervisor ++ csrMapMachine

/-- The enable bit of a user counter at a level (10_state.md R87). -/
def counterOn (s : State) (bit : Nat) : Prop :=
  match s.core.cur with
  | .machine => True
  | .hypervisor => s.core.mhcounteren.getLsbD bit = true
  | .supervisor => s.core.mscounteren.getLsbD bit = true
  | .user => s.core.mucounteren.getLsbD bit = true

/-- A CSR access passes both checks (10_state.md R42, R43): the address is in the map, the level is high
enough, a write is not to a read-only address, and the two conditions on counters hold. -/
structure CsrAllowed (s : State) (a : CsrAddr) (writes : Bool) : Prop where
  mapped : ∃ c, (a, c) ∈ csrMap
  level : a.toNat / 2 ^ 8 % 4 ≤ s.core.cur.num
  writable : writes = true → a.toNat / 2 ^ 10 ≠ 3
  narrow : a ∈ [0xB80#12, 0xB82#12, 0xC80#12, 0xC81#12, 0xC82#12] → s.params.arch = .w32
  enabled : a ∈ [0xC00#12, 0xC01#12, 0xC02#12, 0xC80#12, 0xC81#12, 0xC82#12] →
    counterOn s (a.toNat % 4)

/-- A CSR instruction (46_csr_system.md R371): allowed, it reads the old value, writes `new` of it when
it writes, and `rd` receives the old value; refused, it raises illegal instruction. -/
structure CsrRule (s : State) (i : Instr) (a : CsrAddr) (rd : RegIdx) (writes : Bool)
    (new : Word → Word) : Prop where
  allowed : CsrAllowed s a writes → ∀ c, (a, c) ∈ csrMap →
    Completes i s fun t => WroteX
      (if writes = true then s.csrWrite a c (s.params.arch.sext (new (s.csrRead c))) else s) t rd
      (s.csrRead c)
  refused : ¬CsrAllowed s a writes → Completes i s fun t => Raised s t 2#4 none

/-- The native contents of the user bank (10_state.md R50 and each register's rule). -/
def csrContentsUser : List (Csr × (State → Word)) :=
  [(.ustatus, fun s => s.core.mstatus &&& 0x11#64),
   (.fflags, fun s => BitVec.ofNat 64 (s.core.fcsr.toNat % 32)),
   (.frm, fun s => BitVec.ofNat 64 (s.core.fcsr.toNat / 32)),
   (.fcsr, fun s => BitVec.ofNat 64 s.core.fcsr.toNat),
   (.uie, fun s => s.core.mie &&& 0x111#64), (.utvec, fun s => s.core.uBank.tvec),
   (.uscratch, fun s => s.core.uBank.scratch), (.uepc, fun s => s.core.uBank.epc),
   (.ucause, fun s => s.core.uBank.cause), (.ubadaddr, fun s => s.core.uBank.badaddr),
   (.uip, fun s => s.core.mip &&& 0x111#64), (.cycle, fun s => s.core.cycles),
   (.time, fun s => s.clock), (.instret, fun s => s.core.instret),
   (.cycleh, fun s => s.core.cycles), (.timeh, fun s => s.clock),
   (.instreth, fun s => s.core.instret)]

/-- The native contents of the supervisor bank. -/
def csrContentsSupervisor : List (Csr × (State → Word)) :=
  [(.sstatus, fun s => s.core.mstatus &&& 0x800000000005E133#64),
   (.sedeleg, fun s => s.core.sedeleg), (.sideleg, fun s => s.core.sideleg),
   (.sie, fun s => s.core.mie &&& 0x333#64), (.stvec, fun s => s.core.sBank.tvec),
   (.sscratch, fun s => s.core.sBank.scratch), (.sepc, fun s => s.core.sBank.epc),
   (.scause, fun s => s.core.sBank.cause), (.sbadaddr, fun s => s.core.sBank.badaddr),
   (.sip, fun s => s.core.mip &&& 0x333#64), (.sptbr, fun s => s.core.sptbr)]

/-- The native contents of the hypervisor bank. -/
def csrContentsHypervisor : List (Csr × (State → Word)) :=
  [(.hstatus, fun s => s.core.mstatus &&& 0x800000000005E777#64),
   (.hedeleg, fun s => s.core.hedeleg), (.hideleg, fun s => s.core.hideleg),
   (.hie, fun s => s.core.mie &&& 0x777#64), (.htvec, fun s => s.core.hBank.tvec),
   (.hscratch, fun s => s.core.hBank.scratch), (.hepc, fun s => s.core.hBank.epc),
   (.hcause, fun s => s.core.hBank.cause), (.hbadaddr, fun s => s.core.hBank.badaddr),
   (.hip, fun s => s.core.mip &&& 0x777#64)]

/-- The native contents of the machine bank. -/
def csrContentsMachine : List (Csr × (State → Word)) :=
  [(.mstatus, fun s => s.core.mstatus),
   (.misa, fun s => match s.params.arch with
     | .w32 => 0x4000000000141129#64
     | .w64 => 0x8000000000141129#64),
   (.medeleg, fun s => s.core.medeleg), (.mideleg, fun s => s.core.mideleg),
   (.mie, fun s => s.core.mie), (.mtvec, fun s => s.core.mBank.tvec),
   (.mucounteren, fun s => s.core.mucounteren), (.mscounteren, fun s => s.core.mscounteren),
   (.mhcounteren, fun s => s.core.mhcounteren), (.mscratch, fun s => s.core.mBank.scratch),
   (.mepc, fun s => s.core.mBank.epc), (.mcause, fun s => s.core.mBank.cause),
   (.mbadaddr, fun s => s.core.mBank.badaddr), (.mip, fun s => s.core.mip),
   (.mcycle, fun s => s.core.cycles), (.minstret, fun s => s.core.instret),
   (.mcycleh, fun s => s.core.cycles), (.minstreth, fun s => s.core.instret),
   (.mvendorid, fun _ => 0#64), (.marchid, fun _ => 0#64), (.mimpid, fun _ => 0#64),
   (.mhartid, fun s => BitVec.ofNat 64 s.core.hartid)]

/-- The native contents of every register. -/
def csrContents : List (Csr × (State → Word)) :=
  csrContentsUser ++ csrContentsSupervisor ++ csrContentsHypervisor ++ csrContentsMachine

/-- The 32-bit view of a native value (10_state.md R45). -/
def viewOf (c : Csr) (v : Word) : BitVec 32 :=
  if c ∈ [.mstatus, .hstatus, .sstatus, .ustatus, .mcause, .hcause, .scause, .ucause] then
    BitVec.ofNat 32 (v.toNat / 2 ^ 63 * 2 ^ 31 + v.toNat % 2 ^ 31)
  else if c = .misa then BitVec.ofNat 32 (v.toNat / 2 ^ 62 * 2 ^ 30 + v.toNat % 2 ^ 26)
  else if c ∈ [.mcycleh, .minstreth, .cycleh, .timeh, .instreth] then
    BitVec.ofNat 32 (v.toNat / 2 ^ 32)
  else BitVec.ofNat 32 v.toNat

/-- What `csr_write` records: the address and the native value (10_state.md R37, R51). -/
def State.recCsr (s : State) (a : CsrAddr) (v : Word) : State :=
  { s with core := { s.core with
      delta := { s.core.delta with addr := some (a.setWidth 64), data2 := some v } } }

/-- The registers stored as written, but for the hypervisor bank (10_state.md R47). -/
def storedRegisters : List (Csr × (State → Word)) :=
  [(.medeleg, fun s => s.core.medeleg), (.mideleg, fun s => s.core.mideleg),
   (.sedeleg, fun s => s.core.sedeleg), (.sideleg, fun s => s.core.sideleg),
   (.mie, fun s => s.core.mie), (.sptbr, fun s => s.core.sptbr),
   (.mtvec, fun s => s.core.mBank.tvec), (.stvec, fun s => s.core.sBank.tvec),
   (.utvec, fun s => s.core.uBank.tvec), (.mscratch, fun s => s.core.mBank.scratch),
   (.sscratch, fun s => s.core.sBank.scratch), (.uscratch, fun s => s.core.uBank.scratch),
   (.mepc, fun s => s.core.mBank.epc), (.sepc, fun s => s.core.sBank.epc),
   (.uepc, fun s => s.core.uBank.epc), (.mbadaddr, fun s => s.core.mBank.badaddr),
   (.sbadaddr, fun s => s.core.sBank.badaddr), (.ubadaddr, fun s => s.core.uBank.badaddr),
   (.mucounteren, fun s => s.core.mucounteren), (.mscounteren, fun s => s.core.mscounteren),
   (.mhcounteren, fun s => s.core.mhcounteren)]

/-- The cause registers, but for the hypervisor's. -/
def causeRegisters : List (Csr × (State → Word)) :=
  [(.mcause, fun s => s.core.mBank.cause), (.scause, fun s => s.core.sBank.cause),
   (.ucause, fun s => s.core.uBank.cause)]

/-- The hypervisor registers stored as written when `HYP_CSR_WRITES = symmetric` (R48). -/
def hypRegisters : List (Csr × (State → Word)) :=
  [(.hedeleg, fun s => s.core.hedeleg), (.hideleg, fun s => s.core.hideleg),
   (.htvec, fun s => s.core.hBank.tvec), (.hscratch, fun s => s.core.hBank.scratch),
   (.hepc, fun s => s.core.hBank.epc), (.hbadaddr, fun s => s.core.hBank.badaddr)]

/-- The native value of a write to a register without a rule of its own in R46. -/
def plainNative (x : Xlen) (w : Word) : Word :=
  match x with
  | .w64 => w
  | .w32 => (BitVec.ofNat 32 w.toNat).signExtend 64

/-- The native value of a write to a cause register (R46): in 32-bit mode bit 31 moves to bit 63. -/
def causeNative (x : Xlen) (w : Word) : Word :=
  match x with
  | .w64 => w
  | .w32 => BitVec.ofNat 64 (w.toNat / 2 ^ 31 % 2 * 2 ^ 63 + w.toNat % 2 ^ 31)

/-- The native value of a write to a status register holding `old` (R46): in 32-bit mode bits 63:31
stay. -/
def statusNative (x : Xlen) (old w : Word) : Word :=
  match x with
  | .w64 => w
  | .w32 => BitVec.ofNat 64 (old.toNat / 2 ^ 31 * 2 ^ 31 + w.toNat % 2 ^ 31)

/-- The register whose storage a CSR address reads or writes. -/
def Csr.base : Csr → Csr
  | .mstatus | .hstatus | .sstatus | .ustatus => .mstatus
  | .fcsr | .frm | .fflags => .fcsr
  | .mie | .hie | .sie | .uie => .mie
  | .mip | .hip | .sip | .uip => .mip
  | .mcycle | .mcycleh | .cycle | .cycleh => .mcycle
  | .minstret | .minstreth | .instret | .instreth => .minstret
  | .time | .timeh => .time
  | c => c

/-- The trap-vector register of a level. -/
def Csr.tvecOf : Priv → Csr
  | .machine => .mtvec
  | .hypervisor => .htvec
  | .supervisor => .stvec
  | .user => .utvec

/-- The scratch register of a level. -/
def Csr.scratchOf : Priv → Csr
  | .machine => .mscratch
  | .hypervisor => .hscratch
  | .supervisor => .sscratch
  | .user => .uscratch

/-- The exception-PC register of a level. -/
def Csr.epcOf : Priv → Csr
  | .machine => .mepc
  | .hypervisor => .hepc
  | .supervisor => .sepc
  | .user => .uepc

/-- The cause register of a level. -/
def Csr.causeOf : Priv → Csr
  | .machine => .mcause
  | .hypervisor => .hcause
  | .supervisor => .scause
  | .user => .ucause

/-- The bad-address register of a level. -/
def Csr.badaddrOf : Priv → Csr
  | .machine => .mbadaddr
  | .hypervisor => .hbadaddr
  | .supervisor => .sbadaddr
  | .user => .ubadaddr

/-- The state after access to CSR `c`, as far as the registers that share no storage with `c` go; a
write of the floating-point status also marks the context dirty (R94). -/
structure CsrFrame (c : Csr) (s t : State) : Prop where
  /-- Nor what no part of the execute stage touches: `pc`, the level, the id, the other cores, the
  clock, the parameters, the calls. -/
  stage : s.ExecFrame t
  x : t.core.x = s.core.x
  f : t.core.f = s.core.f
  mem : SameMem s t
  resv : t.core.resv = s.core.resv
  next : t.core.next = s.core.next
  tlb32 : t.core.tlb32 = s.core.tlb32
  tlb39 : t.core.tlb39 = s.core.tlb39
  halted : t.halted = s.halted
  mstatus : c.base ≠ .mstatus → c.base ≠ .fcsr → t.core.mstatus = s.core.mstatus
  dirty : c.base = .fcsr → t.core.mstatus = s.core.mstatus
    ∨ t.core.mstatus = s.core.mstatus ||| 0x8000000000006000#64
  fcsr : c.base ≠ .fcsr → t.core.fcsr = s.core.fcsr
  mie : c.base ≠ .mie → t.core.mie = s.core.mie
  mip : c.base ≠ .mip → t.core.mip = s.core.mip
  medeleg : c ≠ .medeleg → t.core.medeleg = s.core.medeleg
  mideleg : c ≠ .mideleg → t.core.mideleg = s.core.mideleg
  hedeleg : c ≠ .hedeleg → t.core.hedeleg = s.core.hedeleg
  hideleg : c ≠ .hideleg → t.core.hideleg = s.core.hideleg
  sedeleg : c ≠ .sedeleg → t.core.sedeleg = s.core.sedeleg
  sideleg : c ≠ .sideleg → t.core.sideleg = s.core.sideleg
  tvec : ∀ p, c ≠ Csr.tvecOf p → (t.core.bank p).tvec = (s.core.bank p).tvec
  scratch : ∀ p, c ≠ Csr.scratchOf p → (t.core.bank p).scratch = (s.core.bank p).scratch
  epc : ∀ p, c ≠ Csr.epcOf p → (t.core.bank p).epc = (s.core.bank p).epc
  cause : ∀ p, c ≠ Csr.causeOf p → (t.core.bank p).cause = (s.core.bank p).cause
  badaddr : ∀ p, c ≠ Csr.badaddrOf p → (t.core.bank p).badaddr = (s.core.bank p).badaddr
  sptbr : c ≠ .sptbr → t.core.sptbr = s.core.sptbr
  mucounteren : c ≠ .mucounteren → t.core.mucounteren = s.core.mucounteren
  mscounteren : c ≠ .mscounteren → t.core.mscounteren = s.core.mscounteren
  mhcounteren : c ≠ .mhcounteren → t.core.mhcounteren = s.core.mhcounteren
  cycles : c.base ≠ .mcycle → t.core.cycles = s.core.cycles
  instret : c.base ≠ .minstret → t.core.instret = s.core.instret

/-! ## Address translation -/

/-- Slot `j` holds the entry `e` and it answers for this id and address (20_memory.md R142): it is
global or of this id, and its masked page is the address's. -/
def Answers {f : VmFormat} (t : Tlb f) (id : BitVec f.asidBits) (va : Word) (j : Nat)
    (e : TlbEntry f) : Prop :=
  t[j]? = some (some e) ∧ (e.global = true ∨ e.asid = id) ∧ va &&& e.vmatch = e.vtag

/-- `p'` is `p` with the accessed bit set, and the dirty bit for an access that writes; every other bit
as in `p` (20_memory.md R144). -/
def AdSet {n : Nat} (k : AccessKind) (p p' : BitVec n) : Prop :=
  ∀ j, j < n → p'.getLsbD j =
    if j = 6 ∨ (j = 7 ∧ (k = .write ∨ k = .readWrite)) then true else p.getLsbD j

/-- The slot an insertion takes (20_memory.md R149): the lowest-numbered empty one if there is one, else
the one with the smallest age, the lowest-numbered among equals. -/
def Evicts {f : VmFormat} (t : Tlb f) (j : Nat) : Prop :=
  (t[j]? = some none ∧ ∀ i, i < j → t[i]? ≠ some none) ∨
  ((∀ i : Nat, t[i]? ≠ some none) ∧ ∃ e, t[j]? = some (some e) ∧
    ∀ (i : Nat) (e' : TlbEntry f), t[i]? = some (some e') →
      e.age.toNat ≤ e'.age.toNat ∧ (i < j → e.age.toNat < e'.age.toNat))

/-- `vmatch` and `voff` of a leaf, from the table of 20_memory.md R146. -/
def leafMasks : VmFormat → Nat → Word × Word
  | .sv32, 0 => (0xFFFFF000#64, 0xFFF#64)
  | .sv32, _ => (0xFFC00000#64, 0x3FFFFF#64)
  | .sv39, 0 => (0x7FFFFFF000#64, 0xFFF#64)
  | .sv39, 1 => (0x7FFFE00000#64, 0x1FFFFF#64)
  | .sv39, _ => (0x7FC0000000#64, 0x3FFFFFFF#64)

/-- A translation in format `f` changes memory and the TLB of that format only. -/
def XlatFrame (f : VmFormat) (s u : State) : Prop :=
  u = { s with
    mem := u.mem, core := { s.core with tlb32 := u.core.tlb32, tlb39 := u.core.tlb39 } } ∧
  ∀ f', f' ≠ f → u.core.tlb f' = s.core.tlb f'

end Sys2Proof.Machine
end

