-- ==== Sys2Proof/Certificates/Slice0/Obligations.lean ====
section
/-!
DEFINITION. The statements for the provers. Each formalises the rules its entry in OBLIGATIONS.json
cites; the shapes they share (`Writes`, `LoadRule`, `CsrRule`, ..) stand in Sys2Proof/Safety.lean.
-/

open Sys2Proof Sys2Proof.Machine

/-! ## Decoding -/

/-- Decoding the encoding of a well-formed instruction gives it back, at both widths (30_encoding.md
R186, R189). -/
def Obligations.DecodeEncode : Prop :=
  ∀ (x : Xlen) (i : Instr), i.wf x = true → decode x (encode i) = .ok i

/-- Encoding a decoded word gives the word back but for the ignored bits, which are written as zero
(30_encoding.md R189, R192): in the AMO group bits 26:25, in MISC-MEM everything but the opcode and
`funct3`. -/
def Obligations.EncodeDecode : Prop :=
  ∀ (x : Xlen) (w : BitVec 32) (i : Instr), decode x w = .ok i →
    encode i = w &&& ~~~(if w.toNat % 128 = 0x2F then 0x06000000#32
      else if w.toNat % 128 = 0x0F then 0xFFFF8F80#32 else 0#32)

/-- What decodes at width 32 is what decodes at width 64, less the rows of width 64 and the shifts by
more than 31 (30_encoding.md R190); the instructions that exist at a width are the well-formed
ones; and no word matches two rows. -/
def Obligations.WidthDecode : Prop :=
  (∀ (w : BitVec 32) (i : Instr), decode .w32 w = .ok i ↔
    decode .w64 w = .ok i ∧ i.rv64Only = false ∧ i.shamtBit5 = false) ∧
  (∀ (x : Xlen) (i : Instr), i.wf x = true ↔ ∃ w, decode x w = .ok i) ∧
  (∀ w : BitVec 32, (table.filter (·.fits w)).length ≤ 1)

/-- A few words of every family, written out from the encodings of 30_encoding.md (R181 to R185), decode
to the instruction they stand for. -/
def Obligations.DecodeWords : Prop :=
  decode .w64 0x800002B7#32 = .ok (.lui 5#5 0x80000#20) ∧
  decode .w64 0xFFF08113#32 = .ok (.addi 2#5 1#5 0xFFF#12) ∧
  decode .w64 0x43F0D293#32 = .ok (.srai 5#5 1#5 63#6) ∧
  decode .w32 0x43F0D293#32 = .error .shamtTooWide ∧
  decode .w64 0x402081BB#32 = .ok (.subw 3#5 1#5 2#5) ∧
  decode .w32 0x402081BB#32 = .error .rv64Only ∧
  decode .w64 0xFF9FF06F#32 = .ok (.jal 0#5 0x1FFFF8#21) ∧
  decode .w64 0xFE209EE3#32 = .ok (.bne 1#5 2#5 0x1FFC#13) ∧
  decode .w64 0x00833283#32 = .ok (.ld 5#5 6#5 8#12) ∧
  decode .w64 0xFE532E23#32 = .ok (.sw 6#5 5#5 0xFFC#12) ∧
  decode .w64 0x0220A1B3#32 = .ok (.mulhsu 3#5 1#5 2#5) ∧
  decode .w64 0x188333AF#32 = .ok (.scD 7#5 6#5 8#5) ∧
  decode .w64 0x340312F3#32 = .ok (.csrrw 5#5 0x340#12 6#5) ∧
  decode .w64 0x10438073#32 = .ok (.sfenceVm 7#5) ∧
  decode .w64 0x1820F24F#32 = .ok (.fnmaddS 4#5 1#5 2#5 3#5 7#3) ∧
  decode .w64 0xD232F0D3#32 = .ok (.fcvtDLU 1#5 5#5 7#3)

/-- Every word of the list of 30_encoding.md R187 is an unknown instruction, at both widths. -/
def Obligations.UnknownWords : Prop :=
  ∀ (x : Xlen) (w : BitVec 32),
    let op := w.toNat % 2 ^ 7
    let f3 := w.toNat / 2 ^ 12 % 8
    let f5 := w.toNat / 2 ^ 27
    let f7 := w.toNat / 2 ^ 25
    let rs2 := w.toNat / 2 ^ 20 % 32
    (w = 0#32 ∨ w = 0xFFFFFFFF#32 ∨ w.toNat % 4 ≠ 3 ∨
      (op = 0x73 ∧ f3 = 0 ∧ w ∉ [0x00000073#32, 0x00100073#32, 0x00200073#32, 0x10200073#32,
        0x20200073#32, 0x30200073#32, 0x10500073#32] ∧ w &&& 0xFFF07FFF#32 ≠ 0x10400073#32) ∨
      (op = 0x73 ∧ f3 = 4) ∨ (op = 0x03 ∧ f3 = 7) ∨ (op = 0x23 ∧ 4 ≤ f3) ∨
      (op = 0x63 ∧ (f3 = 2 ∨ f3 = 3)) ∨ (op = 0x67 ∧ f3 ≠ 0) ∨ (op = 0x0F ∧ 2 ≤ f3) ∨
      ((op = 0x33 ∨ op = 0x3B) ∧ f7 ≠ 0 ∧ f7 ≠ 1 ∧ ¬(f7 = 0x20 ∧ (f3 = 0 ∨ f3 = 5))) ∨
      (op = 0x1B ∧ f3 ≠ 0 ∧ f3 ≠ 1 ∧ f3 ≠ 5) ∨
      (op = 0x2F ∧ ((f3 ≠ 2 ∧ f3 ≠ 3) ∨
        f5 ∉ [0x02, 0x03, 0x01, 0x00, 0x04, 0x0C, 0x08, 0x10, 0x14, 0x18, 0x1C] ∨
        (f5 = 0x02 ∧ rs2 ≠ 0))) ∨
      ((op = 0x07 ∨ op = 0x27) ∧ f3 ≠ 2 ∧ f3 ≠ 3) ∨
      ((op = 0x43 ∨ op = 0x47 ∨ op = 0x4B ∨ op = 0x4F) ∧ 2 ≤ w.toNat / 2 ^ 25 % 4) ∨
      (op = 0x53 ∧ ((∀ r ∈ table, r.fits w = false) ∨ ((f7 = 0x2C ∨ f7 = 0x2D) ∧ rs2 ≠ 0) ∨
        ((f7 = 0x10 ∨ f7 = 0x11) ∧ 3 ≤ f3) ∨ (f7 = 0x70 ∧ 2 ≤ f3)))) →
    ∃ e, decode x w = .error e

/-! ## The step -/

/-- A step runs the decoded instruction (40_step_and_fetch.md R210 to R214): with no call pending, the
run neither ended nor failed, `pc` aligned and translated to `pa`, and the four bytes at `pa` the
word of `i`, the step is `exec i` on the state after the fetch, the word recorded, then the clock
tick and the resolution; a fault of the instruction is the step's. The start of a step (R210) clears
the record but for the retiring `pc`, empties the slot, and does nothing else. -/
def Obligations.StepRunsDecoded : Prop :=
  (∀ (s u : State) (pa : Word) (i : Instr), s.inputs = [] → s.fatal = false → s.halted = none →
    s.core.pc.toNat % 4 = 0 → s.startStep.translatePc = .mapped pa u →
    let w := wordOfBytes (u.mem.read pa.toNat) (u.mem.read (pa + 1#64).toNat)
      (u.mem.read (pa + 2#64).toNat) (u.mem.read (pa + 3#64).toNat)
    decode s.params.arch w = .ok i →
    step s = match exec i { u with
        core := { u.core with delta := { u.core.delta with rinstr := w } } } with
      | .next t => t.tick.resolve
      | .fault r => .fault r
      | .refused r => .refused r) ∧
  ∀ s : State, s.startStep = { s with core := { s.core with
    next := .none
    delta := ⟨false, false, s.core.pc, 0#32, none, none, none, none, none⟩ } }

/-- The three pseudo-instructions (40_step_and_fetch.md R218 to R220): a misaligned `pc` (never
translated), a `pc` whose translation fails, and a word that is no instruction raise codes 0, 12
and 2; the step then ticks and resolves. -/
def Obligations.StepPseudo : Prop :=
  ∀ s : State, s.inputs = [] → s.fatal = false → s.halted = none →
    (s.core.pc.toNat % 4 ≠ 0 →
      ∃ t, Raised s.startStep.recFetchExc t 0#4 (some s.core.pc) ∧ t.core.delta.fetchExc = true ∧
        t.core.delta.rinstr = 0#32 ∧ step s = t.tick.resolve) ∧
    (s.core.pc.toNat % 4 = 0 → s.startStep.translatePc = .unmapped →
      ∃ t, Raised s.startStep.recFetchExc t 12#4 (some s.core.pc) ∧ t.core.delta.fetchExc = true ∧
        t.core.delta.rinstr = 0#32 ∧ step s = t.tick.resolve) ∧
    (∀ w u e, s.startStep.fetch = .word w u → decode s.params.arch w = .error e →
      ∃ t, Raised u t 2#4 none ∧ t.core.delta.fetchExc = false ∧ t.core.delta.rinstr = w ∧
        step s = t.tick.resolve)

/-- One step is one cycle (40_step_and_fetch.md R215): whatever the execute stage did, `cycles` goes up
by one from what it left, and the shared clock is the new count divided by the tick ratio. The tick
itself changes those two and nothing else; the resolution follows it. -/
def Obligations.ClockTick : Prop :=
  (∀ s t : State, step s = .next t → ∃ s' u, s.applyInputs = .next s' ∧
    s'.startStep.fetchExecute = .next u ∧ u.tick.resolve = .next t ∧
    t.core.cycles = u.core.cycles + 1#64 ∧
    t.clock.toNat = t.core.cycles.toNat / u.params.tickRatio) ∧
  ∀ u : State,
    u.tick = { u with core := { u.core with cycles := u.tick.core.cycles }, clock := u.tick.clock } ∧
    u.tick.core.cycles = u.core.cycles + 1#64 ∧
    u.tick.clock.toNat = (u.core.cycles + 1#64).toNat / u.params.tickRatio

/-- The environment's calls (40_step_and_fetch.md R211, R221; 60_exceptions.md R497;
70_reset_and_hazards.md R531). In the model they stand in the list `inputs` (log entry 6); that a
`SetIrq` after a fatal error or the end of the run is refused is log entry 7. -/
def Obligations.EnvironmentCalls : Prop :=
  (∀ s : State, s.inputs = [] → s.fatal = true → step s = .refused .fatalSet) ∧
  (∀ s : State, s.inputs = [] → s.fatal = false → s.halted ≠ none → step s = .refused .runEnded) ∧
  (∀ (s : State) (c : Nat) (rest : List Input), s.inputs = .select c :: rest →
    (∀ d ∈ s.core :: s.parked, d.hartid ≠ c) → step s = .refused .noSuchCore) ∧
  (∀ (s : State) (c : Nat) (rest : List Input), s.Inv → c < s.params.ncores →
    s.inputs = .select c :: rest →
    ∃ t : State, step s = t.stepCurrent ∧ t.core.hartid = c ∧ t.core ∈ s.core :: s.parked ∧
      (∀ d, d ∈ t.core :: t.parked ↔ d ∈ s.core :: s.parked) ∧
      t = { s with core := t.core, parked := t.parked, inputs := rest }) ∧
  (∀ (s : State) (i : Fin 12) (v : Bool) (rest : List Input), s.fatal = false → s.halted = none →
    s.inputs = .setIrq s.core.hartid i v :: rest →
    step s = step { s with
      core := { s.core with mip := if v = true then s.core.mip ||| 1#64 <<< i.val
        else s.core.mip &&& ~~~(1#64 <<< i.val) }
      inputs := rest }) ∧
  (∀ (s : State) (c : Nat) (i : Fin 12) (v : Bool) (rest : List Input),
    s.inputs = .setIrq c i v :: rest →
    (s.fatal = true → step s = .refused .fatalSet) ∧
    (s.fatal = false → s.halted ≠ none → step s = .refused .runEnded) ∧
    (s.fatal = false → s.halted = none → (∀ d ∈ s.core :: s.parked, d.hartid ≠ c) →
      step s = .refused .noSuchCore) ∧
    (s.fatal = false → s.halted = none → s.core.hartid ≠ c → (∃ d ∈ s.parked, d.hartid = c) →
      step s = step { s with
        parked := s.parked.map fun d =>
          if d.hartid = c then { d with mip := if v = true then d.mip ||| 1#64 <<< i.val
            else d.mip &&& ~~~(1#64 <<< i.val) }
          else d
        inputs := rest })) ∧
  (∀ (s : State) (rest : List Input), s.inputs = .reset :: rest →
    step s = step { State.resetOf s.params with inputs := rest })

/-! ## Resolution, traps, returns -/

/-- The resolution stage (40_step_and_fetch.md R216): a dispatchable interrupt wins over whatever the
instruction asked for; otherwise exactly one of `pc + 4`, trap, return, branch. -/
def Obligations.ResolveOutcomes : Prop :=
  ∀ s : State,
    (∀ i p, s.core.checkInterrupts = some (i, p) →
      s.resolve = .next ((s.trapEntry true (BitVec.ofNat 4 i) p s.core.pc none).setNext .none)) ∧
    (s.core.checkInterrupts = none →
      (s.core.next = .none → s.resolve = .next { s with core := { s.core with
        pc := s.params.arch.addr (s.core.pc.toNat + 4)
        instret := s.core.instret + 1#64
        next := .none } }) ∧
      (∀ code b, s.core.next = .trap code b → s.resolve = .next
        ((s.trapEntry false (publicCode s.params.ecallCode code s.core.cur)
          (s.core.excTarget code) s.core.pc b).setNext .none)) ∧
      (∀ p t, s.core.next = .ret p → s.privReturn p = .next t →
        s.resolve = .next { t with core := { t.core with
          instret := s.core.instret + 1#64
          next := .none } }) ∧
      (∀ p r, s.core.next = .ret p → s.privReturn p = .fault r → s.resolve = .fault r) ∧
      (∀ a, s.core.next = .branch a → s.resolve = .next { s with core := { s.core with
        pc := s.params.arch.addr a.toNat
        instret := s.core.instret + 1#64
        next := .none } }))

/-- The interrupt search (60_exceptions.md R487 to R491): the answer is the first interrupt, in the order
11, 3, 7, 10, 2, 6, 9, 1, 5, 8, 0, 4, that is pending, enabled, and whose delegation target is above
the current level or equal to it with that level's enable set; no answer means there is none. The
level an exception enters (R499, R500, R502): the delegation walk on the exception's own bit, an
environment call's bit being 8 plus the current level, clamped to the current level; and the code
the cause register receives. -/
def Obligations.TrapSelection : Prop :=
  (∀ c : Core,
    let target : Nat → Priv := fun i =>
      if c.mideleg.getLsbD i = false then .machine
      else if c.hideleg.getLsbD i = false then .hypervisor
      else if c.sideleg.getLsbD i = false then .supervisor
      else .user
    let ready : Nat → Prop := fun i =>
      c.mip.getLsbD i = true ∧ c.mie.getLsbD i = true ∧
        (c.cur.num < (target i).num ∨ (target i = c.cur ∧ c.mstatus.getLsbD c.cur.num = true))
    (∀ i p, c.checkInterrupts = some (i, p) ↔
      p = target i ∧ ready i ∧ ∃ before after,
        before ++ i :: after = [11, 3, 7, 10, 2, 6, 9, 1, 5, 8, 0, 4] ∧ ∀ j ∈ before, ¬ready j) ∧
    (c.checkInterrupts = none ↔ ∀ i, i < 12 → ¬ready i)) ∧
  (∀ (c : Core) (code : BitVec 4) (e : EcallCode),
    let n := if code = 8#4 then 8 + c.cur.num else code.toNat
    let walk : Priv :=
      if c.medeleg.getLsbD n = false then .machine
      else if c.hedeleg.getLsbD n = false then .hypervisor
      else if c.sedeleg.getLsbD n = false then .supervisor
      else .user
    (c.excTarget code).num = Nat.max walk.num c.cur.num ∧
    (publicCode e code c.cur).toNat =
      if code = 8#4 ∧ e = .perPrivilege then 8 + c.cur.num else code.toNat)

/-- Trap dispatch (60_exceptions.md R505), bit by bit of the status register. -/
def Obligations.TrapEntryEffect : Prop :=
  ∀ (s t : State) (intr : Bool) (code : BitVec 4) (p : Priv) (epc : Word) (b : Option Word),
    s.trapEntry intr code p epc b = t →
    (t.core.bank p).epc = epc ∧
    (t.core.bank p).cause.toNat = (if intr = true then 2 ^ 63 else 0) + code.toNat ∧
    (t.core.bank p).badaddr = (match intr, b with
      | false, some a => a
      | _, _ => (s.core.bank p).badaddr) ∧
    (t.core.bank p).tvec = (s.core.bank p).tvec ∧
    (t.core.bank p).scratch = (s.core.bank p).scratch ∧
    (∀ q, q ≠ p → t.core.bank q = s.core.bank q) ∧
    t.core.pc = s.params.arch.addr (s.core.bank p).tvec.toNat ∧
    t.core.cur = p ∧
    (∀ j, j < 64 → t.core.mstatus.getLsbD j =
      if j = 4 + p.num then s.core.mstatus.getLsbD s.core.cur.num
      else if j = p.num then false
      else if (p = .machine ∧ j = 11) ∨ (p = .hypervisor ∧ j = 9) ∨ (p = .supervisor ∧ j = 8) then
        s.core.cur.num.testBit 0
      else if (p = .machine ∧ j = 12) ∨ (p = .hypervisor ∧ j = 10) then s.core.cur.num.testBit 1
      else s.core.mstatus.getLsbD j) ∧
    t = { s with core := { s.core with
      mBank := t.core.mBank, hBank := t.core.hBank, sBank := t.core.sBank, uBank := t.core.uBank
      pc := t.core.pc, cur := t.core.cur, mstatus := t.core.mstatus
      delta := { s.core.delta with excTaken := true } } }

/-- Privilege return (60_exceptions.md R510), bit by bit of the status register; a previous-privilege
field above the returning level is fatal. -/
def Obligations.PrivReturnEffect : Prop :=
  ∀ (s : State) (p : Priv),
    let prev : Nat := match p with
      | .machine => s.core.mstatus.toNat / 2 ^ 11 % 4
      | .hypervisor => s.core.mstatus.toNat / 2 ^ 9 % 4
      | .supervisor => s.core.mstatus.toNat / 2 ^ 8 % 2
      | .user => 0
    (p.num < prev → s.privReturn p = .fault .returnAboveLevel) ∧
    (prev ≤ p.num → ∃ t, s.privReturn p = .next t ∧
      t.core.cur.num = prev ∧
      t.core.pc = s.params.arch.addr ((s.core.bank p).epc.toNat / 4 * 4 : Nat) ∧
      (∀ j, j < 64 → t.core.mstatus.getLsbD j =
        if j = 4 + p.num then true
        else if j = prev then s.core.mstatus.getLsbD (4 + p.num)
        else if (p = .machine ∧ (j = 11 ∨ j = 12)) ∨ (p = .hypervisor ∧ (j = 9 ∨ j = 10)) ∨
          (p = .supervisor ∧ j = 8) then false
        else s.core.mstatus.getLsbD j) ∧
      t = { s with core := { s.core with
        pc := t.core.pc, cur := t.core.cur, mstatus := t.core.mstatus } })

/-! ## The whole machine -/

/-- Every step keeps the invariant: memory in canonical form, `x0` zero, `pc` and the registers at the
running width, the status register legal, the TLBs legal, the cores each once. -/
def Obligations.StepKeepsInv : Prop :=
  ∀ s t : State, s.Inv → step s = .next t → t.Inv

/-- The invariant holds after reset, for all parameters within their bounds. -/
def Obligations.ResetInv : Prop :=
  State.reset.Inv ∧
  ∀ p : Params, p.wf = true → Memory.wf p.mem0 = true → (State.resetOf p).Inv

/-- The state after reset (10_state.md R100, 70_reset_and_hazards.md R530), for all parameters. The zeros
of the general, floating-point, scratch, epc, cause and badaddr registers are kept by the model's
choice (log entry 2): R100 marks them as its decision D34 and lets a model leave them open. Core 0 is
current by the model's choice (log entry 6). -/
def Obligations.ResetValues : Prop :=
  ∀ p : Params,
    let s := State.resetOf p
    s.mem = p.mem0 ∧ s.clock = 0#64 ∧ s.halted = none ∧ s.fatal = false ∧
    (s.core :: s.parked).map Core.hartid = List.range (Nat.max 1 p.ncores) ∧
    ∀ c ∈ s.core :: s.parked,
      (∀ i : Fin 32, c.x[i] = 0#64 ∧ c.f[i] = 0#64) ∧ c.pc = p.arch.addr p.entry.toNat ∧
      c.cur = .machine ∧ c.next = .none ∧ c.resv = none ∧
      (∀ slot ∈ c.tlb32, slot = none) ∧ (∀ slot ∈ c.tlb39, slot = none) ∧
      c.tlb32.length = p.tlbEntries ∧ c.tlb39.length = p.tlbEntries ∧
      c.cycles = 0#64 ∧ c.instret = 0#64 ∧ c.mstatus = 0#64 ∧
      [c.medeleg, c.mideleg, c.hedeleg, c.hideleg, c.sedeleg, c.sideleg, c.mie, c.mip, c.sptbr,
        c.mucounteren, c.mscounteren, c.mhcounteren] = List.replicate 12 0#64 ∧
      (∀ q, c.bank q = ⟨0#64, 0#64, 0#64, 0#64, 0#64⟩) ∧ c.fcsr = 0#8 ∧
      c.delta = ⟨false, false, c.pc, 0#32, none, none, none, none, none⟩

/-- The execute stage never touches `pc`, the level, the id, the other cores, the clock, the parameters
or the pending calls, whatever the instruction (40_step_and_fetch.md R214, R217), and never ends in
a refusal. No general register is used implicitly (10_state.md R21): an instruction changes none but
its `rd`, and neither its answer nor that of a whole step, traps and returns included, depends on a
register its fields `rs1`, `rs2` do not name, but for what that register itself then holds. What the
statements name by an operation of the model: recording an operand (10_state.md
R37) changes that field of the record only, requesting a transfer the slot only, and reserving the
reservation only. -/
def Obligations.ExecuteFrame : Prop :=
  (∀ (i : Instr) (s : State), (∀ t, exec i s = .next t → s.ExecFrame t) ∧
    ∀ r, exec i s ≠ .refused r) ∧
  (∀ (i : Instr) (s : State),
    (∀ t r, exec i s = .next t → i.xDest ≠ some r → t.getX r = s.getX r) ∧
    ∀ r v, r ∉ i.xSources → blankX r (exec i (s.putX r v)) = blankX r (exec i s)) ∧
  (∀ s : State, s.inputs = [] →
    (∀ t r, step s = .next t → t.getX r ≠ s.getX r →
      ∃ w u i, s.startStep.fetch = .word w u ∧ decode s.params.arch w = .ok i ∧ i.xDest = some r) ∧
    ∀ r v, (∀ w u i, s.startStep.fetch = .word w u → decode s.params.arch w = .ok i →
        r ∉ i.xSources) →
      blankX r (step (s.putX r v)) = blankX r (step s)) ∧
  ∀ (s : State) (v : Word) (n : Next) (r : Option Word),
    let record : Delta → State := fun d => { s with core := { s.core with delta := d } }
    s.recAddr v = record { s.core.delta with addr := some v } ∧
    s.recData1 v = record { s.core.delta with data1 := some v } ∧
    s.recData2 v = record { s.core.delta with data2 := some v } ∧
    s.recFp v = record { s.core.delta with fpData := some v } ∧
    s.recFetchExc = record { s.core.delta with fetchExc := true } ∧
    s.setNext n = { s with core := { s.core with next := n } } ∧
    s.setResv r = { s with core := { s.core with resv := r } }

/-- The level falls only by a privilege return (10_state.md R29, 60_exceptions.md R485): a step that
lowers it has fetched one of the four return instructions. -/
def Obligations.LevelFallsOnlyByReturn : Prop :=
  ∀ s t : State, s.inputs = [] → step s = .next t → t.core.cur.num < s.core.cur.num →
    ∃ w u i, s.startStep.fetch = .word w u ∧ decode s.params.arch w = .ok i ∧
      (returnLevel i).isSome = true

/-- What user level cannot change in the execute stage: every register of the higher banks, the counters,
the TLBs' legality aside; of the status register and the interrupt registers only what `ustatus`,
`uie`, `uip` and the floating-point marking show (10_state.md R41, R43, R64, R76). -/
def Obligations.UserCodeConfined : Prop :=
  ∀ (i : Instr) (s t : State), s.core.cur = .user → exec i s = .next t →
    (∀ q, q ≠ .user → t.core.bank q = s.core.bank q) ∧
    [t.core.medeleg, t.core.mideleg, t.core.hedeleg, t.core.hideleg, t.core.sedeleg, t.core.sideleg,
      t.core.sptbr, t.core.mucounteren, t.core.mscounteren, t.core.mhcounteren, t.core.cycles,
      t.core.instret] =
    [s.core.medeleg, s.core.mideleg, s.core.hedeleg, s.core.hideleg, s.core.sedeleg, s.core.sideleg,
      s.core.sptbr, s.core.mucounteren, s.core.mscounteren, s.core.mhcounteren, s.core.cycles,
      s.core.instret] ∧
    t.core.mie &&& ~~~0x111#64 = s.core.mie &&& ~~~0x111#64 ∧
    t.core.mip &&& ~~~0x001#64 = s.core.mip &&& ~~~0x001#64 ∧
    t.core.mstatus &&& ~~~0x8000000000006011#64 = s.core.mstatus &&& ~~~0x8000000000006011#64

/-- The fatal conditions (60_exceptions.md R521): a step ends in a fault only where a translation is
needed in an unimplemented mode, a return instruction is executed below its level, or HRET is
resolved with `HPP = 3`; and each of the three does end it so: the translation of a data access
whose alignment and reservation let it be made (20_memory.md R140), that of a fetch, a return below
its level (46_csr_system.md R386), and HRET where no interrupt wins (R510). -/
def Obligations.FatalConditions : Prop :=
  (∀ (i : Instr) (s : State) (r : Fault), exec i s = .fault r →
    (r = .unimplementedTranslationMode ∧ s.dataPriv ≠ .machine ∧
      statusVM s.core.mstatus ≠ 0#5 ∧ statusVM s.core.mstatus ≠ 8#5 ∧ statusVM s.core.mstatus ≠ 9#5) ∨
    (r = .returnBelowLevel ∧ ∃ p, returnLevel i = some p ∧ s.core.cur.num < p.num)) ∧
  (∀ (s : State) (r : Fault), s.inputs = [] → step s = .fault r →
    (r = .unimplementedTranslationMode ∧ s.startStep.fetchExecute = .fault r ∧
      statusVM s.core.mstatus ≠ 0#5 ∧ statusVM s.core.mstatus ≠ 8#5 ∧ statusVM s.core.mstatus ≠ 9#5) ∨
    (r = .returnBelowLevel ∧ s.startStep.fetchExecute = .fault r) ∨
    (r = .returnAboveLevel ∧ ∃ t, s.startStep.fetchExecute = .next t ∧
      t.core.checkInterrupts = none ∧ t.core.next = .ret .hypervisor ∧
      t.core.mstatus.toNat / 2 ^ 9 % 4 = 3)) ∧
  (∀ (s : State) (r rs1 rs2 : RegIdx) (imm : BitVec 12),
    let x := s.params.arch
    let va := x.addr (x.S (s.getX rs1) + imm.toInt)
    let av := x.addr (x.U (s.getX rs1))
    let fatal : Word → AccessKind → List Instr → Prop := fun a k l =>
      s.translateData a k = .fatal → ∀ i ∈ l, exec i s = .fault .unimplementedTranslationMode
    fatal va .read [.lb r rs1 imm, .lh r rs1 imm, .lw r rs1 imm, .lbu r rs1 imm, .lhu r rs1 imm,
      .lwu r rs1 imm, .ld r rs1 imm, .flw r rs1 imm, .fld r rs1 imm] ∧
    fatal va .write [.sb rs1 rs2 imm, .sh rs1 rs2 imm, .sw rs1 rs2 imm, .sd rs1 rs2 imm,
      .fsw rs1 rs2 imm, .fsd rs1 rs2 imm] ∧
    (av.toNat % 4 = 0 → fatal av .read [.lrW r rs1] ∧
      (s.core.resv = some av → fatal av .write [.scW r rs1 rs2]) ∧
      fatal av .readWrite [.amoswapW r rs1 rs2, .amoaddW r rs1 rs2, .amoxorW r rs1 rs2,
        .amoandW r rs1 rs2, .amoorW r rs1 rs2, .amominW r rs1 rs2, .amomaxW r rs1 rs2,
        .amominuW r rs1 rs2, .amomaxuW r rs1 rs2]) ∧
    (av.toNat % 8 = 0 → fatal av .read [.lrD r rs1] ∧
      (s.core.resv = some av → fatal av .write [.scD r rs1 rs2]) ∧
      fatal av .readWrite [.amoswapD r rs1 rs2, .amoaddD r rs1 rs2, .amoxorD r rs1 rs2,
        .amoandD r rs1 rs2, .amoorD r rs1 rs2, .amominD r rs1 rs2, .amomaxD r rs1 rs2,
        .amominuD r rs1 rs2, .amomaxuD r rs1 rs2])) ∧
  (∀ (i : Instr) (p : Priv) (s : State), returnLevel i = some p → s.core.cur.num < p.num →
    exec i s = .fault .returnBelowLevel) ∧
  (∀ s : State, s.inputs = [] → s.fatal = false → s.halted = none →
    (s.core.pc.toNat % 4 = 0 → s.startStep.translatePc = .fatal →
      step s = .fault .unimplementedTranslationMode) ∧
    (∀ w u i r, s.startStep.fetch = .word w u → decode s.params.arch w = .ok i →
      exec i u = .fault r → step s = .fault r) ∧
    (∀ t, s.startStep.fetchExecute = .next t → t.core.checkInterrupts = none →
      t.core.next = .ret .hypervisor → t.core.mstatus.toNat / 2 ^ 9 % 4 = 3 →
      step s = .fault .returnAboveLevel))

/-- At machine level with `MPRV` clear every instruction answers a next state: no translation is made and
every return is allowed (20_memory.md R140, 46_csr_system.md R386). -/
def Obligations.MachineLevelCompletes : Prop :=
  ∀ (i : Instr) (s : State), s.core.cur = .machine → s.core.mstatus.getLsbD 17 = false →
    ∃ t, exec i s = .next t

/-! ## Integer instructions -/

/-- Upper-immediate and register-immediate instructions (41_integer.md R231 to R241), each with its frame:
nothing but `x[rd]` and the record changes (R230). -/
def Obligations.ImmediateResults : Prop :=
  ∀ (s : State) (rd rs1 : RegIdx) (imm : BitVec 12) (u : BitVec 20) (sh : BitVec 6),
    let x := s.params.arch
    let a := s.getX rs1
    Writes s (.lui rd u) rd (x.stored (u.toInt * 4096)) ∧
    Writes s (.auipc rd u) rd (x.stored (s.core.pc.toNat + u.toInt * 4096)) ∧
    Writes s (.addi rd rs1 imm) rd (x.stored (x.S a + imm.toInt)) ∧
    Writes s (.slti rd rs1 imm) rd (x.stored (if x.S a < imm.toInt then 1 else 0)) ∧
    Writes s (.sltiu rd rs1 imm) rd
      (x.stored (if (x.U a : Int) < imm.toInt % 2 ^ x.bits then 1 else 0)) ∧
    Writes s (.xori rd rs1 imm) rd (x.sext (a ^^^ imm.signExtend 64)) ∧
    Writes s (.ori rd rs1 imm) rd (x.sext (a ||| imm.signExtend 64)) ∧
    Writes s (.andi rd rs1 imm) rd (x.sext (a &&& imm.signExtend 64)) ∧
    ((Instr.slli rd rs1 sh).wf x = true →
      Writes s (.slli rd rs1 sh) rd (x.stored (x.U a * 2 ^ sh.toNat : Nat)) ∧
      Writes s (.srli rd rs1 sh) rd (x.stored (x.U a / 2 ^ sh.toNat : Nat)) ∧
      Writes s (.srai rd rs1 sh) rd (x.stored (x.S a / 2 ^ sh.toNat)))

/-- Register-register instructions (41_integer.md R242 to R251), each with its frame. -/
def Obligations.RegisterResults : Prop :=
  ∀ (s : State) (rd rs1 rs2 : RegIdx),
    let x := s.params.arch
    let a := s.getX rs1
    let b := s.getX rs2
    let sh := b.toNat % x.bits
    Writes s (.add rd rs1 rs2) rd (x.stored (x.S a + x.S b)) ∧
    Writes s (.sub rd rs1 rs2) rd (x.stored (x.S a - x.S b)) ∧
    Writes s (.sll rd rs1 rs2) rd (x.stored (x.U a * 2 ^ sh : Nat)) ∧
    Writes s (.slt rd rs1 rs2) rd (x.stored (if x.S a < x.S b then 1 else 0)) ∧
    Writes s (.sltu rd rs1 rs2) rd (x.stored (if x.U a < x.U b then 1 else 0)) ∧
    Writes s (.xor rd rs1 rs2) rd (x.sext (a ^^^ b)) ∧
    Writes s (.srl rd rs1 rs2) rd (x.stored (x.U a / 2 ^ sh : Nat)) ∧
    Writes s (.sra rd rs1 rs2) rd (x.stored (x.S a / 2 ^ sh)) ∧
    Writes s (.or rd rs1 rs2) rd (x.sext (a ||| b)) ∧
    Writes s (.and rd rs1 rs2) rd (x.sext (a &&& b))

/-- Word instructions (41_integer.md R252 to R260) at width 64, each with its frame. -/
def Obligations.WordResults : Prop :=
  ∀ (s : State) (rd rs1 rs2 : RegIdx) (imm : BitVec 12) (sh : BitVec 5), s.params.arch = .w64 →
    let a := s.getX rs1
    let b := s.getX rs2
    let k := b.toNat % 32
    Writes s (.addiw rd rs1 imm) rd (storedW (lowS a + imm.toInt)) ∧
    Writes s (.slliw rd rs1 sh) rd (storedW (lowU a * 2 ^ sh.toNat : Nat)) ∧
    Writes s (.srliw rd rs1 sh) rd (storedW (lowU a / 2 ^ sh.toNat : Nat)) ∧
    Writes s (.sraiw rd rs1 sh) rd (storedW (lowS a / 2 ^ sh.toNat)) ∧
    Writes s (.addw rd rs1 rs2) rd (storedW (lowS a + lowS b)) ∧
    Writes s (.subw rd rs1 rs2) rd (storedW (lowS a - lowS b)) ∧
    Writes s (.sllw rd rs1 rs2) rd (storedW (lowU a * 2 ^ k : Nat)) ∧
    Writes s (.srlw rd rs1 rs2) rd (storedW (lowU a / 2 ^ k : Nat)) ∧
    Writes s (.sraw rd rs1 rs2) rd (storedW (lowS a / 2 ^ k))

/-- Multiplication (44_muldiv.md R321 to R324): slices of the exact product, each with its frame. -/
def Obligations.MultiplyResults : Prop :=
  ∀ (s : State) (rd rs1 rs2 : RegIdx),
    let x := s.params.arch
    let a := s.getX rs1
    let b := s.getX rs2
    let high : Int → Word := fun z =>
      x.stored ((BitVec.ofInt (2 * x.bits) z).extractLsb' x.bits x.bits).toInt
    Writes s (.mul rd rs1 rs2) rd (x.stored (x.S a * x.S b)) ∧
    Writes s (.mulh rd rs1 rs2) rd (high (x.S a * x.S b)) ∧
    Writes s (.mulhsu rd rs1 rs2) rd (high (x.S a * x.U b)) ∧
    Writes s (.mulhu rd rs1 rs2) rd (high (x.U a * x.U b))

/-- Division and remainder (44_muldiv.md R325 to R328): by zero, the signed overflow, and otherwise the
quotient toward zero with a remainder that has the sign of the dividend; each with its frame. -/
def Obligations.DivideResults : Prop :=
  ∀ (s : State) (rd rs1 rs2 : RegIdx),
    let x := s.params.arch
    let a := s.getX rs1
    let b := s.getX rs2
    (x.U b = 0 →
      Writes s (.div rd rs1 rs2) rd 0xFFFFFFFFFFFFFFFF#64 ∧
      Writes s (.divu rd rs1 rs2) rd 0xFFFFFFFFFFFFFFFF#64 ∧
      Writes s (.rem rd rs1 rs2) rd (x.sext a) ∧ Writes s (.remu rd rs1 rs2) rd (x.sext a)) ∧
    (x.S a = -2 ^ (x.bits - 1) → x.S b = -1 →
      Writes s (.div rd rs1 rs2) rd (x.sext a) ∧ Writes s (.rem rd rs1 rs2) rd 0#64) ∧
    (x.U b ≠ 0 → ¬(x.S a = -2 ^ (x.bits - 1) ∧ x.S b = -1) →
      ∃ q r : Int, x.S a = q * x.S b + r ∧ r.natAbs < (x.S b).natAbs ∧ (r ≠ 0 → (r < 0 ↔ x.S a < 0)) ∧
        Writes s (.div rd rs1 rs2) rd (x.stored q) ∧ Writes s (.rem rd rs1 rs2) rd (x.stored r)) ∧
    (x.U b ≠ 0 →
      Writes s (.divu rd rs1 rs2) rd (x.stored (x.U a / x.U b : Nat)) ∧
      Writes s (.remu rd rs1 rs2) rd (x.stored (x.U a % x.U b : Nat)))

/-- The word forms of multiplication and division (44_muldiv.md R329 to R333) at width 64: only the low
words are examined; each with its frame. -/
def Obligations.WordMulDivResults : Prop :=
  ∀ (s : State) (rd rs1 rs2 : RegIdx), s.params.arch = .w64 →
    let a := s.getX rs1
    let b := s.getX rs2
    Writes s (.mulw rd rs1 rs2) rd (storedW (lowS a * lowS b)) ∧
    (lowU b = 0 →
      Writes s (.divw rd rs1 rs2) rd 0xFFFFFFFFFFFFFFFF#64 ∧
      Writes s (.divuw rd rs1 rs2) rd 0xFFFFFFFFFFFFFFFF#64 ∧
      Writes s (.remw rd rs1 rs2) rd (storedW (lowS a)) ∧
      Writes s (.remuw rd rs1 rs2) rd (storedW (lowS a))) ∧
    (lowS a = -2 ^ 31 → lowS b = -1 →
      Writes s (.divw rd rs1 rs2) rd 0xFFFFFFFF80000000#64 ∧ Writes s (.remw rd rs1 rs2) rd 0#64) ∧
    (lowU b ≠ 0 → ¬(lowS a = -2 ^ 31 ∧ lowS b = -1) →
      ∃ q r : Int, lowS a = q * lowS b + r ∧ r.natAbs < (lowS b).natAbs ∧ (r ≠ 0 → (r < 0 ↔ lowS a < 0)) ∧
        Writes s (.divw rd rs1 rs2) rd (storedW q) ∧ Writes s (.remw rd rs1 rs2) rd (storedW r)) ∧
    (lowU b ≠ 0 →
      Writes s (.divuw rd rs1 rs2) rd (storedW (lowU a / lowU b : Nat)) ∧
      Writes s (.remuw rd rs1 rs2) rd (storedW (lowU a % lowU b : Nat)))

/-! ## Control transfer -/

/-- JAL and JALR (42_control_transfer.md R291, R292): the link register, the requested target, and the
exception for a misaligned target in place of both. -/
def Obligations.JumpResults : Prop :=
  ∀ (s : State) (rd rs1 : RegIdx) (off : BitVec 21) (imm : BitVec 12),
    let x := s.params.arch
    let link := x.stored (s.core.pc.toNat + 4)
    JumpRule s (.jal rd off) rd link (x.addr (s.core.pc.toNat + off.toInt)) ∧
    JumpRule s (.jalr rd rs1 imm) rd link (x.addr ((x.S (s.getX rs1) + imm.toInt) / 2 * 2))

/-- The conditional branches (42_control_transfer.md R293 to R298). -/
def Obligations.BranchResults : Prop :=
  ∀ (s : State) (rs1 rs2 : RegIdx) (off : BitVec 13),
    let x := s.params.arch
    let a := s.getX rs1
    let b := s.getX rs2
    let target := x.addr (s.core.pc.toNat + off.toInt)
    BranchRule s (.beq rs1 rs2 off) (x.U a = x.U b) target ∧
    BranchRule s (.bne rs1 rs2 off) (x.U a ≠ x.U b) target ∧
    BranchRule s (.blt rs1 rs2 off) (x.S a < x.S b) target ∧
    BranchRule s (.bge rs1 rs2 off) (x.S b ≤ x.S a) target ∧
    BranchRule s (.bltu rs1 rs2 off) (x.U a < x.U b) target ∧
    BranchRule s (.bgeu rs1 rs2 off) (x.U b ≤ x.U a) target

/-! ## Loads and stores -/

/-- The integer loads (43_load_store.md R300 to R307), at any alignment: the address is the `XLEN`-bit
sum, the value the little-endian bytes extended. -/
def Obligations.LoadResults : Prop :=
  ∀ (s : State) (rd rs1 : RegIdx) (imm : BitVec 12),
    let x := s.params.arch
    let va := x.addr (x.S (s.getX rs1) + imm.toInt)
    LoadRule s (.lb rd rs1 imm) rd va 1 (fun v => x.stored (BitVec.ofNat 8 v).toInt) ∧
    LoadRule s (.lh rd rs1 imm) rd va 2 (fun v => x.stored (BitVec.ofNat 16 v).toInt) ∧
    LoadRule s (.lw rd rs1 imm) rd va 4 (fun v => x.stored (BitVec.ofNat 32 v).toInt) ∧
    LoadRule s (.lbu rd rs1 imm) rd va 1 (fun v => x.stored v) ∧
    LoadRule s (.lhu rd rs1 imm) rd va 2 (fun v => x.stored v) ∧
    (x = .w64 → LoadRule s (.lwu rd rs1 imm) rd va 4 (fun v => BitVec.ofNat 64 v) ∧
      LoadRule s (.ld rd rs1 imm) rd va 8 (fun v => BitVec.ofNat 64 v))

/-- The integer stores (43_load_store.md R308 to R311, R314), at any alignment: the bytes stored and every
other byte, the test-completion channel, the reservation, the record. -/
def Obligations.StoreResults : Prop :=
  ∀ (s : State) (rs1 rs2 : RegIdx) (imm : BitVec 12),
    let x := s.params.arch
    let va := x.addr (x.S (s.getX rs1) + imm.toInt)
    StoreRule s (.sb rs1 rs2 imm) va 1 (s.getX rs2) ∧
    StoreRule s (.sh rs1 rs2 imm) va 2 (s.getX rs2) ∧
    StoreRule s (.sw rs1 rs2 imm) va 4 (s.getX rs2) ∧
    (x = .w64 → StoreRule s (.sd rs1 rs2 imm) va 8 (s.getX rs2))

/-- A data access whose translation fails (20_memory.md R165, R166): code 13 for loads and LR, 15 for
stores, SC and the AMOs, with the virtual address, and nothing else. -/
def Obligations.DataPageFaults : Prop :=
  ∀ (s : State) (r rs1 rs2 : RegIdx) (imm : BitVec 12),
    let x := s.params.arch
    let va := x.addr (x.S (s.getX rs1) + imm.toInt)
    let av := x.addr (x.U (s.getX rs1))
    (s.translateData va .read = .unmapped →
      ∀ i ∈ [Instr.lb r rs1 imm, .lh r rs1 imm, .lw r rs1 imm, .lbu r rs1 imm, .lhu r rs1 imm,
        .lwu r rs1 imm, .ld r rs1 imm, .flw r rs1 imm, .fld r rs1 imm],
      Completes i s fun t => Raised s t 13#4 (some va)) ∧
    (s.translateData va .write = .unmapped →
      ∀ i ∈ [Instr.sb rs1 rs2 imm, .sh rs1 rs2 imm, .sw rs1 rs2 imm, .sd rs1 rs2 imm,
        .fsw rs1 rs2 imm, .fsd rs1 rs2 imm],
      Completes i s fun t => Raised s t 15#4 (some va)) ∧
    (s.translateData av .read = .unmapped →
      (av.toNat % 4 = 0 → Completes (.lrW r rs1) s fun t => Raised s t 13#4 (some av)) ∧
      (av.toNat % 8 = 0 → Completes (.lrD r rs1) s fun t => Raised s t 13#4 (some av))) ∧
    (s.translateData av .write = .unmapped → s.core.resv = some av →
      (av.toNat % 4 = 0 → Completes (.scW r rs1 rs2) s fun t => Raised s t 15#4 (some av)) ∧
      (av.toNat % 8 = 0 → Completes (.scD r rs1 rs2) s fun t => Raised s t 15#4 (some av))) ∧
    (s.translateData av .readWrite = .unmapped →
      (av.toNat % 4 = 0 → ∀ i ∈ [Instr.amoswapW r rs1 rs2, .amoaddW r rs1 rs2, .amoxorW r rs1 rs2,
        .amoandW r rs1 rs2, .amoorW r rs1 rs2, .amominW r rs1 rs2, .amomaxW r rs1 rs2,
        .amominuW r rs1 rs2, .amomaxuW r rs1 rs2],
        Completes i s fun t => Raised s t 15#4 (some av)) ∧
      (av.toNat % 8 = 0 → ∀ i ∈ [Instr.amoswapD r rs1 rs2, .amoaddD r rs1 rs2, .amoxorD r rs1 rs2,
        .amoandD r rs1 rs2, .amoorD r rs1 rs2, .amominD r rs1 rs2, .amomaxD r rs1 rs2,
        .amominuD r rs1 rs2, .amomaxuD r rs1 rs2],
        Completes i s fun t => Raised s t 15#4 (some av)))

/-- The instructions that change nothing, at every level: FENCE, FENCE.I, WFI (43_load_store.md R316, R317;
46_csr_system.md R388). URET, SRET, HRET, MRET (`returnLevel`; R382 to R386): at or above the level in the name the
return is requested and nothing else changes; below it the machine stops for good. -/
def Obligations.PlainSystemResults : Prop :=
  (∀ s : State, exec .fence s = .next s ∧ exec .fenceI s = .next s ∧ exec .wfi s = .next s) ∧
  (∀ (s : State) (i : Instr) (p : Priv), returnLevel i = some p →
    (p.num ≤ s.core.cur.num → exec i s = .next (s.setNext (.ret p))) ∧
    (s.core.cur.num < p.num → exec i s = .fault .returnBelowLevel))

/-! ## Atomics -/

/-- Load-reserved and store-conditional (45_atomics.md R341 to R344): LR reserves the virtual address; SC
tests the alignment, then the reservation, then translates, and a failing one makes no access. -/
def Obligations.ReservedPair : Prop :=
  (∀ (s : State) (rd rs1 : RegIdx),
    let va := s.params.arch.addr (s.params.arch.U (s.getX rs1))
    ReserveRule s (.lrW rd rs1) rd va 4 ∧
    (s.params.arch = .w64 → ReserveRule s (.lrD rd rs1) rd va 8)) ∧
  (∀ (s : State) (rd rs1 rs2 : RegIdx),
    let va := s.params.arch.addr (s.params.arch.U (s.getX rs1))
    ConditionalRule s (.scW rd rs1 rs2) rd va 4 (s.getX rs2) ∧
    (s.params.arch = .w64 → ConditionalRule s (.scD rd rs1 rs2) rd va 8 (s.getX rs2)))

/-- The word AMOs (45_atomics.md R348 to R357). -/
def Obligations.AmoWordResults : Prop :=
  ∀ (s : State) (rd rs1 rs2 : RegIdx),
    let va := s.params.arch.addr (s.params.arch.U (s.getX rs1))
    let b := s.getX rs2
    AmoRule s (.amoswapW rd rs1 rs2) rd va 4 b (fun _ v => v) ∧
    AmoRule s (.amoaddW rd rs1 rs2) rd va 4 b (fun old v => old + v) ∧
    AmoRule s (.amoxorW rd rs1 rs2) rd va 4 b (fun old v => old ^^^ v) ∧
    AmoRule s (.amoandW rd rs1 rs2) rd va 4 b (fun old v => old &&& v) ∧
    AmoRule s (.amoorW rd rs1 rs2) rd va 4 b (fun old v => old ||| v) ∧
    AmoRule s (.amominW rd rs1 rs2) rd va 4 b
      (fun old v => if (BitVec.ofNat 32 old).toInt < (BitVec.ofNat 32 v).toInt then old else v) ∧
    AmoRule s (.amomaxW rd rs1 rs2) rd va 4 b
      (fun old v => if (BitVec.ofNat 32 old).toInt < (BitVec.ofNat 32 v).toInt then v else old) ∧
    AmoRule s (.amominuW rd rs1 rs2) rd va 4 b (fun old v => if old < v then old else v) ∧
    AmoRule s (.amomaxuW rd rs1 rs2) rd va 4 b (fun old v => if old < v then v else old)

/-- The doubleword AMOs (45_atomics.md R358 to R366), at width 64. -/
def Obligations.AmoDoubleResults : Prop :=
  ∀ (s : State) (rd rs1 rs2 : RegIdx), s.params.arch = .w64 →
    let va := s.getX rs1
    let b := s.getX rs2
    AmoRule s (.amoswapD rd rs1 rs2) rd va 8 b (fun _ v => v) ∧
    AmoRule s (.amoaddD rd rs1 rs2) rd va 8 b (fun old v => old + v) ∧
    AmoRule s (.amoxorD rd rs1 rs2) rd va 8 b (fun old v => old ^^^ v) ∧
    AmoRule s (.amoandD rd rs1 rs2) rd va 8 b (fun old v => old &&& v) ∧
    AmoRule s (.amoorD rd rs1 rs2) rd va 8 b (fun old v => old ||| v) ∧
    AmoRule s (.amominD rd rs1 rs2) rd va 8 b
      (fun old v => if (BitVec.ofNat 64 old).toInt < (BitVec.ofNat 64 v).toInt then old else v) ∧
    AmoRule s (.amomaxD rd rs1 rs2) rd va 8 b
      (fun old v => if (BitVec.ofNat 64 old).toInt < (BitVec.ofNat 64 v).toInt then v else old) ∧
    AmoRule s (.amominuD rd rs1 rs2) rd va 8 b (fun old v => if old < v then old else v) ∧
    AmoRule s (.amomaxuD rd rs1 rs2) rd va 8 b (fun old v => if old < v then v else old)

/-- What changes the reservation (45_atomics.md R346, R347): an LR replaces it, a write of this core at
exactly the reserved address clears it, and nothing else touches it, no trap, return or interrupt
among them. -/
def Obligations.ReservationRule : Prop :=
  (∀ (i : Instr) (s t : State), exec i s = .next t →
    t.core.resv = s.core.resv ∨
    (∃ va, reserveAddr i s = some va ∧ t.core.resv = some va) ∨
    (∃ va, storeAddr i s = some va ∧ s.core.resv = some va ∧ t.core.resv = none)) ∧
  (∀ s t : State, s.resolve = .next t → t.core.resv = s.core.resv) ∧
  (∀ (s u : State) (w : BitVec 32), s.fetch = .word w u → u.core.resv = s.core.resv)

/-! ## Control and status registers -/

/-- The six CSR instructions (46_csr_system.md R371 to R377): both checks before any change, the old value
to `rd`, and the write by `csr_write`; a refused access raises illegal instruction and changes
nothing. -/
def Obligations.CsrInstructions : Prop :=
  ∀ (s : State) (rd rs1 z : RegIdx) (a : CsrAddr),
    let v := s.getX rs1
    let k : Word := BitVec.ofNat 64 z.toNat
    CsrRule s (.csrrw rd a rs1) a rd true (fun _ => v) ∧
    CsrRule s (.csrrs rd a rs1) a rd (rs1 != 0#5) (fun old => old ||| v) ∧
    CsrRule s (.csrrc rd a rs1) a rd (rs1 != 0#5) (fun old => old &&& ~~~v) ∧
    CsrRule s (.csrrwi rd a z) a rd true (fun _ => k) ∧
    CsrRule s (.csrrsi rd a z) a rd (z != 0#5) (fun old => old ||| k) ∧
    CsrRule s (.csrrci rd a z) a rd (z != 0#5) (fun old => old &&& ~~~k)

/-- What every CSR reads as (10_state.md R45, R50 and each register's rule): its native contents at width
64, and at width 32 the sign extension of their 32-bit view. -/
def Obligations.CsrReads : Prop :=
  (∀ c : Csr, c ∈ csrContents.map Prod.fst ∧ ∃ a, (a, c) ∈ csrMap) ∧
  ∀ (s : State) (p : Csr × (State → Word)), p ∈ csrContents →
    s.csrRead p.1 = match s.params.arch with
      | .w64 => p.2 s
      | .w32 => (viewOf p.1 (p.2 s)).signExtend 64

/-- The registers stored as written (10_state.md R46, R47, R51, R69, R70, R72, R73, R78 to R83, R87): the
native value, the record of the write, and no other register. -/
def Obligations.CsrStoredWrites : Prop :=
  ∀ (s : State) (a : CsrAddr) (w : Word) (p : Csr × (State → Word)),
    let t := s.csrWrite a p.1 w
    (p ∈ storedRegisters → p.2 t = plainNative s.params.arch w ∧ CsrFrame p.1 s t ∧
      t.core.delta = (s.recCsr a (plainNative s.params.arch w)).core.delta) ∧
    (p ∈ causeRegisters → p.2 t = causeNative s.params.arch w ∧ CsrFrame p.1 s t ∧
      t.core.delta = (s.recCsr a (causeNative s.params.arch w)).core.delta)

/-- The hypervisor bank (10_state.md R48): with `HYP_CSR_WRITES = inert` a write changes nothing but the
record, which holds the native write value (R46, 46_csr_system.md R371); with `symmetric` its plain
registers are stored as written. The constant `misa` ignores a write (R66). -/
def Obligations.HypervisorWrites : Prop :=
  ∀ (s : State) (a : CsrAddr) (w : Word),
    let plain := plainNative s.params.arch w
    let cause := causeNative s.params.arch w
    (s.params.hypCsrWrites = .inert →
      s.csrWrite a .hstatus w =
        s.recCsr a (statusNative s.params.arch (s.core.mstatus &&& 0x800000000005E777#64) w) ∧
      s.csrWrite a .hcause w = s.recCsr a cause ∧
      ∀ c ∈ [Csr.hedeleg, .hideleg, .hie, .htvec, .hscratch, .hepc, .hbadaddr, .hip],
        s.csrWrite a c w = s.recCsr a plain) ∧
    (s.params.hypCsrWrites = .symmetric → ∀ p ∈ hypRegisters,
      let t := s.csrWrite a p.1 w
      p.2 t = plain ∧ CsrFrame p.1 s t ∧ t.core.delta = (s.recCsr a plain).core.delta) ∧
    (s.params.hypCsrWrites = .symmetric →
      let t := s.csrWrite a .hcause w
      t.core.hBank.cause = cause ∧ CsrFrame .hcause s t ∧
        t.core.delta = (s.recCsr a cause).core.delta) ∧
    s.csrWrite a .misa w = s.recCsr a plain

/-- Writes to the status register and the interrupt registers through their addresses (10_state.md R61 to
R65, R74 to R77), bit by bit: a translation mode that is not recognised leaves the VM field, a view
changes nothing outside its mask, and SD is recomputed (after a write through `ustatus` too: log
entry 11); the record holds the native write value (46_csr_system.md R371; log entry 12). -/
def Obligations.ViewWrites : Prop :=
  (∀ (s : State) (a : CsrAddr) (w : Word),
    let old := s.core.mstatus
    let sd : Word → Prop := fun m => m.toNat / 2 ^ 13 % 4 = 3 ∨ m.toNat / 2 ^ 15 % 4 = 3
    let masked : Csr → Word → Prop := fun c mask =>
      let t := s.csrWrite a c w
      let v := statusNative s.params.arch (old &&& mask) w
      CsrFrame c s t ∧ t.core.delta = (s.recCsr a v).core.delta ∧
      (t.core.mstatus.getLsbD 63 = true ↔ sd t.core.mstatus) ∧
      ∀ j, j < 63 → t.core.mstatus.getLsbD j = if mask.getLsbD j = true then v.getLsbD j else old.getLsbD j
    let v := statusNative s.params.arch old w
    let t := s.csrWrite a .mstatus w
    (CsrFrame .mstatus s t ∧ t.core.delta = (s.recCsr a v).core.delta ∧
      (t.core.mstatus.getLsbD 63 = true ↔ sd t.core.mstatus) ∧
      ∀ j, j < 63 → t.core.mstatus.getLsbD j =
        if (24 ≤ j ∧ j ≤ 28) ∧ v.toNat / 2 ^ 24 % 32 ∉ [0, 1, 2, 8, 9, 10, 11, 12] then old.getLsbD j
        else v.getLsbD j) ∧
    masked .sstatus 0x800000000005E133#64 ∧
    masked .ustatus 0x11#64 ∧
    (s.params.hypCsrWrites = .symmetric → masked .hstatus 0x800000000005E777#64)) ∧
  (∀ (s : State) (a : CsrAddr) (w : Word),
    let v := plainNative s.params.arch w
    let enables : Csr → Word → Prop := fun c mask =>
      CsrFrame c s (s.csrWrite a c w) ∧ (s.csrWrite a c w).core.delta = (s.recCsr a v).core.delta ∧
      ∀ j, (s.csrWrite a c w).core.mie.getLsbD j =
        if mask.getLsbD j = true then v.getLsbD j else s.core.mie.getLsbD j
    let pends : Csr → Word → Prop := fun c mask =>
      CsrFrame c s (s.csrWrite a c w) ∧ (s.csrWrite a c w).core.delta = (s.recCsr a v).core.delta ∧
      ∀ j, (s.csrWrite a c w).core.mip.getLsbD j =
        if mask.getLsbD j = true then v.getLsbD j else s.core.mip.getLsbD j
    enables .sie 0x333#64 ∧ enables .uie 0x111#64 ∧
    pends .mip 0x777#64 ∧ pends .sip 0x003#64 ∧ pends .uip 0x001#64 ∧
    (s.params.hypCsrWrites = .symmetric → enables .hie 0x777#64 ∧ pends .hip 0x007#64))

/-- Writes to the floating-point status (10_state.md R91 to R94): the field, the other field kept, and the
context marked dirty whatever `FS` was. Writes to the counters (R84): all 64 bits at width 64, at
width 32 the half the address names. The record holds the native write value (46_csr_system.md R371;
log entry 12). -/
def Obligations.FieldWrites : Prop :=
  (∀ (s : State) (a : CsrAddr) (w : Word),
    let fc := s.csrWrite a .fcsr w
    let fr := s.csrWrite a .frm w
    let ff := s.csrWrite a .fflags w
    fc.core.fcsr.toNat = w.toNat % 256 ∧
    fr.core.fcsr.toNat = w.toNat % 8 * 32 + s.core.fcsr.toNat % 32 ∧
    ff.core.fcsr.toNat = s.core.fcsr.toNat / 32 * 32 + w.toNat % 32 ∧
    ∀ p ∈ [(Csr.fcsr, fc), (.frm, fr), (.fflags, ff)],
      CsrFrame p.1 s p.2 ∧ p.2.core.mstatus = s.core.mstatus ||| 0x8000000000006000#64 ∧
      p.2.core.delta = (s.recCsr a (plainNative s.params.arch w)).core.delta) ∧
  (∀ (s : State) (a : CsrAddr) (w : Word),
    let lower : Word → Nat := fun c => match s.params.arch with
      | .w64 => w.toNat
      | .w32 => c.toNat / 2 ^ 32 * 2 ^ 32 + w.toNat % 2 ^ 32
    let upper : Word → Nat := fun c => w.toNat % 2 ^ 32 * 2 ^ 32 + c.toNat % 2 ^ 32
    (s.csrWrite a .mcycle w).core.cycles.toNat = lower s.core.cycles ∧
    (s.csrWrite a .minstret w).core.instret.toNat = lower s.core.instret ∧
    (s.params.arch = .w32 →
      (s.csrWrite a .mcycleh w).core.cycles.toNat = upper s.core.cycles ∧
      (s.csrWrite a .minstreth w).core.instret.toNat = upper s.core.instret) ∧
    (∀ c ∈ [Csr.mcycle, .minstret, .mcycleh, .minstreth], CsrFrame c s (s.csrWrite a c w)) ∧
    (∀ c ∈ [Csr.mcycle, .mcycleh], (c = .mcycleh → s.params.arch = .w32) →
      let t := s.csrWrite a c w
      t.core.delta = (s.recCsr a t.core.cycles).core.delta) ∧
    ∀ c ∈ [Csr.minstret, .minstreth], (c = .minstreth → s.params.arch = .w32) →
      let t := s.csrWrite a c w
      t.core.delta = (s.recCsr a t.core.instret).core.delta)

/-! ## System instructions -/

/-- ECALL and EBREAK (46_csr_system.md R380, R381): where no interrupt is dispatchable the step enters the
handler. ECALL consults bit 8 plus the current level of the delegation registers, EBREAK bit 3; the
faulting address is absent and the saved address is the instruction's own. -/
def Obligations.CallsAndBreakpoints : Prop :=
  ∀ s : State, s.core.checkInterrupts = none →
    let level : Nat → Priv := fun n =>
      Priv.max (delegTarget s.core.medeleg s.core.hedeleg s.core.sedeleg n) s.core.cur
    let code : BitVec 4 := match s.params.ecallCode with
      | .const8 => 8#4
      | .perPrivilege => BitVec.ofNat 4 (8 + s.core.cur.num)
    (∃ t, exec .ecall s = .next t ∧ Raised s t 8#4 none ∧
      t.tick.resolve = .next
        ((t.tick.trapEntry false code (level (8 + s.core.cur.num)) s.core.pc none).setNext .none)) ∧
    (∃ t, exec .ebreak s = .next t ∧ Raised s t 3#4 none ∧
      t.tick.resolve = .next ((t.tick.trapEntry false 3#4 (level 3) s.core.pc none).setNext .none))

/-- SFENCE.VM (46_csr_system.md R390, 20_memory.md R160): illegal at user level; otherwise exactly the
entries the rule names are removed, from both TLBs, each under its own id, and nothing else
changes. -/
def Obligations.FlushResults : Prop :=
  ∀ (s : State) (rs1 : RegIdx),
    (s.core.cur = .user → Completes (.sfenceVm rs1) s fun t => Raised s t 2#4 none) ∧
    (s.core.cur ≠ .user → Completes (.sfenceVm rs1) s fun t =>
      t = { s with core := { s.core with tlb32 := t.core.tlb32, tlb39 := t.core.tlb39 } } ∧
      ∀ f : VmFormat,
        let id : BitVec f.asidBits := match f with
          | .sv32 => s.core.sptbr.extractLsb' 22 10
          | .sv39 => s.core.sptbr.extractLsb' 38 26
        (t.core.tlb f).length = (s.core.tlb f).length ∧
        ∀ k, k < (s.core.tlb f).length → ∀ e,
          (t.core.tlb f)[k]? = some (some e) ↔ (s.core.tlb f)[k]? = some (some e) ∧
            if rs1 = 0#5 then id.toNat ≠ 0 ∧ (e.asid ≠ id ∨ e.global = true)
            else s.params.arch.addr (s.params.arch.U (s.getX rs1)) &&& e.vmatch ≠ e.vtag)

/-! ## Floating point -/

/-- The floating-point loads and stores (47_float_single.md R403, R404; 48_float_double.md R441, R442):
the bits are moved unchanged, at any alignment and at both widths. -/
def Obligations.FloatMemory : Prop :=
  ∀ (s : State) (r rs1 : RegIdx) (imm : BitVec 12),
    let va := s.params.arch.addr (s.params.arch.S (s.getX rs1) + imm.toInt)
    LoadFRule s (.flw r rs1 imm) r va 4 (fun v => boxed (BitVec.ofNat 32 v)) ∧
    LoadFRule s (.fld r rs1 imm) r va 8 (fun v => BitVec.ofNat 64 v) ∧
    StoreFRule s (.fsw rs1 r imm) va 4 (s.getF r) ∧
    StoreFRule s (.fsd rs1 r imm) va 8 (s.getF r)

/-- Single-precision arithmetic and the multiply-add forms (47_float_single.md R405 to R413): two library
calls for the latter, the flags of both accrued, the sign flipped after the rounding. The values
are those of the bodiless library (log entry 3). -/
def Obligations.SingleArithmetic : Prop :=
  ∀ (s : State) (fd fs1 fs2 fs3 : RegIdx) (rm : BitVec 3) (m : RoundingMode),
    Selects rm s.core.fcsr m →
    let a := s.single fs1
    let b := s.single fs2
    let c := s.single fs3
    let p := FPLib.mul32 m a b
    let plus := FPLib.add32 m p.1 c
    let minus := FPLib.sub32 m p.1 c
    FpWrites s (.fmaddS fd fs1 fs2 fs3 rm) fd (boxed plus.1) (p.2 ||| plus.2) ∧
    FpWrites s (.fmsubS fd fs1 fs2 fs3 rm) fd (boxed minus.1) (p.2 ||| minus.2) ∧
    FpWrites s (.fnmsubS fd fs1 fs2 fs3 rm) fd (boxed (minus.1 ^^^ 0x80000000#32)) (p.2 ||| minus.2) ∧
    FpWrites s (.fnmaddS fd fs1 fs2 fs3 rm) fd (boxed (plus.1 ^^^ 0x80000000#32)) (p.2 ||| plus.2) ∧
    FpWrites s (.faddS fd fs1 fs2 rm) fd (boxed (FPLib.add32 m a b).1) (FPLib.add32 m a b).2 ∧
    FpWrites s (.fsubS fd fs1 fs2 rm) fd (boxed (FPLib.sub32 m a b).1) (FPLib.sub32 m a b).2 ∧
    FpWrites s (.fmulS fd fs1 fs2 rm) fd (boxed p.1) p.2 ∧
    FpWrites s (.fdivS fd fs1 fs2 rm) fd (boxed (FPLib.div32 m a b).1) (FPLib.div32 m a b).2 ∧
    FpWrites s (.fsqrtS fd fs1 rm) fd (boxed (FPLib.sqrt32 m a).1) (FPLib.sqrt32 m a).2

/-- Double-precision arithmetic and the multiply-add forms (48_float_double.md R443 to R451). -/
def Obligations.DoubleArithmetic : Prop :=
  ∀ (s : State) (fd fs1 fs2 fs3 : RegIdx) (rm : BitVec 3) (m : RoundingMode),
    Selects rm s.core.fcsr m →
    let a := s.getF fs1
    let b := s.getF fs2
    let c := s.getF fs3
    let p := FPLib.mul64 m a b
    let plus := FPLib.add64 m p.1 c
    let minus := FPLib.sub64 m p.1 c
    FpWrites s (.fmaddD fd fs1 fs2 fs3 rm) fd plus.1 (p.2 ||| plus.2) ∧
    FpWrites s (.fmsubD fd fs1 fs2 fs3 rm) fd minus.1 (p.2 ||| minus.2) ∧
    FpWrites s (.fnmsubD fd fs1 fs2 fs3 rm) fd (minus.1 ^^^ 0x8000000000000000#64) (p.2 ||| minus.2) ∧
    FpWrites s (.fnmaddD fd fs1 fs2 fs3 rm) fd (plus.1 ^^^ 0x8000000000000000#64) (p.2 ||| plus.2) ∧
    FpWrites s (.faddD fd fs1 fs2 rm) fd (FPLib.add64 m a b).1 (FPLib.add64 m a b).2 ∧
    FpWrites s (.fsubD fd fs1 fs2 rm) fd (FPLib.sub64 m a b).1 (FPLib.sub64 m a b).2 ∧
    FpWrites s (.fmulD fd fs1 fs2 rm) fd p.1 p.2 ∧
    FpWrites s (.fdivD fd fs1 fs2 rm) fd (FPLib.div64 m a b).1 (FPLib.div64 m a b).2 ∧
    FpWrites s (.fsqrtD fd fs1 rm) fd (FPLib.sqrt64 m a).1 (FPLib.sqrt64 m a).2

/-- Sign injection, minimum and maximum, single precision (47_float_single.md R414 to R418). -/
def Obligations.SingleSelection : Prop :=
  ∀ (s : State) (fd fs1 fs2 : RegIdx),
    let a := s.single fs1
    let b := s.single fs2
    let signed : Nat → BitVec 32 := fun sign => BitVec.ofNat 32 (sign * 2 ^ 31 + a.toNat % 2 ^ 31)
    let sa := a.toNat / 2 ^ 31
    let sb := b.toNat / 2 ^ 31
    let zeros : Prop := a.toNat % 2 ^ 31 = 0 ∧ b.toNat % 2 ^ 31 = 0
    let result : Instr → BitVec 32 → Prop := fun i v =>
      (snan32 a ∨ snan32 b → FpWrites s i fd (boxed v) 0x10#5) ∧
      (¬snan32 a → ¬snan32 b → FpWrites s i fd (boxed v) 0#5)
    let least := Instr.fminS fd fs1 fs2
    let most := Instr.fmaxS fd fs1 fs2
    (Completes (.fsgnjS fd fs1 fs2) s fun t => WroteF s t fd (boxed (signed sb))) ∧
    (Completes (.fsgnjnS fd fs1 fs2) s fun t => WroteF s t fd (boxed (signed (1 - sb)))) ∧
    (Completes (.fsgnjxS fd fs1 fs2) s fun t => WroteF s t fd (boxed (signed ((sa + sb) % 2)))) ∧
    (nan32 a → nan32 b → result least 0x7FC00000#32 ∧ result most 0x7FC00000#32) ∧
    (nan32 a → ¬nan32 b → result least b ∧ result most b) ∧
    (¬nan32 a → nan32 b → result least a ∧ result most a) ∧
    (¬nan32 a → ¬nan32 b → zeros →
      result least (BitVec.ofNat 32 (Nat.max sa sb * 2 ^ 31)) ∧
      result most (BitVec.ofNat 32 (Nat.min sa sb * 2 ^ 31))) ∧
    (¬nan32 a → ¬nan32 b → ¬zeros →
      ((FPLib.lt32 a b).1 = true → result least a ∧ result most b) ∧
      ((FPLib.lt32 a b).1 = false → result least b ∧ result most a))

/-- Sign injection, minimum and maximum, double precision (48_float_double.md R452 to R456). -/
def Obligations.DoubleSelection : Prop :=
  ∀ (s : State) (fd fs1 fs2 : RegIdx),
    let a := s.getF fs1
    let b := s.getF fs2
    let signed : Nat → BitVec 64 := fun sign => BitVec.ofNat 64 (sign * 2 ^ 63 + a.toNat % 2 ^ 63)
    let sa := a.toNat / 2 ^ 63
    let sb := b.toNat / 2 ^ 63
    let zeros : Prop := a.toNat % 2 ^ 63 = 0 ∧ b.toNat % 2 ^ 63 = 0
    let result : Instr → BitVec 64 → Prop := fun i v =>
      (snan64 a ∨ snan64 b → FpWrites s i fd v 0x10#5) ∧
      (¬snan64 a → ¬snan64 b → FpWrites s i fd v 0#5)
    let least := Instr.fminD fd fs1 fs2
    let most := Instr.fmaxD fd fs1 fs2
    (Completes (.fsgnjD fd fs1 fs2) s fun t => WroteF s t fd (signed sb)) ∧
    (Completes (.fsgnjnD fd fs1 fs2) s fun t => WroteF s t fd (signed (1 - sb))) ∧
    (Completes (.fsgnjxD fd fs1 fs2) s fun t => WroteF s t fd (signed ((sa + sb) % 2))) ∧
    (nan64 a → nan64 b → result least 0x7FF8000000000000#64 ∧ result most 0x7FF8000000000000#64) ∧
    (nan64 a → ¬nan64 b → result least b ∧ result most b) ∧
    (¬nan64 a → nan64 b → result least a ∧ result most a) ∧
    (¬nan64 a → ¬nan64 b → zeros →
      result least (BitVec.ofNat 64 (Nat.max sa sb * 2 ^ 63)) ∧
      result most (BitVec.ofNat 64 (Nat.min sa sb * 2 ^ 63))) ∧
    (¬nan64 a → ¬nan64 b → ¬zeros →
      ((FPLib.lt64 a b).1 = true → result least a ∧ result most b) ∧
      ((FPLib.lt64 a b).1 = false → result least b ∧ result most a))

/-- Comparison and classification (47_float_single.md R422 to R425; 48_float_double.md R459 to R462): the
library's answer in an integer register, its flags accrued, no rounding mode. -/
def Obligations.FloatComparisons : Prop :=
  ∀ (s : State) (rd fs1 fs2 : RegIdx),
    let a := s.single fs1
    let b := s.single fs2
    let c := s.getF fs1
    let d := s.getF fs2
    let truth : Bool → Word := fun t => if t = true then 1#64 else 0#64
    FpWritesX s (.feqS rd fs1 fs2) rd (truth (FPLib.eq32 a b).1) (FPLib.eq32 a b).2 ∧
    FpWritesX s (.fltS rd fs1 fs2) rd (truth (FPLib.lt32 a b).1) (FPLib.lt32 a b).2 ∧
    FpWritesX s (.fleS rd fs1 fs2) rd (truth (FPLib.le32 a b).1) (FPLib.le32 a b).2 ∧
    Writes s (.fclassS rd fs1) rd (BitVec.ofNat 64 (FPLib.classify32 a).toNat) ∧
    FpWritesX s (.feqD rd fs1 fs2) rd (truth (FPLib.eq64 c d).1) (FPLib.eq64 c d).2 ∧
    FpWritesX s (.fltD rd fs1 fs2) rd (truth (FPLib.lt64 c d).1) (FPLib.lt64 c d).2 ∧
    FpWritesX s (.fleD rd fs1 fs2) rd (truth (FPLib.le64 c d).1) (FPLib.le64 c d).2 ∧
    Writes s (.fclassD rd fs1) rd (BitVec.ofNat 64 (FPLib.classify64 c).toNat)

/-- Conversions and moves, single precision (47_float_single.md R419 to R421, R426 to R432). -/
def Obligations.SingleConversions : Prop :=
  ∀ (s : State) (r rs : RegIdx) (rm : BitVec 3) (m : RoundingMode), Selects rm s.core.fcsr m →
    let a := s.single rs
    let v := s.getX rs
    let w : BitVec 32 := BitVec.ofNat 32 v.toNat
    FpWritesX s (.fcvtWS r rs rm) r (storedW (FPLib.cvt_i32_f32 m a).1.toInt) (FPLib.cvt_i32_f32 m a).2 ∧
    FpWritesX s (.fcvtWUS r rs rm) r (storedW (FPLib.cvt_u32_f32 m a).1.toInt) (FPLib.cvt_u32_f32 m a).2 ∧
    Writes s (.fmvXS r rs) r (storedW a.toInt) ∧
    FpWrites s (.fcvtSW r rs rm) r (boxed (FPLib.cvt_f32_i32 m w).1) (FPLib.cvt_f32_i32 m w).2 ∧
    FpWrites s (.fcvtSWU r rs rm) r (boxed (FPLib.cvt_f32_u32 m w).1) (FPLib.cvt_f32_u32 m w).2 ∧
    (Completes (.fmvSX r rs) s fun t => WroteF s t r (boxed w)) ∧
    (s.params.arch = .w64 →
      FpWritesX s (.fcvtLS r rs rm) r (FPLib.cvt_i64_f32 m a).1 (FPLib.cvt_i64_f32 m a).2 ∧
      FpWritesX s (.fcvtLUS r rs rm) r (FPLib.cvt_u64_f32 m a).1 (FPLib.cvt_u64_f32 m a).2 ∧
      FpWrites s (.fcvtSL r rs rm) r (boxed (FPLib.cvt_f32_i64 m v).1) (FPLib.cvt_f32_i64 m v).2 ∧
      FpWrites s (.fcvtSLU r rs rm) r (boxed (FPLib.cvt_f32_u64 m v).1) (FPLib.cvt_f32_u64 m v).2)

/-- Conversions and moves, double precision (48_float_double.md R457, R458, R463 to R472). -/
def Obligations.DoubleConversions : Prop :=
  ∀ (s : State) (r rs : RegIdx) (rm : BitVec 3) (m : RoundingMode), Selects rm s.core.fcsr m →
    let a := s.getF rs
    let v := s.getX rs
    let w : BitVec 32 := BitVec.ofNat 32 v.toNat
    FpWrites s (.fcvtSD r rs rm) r (boxed (FPLib.cvt_f32_f64 m a).1) (FPLib.cvt_f32_f64 m a).2 ∧
    FpWrites s (.fcvtDS r rs rm) r (FPLib.cvt_f64_f32 m (s.single rs)).1
      (FPLib.cvt_f64_f32 m (s.single rs)).2 ∧
    FpWritesX s (.fcvtWD r rs rm) r (storedW (FPLib.cvt_i32_f64 m a).1.toInt) (FPLib.cvt_i32_f64 m a).2 ∧
    FpWritesX s (.fcvtWUD r rs rm) r (storedW (FPLib.cvt_u32_f64 m a).1.toInt) (FPLib.cvt_u32_f64 m a).2 ∧
    FpWrites s (.fcvtDW r rs rm) r (FPLib.cvt_f64_i32 m w).1 (FPLib.cvt_f64_i32 m w).2 ∧
    FpWrites s (.fcvtDWU r rs rm) r (FPLib.cvt_f64_u32 m w).1 (FPLib.cvt_f64_u32 m w).2 ∧
    (s.params.arch = .w64 →
      FpWritesX s (.fcvtLD r rs rm) r (FPLib.cvt_i64_f64 m a).1 (FPLib.cvt_i64_f64 m a).2 ∧
      FpWritesX s (.fcvtLUD r rs rm) r (FPLib.cvt_u64_f64 m a).1 (FPLib.cvt_u64_f64 m a).2 ∧
      FpWrites s (.fcvtDL r rs rm) r (FPLib.cvt_f64_i64 m v).1 (FPLib.cvt_f64_i64 m v).2 ∧
      FpWrites s (.fcvtDLU r rs rm) r (FPLib.cvt_f64_u64 m v).1 (FPLib.cvt_f64_u64 m v).2 ∧
      Writes s (.fmvXD r rs) r a ∧ (Completes (.fmvDX r rs) s fun t => WroteF s t r v))

/-- An invalid rounding mode (47_float_single.md R401): codes 5 and 6, and code 7 where `fcsr[7:5]` is
above 4, raise illegal instruction before anything changes. -/
def Obligations.InvalidRounding : Prop :=
  ∀ (s : State) (r a b c : RegIdx) (rm : BitVec 3),
    (rm = 5#3 ∨ rm = 6#3 ∨ (rm = 7#3 ∧ 4 < s.core.fcsr.toNat / 32)) →
    ∀ i ∈ [Instr.fmaddS r a b c rm, .fmsubS r a b c rm, .fnmsubS r a b c rm, .fnmaddS r a b c rm,
      .faddS r a b rm, .fsubS r a b rm, .fmulS r a b rm, .fdivS r a b rm, .fsqrtS r a rm,
      .fcvtWS r a rm, .fcvtWUS r a rm, .fcvtSW r a rm, .fcvtSWU r a rm, .fcvtLS r a rm,
      .fcvtLUS r a rm, .fcvtSL r a rm, .fcvtSLU r a rm] ++
      [.fmaddD r a b c rm, .fmsubD r a b c rm, .fnmsubD r a b c rm, .fnmaddD r a b c rm,
      .faddD r a b rm, .fsubD r a b rm, .fmulD r a b rm, .fdivD r a b rm, .fsqrtD r a rm,
      .fcvtSD r a rm, .fcvtDS r a rm, .fcvtWD r a rm, .fcvtWUD r a rm, .fcvtDW r a rm,
      .fcvtDWU r a rm, .fcvtLD r a rm, .fcvtLUD r a rm, .fcvtDL r a rm, .fcvtDLU r a rm],
    Completes i s fun t => Raised s t 2#4 none

/-! ## Memory and translation -/

/-- Raw memory (20_memory.md R120, R122 to R124): a write sets exactly its bytes, modulo `2^64`, and a read
of as many bytes there gives them back. The canonical form, the model's own (log entry 14), is kept,
and in it memories that read alike are equal. -/
def Obligations.MemoryLaws : Prop :=
  (∀ (m : Memory) (pa v : Word) (n : Nat), n ≤ 8 →
    (∀ k, k < n → (m.writeLE pa n v).read (pa + BitVec.ofNat 64 k).toNat =
      BitVec.ofNat 8 (v.toNat / 256 ^ k)) ∧
    (∀ a, (∀ k, k < n → a ≠ (pa.toNat + k) % 2 ^ 64) → (m.writeLE pa n v).read a = m.read a) ∧
    ((m.writeLE pa n v).readLE pa n).toNat = v.toNat % 256 ^ n ∧
    (m.readLE pa n).toNat = m.nat pa n ∧
    (m.wf = true → (m.writeLE pa n v).wf = true)) ∧
  (∀ m m' : Memory, m.wf = true → m'.wf = true → (∀ a, a < 2 ^ 64 → m.read a = m'.read a) → m = m')

/-- The contract of `translate` (20_memory.md R140): machine level and mode 0 are the identity and change
nothing, modes 8 and 9 are the two formats, and any other mode is fatal; and the permission check
(R147), clause by clause. The privilege of a data access is `MPP` when `MPRV` is set and the current
level otherwise, that of a fetch the current level always, with the flags `MXR` and `PUM` of the
status register (R131, R165; 40_step_and_fetch.md R212). -/
def Obligations.TranslateContract : Prop :=
  (∀ (s : State) (va : Word) (k : AccessKind) (q : Priv) (mxr pum : Bool),
    let mode := s.core.mstatus.toNat / 2 ^ 24 % 32
    (q = .machine ∨ mode = 0 → s.translate va k q mxr pum = .mapped va s) ∧
    (q ≠ .machine → mode = 8 → s.translate va k q mxr pum = s.translatePaged .sv32 va k q mxr pum) ∧
    (q ≠ .machine → mode = 9 → s.translate va k q mxr pum = s.translatePaged .sv39 va k q mxr pum) ∧
    (s.translate va k q mxr pum = .fatal ↔ q ≠ .machine ∧ mode ≠ 0 ∧ mode ≠ 8 ∧ mode ≠ 9)) ∧
  (∀ (f : VmFormat) (p : BitVec f.pteBits) (k : AccessKind) (q : Priv) (mxr pum : Bool),
    permOk p k q mxr pum = true ↔
      (q = .user → p.getLsbD 4 = true) ∧
      (q = .supervisor → pum = true → p.getLsbD 4 = false) ∧
      (k = .read ∨ k = .readWrite → p.getLsbD 1 = true ∨ (p.getLsbD 3 = true ∧ mxr = true)) ∧
      (k = .write ∨ k = .readWrite → p.getLsbD 2 = true) ∧
      (k = .execute → p.getLsbD 3 = true)) ∧
  (∀ (s : State) (va : Word) (k : AccessKind),
    let m := s.core.mstatus
    (m.getLsbD 17 = false → s.translateData va k =
      s.translate va k s.core.cur (m.getLsbD 19) (m.getLsbD 18)) ∧
    (m.getLsbD 17 = true → ∀ q : Priv, q.num = m.toNat / 2 ^ 11 % 4 →
      s.translateData va k = s.translate va k q (m.getLsbD 19) (m.getLsbD 18)) ∧
    s.translatePc = s.translate s.core.pc .execute s.core.cur (m.getLsbD 19) (m.getLsbD 18))

/-- A paged translation whole (20_memory.md R141, R142, R144, R146, R149, R152). On a hit, in the lowest
slot that answers, the entry's permissions decide and there is no fall back to a walk: the physical
address is the entry's, and where the accessed or dirty bit was clear the entry is written back to
memory and to its slot with its age refreshed. On a miss the walk decides: the leaf's physical
address, the write-back, and a new entry in the slot R149 chooses. A failed translation has no next
state, and nothing else of the machine changes. -/
def Obligations.TranslateFrame : Prop :=
  ∀ (s : State) (f : VmFormat) (va : Word) (k : AccessKind) (q : Priv) (mxr pum : Bool),
    let id : BitVec f.asidBits := match f with
      | .sv32 => s.core.sptbr.extractLsb' 22 10
      | .sv39 => s.core.sptbr.extractLsb' 38 26
    let tlb := s.core.tlb f
    let answer := s.translatePaged f va k q mxr pum
    (∀ slot e, Answers tlb id va slot e → (∀ j e', j < slot → ¬Answers tlb id va j e') →
      (permOk e.pte k q mxr pum = false → answer = .unmapped) ∧
      (permOk e.pte k q mxr pum = true → ∃ u p,
        answer = .mapped (e.pbase ||| (va &&& e.voff)) u ∧ AdSet k e.pte p ∧ XlatFrame f s u ∧
        (p = e.pte → u = s) ∧
        (p ≠ e.pte → StoredAt s u e.pteAddr f.pteBytes (p.setWidth 64) ∧
          u.core.tlb f = List.set tlb slot (some { e with pte := p, age := s.core.cycles })))) ∧
    ((∀ j e, ¬Answers tlb id va j e) →
      (walk f s.mem s.core.sptbr va k q mxr pum = none → answer = .unmapped) ∧
      (∀ l, walk f s.mem s.core.sptbr va k q mxr pum = some l → ∃ u p slot,
        let pa := f.phys l.level p va
        let page := (leafMasks f l.level).1
        let offset := (leafMasks f l.level).2
        answer = .mapped pa u ∧ AdSet k l.pte p ∧ XlatFrame f s u ∧
        (p = l.pte → u.mem = s.mem) ∧
        (p ≠ l.pte → StoredAt s u l.pteAddr f.pteBytes (p.setWidth 64)) ∧
        (0 < tlb.length → Evicts tlb slot) ∧
        u.core.tlb f = List.set tlb slot (some {
          asid := id, global := l.global, vtag := va &&& page, vmatch := page
          pbase := pa &&& ~~~offset, voff := offset, pte := p, pteAddr := l.pteAddr
          age := s.core.cycles })))

/-- A TLB hit is worth the walk it saves (20_memory.md R154): after a successful translation, translating
the same address for the same access again gives the same physical address and changes nothing
more. -/
def Obligations.TlbTransparency : Prop :=
  ∀ (s u : State) (f : VmFormat) (va pa : Word) (k : AccessKind) (q : Priv) (mxr pum : Bool),
    s.Inv → s.translatePaged f va k q mxr pum = .mapped pa u →
    u.translatePaged f va k q mxr pum = .mapped pa u

/-- The 3-level walk unrolled (20_memory.md R134 to R138, R145 to R147, R150): where the entries of the
root and the middle table are valid pointers, the leaf of the last table is judged by its
permissions; a leaf met higher up is a superpage; an invalid entry, or a pointer at level 0, fails.
The physical address takes the page number of the leaf's level and above and the rest from the
virtual address. -/
def Obligations.WalkThreeLevels : Prop :=
  ∀ (m : Memory) (sptbr va : Word) (k : AccessKind) (q : Priv) (mxr pum : Bool),
    let place : Word → Nat → Word := fun base shift =>
      base + BitVec.ofNat 64 (va.toNat / 2 ^ shift % 512 * 8)
    let entry : Word → Nat → BitVec 64 := fun base shift => BitVec.ofNat 64 (m.nat (place base shift) 8)
    let next : BitVec 64 → Word := fun p => BitVec.ofNat 64 (p.toNat / 2 ^ 10 % 2 ^ 38 * 4096)
    let bad : BitVec 64 → Prop := fun p =>
      p.getLsbD 0 = false ∨ (p.getLsbD 2 = true ∧ p.getLsbD 1 = false)
    let pointer : BitVec 64 → Prop := fun p =>
      ¬bad p ∧ p.getLsbD 1 = false ∧ p.getLsbD 2 = false ∧ p.getLsbD 3 = false
    let leaf : BitVec 64 → Prop := fun p => ¬bad p ∧ ¬pointer p ∧ permOk p k q mxr pum = true
    let root : Word := BitVec.ofNat 64 (sptbr.toNat % 2 ^ 38 * 4096)
    let p2 := entry root 30
    let p1 := entry (next p2) 21
    let p0 := entry (next p1) 12
    let found := walk .sv39 m sptbr va k q mxr pum
    (leaf p2 → found = some ⟨2, p2, place root 30, p2.getLsbD 5⟩) ∧
    (pointer p2 → leaf p1 →
      found = some ⟨1, p1, place (next p2) 21, p2.getLsbD 5 || p1.getLsbD 5⟩) ∧
    (pointer p2 → pointer p1 → leaf p0 →
      found = some ⟨0, p0, place (next p1) 12, p2.getLsbD 5 || p1.getLsbD 5 || p0.getLsbD 5⟩) ∧
    (¬(leaf p2 ∨ (pointer p2 ∧ leaf p1) ∨ (pointer p2 ∧ pointer p1 ∧ leaf p0)) → found = none) ∧
    (∀ p : BitVec 64,
      (VmFormat.phys .sv39 0 p va).toNat = p.toNat / 2 ^ 10 % 2 ^ 38 * 2 ^ 12 + va.toNat % 2 ^ 12 ∧
      (VmFormat.phys .sv39 1 p va).toNat = p.toNat / 2 ^ 19 % 2 ^ 29 * 2 ^ 21 + va.toNat % 2 ^ 21 ∧
      (VmFormat.phys .sv39 2 p va).toNat = p.toNat / 2 ^ 28 % 2 ^ 20 * 2 ^ 30 + va.toNat % 2 ^ 30)


/-- The 2-level walk unrolled (20_memory.md R134 to R138, R145 to R147, R150): as the 3-level one, with
indices of 10 bits, entries of 4 bytes and a page number of 22 bits. -/
def Obligations.WalkTwoLevels : Prop :=
  ∀ (m : Memory) (sptbr va : Word) (k : AccessKind) (q : Priv) (mxr pum : Bool),
    let place : Word → Nat → Word := fun base shift =>
      base + BitVec.ofNat 64 (va.toNat / 2 ^ shift % 1024 * 4)
    let entry : Word → Nat → BitVec 32 := fun base shift => BitVec.ofNat 32 (m.nat (place base shift) 4)
    let bad : BitVec 32 → Prop := fun p =>
      p.getLsbD 0 = false ∨ (p.getLsbD 2 = true ∧ p.getLsbD 1 = false)
    let pointer : BitVec 32 → Prop := fun p =>
      ¬bad p ∧ p.getLsbD 1 = false ∧ p.getLsbD 2 = false ∧ p.getLsbD 3 = false
    let leaf : BitVec 32 → Prop := fun p => ¬bad p ∧ ¬pointer p ∧ permOk p k q mxr pum = true
    let root : Word := BitVec.ofNat 64 (sptbr.toNat % 2 ^ 22 * 4096)
    let p1 := entry root 22
    let table : Word := BitVec.ofNat 64 (p1.toNat / 2 ^ 10 * 4096)
    let p0 := entry table 12
    let found := walk .sv32 m sptbr va k q mxr pum
    (leaf p1 → found = some ⟨1, p1, place root 22, p1.getLsbD 5⟩) ∧
    (pointer p1 → leaf p0 → found = some ⟨0, p0, place table 12, p1.getLsbD 5 || p0.getLsbD 5⟩) ∧
    (¬(leaf p1 ∨ (pointer p1 ∧ leaf p0)) → found = none) ∧
    (∀ p : BitVec 32,
      (VmFormat.phys .sv32 0 p va).toNat = p.toNat / 2 ^ 10 * 2 ^ 12 + va.toNat % 2 ^ 12 ∧
      (VmFormat.phys .sv32 1 p va).toNat = p.toNat / 2 ^ 20 * 2 ^ 22 + va.toNat % 2 ^ 22)
end

