-- ==== Sys2Proof/Laws/Bits.lean ====
section
/-!
SUPPORT. Bits of the field operations, and what they say of the status register.
-/

namespace Sys2Proof

/-! ## Field operations, bit by bit -/

theorem getLsbD_oneShift (i j : Nat) (hj : j < 64) :
    ((1#64 : Word) <<< i).getLsbD j = decide (j = i) := by
  rw [BitVec.getLsbD_shiftLeft]
  by_cases h : j < i
  · simp [h]; omega
  · rw [BitVec.getLsbD_one]
    simp [hj, h]
    omega

@[simp] theorem getLsbD_setBit (w : Word) (i : Nat) (b : Bool) (j : Nat) (hj : j < 64) :
    (setBit w i b).getLsbD j = if j = i then b else w.getLsbD j := by
  unfold setBit
  cases b
  · simp only [Bool.false_eq_true, if_false, BitVec.getLsbD_and, BitVec.getLsbD_not, hj, decide_true,
      Bool.true_and, getLsbD_oneShift _ _ hj]
    split <;> simp_all
  · simp only [if_true, BitVec.getLsbD_or, getLsbD_oneShift _ _ hj]
    split <;> simp_all

theorem getLsbD_lowMask (n j : Nat) (hn : n < 64) : (lowMask n).getLsbD j = decide (j < n) := by
  have h : (lowMask n).toNat = 2 ^ n - 1 := by
    have hp : 2 ^ n < 2 ^ 64 := Nat.pow_lt_pow_right (by omega) hn
    have h1 : 1 ≤ 2 ^ n := Nat.one_le_two_pow
    unfold lowMask
    rw [BitVec.toNat_sub, BitVec.toNat_shiftLeft]
    simp only [BitVec.toNat_ofNat, Nat.one_mod, Nat.shiftLeft_eq, Nat.one_mul]
    rw [Nat.mod_eq_of_lt hp]
    omega
  rw [BitVec.getLsbD, h, Nat.testBit_two_pow_sub_one]

/-- A replaced field reads as the new value, every other bit as before. -/
theorem getLsbD_putField (w : Word) (lo n : Nat) (v : Word) (j : Nat) (hj : j < 64) (hn : n < 64) :
    (putField w lo n v).getLsbD j =
      if lo ≤ j ∧ j < lo + n then v.getLsbD (j - lo) else w.getLsbD j := by
  unfold putField
  simp only [BitVec.getLsbD_or, BitVec.getLsbD_and, BitVec.getLsbD_not, BitVec.getLsbD_shiftLeft,
    getLsbD_lowMask _ _ hn, hj, decide_true, Bool.true_and]
  by_cases h1 : lo ≤ j
  · by_cases h2 : j < lo + n
    · have : j - lo < n := by omega
      have h3 : ¬ j < lo := by omega
      simp [h1, h2, this, h3]
    · have : ¬ j - lo < n := by omega
      simp [h2, this]
  · have : j < lo := by omega
    simp [h1, this]

theorem getLsbD_maskWrite (old mask w : Word) (j : Nat) (hj : j < 64) :
    (maskWrite old mask w).getLsbD j = if mask.getLsbD j then w.getLsbD j else old.getLsbD j := by
  unfold maskWrite
  simp only [BitVec.getLsbD_or, BitVec.getLsbD_and, BitVec.getLsbD_not, hj, decide_true, Bool.true_and]
  cases mask.getLsbD j <;> simp

/-- A write through a mask changes no bit outside it (10_state.md R63). -/
theorem maskWrite_and_not (old mask w : Word) :
    maskWrite old mask w &&& ~~~mask = old &&& ~~~mask := by
  apply BitVec.eq_of_getLsbD_eq
  intro i hi
  simp only [BitVec.getLsbD_and, BitVec.getLsbD_not, hi, decide_true, Bool.true_and,
    getLsbD_maskWrite _ _ _ _ hi]
  cases mask.getLsbD i <;> simp

/-! ## Projections to the running width -/

@[simp] theorem zext_zext (x : Xlen) (v : Word) : x.zext (x.zext v) = x.zext v := by
  cases x
  · apply BitVec.eq_of_toNat_eq; simp [Xlen.zext]
  · rfl

@[simp] theorem sext_sext (x : Xlen) (v : Word) : x.sext (x.sext v) = x.sext v := by
  cases x
  · apply BitVec.eq_of_getLsbD_eq
    intro i hi
    simp only [Xlen.sext, BitVec.getLsbD_signExtend, BitVec.getLsbD_setWidth,
      BitVec.msb_eq_getLsbD_last]
    by_cases h : i < 32 <;> simp [h]
  · rfl

@[simp] theorem zext_zero (x : Xlen) : x.zext 0#64 = 0#64 := by cases x <;> rfl
@[simp] theorem sext_zero (x : Xlen) : x.sext 0#64 = 0#64 := by cases x <;> rfl

namespace Machine

/-! ## The status register -/

theorem extract2_eq_three (m : Word) (lo : Nat) :
    (m.extractLsb' lo 2 == 3#2) = (m.getLsbD lo && m.getLsbD (lo + 1)) := by
  rw [Bool.eq_iff_iff, beq_iff_eq, Bool.and_eq_true]
  constructor
  · intro h
    have h0 := congrArg (BitVec.getLsbD · 0) h
    have h1 := congrArg (BitVec.getLsbD · 1) h
    simp only [BitVec.getLsbD_extractLsb'] at h0 h1
    exact ⟨by simpa using h0, by simpa using h1⟩
  · rintro ⟨h0, h1⟩
    apply BitVec.eq_of_getLsbD_eq
    intro i hi
    have hi' : i = 0 ∨ i = 1 := by omega
    rcases hi' with rfl | rfl <;> simp [h0, h1]

/-- `FS = 3` or `XS = 3`. -/
def statusDirtyBits (m : Word) : Bool :=
  (m.getLsbD 13 && m.getLsbD 14) || (m.getLsbD 15 && m.getLsbD 16)

theorem statusSummary_eq (m : Word) : statusSummary m = setBit m 63 (statusDirtyBits m) := by
  unfold statusSummary statusDirtyBits
  rw [extract2_eq_three, extract2_eq_three]

theorem getLsbD_statusSummary (m : Word) (j : Nat) (hj : j < 64) :
    (statusSummary m).getLsbD j = if j = 63 then statusDirtyBits m else m.getLsbD j := by
  rw [statusSummary_eq, getLsbD_setBit _ _ _ _ hj]

theorem statusVM_congr {m m' : Word} (h : ∀ j, 24 ≤ j → j < 29 → m.getLsbD j = m'.getLsbD j) :
    statusVM m = statusVM m' := by
  apply BitVec.eq_of_getLsbD_eq
  intro i hi
  simp only [statusVM, BitVec.getLsbD_extractLsb', hi, decide_true, Bool.true_and]
  exact h _ (by omega) (by omega)

theorem statusDirtyBits_congr {m m' : Word}
    (h : ∀ j, 13 ≤ j → j < 17 → m.getLsbD j = m'.getLsbD j) : statusDirtyBits m = statusDirtyBits m' := by
  unfold statusDirtyBits
  rw [h 13, h 14, h 15, h 16] <;> omega

/-- A legal status register, by its bits. -/
theorem statusOk_iff (m : Word) :
    statusOk m = true ↔ m.getLsbD 63 = statusDirtyBits m ∧ vmRecognised (statusVM m) = true := by
  unfold statusOk
  rw [Bool.and_eq_true, beq_iff_eq]
  refine and_congr_left fun _ => ?_
  constructor
  · intro h
    have h63 := congrArg (BitVec.getLsbD · 63) h
    rw [getLsbD_statusSummary _ _ (by omega), if_pos rfl] at h63
    exact h63.symm
  · intro h
    apply BitVec.eq_of_getLsbD_eq
    intro i hi
    rw [getLsbD_statusSummary _ _ hi]
    split
    · next h63 => rw [h63, h]
    · rfl

/-- Only the bits of FS, XS, VM and SD matter. -/
theorem statusOk_congr {m m' : Word} (h : ∀ j, 13 ≤ j → j < 64 → m.getLsbD j = m'.getLsbD j)
    (hm : statusOk m = true) : statusOk m' = true := by
  rw [statusOk_iff] at hm ⊢
  rw [← h 63 (by omega) (by omega), ← statusVM_congr fun j h1 h2 => h j (by omega) (by omega),
    ← statusDirtyBits_congr fun j h1 h2 => h j (by omega) (by omega)]
  exact hm

/-- Storing a status value whose VM field is recognised leaves a legal register (R61, R62). -/
theorem statusOk_statusSummary {m : Word} (h : vmRecognised (statusVM m) = true) :
    statusOk (statusSummary m) = true := by
  rw [statusOk_iff]
  constructor
  · rw [getLsbD_statusSummary _ _ (by omega), if_pos rfl]
    exact statusDirtyBits_congr fun j h1 h2 => by
      rw [getLsbD_statusSummary _ _ (by omega), if_neg (by omega)]
  · rw [← h]
    congr 1
    exact statusVM_congr fun j h1 h2 => by
      rw [getLsbD_statusSummary _ _ (by omega), if_neg (by omega)]

theorem getLsbD_dirtyMask (j : Nat) (hj : j < 64) :
    (0x8000000000006000#64 : Word).getLsbD j = decide (j = 13 ∨ j = 14 ∨ j = 63) := by
  have : ∀ j : Fin 64, (0x8000000000006000#64 : Word).getLsbD j.val
      = decide (j.val = 13 ∨ j.val = 14 ∨ j.val = 63) := by decide
  exact this ⟨j, hj⟩

/-- `FS <- 3; SD <- 1`, bit by bit (R94). -/
theorem getLsbD_statusDirty (m : Word) (j : Nat) (hj : j < 64) :
    (statusDirty m).getLsbD j = (m.getLsbD j || decide (j = 13 ∨ j = 14 ∨ j = 63)) := by
  rw [statusDirty, BitVec.getLsbD_or, getLsbD_dirtyMask _ hj]

theorem statusOk_statusDirty {m : Word} (h : statusOk m = true) : statusOk (statusDirty m) = true := by
  rw [statusOk_iff] at h ⊢
  constructor
  · unfold statusDirtyBits
    rw [getLsbD_statusDirty _ 63 (by omega), getLsbD_statusDirty _ 13 (by omega),
      getLsbD_statusDirty _ 14 (by omega)]
    simp
  · rw [← h.2]
    congr 1
    exact statusVM_congr fun j h1 h2 => by
      rw [getLsbD_statusDirty _ _ (by omega)]
      have : ¬ (j = 13 ∨ j = 14 ∨ j = 63) := by omega
      simp [this]

/-- A write through a mask without the mode field keeps the mode (R63 to R65). -/
theorem vmRecognised_maskWrite {old mask w : Word} (hmask : ∀ j : Fin 5, mask.getLsbD (24 + j.val) = false)
    (h : statusOk old = true) : vmRecognised (statusVM (maskWrite old mask w)) = true := by
  rw [statusVM_congr (m' := old) fun j h1 h2 => ?_]
  · exact ((statusOk_iff _).1 h).2
  · have hj := hmask ⟨j - 24, by omega⟩
    rw [show 24 + (j - 24) = j by omega] at hj
    rw [getLsbD_maskWrite _ _ _ _ (by omega), hj]
    rfl

/-- The mode field of a stored `mstatus` value is recognised (R61). -/
theorem vmRecognised_mstatusWrite {old : Word} (w : Word) (hold : statusOk old = true) :
    vmRecognised (statusVM (mstatusWrite old w)) = true := by
  unfold mstatusWrite
  split
  · next h => exact h
  · rw [statusVM_congr (m' := old) fun j h1 h2 => by
      rw [getLsbD_putField _ _ _ _ _ (by omega) (by omega), if_pos ⟨by omega, by omega⟩,
        BitVec.getLsbD_ushiftRight]
      congr 1; omega]
    exact ((statusOk_iff _).1 hold).2

theorem num_lt (p : Priv) : p.num < 4 := by cases p <;> decide

theorem getLsbD_statusPutPrev (m : Word) (p q : Priv) (j : Nat) (hj : j < 64) (h8 : j < 8 ∨ 12 < j) :
    (statusPutPrev m p q).getLsbD j = m.getLsbD j := by
  cases p <;> simp only [statusPutPrev] <;>
    first
      | rfl
      | (rw [getLsbD_putField _ _ _ _ _ hj (by omega), if_neg (by omega)])

/-- A trap changes only bits 0 to 12 of the status register. -/
theorem getLsbD_statusTrap_high (m : Word) (cur t : Priv) (j : Nat) (h : 13 ≤ j) (hj : j < 64) :
    (statusTrap m cur t).getLsbD j = m.getLsbD j := by
  have := num_lt t
  rw [statusTrap, getLsbD_setBit _ _ _ _ hj, if_neg (by omega),
    getLsbD_statusPutPrev _ _ _ _ hj (by omega), getLsbD_setBit _ _ _ _ hj, if_neg (by omega)]

/-- A return changes only bits 0 to 12 of the status register. -/
theorem getLsbD_statusReturn_high (m : Word) (p : Priv) (j : Nat) (h : 13 ≤ j) (hj : j < 64) :
    (statusReturn m p).getLsbD j = m.getLsbD j := by
  have := num_lt p
  have := num_lt (statusPrev m p)
  rw [statusReturn, getLsbD_setBit _ _ _ _ hj, if_neg (by omega),
    getLsbD_statusPutPrev _ _ _ _ hj (by omega), getLsbD_setBit _ _ _ _ hj, if_neg (by omega)]

theorem statusOk_statusTrap {m : Word} (cur t : Priv) (h : statusOk m = true) :
    statusOk (statusTrap m cur t) = true :=
  statusOk_congr (fun j h1 h2 => (getLsbD_statusTrap_high m cur t j h1 h2).symm) h

theorem statusOk_statusReturn {m : Word} (p : Priv) (h : statusOk m = true) :
    statusOk (statusReturn m p) = true :=
  statusOk_congr (fun j h1 h2 => (getLsbD_statusReturn_high m p j h1 h2).symm) h

end Machine

end Sys2Proof
end

