-- ==== Sys2Proof/Laws/Arith.lean ====
section
/-!
SUPPORT. The operations at the running width as exact integer arithmetic: what `sext_64` of each
operation's result is, in the integers the statements use (`Xlen.S`, `Xlen.U`, `Xlen.stored`,
`Xlen.addr`).
-/

namespace Sys2Proof.Machine

variable (x : Xlen) (a b : Word)

theorem bits_pos : 0 < x.bits := by cases x <;> decide

theorem sext_eq_stored : x.sext a = x.stored a.toInt := by
  cases x
  · show (a.setWidth 32).signExtend 64 = (BitVec.ofInt 32 a.toInt).signExtend 64
    congr 1
    apply BitVec.eq_of_toInt_eq
    rw [BitVec.toInt_ofInt, BitVec.toInt_setWidth, BitVec.toInt_eq_toNat_bmod]
    rw [Int.bmod_bmod_of_dvd (by decide)]
  · show a = BitVec.ofInt 64 a.toInt
    simp

theorem sext_eq_stored_S : x.sext a = x.stored (x.S a) := by
  cases x
  · show (a.setWidth 32).signExtend 64 = (BitVec.ofInt 32 (a.setWidth 32).toInt).signExtend 64
    rw [BitVec.ofInt_toInt]
  · show a = BitVec.ofInt 64 a.toInt
    simp

theorem U_eq : x.U a = match x with
    | .w64 => a.toNat
    | .w32 => (a.setWidth 32).toNat := by
  cases x
  · simp [Xlen.U, Xlen.bits]
  · exact Nat.mod_eq_of_lt a.isLt

/-- `sext_64` of an operation at the running width, from what the operation is at each width. -/
theorem sext_lift2 {op : (n : Nat) → BitVec n → BitVec n → BitVec n} {z : Int}
    (h64 : x = .w64 → op 64 a b = BitVec.ofInt 64 z)
    (h32 : x = .w32 → op 32 (a.setWidth 32) (b.setWidth 32) = BitVec.ofInt 32 z) :
    x.sext (x.lift2 op a b) = x.stored z := by
  cases x
  · simp only [Xlen.sext, Xlen.lift2, Xlen.stored, ← h32 rfl, BitVec.setWidth_setWidth_of_le _ (show 32 ≤ 64 by decide),
      BitVec.setWidth_eq]
  · simp [Xlen.sext, Xlen.lift2, Xlen.stored, ← h64 rfl]

theorem sext_boolWord (p : Bool) : x.sext (boolWord p) = x.stored (if p = true then 1 else 0) := by
  cases x <;> cases p <;> rfl

/-- A test at the running width, from what it is at each width. -/
theorem test_eq {p : (n : Nat) → BitVec n → BitVec n → Bool} {q : Prop} [Decidable q]
    (h64 : x = .w64 → (p 64 a b = true ↔ q))
    (h32 : x = .w32 → (p 32 (a.setWidth 32) (b.setWidth 32) = true ↔ q)) :
    x.test p a b = decide q := by
  cases x
  · simp only [Xlen.test]; exact Bool.eq_iff_iff.mpr (by simpa using h32 rfl)
  · simp only [Xlen.test]; exact Bool.eq_iff_iff.mpr (by simpa using h64 rfl)

theorem sext_opAdd : x.sext (x.lift2 opAdd a b) = x.stored (x.S a + x.S b) := by
  apply sext_lift2 <;> rintro rfl <;> simp only [Xlen.S, BitVec.ofInt_add, BitVec.ofInt_toInt] <;> rfl

theorem sext_opSub : x.sext (x.lift2 opSub a b) = x.stored (x.S a - x.S b) := by
  apply sext_lift2 <;> rintro rfl <;>
    simp only [Xlen.S, opSub, Int.sub_eq_add_neg, BitVec.ofInt_add, BitVec.ofInt_neg, BitVec.ofInt_toInt,
      BitVec.sub_eq_add_neg]

theorem sext_opMul : x.sext (x.lift2 opMul a b) = x.stored (x.S a * x.S b) := by
  apply sext_lift2 <;> rintro rfl <;> simp only [Xlen.S, BitVec.ofInt_mul, BitVec.ofInt_toInt] <;> rfl

theorem sext_opAnd : x.sext (x.lift2 opAnd a b) = x.sext (a &&& b) := by
  cases x <;> simp [Xlen.sext, Xlen.lift2, opAnd, BitVec.setWidth_and]

theorem sext_opOr : x.sext (x.lift2 opOr a b) = x.sext (a ||| b) := by
  cases x <;> simp [Xlen.sext, Xlen.lift2, opOr, BitVec.setWidth_or]

theorem sext_opXor : x.sext (x.lift2 opXor a b) = x.sext (a ^^^ b) := by
  cases x <;> simp [Xlen.sext, Xlen.lift2, opXor, BitVec.setWidth_xor]

/-- A left shift is a multiplication. -/
theorem shiftLeft_eq_ofInt {n : Nat} (v : BitVec n) (k : Nat) :
    v <<< k = BitVec.ofInt n (v.toNat * 2 ^ k : Nat) := by
  apply BitVec.eq_of_toNat_eq
  rw [BitVec.ofInt_natCast]
  simp [Nat.shiftLeft_eq]

/-- A logical right shift is a division. -/
theorem ushiftRight_eq_ofInt {n : Nat} (v : BitVec n) (k : Nat) :
    v >>> k = BitVec.ofInt n (v.toNat / 2 ^ k : Nat) := by
  apply BitVec.eq_of_toNat_eq
  rw [BitVec.ofInt_natCast]
  simp only [BitVec.toNat_ushiftRight, Nat.shiftRight_eq_div_pow, BitVec.toNat_ofNat]
  exact (Nat.mod_eq_of_lt (lt_of_le_of_lt (Nat.div_le_self _ _) v.isLt)).symm

/-- An arithmetic right shift is a division rounding down. -/
theorem sshiftRight_eq_ofInt {n : Nat} (v : BitVec n) (k : Nat) :
    v.sshiftRight k = BitVec.ofInt n (v.toInt / 2 ^ k) := by
  unfold BitVec.sshiftRight
  rw [Int.shiftRight_eq_div_pow]
  norm_cast

theorem shiftAmount_eq : (match x with
    | .w64 => shiftAmount b
    | .w32 => shiftAmount (b.setWidth 32)) = b.toNat % x.bits := by
  cases x
  · simp only [shiftAmount, Xlen.bits, BitVec.toNat_setWidth]; omega
  · rfl

theorem sext_opSll : x.sext (x.lift2 opSll a b) =
    x.stored (x.U a * 2 ^ (b.toNat % x.bits) : Nat) := by
  have h := shiftAmount_eq x b
  apply sext_lift2 <;> rintro rfl <;> rw [← h, U_eq] <;> exact shiftLeft_eq_ofInt _ _

theorem sext_opSrl : x.sext (x.lift2 opSrl a b) =
    x.stored (x.U a / 2 ^ (b.toNat % x.bits) : Nat) := by
  have h := shiftAmount_eq x b
  apply sext_lift2 <;> rintro rfl <;> rw [← h, U_eq] <;> exact ushiftRight_eq_ofInt _ _

theorem sext_opSra : x.sext (x.lift2 opSra a b) = x.stored (x.S a / 2 ^ (b.toNat % x.bits)) := by
  have h := shiftAmount_eq x b
  apply sext_lift2 <;> rintro rfl <;> rw [← h] <;> exact sshiftRight_eq_ofInt _ _

theorem test_testLt : x.test testLt a b = decide (x.S a < x.S b) := by
  apply test_eq <;> rintro rfl <;> simp [testLt, Xlen.S, BitVec.slt_iff_toInt_lt]

theorem test_testLtu : x.test testLtu a b = decide (x.U a < x.U b) := by
  apply test_eq <;> rintro rfl <;> simp [testLtu, U_eq, BitVec.ult_iff_lt, BitVec.lt_def]

theorem test_testEq : x.test testEq a b = decide (x.U a = x.U b) := by
  apply test_eq <;> rintro rfl <;> simp [testEq, U_eq, ← BitVec.toNat_inj]

/-- Narrowing a sign extension is the shorter sign extension. -/
theorem setWidth_signExtend {n : Nat} (v : BitVec n) :
    (v.signExtend 64).setWidth 32 = v.signExtend 32 := by
  apply BitVec.eq_of_getLsbD_eq
  intro i hi
  simp only [BitVec.getLsbD_setWidth, BitVec.getLsbD_signExtend, hi, show i < 64 by omega, decide_true,
    Bool.true_and]

theorem S_signExtend {n : Nat} (v : BitVec n) (h : n ≤ 32) : x.S (v.signExtend 64) = v.toInt := by
  cases x
  · simp only [Xlen.S]
    rw [setWidth_signExtend v, BitVec.toInt_signExtend_of_le h]
  · simp only [Xlen.S]
    rw [BitVec.toInt_signExtend_of_le (by omega)]

theorem S_immWord (imm : BitVec 12) : x.S (immWord imm) = imm.toInt := S_signExtend x imm (by decide)

/-- The unsigned integer is the signed one modulo `2^XLEN`. -/
theorem U_eq_S_emod : (x.U a : Int) = x.S a % 2 ^ x.bits := by
  rw [U_eq]
  cases x
  · simp only [Xlen.S, Xlen.bits, BitVec.toInt_eq_toNat_bmod]
    rw [show ((2 : Int) ^ 32) = ((2 ^ 32 : Nat) : Int) by norm_num, Int.bmod_emod]
    exact (Int.emod_eq_of_lt (by omega) (by have := (a.setWidth 32).isLt; omega)).symm
  · simp only [Xlen.S, Xlen.bits, BitVec.toInt_eq_toNat_bmod]
    rw [show ((2 : Int) ^ 64) = ((2 ^ 64 : Nat) : Int) by norm_num, Int.bmod_emod]
    exact (Int.emod_eq_of_lt (by omega) (by have := a.isLt; omega)).symm

theorem U_immWord (imm : BitVec 12) : (x.U (immWord imm) : Int) = imm.toInt % 2 ^ x.bits := by
  rw [U_eq_S_emod, S_immWord]

theorem stored_congr {z w : Int} (h : z % 2 ^ x.bits = w % 2 ^ x.bits) : x.stored z = x.stored w := by
  cases x
  · show (BitVec.ofInt 32 z).signExtend 64 = (BitVec.ofInt 32 w).signExtend 64
    congr 1
    apply BitVec.eq_of_toNat_eq
    simpa [BitVec.toNat_ofInt, Xlen.bits] using congrArg Int.toNat h
  · show BitVec.ofInt 64 z = BitVec.ofInt 64 w
    apply BitVec.eq_of_toNat_eq
    simpa [BitVec.toNat_ofInt, Xlen.bits] using congrArg Int.toNat h

theorem addr_congr {z w : Int} (h : z % 2 ^ x.bits = w % 2 ^ x.bits) : x.addr z = x.addr w := by
  cases x
  · show (BitVec.ofInt 32 z).setWidth 64 = (BitVec.ofInt 32 w).setWidth 64
    congr 1
    apply BitVec.eq_of_toNat_eq
    simpa [BitVec.toNat_ofInt, Xlen.bits] using congrArg Int.toNat h
  · show BitVec.ofInt 64 z = BitVec.ofInt 64 w
    apply BitVec.eq_of_toNat_eq
    simpa [BitVec.toNat_ofInt, Xlen.bits] using congrArg Int.toNat h

theorem zext_eq_addr : x.zext a = x.addr a.toInt := by
  cases x
  · show (a.setWidth 32).setWidth 64 = (BitVec.ofInt 32 a.toInt).setWidth 64
    congr 1
    apply BitVec.eq_of_toInt_eq
    rw [BitVec.toInt_ofInt, BitVec.toInt_setWidth, BitVec.toInt_eq_toNat_bmod,
      Int.bmod_bmod_of_dvd (by decide)]
  · show a = BitVec.ofInt 64 a.toInt
    simp

theorem zext_eq_addr_toNat : x.zext a = x.addr a.toNat := by
  rw [zext_eq_addr]
  apply addr_congr
  rw [BitVec.toInt_eq_toNat_bmod]
  cases x
  · rw [Xlen.bits, show ((2 : Int) ^ 32) = ((2 ^ 32 : Nat) : Int) by norm_num, ← Int.emod_emod_of_dvd _ (show ((2 ^ 32 : Nat) : Int) ∣ ((2 ^ 64 : Nat) : Int) by decide),
      Int.bmod_emod, Int.emod_emod_of_dvd _ (by decide)]
  · rw [Xlen.bits, show ((2 : Int) ^ 64) = ((2 ^ 64 : Nat) : Int) by norm_num, Int.bmod_emod]

end Sys2Proof.Machine
end

