-- ==== Sys2Proof/Laws/Memory.lean ====
section
/-!
SUPPORT. The laws of raw memory: a read after a write, what a write leaves alone, and that every
operation keeps the canonical form. The reading laws hold of every list, canonical or not.
-/

namespace Sys2Proof.Machine

/-! ## One byte -/

theorem read_erase (m : Memory) (a b : Nat) :
    (m.erase a).read b = if b = a then Memory.unlisted else m.read b := by
  induction m with
  | nil => simp [Memory.erase, Memory.read]
  | cons e m ih =>
    obtain ⟨k, v⟩ := e
    by_cases hka : k = a
    · subst hka
      simp only [Memory.erase, if_true, ih, Memory.read]
      split <;> simp_all [eq_comm]
    · simp only [Memory.erase, if_neg hka, Memory.read, ih]
      split <;> split <;> simp_all

theorem read_insert_of_ne (m : Memory) {a b : Nat} (v : Byte) (h : b ≠ a) :
    (m.insert a v).read b = m.read b := by
  induction m with
  | nil => simp [Memory.insert, Memory.read, h.symm]
  | cons e m ih =>
    obtain ⟨k, w⟩ := e
    simp only [Memory.insert]
    split <;> simp [Memory.read, h.symm, ih]

theorem read_insert_erase (m : Memory) (a : Nat) (v : Byte) :
    ((m.erase a).insert a v).read a = v := by
  induction m with
  | nil => simp [Memory.erase, Memory.insert, Memory.read]
  | cons e m ih =>
    obtain ⟨k, w⟩ := e
    by_cases hka : k = a
    · simpa [Memory.erase, hka] using ih
    · simp only [Memory.erase, if_neg hka, Memory.insert]
      split <;> simp [Memory.read, hka, ih]

/-- A read after a write of one byte (20_memory.md R120). -/
@[simp] theorem read_write (m : Memory) (a b : Nat) (v : Byte) :
    (m.write a v).read b = if b = a then v else m.read b := by
  unfold Memory.write
  split
  · next h => rw [read_erase, h]
  · by_cases hb : b = a
    · subst hb; simp [read_insert_erase]
    · rw [read_insert_of_ne _ _ hb, read_erase]; simp [hb]

/-! ## Several bytes -/

theorem ofNat_succ_add (pa : Word) (k : Nat) :
    pa + BitVec.ofNat 64 (k + 1) = pa + 1#64 + BitVec.ofNat 64 k := by
  apply BitVec.eq_of_toNat_eq; simp; omega

/-- A write leaves every byte outside the written range alone (20_memory.md R123). -/
theorem read_writeLE_of_ne {a : Nat} :
    ∀ (n : Nat) (m : Memory) (pa v : Word),
      (∀ k, k < n → a ≠ (pa + BitVec.ofNat 64 k).toNat) → (m.writeLE pa n v).read a = m.read a
  | 0, _, _, _, _ => rfl
  | n + 1, m, pa, v, h => by
    have h0 : a ≠ pa.toNat := by simpa using h 0 (by omega)
    rw [Memory.writeLE, read_writeLE_of_ne n _ _ _ fun k hk => ?_, read_write, if_neg h0]
    rw [← ofNat_succ_add]; exact h (k + 1) (by omega)

/-- A byte of a write (20_memory.md R123, R124). -/
theorem read_writeLE_at :
    ∀ (n k : Nat) (m : Memory) (pa v : Word), k < n → n ≤ 2 ^ 64 →
      (m.writeLE pa n v).read (pa + BitVec.ofNat 64 k).toNat = (v >>> (8 * k)).setWidth 8
  | 0, k, _, _, _, h, _ => by omega
  | n + 1, 0, m, pa, v, _, hn => by
    rw [Memory.writeLE, read_writeLE_of_ne]
    · simp
    · intro k hk heq
      have := congrArg (· % 2 ^ 64) heq
      simp only [BitVec.toNat_add, BitVec.toNat_ofNat] at this
      have hp := pa.isLt
      omega
  | n + 1, k + 1, m, pa, v, h, hn => by
    rw [ofNat_succ_add, Memory.writeLE, read_writeLE_at n k _ _ _ (by omega) (by omega)]
    have : 8 * (k + 1) = 8 + 8 * k := by omega
    rw [this, BitVec.shiftRight_add]

/-- A multi-byte read is made of the bytes it reads (20_memory.md R122, R124). -/
theorem getLsbD_readLE :
    ∀ (n : Nat) (m : Memory) (pa : Word) (i : Nat), i < 64 →
      (m.readLE pa n).getLsbD i =
        (decide (i < 8 * n) && (m.read (pa + BitVec.ofNat 64 (i / 8)).toNat).getLsbD (i % 8))
  | 0, m, pa, i, _ => by simp [Memory.readLE]
  | n + 1, m, pa, i, hi => by
    rw [Memory.readLE, BitVec.getLsbD_or, BitVec.getLsbD_setWidth, BitVec.getLsbD_shiftLeft]
    by_cases h8 : i < 8
    · have : i / 8 = 0 := by omega
      have h8' : i % 8 = i := by omega
      simp [h8, hi, this, h8', show i < 8 * (n + 1) by omega]
    · have hb : (m.read pa.toNat).getLsbD i = false := BitVec.getLsbD_of_ge _ _ (by omega)
      rw [hb, getLsbD_readLE n m (pa + 1#64) (i - 8) (by omega)]
      have h1 : i / 8 = (i - 8) / 8 + 1 := by omega
      have h2 : (i - 8) % 8 = i % 8 := by omega
      rw [h1, h2, ofNat_succ_add pa ((i - 8) / 8)]
      simp only [hi, h8, decide_true, decide_false, Bool.not_false, Bool.true_and, Bool.and_false,
        Bool.false_or]
      congr 1
      rw [decide_eq_decide]; omega

/-- Two memories that agree on the bytes read give the same value. -/
theorem readLE_congr :
    ∀ (n : Nat) (m m' : Memory) (pa : Word),
      (∀ k, k < n → m.read (pa + BitVec.ofNat 64 k).toNat = m'.read (pa + BitVec.ofNat 64 k).toNat) →
      m.readLE pa n = m'.readLE pa n
  | 0, _, _, _, _ => rfl
  | n + 1, m, m', pa, h => by
    have h0 : m.read pa.toNat = m'.read pa.toNat := by simpa using h 0 (by omega)
    rw [Memory.readLE, Memory.readLE, h0, readLE_congr n m m' (pa + 1#64) fun k hk => ?_]
    rw [← ofNat_succ_add]; exact h (k + 1) (by omega)

/-- Reading back what was written gives the low `n` bytes. -/
theorem readLE_writeLE (n : Nat) (hn : n ≤ 8) (m : Memory) (pa v : Word) (i : Nat) (hi : i < 64) :
    ((m.writeLE pa n v).readLE pa n).getLsbD i = (decide (i < 8 * n) && v.getLsbD i) := by
  rw [getLsbD_readLE _ _ _ _ hi]
  by_cases h : i < 8 * n
  · rw [read_writeLE_at n (i / 8) m pa v (by omega) (by omega)]
    have : 8 * (i / 8) + i % 8 = i := by omega
    simp [h, Nat.mod_lt, this]
  · simp [h]

/-! ## The canonical form -/

theorem wfFrom_mono {lo lo' : Nat} (m : Memory) (h : lo ≤ lo') (hm : Memory.wfFrom lo' m = true) :
    Memory.wfFrom lo m = true := by
  cases m with
  | nil => rfl
  | cons e m =>
    simp only [Memory.wfFrom, Bool.and_eq_true, decide_eq_true_eq] at hm ⊢
    exact ⟨⟨⟨by omega, hm.1.1.2⟩, hm.1.2⟩, hm.2⟩

theorem wfFrom_erase {lo : Nat} (m : Memory) (a : Nat) (hm : Memory.wfFrom lo m = true) :
    Memory.wfFrom lo (m.erase a) = true := by
  induction m generalizing lo with
  | nil => rfl
  | cons e m ih =>
    obtain ⟨k, v⟩ := e
    simp only [Memory.wfFrom, Bool.and_eq_true, decide_eq_true_eq] at hm
    simp only [Memory.erase]
    split
    · exact wfFrom_mono _ (by omega) (ih hm.2)
    · simp only [Memory.wfFrom, Bool.and_eq_true, decide_eq_true_eq]
      exact ⟨hm.1, ih hm.2⟩

theorem wfFrom_insert_erase {lo a : Nat} (m : Memory) {v : Byte} (hlo : lo ≤ a) (ha : a < 2 ^ 64)
    (hv : v ≠ Memory.unlisted) (hm : Memory.wfFrom lo m = true) :
    Memory.wfFrom lo ((m.erase a).insert a v) = true := by
  induction m generalizing lo with
  | nil => simp [Memory.erase, Memory.insert, Memory.wfFrom, hlo, hv]; omega
  | cons e m ih =>
    obtain ⟨k, w⟩ := e
    simp only [Memory.wfFrom, Bool.and_eq_true, decide_eq_true_eq] at hm
    by_cases hka : k = a
    · simpa [Memory.erase, hka] using ih hlo (wfFrom_mono _ (by omega) hm.2)
    · simp only [Memory.erase, if_neg hka, Memory.insert]
      split
      · next hlt =>
        simp only [Memory.wfFrom, Bool.and_eq_true, decide_eq_true_eq, bne_iff_ne]
        exact ⟨⟨⟨hlo, ha⟩, hv⟩, ⟨⟨⟨by omega, hm.1.1.2⟩, by simpa using hm.1.2⟩,
          wfFrom_erase _ _ hm.2⟩⟩
      · simp only [Memory.wfFrom, Bool.and_eq_true, decide_eq_true_eq]
        exact ⟨hm.1, ih (by omega) hm.2⟩

/-- A write of a byte keeps the canonical form. -/
theorem wf_write {m : Memory} {a : Nat} (v : Byte) (ha : a < 2 ^ 64) (hm : m.wf = true) :
    (m.write a v).wf = true := by
  unfold Memory.write
  split
  · exact wfFrom_erase _ _ hm
  · next h => exact wfFrom_insert_erase _ (Nat.zero_le _) ha h hm

/-- A multi-byte write keeps the canonical form. -/
theorem wf_writeLE : ∀ (n : Nat) {m : Memory} (pa v : Word), m.wf = true → (m.writeLE pa n v).wf = true
  | 0, _, _, _, hm => hm
  | n + 1, _, pa, _, hm => wf_writeLE n _ _ (wf_write _ pa.isLt hm)

/-- Below the first listed address every byte is the unlisted one. -/
theorem read_below {m : Memory} {lo a : Nat} (h : Memory.wfFrom lo m = true) (ha : a < lo) : m.read
    a = Memory.unlisted := by
  induction m generalizing lo with
  | nil => rfl
  | cons e m ih =>
    obtain ⟨k, b⟩ := e
    simp only [Memory.wfFrom, Bool.and_eq_true, decide_eq_true_eq] at h
    rw [Memory.read, if_neg (by omega)]
    exact ih h.2 (by omega)

/-- In canonical form, memories that read alike are equal. -/
theorem eq_of_read_eq : ∀ (m m' : Memory) (lo : Nat), Memory.wfFrom lo m = true → Memory.wfFrom lo
    m' = true → (∀ a, a < 2 ^ 64 → m.read a = m'.read a) → m = m' := by
  intro m
  induction m with
  | nil =>
    intro m' lo h h' he
    cases m' with
    | nil => rfl
    | cons e m' =>
      obtain ⟨k, b⟩ := e
      simp only [Memory.wfFrom, Bool.and_eq_true, decide_eq_true_eq, bne_iff_ne] at h'
      have := he k h'.1.1.2
      simp only [Memory.read, if_true] at this
      exact absurd this.symm h'.1.2
  | cons e m ih =>
    intro m' lo h h' he
    obtain ⟨k, b⟩ := e
    have h0 := h
    simp only [Memory.wfFrom, Bool.and_eq_true, decide_eq_true_eq, bne_iff_ne] at h
    cases m' with
    | nil =>
      have := he k h.1.1.2
      simp only [Memory.read, if_true] at this
      exact absurd this h.1.2
    | cons e' m' =>
      obtain ⟨k', b'⟩ := e'
      have h0' := h'
      simp only [Memory.wfFrom, Bool.and_eq_true, decide_eq_true_eq, bne_iff_ne] at h'
      have hk : k = k' := by
        rcases Nat.lt_trichotomy k k' with hlt | heq | hgt
        · have h1 := he k h.1.1.2
          rw [Memory.read, if_pos rfl, Memory.read, if_neg (by omega), read_below h'.2 (by omega)] at h1
          exact absurd h1 h.1.2
        · exact heq
        · have h1 := he k' h'.1.1.2
          rw [Memory.read, if_neg (by omega), read_below h.2 (by omega), Memory.read, if_pos rfl] at h1
          exact absurd h1.symm h'.1.2
      subst hk
      have hb : b = b' := by have := he k h.1.1.2; simpa [Memory.read] using this
      subst hb
      congr 1
      refine ih m' (k+1) h.2 h'.2 fun a ha => ?_
      have := he a ha
      by_cases hka : k = a
      · subst hka; rw [read_below h.2 (by omega), read_below h'.2 (by omega)]
      · simpa [Memory.read, hka] using this

end Sys2Proof.Machine
end

