-- ==== Sys2Proof/Laws/State.lean ====
section
/-!
SUPPORT. One lemma for each field of the state and each update, true by `rfl`: no proof has to unfold
a record update.
-/

namespace Sys2Proof.Machine

section
variable (s : State) (i : RegIdx) (v : Word)
@[simp] theorem setX_hartid : (s.setX i v).core.hartid = s.core.hartid := rfl
@[simp] theorem setX_x : (s.setX i v).core.x = if i = 0#5 then s.core.x else s.core.x.set i.toNat v i.isLt := rfl
@[simp] theorem setX_f : (s.setX i v).core.f = s.core.f := rfl
@[simp] theorem setX_pc : (s.setX i v).core.pc = s.core.pc := rfl
@[simp] theorem setX_cur : (s.setX i v).core.cur = s.core.cur := rfl
@[simp] theorem setX_next : (s.setX i v).core.next = s.core.next := rfl
@[simp] theorem setX_resv : (s.setX i v).core.resv = s.core.resv := rfl
@[simp] theorem setX_tlb32 : (s.setX i v).core.tlb32 = s.core.tlb32 := rfl
@[simp] theorem setX_tlb39 : (s.setX i v).core.tlb39 = s.core.tlb39 := rfl
@[simp] theorem setX_cycles : (s.setX i v).core.cycles = s.core.cycles := rfl
@[simp] theorem setX_instret : (s.setX i v).core.instret = s.core.instret := rfl
@[simp] theorem setX_delta : (s.setX i v).core.delta = s.core.delta := rfl
@[simp] theorem setX_mstatus : (s.setX i v).core.mstatus = s.core.mstatus := rfl
@[simp] theorem setX_medeleg : (s.setX i v).core.medeleg = s.core.medeleg := rfl
@[simp] theorem setX_mideleg : (s.setX i v).core.mideleg = s.core.mideleg := rfl
@[simp] theorem setX_hedeleg : (s.setX i v).core.hedeleg = s.core.hedeleg := rfl
@[simp] theorem setX_hideleg : (s.setX i v).core.hideleg = s.core.hideleg := rfl
@[simp] theorem setX_sedeleg : (s.setX i v).core.sedeleg = s.core.sedeleg := rfl
@[simp] theorem setX_sideleg : (s.setX i v).core.sideleg = s.core.sideleg := rfl
@[simp] theorem setX_mie : (s.setX i v).core.mie = s.core.mie := rfl
@[simp] theorem setX_mip : (s.setX i v).core.mip = s.core.mip := rfl
@[simp] theorem setX_mBank : (s.setX i v).core.mBank = s.core.mBank := rfl
@[simp] theorem setX_hBank : (s.setX i v).core.hBank = s.core.hBank := rfl
@[simp] theorem setX_sBank : (s.setX i v).core.sBank = s.core.sBank := rfl
@[simp] theorem setX_uBank : (s.setX i v).core.uBank = s.core.uBank := rfl
@[simp] theorem setX_sptbr : (s.setX i v).core.sptbr = s.core.sptbr := rfl
@[simp] theorem setX_mucounteren : (s.setX i v).core.mucounteren = s.core.mucounteren := rfl
@[simp] theorem setX_mscounteren : (s.setX i v).core.mscounteren = s.core.mscounteren := rfl
@[simp] theorem setX_mhcounteren : (s.setX i v).core.mhcounteren = s.core.mhcounteren := rfl
@[simp] theorem setX_fcsr : (s.setX i v).core.fcsr = s.core.fcsr := rfl
@[simp] theorem setX_parked : (s.setX i v).parked = s.parked := rfl
@[simp] theorem setX_mem : (s.setX i v).mem = s.mem := rfl
@[simp] theorem setX_clock : (s.setX i v).clock = s.clock := rfl
@[simp] theorem setX_halted : (s.setX i v).halted = s.halted := rfl
@[simp] theorem setX_fatal : (s.setX i v).fatal = s.fatal := rfl
@[simp] theorem setX_params : (s.setX i v).params = s.params := rfl
@[simp] theorem setX_inputs : (s.setX i v).inputs = s.inputs := rfl
@[simp] theorem setX_xlen : (s.setX i v).xlen = s.xlen := rfl
@[simp] theorem setX_misa : (s.setX i v).misa = s.misa := rfl
@[simp] theorem setX_getF (r : RegIdx) : (s.setX i v).getF r = s.getF r := rfl
end

section
variable (s : State) (i : RegIdx) (v : Word)
@[simp] theorem setF_hartid : (s.setF i v).core.hartid = s.core.hartid := rfl
@[simp] theorem setF_x : (s.setF i v).core.x = s.core.x := rfl
@[simp] theorem setF_f : (s.setF i v).core.f = s.core.f.set i.toNat v i.isLt := rfl
@[simp] theorem setF_pc : (s.setF i v).core.pc = s.core.pc := rfl
@[simp] theorem setF_cur : (s.setF i v).core.cur = s.core.cur := rfl
@[simp] theorem setF_next : (s.setF i v).core.next = s.core.next := rfl
@[simp] theorem setF_resv : (s.setF i v).core.resv = s.core.resv := rfl
@[simp] theorem setF_tlb32 : (s.setF i v).core.tlb32 = s.core.tlb32 := rfl
@[simp] theorem setF_tlb39 : (s.setF i v).core.tlb39 = s.core.tlb39 := rfl
@[simp] theorem setF_cycles : (s.setF i v).core.cycles = s.core.cycles := rfl
@[simp] theorem setF_instret : (s.setF i v).core.instret = s.core.instret := rfl
@[simp] theorem setF_delta : (s.setF i v).core.delta = s.core.delta := rfl
@[simp] theorem setF_mstatus : (s.setF i v).core.mstatus = s.core.mstatus := rfl
@[simp] theorem setF_medeleg : (s.setF i v).core.medeleg = s.core.medeleg := rfl
@[simp] theorem setF_mideleg : (s.setF i v).core.mideleg = s.core.mideleg := rfl
@[simp] theorem setF_hedeleg : (s.setF i v).core.hedeleg = s.core.hedeleg := rfl
@[simp] theorem setF_hideleg : (s.setF i v).core.hideleg = s.core.hideleg := rfl
@[simp] theorem setF_sedeleg : (s.setF i v).core.sedeleg = s.core.sedeleg := rfl
@[simp] theorem setF_sideleg : (s.setF i v).core.sideleg = s.core.sideleg := rfl
@[simp] theorem setF_mie : (s.setF i v).core.mie = s.core.mie := rfl
@[simp] theorem setF_mip : (s.setF i v).core.mip = s.core.mip := rfl
@[simp] theorem setF_mBank : (s.setF i v).core.mBank = s.core.mBank := rfl
@[simp] theorem setF_hBank : (s.setF i v).core.hBank = s.core.hBank := rfl
@[simp] theorem setF_sBank : (s.setF i v).core.sBank = s.core.sBank := rfl
@[simp] theorem setF_uBank : (s.setF i v).core.uBank = s.core.uBank := rfl
@[simp] theorem setF_sptbr : (s.setF i v).core.sptbr = s.core.sptbr := rfl
@[simp] theorem setF_mucounteren : (s.setF i v).core.mucounteren = s.core.mucounteren := rfl
@[simp] theorem setF_mscounteren : (s.setF i v).core.mscounteren = s.core.mscounteren := rfl
@[simp] theorem setF_mhcounteren : (s.setF i v).core.mhcounteren = s.core.mhcounteren := rfl
@[simp] theorem setF_fcsr : (s.setF i v).core.fcsr = s.core.fcsr := rfl
@[simp] theorem setF_parked : (s.setF i v).parked = s.parked := rfl
@[simp] theorem setF_mem : (s.setF i v).mem = s.mem := rfl
@[simp] theorem setF_clock : (s.setF i v).clock = s.clock := rfl
@[simp] theorem setF_halted : (s.setF i v).halted = s.halted := rfl
@[simp] theorem setF_fatal : (s.setF i v).fatal = s.fatal := rfl
@[simp] theorem setF_params : (s.setF i v).params = s.params := rfl
@[simp] theorem setF_inputs : (s.setF i v).inputs = s.inputs := rfl
@[simp] theorem setF_xlen : (s.setF i v).xlen = s.xlen := rfl
@[simp] theorem setF_misa : (s.setF i v).misa = s.misa := rfl
@[simp] theorem setF_getX (r : RegIdx) : (s.setF i v).getX r = s.getX r := rfl
end

section
variable (s : State) (v : Word)
@[simp] theorem recAddr_hartid : (s.recAddr v).core.hartid = s.core.hartid := rfl
@[simp] theorem recAddr_x : (s.recAddr v).core.x = s.core.x := rfl
@[simp] theorem recAddr_f : (s.recAddr v).core.f = s.core.f := rfl
@[simp] theorem recAddr_pc : (s.recAddr v).core.pc = s.core.pc := rfl
@[simp] theorem recAddr_cur : (s.recAddr v).core.cur = s.core.cur := rfl
@[simp] theorem recAddr_next : (s.recAddr v).core.next = s.core.next := rfl
@[simp] theorem recAddr_resv : (s.recAddr v).core.resv = s.core.resv := rfl
@[simp] theorem recAddr_tlb32 : (s.recAddr v).core.tlb32 = s.core.tlb32 := rfl
@[simp] theorem recAddr_tlb39 : (s.recAddr v).core.tlb39 = s.core.tlb39 := rfl
@[simp] theorem recAddr_cycles : (s.recAddr v).core.cycles = s.core.cycles := rfl
@[simp] theorem recAddr_instret : (s.recAddr v).core.instret = s.core.instret := rfl
@[simp] theorem recAddr_delta : (s.recAddr v).core.delta = { s.core.delta with addr := some v } := rfl
@[simp] theorem recAddr_mstatus : (s.recAddr v).core.mstatus = s.core.mstatus := rfl
@[simp] theorem recAddr_medeleg : (s.recAddr v).core.medeleg = s.core.medeleg := rfl
@[simp] theorem recAddr_mideleg : (s.recAddr v).core.mideleg = s.core.mideleg := rfl
@[simp] theorem recAddr_hedeleg : (s.recAddr v).core.hedeleg = s.core.hedeleg := rfl
@[simp] theorem recAddr_hideleg : (s.recAddr v).core.hideleg = s.core.hideleg := rfl
@[simp] theorem recAddr_sedeleg : (s.recAddr v).core.sedeleg = s.core.sedeleg := rfl
@[simp] theorem recAddr_sideleg : (s.recAddr v).core.sideleg = s.core.sideleg := rfl
@[simp] theorem recAddr_mie : (s.recAddr v).core.mie = s.core.mie := rfl
@[simp] theorem recAddr_mip : (s.recAddr v).core.mip = s.core.mip := rfl
@[simp] theorem recAddr_mBank : (s.recAddr v).core.mBank = s.core.mBank := rfl
@[simp] theorem recAddr_hBank : (s.recAddr v).core.hBank = s.core.hBank := rfl
@[simp] theorem recAddr_sBank : (s.recAddr v).core.sBank = s.core.sBank := rfl
@[simp] theorem recAddr_uBank : (s.recAddr v).core.uBank = s.core.uBank := rfl
@[simp] theorem recAddr_sptbr : (s.recAddr v).core.sptbr = s.core.sptbr := rfl
@[simp] theorem recAddr_mucounteren : (s.recAddr v).core.mucounteren = s.core.mucounteren := rfl
@[simp] theorem recAddr_mscounteren : (s.recAddr v).core.mscounteren = s.core.mscounteren := rfl
@[simp] theorem recAddr_mhcounteren : (s.recAddr v).core.mhcounteren = s.core.mhcounteren := rfl
@[simp] theorem recAddr_fcsr : (s.recAddr v).core.fcsr = s.core.fcsr := rfl
@[simp] theorem recAddr_parked : (s.recAddr v).parked = s.parked := rfl
@[simp] theorem recAddr_mem : (s.recAddr v).mem = s.mem := rfl
@[simp] theorem recAddr_clock : (s.recAddr v).clock = s.clock := rfl
@[simp] theorem recAddr_halted : (s.recAddr v).halted = s.halted := rfl
@[simp] theorem recAddr_fatal : (s.recAddr v).fatal = s.fatal := rfl
@[simp] theorem recAddr_params : (s.recAddr v).params = s.params := rfl
@[simp] theorem recAddr_inputs : (s.recAddr v).inputs = s.inputs := rfl
@[simp] theorem recAddr_xlen : (s.recAddr v).xlen = s.xlen := rfl
@[simp] theorem recAddr_misa : (s.recAddr v).misa = s.misa := rfl
@[simp] theorem recAddr_getX (r : RegIdx) : (s.recAddr v).getX r = s.getX r := rfl
@[simp] theorem recAddr_getF (r : RegIdx) : (s.recAddr v).getF r = s.getF r := rfl
end

section
variable (s : State) (v : Word)
@[simp] theorem recData1_hartid : (s.recData1 v).core.hartid = s.core.hartid := rfl
@[simp] theorem recData1_x : (s.recData1 v).core.x = s.core.x := rfl
@[simp] theorem recData1_f : (s.recData1 v).core.f = s.core.f := rfl
@[simp] theorem recData1_pc : (s.recData1 v).core.pc = s.core.pc := rfl
@[simp] theorem recData1_cur : (s.recData1 v).core.cur = s.core.cur := rfl
@[simp] theorem recData1_next : (s.recData1 v).core.next = s.core.next := rfl
@[simp] theorem recData1_resv : (s.recData1 v).core.resv = s.core.resv := rfl
@[simp] theorem recData1_tlb32 : (s.recData1 v).core.tlb32 = s.core.tlb32 := rfl
@[simp] theorem recData1_tlb39 : (s.recData1 v).core.tlb39 = s.core.tlb39 := rfl
@[simp] theorem recData1_cycles : (s.recData1 v).core.cycles = s.core.cycles := rfl
@[simp] theorem recData1_instret : (s.recData1 v).core.instret = s.core.instret := rfl
@[simp] theorem recData1_delta : (s.recData1 v).core.delta = { s.core.delta with data1 := some v } := rfl
@[simp] theorem recData1_mstatus : (s.recData1 v).core.mstatus = s.core.mstatus := rfl
@[simp] theorem recData1_medeleg : (s.recData1 v).core.medeleg = s.core.medeleg := rfl
@[simp] theorem recData1_mideleg : (s.recData1 v).core.mideleg = s.core.mideleg := rfl
@[simp] theorem recData1_hedeleg : (s.recData1 v).core.hedeleg = s.core.hedeleg := rfl
@[simp] theorem recData1_hideleg : (s.recData1 v).core.hideleg = s.core.hideleg := rfl
@[simp] theorem recData1_sedeleg : (s.recData1 v).core.sedeleg = s.core.sedeleg := rfl
@[simp] theorem recData1_sideleg : (s.recData1 v).core.sideleg = s.core.sideleg := rfl
@[simp] theorem recData1_mie : (s.recData1 v).core.mie = s.core.mie := rfl
@[simp] theorem recData1_mip : (s.recData1 v).core.mip = s.core.mip := rfl
@[simp] theorem recData1_mBank : (s.recData1 v).core.mBank = s.core.mBank := rfl
@[simp] theorem recData1_hBank : (s.recData1 v).core.hBank = s.core.hBank := rfl
@[simp] theorem recData1_sBank : (s.recData1 v).core.sBank = s.core.sBank := rfl
@[simp] theorem recData1_uBank : (s.recData1 v).core.uBank = s.core.uBank := rfl
@[simp] theorem recData1_sptbr : (s.recData1 v).core.sptbr = s.core.sptbr := rfl
@[simp] theorem recData1_mucounteren : (s.recData1 v).core.mucounteren = s.core.mucounteren := rfl
@[simp] theorem recData1_mscounteren : (s.recData1 v).core.mscounteren = s.core.mscounteren := rfl
@[simp] theorem recData1_mhcounteren : (s.recData1 v).core.mhcounteren = s.core.mhcounteren := rfl
@[simp] theorem recData1_fcsr : (s.recData1 v).core.fcsr = s.core.fcsr := rfl
@[simp] theorem recData1_parked : (s.recData1 v).parked = s.parked := rfl
@[simp] theorem recData1_mem : (s.recData1 v).mem = s.mem := rfl
@[simp] theorem recData1_clock : (s.recData1 v).clock = s.clock := rfl
@[simp] theorem recData1_halted : (s.recData1 v).halted = s.halted := rfl
@[simp] theorem recData1_fatal : (s.recData1 v).fatal = s.fatal := rfl
@[simp] theorem recData1_params : (s.recData1 v).params = s.params := rfl
@[simp] theorem recData1_inputs : (s.recData1 v).inputs = s.inputs := rfl
@[simp] theorem recData1_xlen : (s.recData1 v).xlen = s.xlen := rfl
@[simp] theorem recData1_misa : (s.recData1 v).misa = s.misa := rfl
@[simp] theorem recData1_getX (r : RegIdx) : (s.recData1 v).getX r = s.getX r := rfl
@[simp] theorem recData1_getF (r : RegIdx) : (s.recData1 v).getF r = s.getF r := rfl
end

section
variable (s : State) (v : Word)
@[simp] theorem recData2_hartid : (s.recData2 v).core.hartid = s.core.hartid := rfl
@[simp] theorem recData2_x : (s.recData2 v).core.x = s.core.x := rfl
@[simp] theorem recData2_f : (s.recData2 v).core.f = s.core.f := rfl
@[simp] theorem recData2_pc : (s.recData2 v).core.pc = s.core.pc := rfl
@[simp] theorem recData2_cur : (s.recData2 v).core.cur = s.core.cur := rfl
@[simp] theorem recData2_next : (s.recData2 v).core.next = s.core.next := rfl
@[simp] theorem recData2_resv : (s.recData2 v).core.resv = s.core.resv := rfl
@[simp] theorem recData2_tlb32 : (s.recData2 v).core.tlb32 = s.core.tlb32 := rfl
@[simp] theorem recData2_tlb39 : (s.recData2 v).core.tlb39 = s.core.tlb39 := rfl
@[simp] theorem recData2_cycles : (s.recData2 v).core.cycles = s.core.cycles := rfl
@[simp] theorem recData2_instret : (s.recData2 v).core.instret = s.core.instret := rfl
@[simp] theorem recData2_delta : (s.recData2 v).core.delta = { s.core.delta with data2 := some v } := rfl
@[simp] theorem recData2_mstatus : (s.recData2 v).core.mstatus = s.core.mstatus := rfl
@[simp] theorem recData2_medeleg : (s.recData2 v).core.medeleg = s.core.medeleg := rfl
@[simp] theorem recData2_mideleg : (s.recData2 v).core.mideleg = s.core.mideleg := rfl
@[simp] theorem recData2_hedeleg : (s.recData2 v).core.hedeleg = s.core.hedeleg := rfl
@[simp] theorem recData2_hideleg : (s.recData2 v).core.hideleg = s.core.hideleg := rfl
@[simp] theorem recData2_sedeleg : (s.recData2 v).core.sedeleg = s.core.sedeleg := rfl
@[simp] theorem recData2_sideleg : (s.recData2 v).core.sideleg = s.core.sideleg := rfl
@[simp] theorem recData2_mie : (s.recData2 v).core.mie = s.core.mie := rfl
@[simp] theorem recData2_mip : (s.recData2 v).core.mip = s.core.mip := rfl
@[simp] theorem recData2_mBank : (s.recData2 v).core.mBank = s.core.mBank := rfl
@[simp] theorem recData2_hBank : (s.recData2 v).core.hBank = s.core.hBank := rfl
@[simp] theorem recData2_sBank : (s.recData2 v).core.sBank = s.core.sBank := rfl
@[simp] theorem recData2_uBank : (s.recData2 v).core.uBank = s.core.uBank := rfl
@[simp] theorem recData2_sptbr : (s.recData2 v).core.sptbr = s.core.sptbr := rfl
@[simp] theorem recData2_mucounteren : (s.recData2 v).core.mucounteren = s.core.mucounteren := rfl
@[simp] theorem recData2_mscounteren : (s.recData2 v).core.mscounteren = s.core.mscounteren := rfl
@[simp] theorem recData2_mhcounteren : (s.recData2 v).core.mhcounteren = s.core.mhcounteren := rfl
@[simp] theorem recData2_fcsr : (s.recData2 v).core.fcsr = s.core.fcsr := rfl
@[simp] theorem recData2_parked : (s.recData2 v).parked = s.parked := rfl
@[simp] theorem recData2_mem : (s.recData2 v).mem = s.mem := rfl
@[simp] theorem recData2_clock : (s.recData2 v).clock = s.clock := rfl
@[simp] theorem recData2_halted : (s.recData2 v).halted = s.halted := rfl
@[simp] theorem recData2_fatal : (s.recData2 v).fatal = s.fatal := rfl
@[simp] theorem recData2_params : (s.recData2 v).params = s.params := rfl
@[simp] theorem recData2_inputs : (s.recData2 v).inputs = s.inputs := rfl
@[simp] theorem recData2_xlen : (s.recData2 v).xlen = s.xlen := rfl
@[simp] theorem recData2_misa : (s.recData2 v).misa = s.misa := rfl
@[simp] theorem recData2_getX (r : RegIdx) : (s.recData2 v).getX r = s.getX r := rfl
@[simp] theorem recData2_getF (r : RegIdx) : (s.recData2 v).getF r = s.getF r := rfl
end

section
variable (s : State) (v : Word)
@[simp] theorem recFp_hartid : (s.recFp v).core.hartid = s.core.hartid := rfl
@[simp] theorem recFp_x : (s.recFp v).core.x = s.core.x := rfl
@[simp] theorem recFp_f : (s.recFp v).core.f = s.core.f := rfl
@[simp] theorem recFp_pc : (s.recFp v).core.pc = s.core.pc := rfl
@[simp] theorem recFp_cur : (s.recFp v).core.cur = s.core.cur := rfl
@[simp] theorem recFp_next : (s.recFp v).core.next = s.core.next := rfl
@[simp] theorem recFp_resv : (s.recFp v).core.resv = s.core.resv := rfl
@[simp] theorem recFp_tlb32 : (s.recFp v).core.tlb32 = s.core.tlb32 := rfl
@[simp] theorem recFp_tlb39 : (s.recFp v).core.tlb39 = s.core.tlb39 := rfl
@[simp] theorem recFp_cycles : (s.recFp v).core.cycles = s.core.cycles := rfl
@[simp] theorem recFp_instret : (s.recFp v).core.instret = s.core.instret := rfl
@[simp] theorem recFp_delta : (s.recFp v).core.delta = { s.core.delta with fpData := some v } := rfl
@[simp] theorem recFp_mstatus : (s.recFp v).core.mstatus = s.core.mstatus := rfl
@[simp] theorem recFp_medeleg : (s.recFp v).core.medeleg = s.core.medeleg := rfl
@[simp] theorem recFp_mideleg : (s.recFp v).core.mideleg = s.core.mideleg := rfl
@[simp] theorem recFp_hedeleg : (s.recFp v).core.hedeleg = s.core.hedeleg := rfl
@[simp] theorem recFp_hideleg : (s.recFp v).core.hideleg = s.core.hideleg := rfl
@[simp] theorem recFp_sedeleg : (s.recFp v).core.sedeleg = s.core.sedeleg := rfl
@[simp] theorem recFp_sideleg : (s.recFp v).core.sideleg = s.core.sideleg := rfl
@[simp] theorem recFp_mie : (s.recFp v).core.mie = s.core.mie := rfl
@[simp] theorem recFp_mip : (s.recFp v).core.mip = s.core.mip := rfl
@[simp] theorem recFp_mBank : (s.recFp v).core.mBank = s.core.mBank := rfl
@[simp] theorem recFp_hBank : (s.recFp v).core.hBank = s.core.hBank := rfl
@[simp] theorem recFp_sBank : (s.recFp v).core.sBank = s.core.sBank := rfl
@[simp] theorem recFp_uBank : (s.recFp v).core.uBank = s.core.uBank := rfl
@[simp] theorem recFp_sptbr : (s.recFp v).core.sptbr = s.core.sptbr := rfl
@[simp] theorem recFp_mucounteren : (s.recFp v).core.mucounteren = s.core.mucounteren := rfl
@[simp] theorem recFp_mscounteren : (s.recFp v).core.mscounteren = s.core.mscounteren := rfl
@[simp] theorem recFp_mhcounteren : (s.recFp v).core.mhcounteren = s.core.mhcounteren := rfl
@[simp] theorem recFp_fcsr : (s.recFp v).core.fcsr = s.core.fcsr := rfl
@[simp] theorem recFp_parked : (s.recFp v).parked = s.parked := rfl
@[simp] theorem recFp_mem : (s.recFp v).mem = s.mem := rfl
@[simp] theorem recFp_clock : (s.recFp v).clock = s.clock := rfl
@[simp] theorem recFp_halted : (s.recFp v).halted = s.halted := rfl
@[simp] theorem recFp_fatal : (s.recFp v).fatal = s.fatal := rfl
@[simp] theorem recFp_params : (s.recFp v).params = s.params := rfl
@[simp] theorem recFp_inputs : (s.recFp v).inputs = s.inputs := rfl
@[simp] theorem recFp_xlen : (s.recFp v).xlen = s.xlen := rfl
@[simp] theorem recFp_misa : (s.recFp v).misa = s.misa := rfl
@[simp] theorem recFp_getX (r : RegIdx) : (s.recFp v).getX r = s.getX r := rfl
@[simp] theorem recFp_getF (r : RegIdx) : (s.recFp v).getF r = s.getF r := rfl
end

section
variable (s : State) (w : BitVec 32)
@[simp] theorem recRinstr_hartid : (s.recRinstr w).core.hartid = s.core.hartid := rfl
@[simp] theorem recRinstr_x : (s.recRinstr w).core.x = s.core.x := rfl
@[simp] theorem recRinstr_f : (s.recRinstr w).core.f = s.core.f := rfl
@[simp] theorem recRinstr_pc : (s.recRinstr w).core.pc = s.core.pc := rfl
@[simp] theorem recRinstr_cur : (s.recRinstr w).core.cur = s.core.cur := rfl
@[simp] theorem recRinstr_next : (s.recRinstr w).core.next = s.core.next := rfl
@[simp] theorem recRinstr_resv : (s.recRinstr w).core.resv = s.core.resv := rfl
@[simp] theorem recRinstr_tlb32 : (s.recRinstr w).core.tlb32 = s.core.tlb32 := rfl
@[simp] theorem recRinstr_tlb39 : (s.recRinstr w).core.tlb39 = s.core.tlb39 := rfl
@[simp] theorem recRinstr_cycles : (s.recRinstr w).core.cycles = s.core.cycles := rfl
@[simp] theorem recRinstr_instret : (s.recRinstr w).core.instret = s.core.instret := rfl
@[simp] theorem recRinstr_delta : (s.recRinstr w).core.delta = { s.core.delta with rinstr := w } := rfl
@[simp] theorem recRinstr_mstatus : (s.recRinstr w).core.mstatus = s.core.mstatus := rfl
@[simp] theorem recRinstr_medeleg : (s.recRinstr w).core.medeleg = s.core.medeleg := rfl
@[simp] theorem recRinstr_mideleg : (s.recRinstr w).core.mideleg = s.core.mideleg := rfl
@[simp] theorem recRinstr_hedeleg : (s.recRinstr w).core.hedeleg = s.core.hedeleg := rfl
@[simp] theorem recRinstr_hideleg : (s.recRinstr w).core.hideleg = s.core.hideleg := rfl
@[simp] theorem recRinstr_sedeleg : (s.recRinstr w).core.sedeleg = s.core.sedeleg := rfl
@[simp] theorem recRinstr_sideleg : (s.recRinstr w).core.sideleg = s.core.sideleg := rfl
@[simp] theorem recRinstr_mie : (s.recRinstr w).core.mie = s.core.mie := rfl
@[simp] theorem recRinstr_mip : (s.recRinstr w).core.mip = s.core.mip := rfl
@[simp] theorem recRinstr_mBank : (s.recRinstr w).core.mBank = s.core.mBank := rfl
@[simp] theorem recRinstr_hBank : (s.recRinstr w).core.hBank = s.core.hBank := rfl
@[simp] theorem recRinstr_sBank : (s.recRinstr w).core.sBank = s.core.sBank := rfl
@[simp] theorem recRinstr_uBank : (s.recRinstr w).core.uBank = s.core.uBank := rfl
@[simp] theorem recRinstr_sptbr : (s.recRinstr w).core.sptbr = s.core.sptbr := rfl
@[simp] theorem recRinstr_mucounteren : (s.recRinstr w).core.mucounteren = s.core.mucounteren := rfl
@[simp] theorem recRinstr_mscounteren : (s.recRinstr w).core.mscounteren = s.core.mscounteren := rfl
@[simp] theorem recRinstr_mhcounteren : (s.recRinstr w).core.mhcounteren = s.core.mhcounteren := rfl
@[simp] theorem recRinstr_fcsr : (s.recRinstr w).core.fcsr = s.core.fcsr := rfl
@[simp] theorem recRinstr_parked : (s.recRinstr w).parked = s.parked := rfl
@[simp] theorem recRinstr_mem : (s.recRinstr w).mem = s.mem := rfl
@[simp] theorem recRinstr_clock : (s.recRinstr w).clock = s.clock := rfl
@[simp] theorem recRinstr_halted : (s.recRinstr w).halted = s.halted := rfl
@[simp] theorem recRinstr_fatal : (s.recRinstr w).fatal = s.fatal := rfl
@[simp] theorem recRinstr_params : (s.recRinstr w).params = s.params := rfl
@[simp] theorem recRinstr_inputs : (s.recRinstr w).inputs = s.inputs := rfl
@[simp] theorem recRinstr_xlen : (s.recRinstr w).xlen = s.xlen := rfl
@[simp] theorem recRinstr_misa : (s.recRinstr w).misa = s.misa := rfl
@[simp] theorem recRinstr_getX (r : RegIdx) : (s.recRinstr w).getX r = s.getX r := rfl
@[simp] theorem recRinstr_getF (r : RegIdx) : (s.recRinstr w).getF r = s.getF r := rfl
end

section
variable (s : State)
@[simp] theorem recFetchExc_hartid : (s.recFetchExc).core.hartid = s.core.hartid := rfl
@[simp] theorem recFetchExc_x : (s.recFetchExc).core.x = s.core.x := rfl
@[simp] theorem recFetchExc_f : (s.recFetchExc).core.f = s.core.f := rfl
@[simp] theorem recFetchExc_pc : (s.recFetchExc).core.pc = s.core.pc := rfl
@[simp] theorem recFetchExc_cur : (s.recFetchExc).core.cur = s.core.cur := rfl
@[simp] theorem recFetchExc_next : (s.recFetchExc).core.next = s.core.next := rfl
@[simp] theorem recFetchExc_resv : (s.recFetchExc).core.resv = s.core.resv := rfl
@[simp] theorem recFetchExc_tlb32 : (s.recFetchExc).core.tlb32 = s.core.tlb32 := rfl
@[simp] theorem recFetchExc_tlb39 : (s.recFetchExc).core.tlb39 = s.core.tlb39 := rfl
@[simp] theorem recFetchExc_cycles : (s.recFetchExc).core.cycles = s.core.cycles := rfl
@[simp] theorem recFetchExc_instret : (s.recFetchExc).core.instret = s.core.instret := rfl
@[simp] theorem recFetchExc_delta : (s.recFetchExc).core.delta = { s.core.delta with fetchExc := true } := rfl
@[simp] theorem recFetchExc_mstatus : (s.recFetchExc).core.mstatus = s.core.mstatus := rfl
@[simp] theorem recFetchExc_medeleg : (s.recFetchExc).core.medeleg = s.core.medeleg := rfl
@[simp] theorem recFetchExc_mideleg : (s.recFetchExc).core.mideleg = s.core.mideleg := rfl
@[simp] theorem recFetchExc_hedeleg : (s.recFetchExc).core.hedeleg = s.core.hedeleg := rfl
@[simp] theorem recFetchExc_hideleg : (s.recFetchExc).core.hideleg = s.core.hideleg := rfl
@[simp] theorem recFetchExc_sedeleg : (s.recFetchExc).core.sedeleg = s.core.sedeleg := rfl
@[simp] theorem recFetchExc_sideleg : (s.recFetchExc).core.sideleg = s.core.sideleg := rfl
@[simp] theorem recFetchExc_mie : (s.recFetchExc).core.mie = s.core.mie := rfl
@[simp] theorem recFetchExc_mip : (s.recFetchExc).core.mip = s.core.mip := rfl
@[simp] theorem recFetchExc_mBank : (s.recFetchExc).core.mBank = s.core.mBank := rfl
@[simp] theorem recFetchExc_hBank : (s.recFetchExc).core.hBank = s.core.hBank := rfl
@[simp] theorem recFetchExc_sBank : (s.recFetchExc).core.sBank = s.core.sBank := rfl
@[simp] theorem recFetchExc_uBank : (s.recFetchExc).core.uBank = s.core.uBank := rfl
@[simp] theorem recFetchExc_sptbr : (s.recFetchExc).core.sptbr = s.core.sptbr := rfl
@[simp] theorem recFetchExc_mucounteren : (s.recFetchExc).core.mucounteren = s.core.mucounteren := rfl
@[simp] theorem recFetchExc_mscounteren : (s.recFetchExc).core.mscounteren = s.core.mscounteren := rfl
@[simp] theorem recFetchExc_mhcounteren : (s.recFetchExc).core.mhcounteren = s.core.mhcounteren := rfl
@[simp] theorem recFetchExc_fcsr : (s.recFetchExc).core.fcsr = s.core.fcsr := rfl
@[simp] theorem recFetchExc_parked : (s.recFetchExc).parked = s.parked := rfl
@[simp] theorem recFetchExc_mem : (s.recFetchExc).mem = s.mem := rfl
@[simp] theorem recFetchExc_clock : (s.recFetchExc).clock = s.clock := rfl
@[simp] theorem recFetchExc_halted : (s.recFetchExc).halted = s.halted := rfl
@[simp] theorem recFetchExc_fatal : (s.recFetchExc).fatal = s.fatal := rfl
@[simp] theorem recFetchExc_params : (s.recFetchExc).params = s.params := rfl
@[simp] theorem recFetchExc_inputs : (s.recFetchExc).inputs = s.inputs := rfl
@[simp] theorem recFetchExc_xlen : (s.recFetchExc).xlen = s.xlen := rfl
@[simp] theorem recFetchExc_misa : (s.recFetchExc).misa = s.misa := rfl
@[simp] theorem recFetchExc_getX (r : RegIdx) : (s.recFetchExc).getX r = s.getX r := rfl
@[simp] theorem recFetchExc_getF (r : RegIdx) : (s.recFetchExc).getF r = s.getF r := rfl
end

section
variable (s : State) (c : BitVec 4) (b : Option Word)
@[simp] theorem raise_hartid : (s.raise c b).core.hartid = s.core.hartid := rfl
@[simp] theorem raise_x : (s.raise c b).core.x = s.core.x := rfl
@[simp] theorem raise_f : (s.raise c b).core.f = s.core.f := rfl
@[simp] theorem raise_pc : (s.raise c b).core.pc = s.core.pc := rfl
@[simp] theorem raise_cur : (s.raise c b).core.cur = s.core.cur := rfl
@[simp] theorem raise_next : (s.raise c b).core.next = .trap c b := rfl
@[simp] theorem raise_resv : (s.raise c b).core.resv = s.core.resv := rfl
@[simp] theorem raise_tlb32 : (s.raise c b).core.tlb32 = s.core.tlb32 := rfl
@[simp] theorem raise_tlb39 : (s.raise c b).core.tlb39 = s.core.tlb39 := rfl
@[simp] theorem raise_cycles : (s.raise c b).core.cycles = s.core.cycles := rfl
@[simp] theorem raise_instret : (s.raise c b).core.instret = s.core.instret := rfl
@[simp] theorem raise_delta : (s.raise c b).core.delta = { s.core.delta with excTaken := true, addr := b.or s.core.delta.addr } := rfl
@[simp] theorem raise_mstatus : (s.raise c b).core.mstatus = s.core.mstatus := rfl
@[simp] theorem raise_medeleg : (s.raise c b).core.medeleg = s.core.medeleg := rfl
@[simp] theorem raise_mideleg : (s.raise c b).core.mideleg = s.core.mideleg := rfl
@[simp] theorem raise_hedeleg : (s.raise c b).core.hedeleg = s.core.hedeleg := rfl
@[simp] theorem raise_hideleg : (s.raise c b).core.hideleg = s.core.hideleg := rfl
@[simp] theorem raise_sedeleg : (s.raise c b).core.sedeleg = s.core.sedeleg := rfl
@[simp] theorem raise_sideleg : (s.raise c b).core.sideleg = s.core.sideleg := rfl
@[simp] theorem raise_mie : (s.raise c b).core.mie = s.core.mie := rfl
@[simp] theorem raise_mip : (s.raise c b).core.mip = s.core.mip := rfl
@[simp] theorem raise_mBank : (s.raise c b).core.mBank = s.core.mBank := rfl
@[simp] theorem raise_hBank : (s.raise c b).core.hBank = s.core.hBank := rfl
@[simp] theorem raise_sBank : (s.raise c b).core.sBank = s.core.sBank := rfl
@[simp] theorem raise_uBank : (s.raise c b).core.uBank = s.core.uBank := rfl
@[simp] theorem raise_sptbr : (s.raise c b).core.sptbr = s.core.sptbr := rfl
@[simp] theorem raise_mucounteren : (s.raise c b).core.mucounteren = s.core.mucounteren := rfl
@[simp] theorem raise_mscounteren : (s.raise c b).core.mscounteren = s.core.mscounteren := rfl
@[simp] theorem raise_mhcounteren : (s.raise c b).core.mhcounteren = s.core.mhcounteren := rfl
@[simp] theorem raise_fcsr : (s.raise c b).core.fcsr = s.core.fcsr := rfl
@[simp] theorem raise_parked : (s.raise c b).parked = s.parked := rfl
@[simp] theorem raise_mem : (s.raise c b).mem = s.mem := rfl
@[simp] theorem raise_clock : (s.raise c b).clock = s.clock := rfl
@[simp] theorem raise_halted : (s.raise c b).halted = s.halted := rfl
@[simp] theorem raise_fatal : (s.raise c b).fatal = s.fatal := rfl
@[simp] theorem raise_params : (s.raise c b).params = s.params := rfl
@[simp] theorem raise_inputs : (s.raise c b).inputs = s.inputs := rfl
@[simp] theorem raise_xlen : (s.raise c b).xlen = s.xlen := rfl
@[simp] theorem raise_misa : (s.raise c b).misa = s.misa := rfl
@[simp] theorem raise_getX (r : RegIdx) : (s.raise c b).getX r = s.getX r := rfl
@[simp] theorem raise_getF (r : RegIdx) : (s.raise c b).getF r = s.getF r := rfl
end

section
variable (s : State) (n : Next)
@[simp] theorem setNext_hartid : (s.setNext n).core.hartid = s.core.hartid := rfl
@[simp] theorem setNext_x : (s.setNext n).core.x = s.core.x := rfl
@[simp] theorem setNext_f : (s.setNext n).core.f = s.core.f := rfl
@[simp] theorem setNext_pc : (s.setNext n).core.pc = s.core.pc := rfl
@[simp] theorem setNext_cur : (s.setNext n).core.cur = s.core.cur := rfl
@[simp] theorem setNext_next : (s.setNext n).core.next = n := rfl
@[simp] theorem setNext_resv : (s.setNext n).core.resv = s.core.resv := rfl
@[simp] theorem setNext_tlb32 : (s.setNext n).core.tlb32 = s.core.tlb32 := rfl
@[simp] theorem setNext_tlb39 : (s.setNext n).core.tlb39 = s.core.tlb39 := rfl
@[simp] theorem setNext_cycles : (s.setNext n).core.cycles = s.core.cycles := rfl
@[simp] theorem setNext_instret : (s.setNext n).core.instret = s.core.instret := rfl
@[simp] theorem setNext_delta : (s.setNext n).core.delta = s.core.delta := rfl
@[simp] theorem setNext_mstatus : (s.setNext n).core.mstatus = s.core.mstatus := rfl
@[simp] theorem setNext_medeleg : (s.setNext n).core.medeleg = s.core.medeleg := rfl
@[simp] theorem setNext_mideleg : (s.setNext n).core.mideleg = s.core.mideleg := rfl
@[simp] theorem setNext_hedeleg : (s.setNext n).core.hedeleg = s.core.hedeleg := rfl
@[simp] theorem setNext_hideleg : (s.setNext n).core.hideleg = s.core.hideleg := rfl
@[simp] theorem setNext_sedeleg : (s.setNext n).core.sedeleg = s.core.sedeleg := rfl
@[simp] theorem setNext_sideleg : (s.setNext n).core.sideleg = s.core.sideleg := rfl
@[simp] theorem setNext_mie : (s.setNext n).core.mie = s.core.mie := rfl
@[simp] theorem setNext_mip : (s.setNext n).core.mip = s.core.mip := rfl
@[simp] theorem setNext_mBank : (s.setNext n).core.mBank = s.core.mBank := rfl
@[simp] theorem setNext_hBank : (s.setNext n).core.hBank = s.core.hBank := rfl
@[simp] theorem setNext_sBank : (s.setNext n).core.sBank = s.core.sBank := rfl
@[simp] theorem setNext_uBank : (s.setNext n).core.uBank = s.core.uBank := rfl
@[simp] theorem setNext_sptbr : (s.setNext n).core.sptbr = s.core.sptbr := rfl
@[simp] theorem setNext_mucounteren : (s.setNext n).core.mucounteren = s.core.mucounteren := rfl
@[simp] theorem setNext_mscounteren : (s.setNext n).core.mscounteren = s.core.mscounteren := rfl
@[simp] theorem setNext_mhcounteren : (s.setNext n).core.mhcounteren = s.core.mhcounteren := rfl
@[simp] theorem setNext_fcsr : (s.setNext n).core.fcsr = s.core.fcsr := rfl
@[simp] theorem setNext_parked : (s.setNext n).parked = s.parked := rfl
@[simp] theorem setNext_mem : (s.setNext n).mem = s.mem := rfl
@[simp] theorem setNext_clock : (s.setNext n).clock = s.clock := rfl
@[simp] theorem setNext_halted : (s.setNext n).halted = s.halted := rfl
@[simp] theorem setNext_fatal : (s.setNext n).fatal = s.fatal := rfl
@[simp] theorem setNext_params : (s.setNext n).params = s.params := rfl
@[simp] theorem setNext_inputs : (s.setNext n).inputs = s.inputs := rfl
@[simp] theorem setNext_xlen : (s.setNext n).xlen = s.xlen := rfl
@[simp] theorem setNext_misa : (s.setNext n).misa = s.misa := rfl
@[simp] theorem setNext_getX (r : RegIdx) : (s.setNext n).getX r = s.getX r := rfl
@[simp] theorem setNext_getF (r : RegIdx) : (s.setNext n).getF r = s.getF r := rfl
end

section
variable (s : State) (o : Option Word)
@[simp] theorem setResv_hartid : (s.setResv o).core.hartid = s.core.hartid := rfl
@[simp] theorem setResv_x : (s.setResv o).core.x = s.core.x := rfl
@[simp] theorem setResv_f : (s.setResv o).core.f = s.core.f := rfl
@[simp] theorem setResv_pc : (s.setResv o).core.pc = s.core.pc := rfl
@[simp] theorem setResv_cur : (s.setResv o).core.cur = s.core.cur := rfl
@[simp] theorem setResv_next : (s.setResv o).core.next = s.core.next := rfl
@[simp] theorem setResv_resv : (s.setResv o).core.resv = o := rfl
@[simp] theorem setResv_tlb32 : (s.setResv o).core.tlb32 = s.core.tlb32 := rfl
@[simp] theorem setResv_tlb39 : (s.setResv o).core.tlb39 = s.core.tlb39 := rfl
@[simp] theorem setResv_cycles : (s.setResv o).core.cycles = s.core.cycles := rfl
@[simp] theorem setResv_instret : (s.setResv o).core.instret = s.core.instret := rfl
@[simp] theorem setResv_delta : (s.setResv o).core.delta = s.core.delta := rfl
@[simp] theorem setResv_mstatus : (s.setResv o).core.mstatus = s.core.mstatus := rfl
@[simp] theorem setResv_medeleg : (s.setResv o).core.medeleg = s.core.medeleg := rfl
@[simp] theorem setResv_mideleg : (s.setResv o).core.mideleg = s.core.mideleg := rfl
@[simp] theorem setResv_hedeleg : (s.setResv o).core.hedeleg = s.core.hedeleg := rfl
@[simp] theorem setResv_hideleg : (s.setResv o).core.hideleg = s.core.hideleg := rfl
@[simp] theorem setResv_sedeleg : (s.setResv o).core.sedeleg = s.core.sedeleg := rfl
@[simp] theorem setResv_sideleg : (s.setResv o).core.sideleg = s.core.sideleg := rfl
@[simp] theorem setResv_mie : (s.setResv o).core.mie = s.core.mie := rfl
@[simp] theorem setResv_mip : (s.setResv o).core.mip = s.core.mip := rfl
@[simp] theorem setResv_mBank : (s.setResv o).core.mBank = s.core.mBank := rfl
@[simp] theorem setResv_hBank : (s.setResv o).core.hBank = s.core.hBank := rfl
@[simp] theorem setResv_sBank : (s.setResv o).core.sBank = s.core.sBank := rfl
@[simp] theorem setResv_uBank : (s.setResv o).core.uBank = s.core.uBank := rfl
@[simp] theorem setResv_sptbr : (s.setResv o).core.sptbr = s.core.sptbr := rfl
@[simp] theorem setResv_mucounteren : (s.setResv o).core.mucounteren = s.core.mucounteren := rfl
@[simp] theorem setResv_mscounteren : (s.setResv o).core.mscounteren = s.core.mscounteren := rfl
@[simp] theorem setResv_mhcounteren : (s.setResv o).core.mhcounteren = s.core.mhcounteren := rfl
@[simp] theorem setResv_fcsr : (s.setResv o).core.fcsr = s.core.fcsr := rfl
@[simp] theorem setResv_parked : (s.setResv o).parked = s.parked := rfl
@[simp] theorem setResv_mem : (s.setResv o).mem = s.mem := rfl
@[simp] theorem setResv_clock : (s.setResv o).clock = s.clock := rfl
@[simp] theorem setResv_halted : (s.setResv o).halted = s.halted := rfl
@[simp] theorem setResv_fatal : (s.setResv o).fatal = s.fatal := rfl
@[simp] theorem setResv_params : (s.setResv o).params = s.params := rfl
@[simp] theorem setResv_inputs : (s.setResv o).inputs = s.inputs := rfl
@[simp] theorem setResv_xlen : (s.setResv o).xlen = s.xlen := rfl
@[simp] theorem setResv_misa : (s.setResv o).misa = s.misa := rfl
@[simp] theorem setResv_getX (r : RegIdx) : (s.setResv o).getX r = s.getX r := rfl
@[simp] theorem setResv_getF (r : RegIdx) : (s.setResv o).getF r = s.getF r := rfl
end

section
variable (s : State) (rd : RegIdx) (v : Word)
@[simp] theorem wr_hartid : (s.wr rd v).core.hartid = s.core.hartid := rfl
@[simp] theorem wr_x : (s.wr rd v).core.x = if rd = 0#5 then s.core.x else s.core.x.set rd.toNat (s.xlen.sext v) rd.isLt := rfl
@[simp] theorem wr_f : (s.wr rd v).core.f = s.core.f := rfl
@[simp] theorem wr_pc : (s.wr rd v).core.pc = s.core.pc := rfl
@[simp] theorem wr_cur : (s.wr rd v).core.cur = s.core.cur := rfl
@[simp] theorem wr_next : (s.wr rd v).core.next = s.core.next := rfl
@[simp] theorem wr_resv : (s.wr rd v).core.resv = s.core.resv := rfl
@[simp] theorem wr_tlb32 : (s.wr rd v).core.tlb32 = s.core.tlb32 := rfl
@[simp] theorem wr_tlb39 : (s.wr rd v).core.tlb39 = s.core.tlb39 := rfl
@[simp] theorem wr_cycles : (s.wr rd v).core.cycles = s.core.cycles := rfl
@[simp] theorem wr_instret : (s.wr rd v).core.instret = s.core.instret := rfl
@[simp] theorem wr_delta : (s.wr rd v).core.delta = { s.core.delta with data1 := some (s.xlen.sext v) } := rfl
@[simp] theorem wr_mstatus : (s.wr rd v).core.mstatus = s.core.mstatus := rfl
@[simp] theorem wr_medeleg : (s.wr rd v).core.medeleg = s.core.medeleg := rfl
@[simp] theorem wr_mideleg : (s.wr rd v).core.mideleg = s.core.mideleg := rfl
@[simp] theorem wr_hedeleg : (s.wr rd v).core.hedeleg = s.core.hedeleg := rfl
@[simp] theorem wr_hideleg : (s.wr rd v).core.hideleg = s.core.hideleg := rfl
@[simp] theorem wr_sedeleg : (s.wr rd v).core.sedeleg = s.core.sedeleg := rfl
@[simp] theorem wr_sideleg : (s.wr rd v).core.sideleg = s.core.sideleg := rfl
@[simp] theorem wr_mie : (s.wr rd v).core.mie = s.core.mie := rfl
@[simp] theorem wr_mip : (s.wr rd v).core.mip = s.core.mip := rfl
@[simp] theorem wr_mBank : (s.wr rd v).core.mBank = s.core.mBank := rfl
@[simp] theorem wr_hBank : (s.wr rd v).core.hBank = s.core.hBank := rfl
@[simp] theorem wr_sBank : (s.wr rd v).core.sBank = s.core.sBank := rfl
@[simp] theorem wr_uBank : (s.wr rd v).core.uBank = s.core.uBank := rfl
@[simp] theorem wr_sptbr : (s.wr rd v).core.sptbr = s.core.sptbr := rfl
@[simp] theorem wr_mucounteren : (s.wr rd v).core.mucounteren = s.core.mucounteren := rfl
@[simp] theorem wr_mscounteren : (s.wr rd v).core.mscounteren = s.core.mscounteren := rfl
@[simp] theorem wr_mhcounteren : (s.wr rd v).core.mhcounteren = s.core.mhcounteren := rfl
@[simp] theorem wr_fcsr : (s.wr rd v).core.fcsr = s.core.fcsr := rfl
@[simp] theorem wr_parked : (s.wr rd v).parked = s.parked := rfl
@[simp] theorem wr_mem : (s.wr rd v).mem = s.mem := rfl
@[simp] theorem wr_clock : (s.wr rd v).clock = s.clock := rfl
@[simp] theorem wr_halted : (s.wr rd v).halted = s.halted := rfl
@[simp] theorem wr_fatal : (s.wr rd v).fatal = s.fatal := rfl
@[simp] theorem wr_params : (s.wr rd v).params = s.params := rfl
@[simp] theorem wr_inputs : (s.wr rd v).inputs = s.inputs := rfl
@[simp] theorem wr_xlen : (s.wr rd v).xlen = s.xlen := rfl
@[simp] theorem wr_misa : (s.wr rd v).misa = s.misa := rfl
@[simp] theorem wr_getF (r : RegIdx) : (s.wr rd v).getF r = s.getF r := rfl
end

section
variable (s : State)
@[simp] theorem dirty_hartid : (s.dirty).core.hartid = s.core.hartid := rfl
@[simp] theorem dirty_x : (s.dirty).core.x = s.core.x := rfl
@[simp] theorem dirty_f : (s.dirty).core.f = s.core.f := rfl
@[simp] theorem dirty_pc : (s.dirty).core.pc = s.core.pc := rfl
@[simp] theorem dirty_cur : (s.dirty).core.cur = s.core.cur := rfl
@[simp] theorem dirty_next : (s.dirty).core.next = s.core.next := rfl
@[simp] theorem dirty_resv : (s.dirty).core.resv = s.core.resv := rfl
@[simp] theorem dirty_tlb32 : (s.dirty).core.tlb32 = s.core.tlb32 := rfl
@[simp] theorem dirty_tlb39 : (s.dirty).core.tlb39 = s.core.tlb39 := rfl
@[simp] theorem dirty_cycles : (s.dirty).core.cycles = s.core.cycles := rfl
@[simp] theorem dirty_instret : (s.dirty).core.instret = s.core.instret := rfl
@[simp] theorem dirty_delta : (s.dirty).core.delta = s.core.delta := rfl
@[simp] theorem dirty_mstatus : (s.dirty).core.mstatus = statusDirty s.core.mstatus := rfl
@[simp] theorem dirty_medeleg : (s.dirty).core.medeleg = s.core.medeleg := rfl
@[simp] theorem dirty_mideleg : (s.dirty).core.mideleg = s.core.mideleg := rfl
@[simp] theorem dirty_hedeleg : (s.dirty).core.hedeleg = s.core.hedeleg := rfl
@[simp] theorem dirty_hideleg : (s.dirty).core.hideleg = s.core.hideleg := rfl
@[simp] theorem dirty_sedeleg : (s.dirty).core.sedeleg = s.core.sedeleg := rfl
@[simp] theorem dirty_sideleg : (s.dirty).core.sideleg = s.core.sideleg := rfl
@[simp] theorem dirty_mie : (s.dirty).core.mie = s.core.mie := rfl
@[simp] theorem dirty_mip : (s.dirty).core.mip = s.core.mip := rfl
@[simp] theorem dirty_mBank : (s.dirty).core.mBank = s.core.mBank := rfl
@[simp] theorem dirty_hBank : (s.dirty).core.hBank = s.core.hBank := rfl
@[simp] theorem dirty_sBank : (s.dirty).core.sBank = s.core.sBank := rfl
@[simp] theorem dirty_uBank : (s.dirty).core.uBank = s.core.uBank := rfl
@[simp] theorem dirty_sptbr : (s.dirty).core.sptbr = s.core.sptbr := rfl
@[simp] theorem dirty_mucounteren : (s.dirty).core.mucounteren = s.core.mucounteren := rfl
@[simp] theorem dirty_mscounteren : (s.dirty).core.mscounteren = s.core.mscounteren := rfl
@[simp] theorem dirty_mhcounteren : (s.dirty).core.mhcounteren = s.core.mhcounteren := rfl
@[simp] theorem dirty_fcsr : (s.dirty).core.fcsr = s.core.fcsr := rfl
@[simp] theorem dirty_parked : (s.dirty).parked = s.parked := rfl
@[simp] theorem dirty_mem : (s.dirty).mem = s.mem := rfl
@[simp] theorem dirty_clock : (s.dirty).clock = s.clock := rfl
@[simp] theorem dirty_halted : (s.dirty).halted = s.halted := rfl
@[simp] theorem dirty_fatal : (s.dirty).fatal = s.fatal := rfl
@[simp] theorem dirty_params : (s.dirty).params = s.params := rfl
@[simp] theorem dirty_inputs : (s.dirty).inputs = s.inputs := rfl
@[simp] theorem dirty_xlen : (s.dirty).xlen = s.xlen := rfl
@[simp] theorem dirty_misa : (s.dirty).misa = s.misa := rfl
@[simp] theorem dirty_getX (r : RegIdx) : (s.dirty).getX r = s.getX r := rfl
@[simp] theorem dirty_getF (r : RegIdx) : (s.dirty).getF r = s.getF r := rfl
end

section
variable (s : State) (i : RegIdx) (v : Word)
@[simp] theorem wrF_hartid : (s.wrF i v).core.hartid = s.core.hartid := rfl
@[simp] theorem wrF_x : (s.wrF i v).core.x = s.core.x := rfl
@[simp] theorem wrF_f : (s.wrF i v).core.f = s.core.f.set i.toNat v i.isLt := rfl
@[simp] theorem wrF_pc : (s.wrF i v).core.pc = s.core.pc := rfl
@[simp] theorem wrF_cur : (s.wrF i v).core.cur = s.core.cur := rfl
@[simp] theorem wrF_next : (s.wrF i v).core.next = s.core.next := rfl
@[simp] theorem wrF_resv : (s.wrF i v).core.resv = s.core.resv := rfl
@[simp] theorem wrF_tlb32 : (s.wrF i v).core.tlb32 = s.core.tlb32 := rfl
@[simp] theorem wrF_tlb39 : (s.wrF i v).core.tlb39 = s.core.tlb39 := rfl
@[simp] theorem wrF_cycles : (s.wrF i v).core.cycles = s.core.cycles := rfl
@[simp] theorem wrF_instret : (s.wrF i v).core.instret = s.core.instret := rfl
@[simp] theorem wrF_delta : (s.wrF i v).core.delta = { s.core.delta with fpData := some v } := rfl
@[simp] theorem wrF_mstatus : (s.wrF i v).core.mstatus = statusDirty s.core.mstatus := rfl
@[simp] theorem wrF_medeleg : (s.wrF i v).core.medeleg = s.core.medeleg := rfl
@[simp] theorem wrF_mideleg : (s.wrF i v).core.mideleg = s.core.mideleg := rfl
@[simp] theorem wrF_hedeleg : (s.wrF i v).core.hedeleg = s.core.hedeleg := rfl
@[simp] theorem wrF_hideleg : (s.wrF i v).core.hideleg = s.core.hideleg := rfl
@[simp] theorem wrF_sedeleg : (s.wrF i v).core.sedeleg = s.core.sedeleg := rfl
@[simp] theorem wrF_sideleg : (s.wrF i v).core.sideleg = s.core.sideleg := rfl
@[simp] theorem wrF_mie : (s.wrF i v).core.mie = s.core.mie := rfl
@[simp] theorem wrF_mip : (s.wrF i v).core.mip = s.core.mip := rfl
@[simp] theorem wrF_mBank : (s.wrF i v).core.mBank = s.core.mBank := rfl
@[simp] theorem wrF_hBank : (s.wrF i v).core.hBank = s.core.hBank := rfl
@[simp] theorem wrF_sBank : (s.wrF i v).core.sBank = s.core.sBank := rfl
@[simp] theorem wrF_uBank : (s.wrF i v).core.uBank = s.core.uBank := rfl
@[simp] theorem wrF_sptbr : (s.wrF i v).core.sptbr = s.core.sptbr := rfl
@[simp] theorem wrF_mucounteren : (s.wrF i v).core.mucounteren = s.core.mucounteren := rfl
@[simp] theorem wrF_mscounteren : (s.wrF i v).core.mscounteren = s.core.mscounteren := rfl
@[simp] theorem wrF_mhcounteren : (s.wrF i v).core.mhcounteren = s.core.mhcounteren := rfl
@[simp] theorem wrF_fcsr : (s.wrF i v).core.fcsr = s.core.fcsr := rfl
@[simp] theorem wrF_parked : (s.wrF i v).parked = s.parked := rfl
@[simp] theorem wrF_mem : (s.wrF i v).mem = s.mem := rfl
@[simp] theorem wrF_clock : (s.wrF i v).clock = s.clock := rfl
@[simp] theorem wrF_halted : (s.wrF i v).halted = s.halted := rfl
@[simp] theorem wrF_fatal : (s.wrF i v).fatal = s.fatal := rfl
@[simp] theorem wrF_params : (s.wrF i v).params = s.params := rfl
@[simp] theorem wrF_inputs : (s.wrF i v).inputs = s.inputs := rfl
@[simp] theorem wrF_xlen : (s.wrF i v).xlen = s.xlen := rfl
@[simp] theorem wrF_misa : (s.wrF i v).misa = s.misa := rfl
@[simp] theorem wrF_getX (r : RegIdx) : (s.wrF i v).getX r = s.getX r := rfl
end

section
variable (s : State) (fl : FpFlags)
@[simp] theorem accrue_hartid : (s.accrue fl).core.hartid = s.core.hartid := rfl
@[simp] theorem accrue_x : (s.accrue fl).core.x = s.core.x := rfl
@[simp] theorem accrue_f : (s.accrue fl).core.f = s.core.f := rfl
@[simp] theorem accrue_pc : (s.accrue fl).core.pc = s.core.pc := rfl
@[simp] theorem accrue_cur : (s.accrue fl).core.cur = s.core.cur := rfl
@[simp] theorem accrue_next : (s.accrue fl).core.next = s.core.next := rfl
@[simp] theorem accrue_resv : (s.accrue fl).core.resv = s.core.resv := rfl
@[simp] theorem accrue_tlb32 : (s.accrue fl).core.tlb32 = s.core.tlb32 := rfl
@[simp] theorem accrue_tlb39 : (s.accrue fl).core.tlb39 = s.core.tlb39 := rfl
@[simp] theorem accrue_cycles : (s.accrue fl).core.cycles = s.core.cycles := rfl
@[simp] theorem accrue_instret : (s.accrue fl).core.instret = s.core.instret := rfl
@[simp] theorem accrue_delta : (s.accrue fl).core.delta = s.core.delta := rfl
@[simp] theorem accrue_mstatus : (s.accrue fl).core.mstatus = if fl = 0#5 then s.core.mstatus else statusDirty s.core.mstatus := rfl
@[simp] theorem accrue_medeleg : (s.accrue fl).core.medeleg = s.core.medeleg := rfl
@[simp] theorem accrue_mideleg : (s.accrue fl).core.mideleg = s.core.mideleg := rfl
@[simp] theorem accrue_hedeleg : (s.accrue fl).core.hedeleg = s.core.hedeleg := rfl
@[simp] theorem accrue_hideleg : (s.accrue fl).core.hideleg = s.core.hideleg := rfl
@[simp] theorem accrue_sedeleg : (s.accrue fl).core.sedeleg = s.core.sedeleg := rfl
@[simp] theorem accrue_sideleg : (s.accrue fl).core.sideleg = s.core.sideleg := rfl
@[simp] theorem accrue_mie : (s.accrue fl).core.mie = s.core.mie := rfl
@[simp] theorem accrue_mip : (s.accrue fl).core.mip = s.core.mip := rfl
@[simp] theorem accrue_mBank : (s.accrue fl).core.mBank = s.core.mBank := rfl
@[simp] theorem accrue_hBank : (s.accrue fl).core.hBank = s.core.hBank := rfl
@[simp] theorem accrue_sBank : (s.accrue fl).core.sBank = s.core.sBank := rfl
@[simp] theorem accrue_uBank : (s.accrue fl).core.uBank = s.core.uBank := rfl
@[simp] theorem accrue_sptbr : (s.accrue fl).core.sptbr = s.core.sptbr := rfl
@[simp] theorem accrue_mucounteren : (s.accrue fl).core.mucounteren = s.core.mucounteren := rfl
@[simp] theorem accrue_mscounteren : (s.accrue fl).core.mscounteren = s.core.mscounteren := rfl
@[simp] theorem accrue_mhcounteren : (s.accrue fl).core.mhcounteren = s.core.mhcounteren := rfl
@[simp] theorem accrue_fcsr : (s.accrue fl).core.fcsr = s.core.fcsr ||| fl.setWidth 8 := rfl
@[simp] theorem accrue_parked : (s.accrue fl).parked = s.parked := rfl
@[simp] theorem accrue_mem : (s.accrue fl).mem = s.mem := rfl
@[simp] theorem accrue_clock : (s.accrue fl).clock = s.clock := rfl
@[simp] theorem accrue_halted : (s.accrue fl).halted = s.halted := rfl
@[simp] theorem accrue_fatal : (s.accrue fl).fatal = s.fatal := rfl
@[simp] theorem accrue_params : (s.accrue fl).params = s.params := rfl
@[simp] theorem accrue_inputs : (s.accrue fl).inputs = s.inputs := rfl
@[simp] theorem accrue_xlen : (s.accrue fl).xlen = s.xlen := rfl
@[simp] theorem accrue_misa : (s.accrue fl).misa = s.misa := rfl
@[simp] theorem accrue_getX (r : RegIdx) : (s.accrue fl).getX r = s.getX r := rfl
@[simp] theorem accrue_getF (r : RegIdx) : (s.accrue fl).getF r = s.getF r := rfl
end

section
variable (s : State) (v : Word)
@[simp] theorem putStatus_hartid : (s.putStatus v).core.hartid = s.core.hartid := rfl
@[simp] theorem putStatus_x : (s.putStatus v).core.x = s.core.x := rfl
@[simp] theorem putStatus_f : (s.putStatus v).core.f = s.core.f := rfl
@[simp] theorem putStatus_pc : (s.putStatus v).core.pc = s.core.pc := rfl
@[simp] theorem putStatus_cur : (s.putStatus v).core.cur = s.core.cur := rfl
@[simp] theorem putStatus_next : (s.putStatus v).core.next = s.core.next := rfl
@[simp] theorem putStatus_resv : (s.putStatus v).core.resv = s.core.resv := rfl
@[simp] theorem putStatus_tlb32 : (s.putStatus v).core.tlb32 = s.core.tlb32 := rfl
@[simp] theorem putStatus_tlb39 : (s.putStatus v).core.tlb39 = s.core.tlb39 := rfl
@[simp] theorem putStatus_cycles : (s.putStatus v).core.cycles = s.core.cycles := rfl
@[simp] theorem putStatus_instret : (s.putStatus v).core.instret = s.core.instret := rfl
@[simp] theorem putStatus_delta : (s.putStatus v).core.delta = s.core.delta := rfl
@[simp] theorem putStatus_mstatus : (s.putStatus v).core.mstatus = statusSummary v := rfl
@[simp] theorem putStatus_medeleg : (s.putStatus v).core.medeleg = s.core.medeleg := rfl
@[simp] theorem putStatus_mideleg : (s.putStatus v).core.mideleg = s.core.mideleg := rfl
@[simp] theorem putStatus_hedeleg : (s.putStatus v).core.hedeleg = s.core.hedeleg := rfl
@[simp] theorem putStatus_hideleg : (s.putStatus v).core.hideleg = s.core.hideleg := rfl
@[simp] theorem putStatus_sedeleg : (s.putStatus v).core.sedeleg = s.core.sedeleg := rfl
@[simp] theorem putStatus_sideleg : (s.putStatus v).core.sideleg = s.core.sideleg := rfl
@[simp] theorem putStatus_mie : (s.putStatus v).core.mie = s.core.mie := rfl
@[simp] theorem putStatus_mip : (s.putStatus v).core.mip = s.core.mip := rfl
@[simp] theorem putStatus_mBank : (s.putStatus v).core.mBank = s.core.mBank := rfl
@[simp] theorem putStatus_hBank : (s.putStatus v).core.hBank = s.core.hBank := rfl
@[simp] theorem putStatus_sBank : (s.putStatus v).core.sBank = s.core.sBank := rfl
@[simp] theorem putStatus_uBank : (s.putStatus v).core.uBank = s.core.uBank := rfl
@[simp] theorem putStatus_sptbr : (s.putStatus v).core.sptbr = s.core.sptbr := rfl
@[simp] theorem putStatus_mucounteren : (s.putStatus v).core.mucounteren = s.core.mucounteren := rfl
@[simp] theorem putStatus_mscounteren : (s.putStatus v).core.mscounteren = s.core.mscounteren := rfl
@[simp] theorem putStatus_mhcounteren : (s.putStatus v).core.mhcounteren = s.core.mhcounteren := rfl
@[simp] theorem putStatus_fcsr : (s.putStatus v).core.fcsr = s.core.fcsr := rfl
@[simp] theorem putStatus_parked : (s.putStatus v).parked = s.parked := rfl
@[simp] theorem putStatus_mem : (s.putStatus v).mem = s.mem := rfl
@[simp] theorem putStatus_clock : (s.putStatus v).clock = s.clock := rfl
@[simp] theorem putStatus_halted : (s.putStatus v).halted = s.halted := rfl
@[simp] theorem putStatus_fatal : (s.putStatus v).fatal = s.fatal := rfl
@[simp] theorem putStatus_params : (s.putStatus v).params = s.params := rfl
@[simp] theorem putStatus_inputs : (s.putStatus v).inputs = s.inputs := rfl
@[simp] theorem putStatus_xlen : (s.putStatus v).xlen = s.xlen := rfl
@[simp] theorem putStatus_misa : (s.putStatus v).misa = s.misa := rfl
@[simp] theorem putStatus_getX (r : RegIdx) : (s.putStatus v).getX r = s.getX r := rfl
@[simp] theorem putStatus_getF (r : RegIdx) : (s.putStatus v).getF r = s.getF r := rfl
end

section
variable (s : State) (v : Word)
@[simp] theorem putMie_hartid : (s.putMie v).core.hartid = s.core.hartid := rfl
@[simp] theorem putMie_x : (s.putMie v).core.x = s.core.x := rfl
@[simp] theorem putMie_f : (s.putMie v).core.f = s.core.f := rfl
@[simp] theorem putMie_pc : (s.putMie v).core.pc = s.core.pc := rfl
@[simp] theorem putMie_cur : (s.putMie v).core.cur = s.core.cur := rfl
@[simp] theorem putMie_next : (s.putMie v).core.next = s.core.next := rfl
@[simp] theorem putMie_resv : (s.putMie v).core.resv = s.core.resv := rfl
@[simp] theorem putMie_tlb32 : (s.putMie v).core.tlb32 = s.core.tlb32 := rfl
@[simp] theorem putMie_tlb39 : (s.putMie v).core.tlb39 = s.core.tlb39 := rfl
@[simp] theorem putMie_cycles : (s.putMie v).core.cycles = s.core.cycles := rfl
@[simp] theorem putMie_instret : (s.putMie v).core.instret = s.core.instret := rfl
@[simp] theorem putMie_delta : (s.putMie v).core.delta = s.core.delta := rfl
@[simp] theorem putMie_mstatus : (s.putMie v).core.mstatus = s.core.mstatus := rfl
@[simp] theorem putMie_medeleg : (s.putMie v).core.medeleg = s.core.medeleg := rfl
@[simp] theorem putMie_mideleg : (s.putMie v).core.mideleg = s.core.mideleg := rfl
@[simp] theorem putMie_hedeleg : (s.putMie v).core.hedeleg = s.core.hedeleg := rfl
@[simp] theorem putMie_hideleg : (s.putMie v).core.hideleg = s.core.hideleg := rfl
@[simp] theorem putMie_sedeleg : (s.putMie v).core.sedeleg = s.core.sedeleg := rfl
@[simp] theorem putMie_sideleg : (s.putMie v).core.sideleg = s.core.sideleg := rfl
@[simp] theorem putMie_mie : (s.putMie v).core.mie = v := rfl
@[simp] theorem putMie_mip : (s.putMie v).core.mip = s.core.mip := rfl
@[simp] theorem putMie_mBank : (s.putMie v).core.mBank = s.core.mBank := rfl
@[simp] theorem putMie_hBank : (s.putMie v).core.hBank = s.core.hBank := rfl
@[simp] theorem putMie_sBank : (s.putMie v).core.sBank = s.core.sBank := rfl
@[simp] theorem putMie_uBank : (s.putMie v).core.uBank = s.core.uBank := rfl
@[simp] theorem putMie_sptbr : (s.putMie v).core.sptbr = s.core.sptbr := rfl
@[simp] theorem putMie_mucounteren : (s.putMie v).core.mucounteren = s.core.mucounteren := rfl
@[simp] theorem putMie_mscounteren : (s.putMie v).core.mscounteren = s.core.mscounteren := rfl
@[simp] theorem putMie_mhcounteren : (s.putMie v).core.mhcounteren = s.core.mhcounteren := rfl
@[simp] theorem putMie_fcsr : (s.putMie v).core.fcsr = s.core.fcsr := rfl
@[simp] theorem putMie_parked : (s.putMie v).parked = s.parked := rfl
@[simp] theorem putMie_mem : (s.putMie v).mem = s.mem := rfl
@[simp] theorem putMie_clock : (s.putMie v).clock = s.clock := rfl
@[simp] theorem putMie_halted : (s.putMie v).halted = s.halted := rfl
@[simp] theorem putMie_fatal : (s.putMie v).fatal = s.fatal := rfl
@[simp] theorem putMie_params : (s.putMie v).params = s.params := rfl
@[simp] theorem putMie_inputs : (s.putMie v).inputs = s.inputs := rfl
@[simp] theorem putMie_xlen : (s.putMie v).xlen = s.xlen := rfl
@[simp] theorem putMie_misa : (s.putMie v).misa = s.misa := rfl
@[simp] theorem putMie_getX (r : RegIdx) : (s.putMie v).getX r = s.getX r := rfl
@[simp] theorem putMie_getF (r : RegIdx) : (s.putMie v).getF r = s.getF r := rfl
end

section
variable (s : State) (v : Word)
@[simp] theorem putMip_hartid : (s.putMip v).core.hartid = s.core.hartid := rfl
@[simp] theorem putMip_x : (s.putMip v).core.x = s.core.x := rfl
@[simp] theorem putMip_f : (s.putMip v).core.f = s.core.f := rfl
@[simp] theorem putMip_pc : (s.putMip v).core.pc = s.core.pc := rfl
@[simp] theorem putMip_cur : (s.putMip v).core.cur = s.core.cur := rfl
@[simp] theorem putMip_next : (s.putMip v).core.next = s.core.next := rfl
@[simp] theorem putMip_resv : (s.putMip v).core.resv = s.core.resv := rfl
@[simp] theorem putMip_tlb32 : (s.putMip v).core.tlb32 = s.core.tlb32 := rfl
@[simp] theorem putMip_tlb39 : (s.putMip v).core.tlb39 = s.core.tlb39 := rfl
@[simp] theorem putMip_cycles : (s.putMip v).core.cycles = s.core.cycles := rfl
@[simp] theorem putMip_instret : (s.putMip v).core.instret = s.core.instret := rfl
@[simp] theorem putMip_delta : (s.putMip v).core.delta = s.core.delta := rfl
@[simp] theorem putMip_mstatus : (s.putMip v).core.mstatus = s.core.mstatus := rfl
@[simp] theorem putMip_medeleg : (s.putMip v).core.medeleg = s.core.medeleg := rfl
@[simp] theorem putMip_mideleg : (s.putMip v).core.mideleg = s.core.mideleg := rfl
@[simp] theorem putMip_hedeleg : (s.putMip v).core.hedeleg = s.core.hedeleg := rfl
@[simp] theorem putMip_hideleg : (s.putMip v).core.hideleg = s.core.hideleg := rfl
@[simp] theorem putMip_sedeleg : (s.putMip v).core.sedeleg = s.core.sedeleg := rfl
@[simp] theorem putMip_sideleg : (s.putMip v).core.sideleg = s.core.sideleg := rfl
@[simp] theorem putMip_mie : (s.putMip v).core.mie = s.core.mie := rfl
@[simp] theorem putMip_mip : (s.putMip v).core.mip = v := rfl
@[simp] theorem putMip_mBank : (s.putMip v).core.mBank = s.core.mBank := rfl
@[simp] theorem putMip_hBank : (s.putMip v).core.hBank = s.core.hBank := rfl
@[simp] theorem putMip_sBank : (s.putMip v).core.sBank = s.core.sBank := rfl
@[simp] theorem putMip_uBank : (s.putMip v).core.uBank = s.core.uBank := rfl
@[simp] theorem putMip_sptbr : (s.putMip v).core.sptbr = s.core.sptbr := rfl
@[simp] theorem putMip_mucounteren : (s.putMip v).core.mucounteren = s.core.mucounteren := rfl
@[simp] theorem putMip_mscounteren : (s.putMip v).core.mscounteren = s.core.mscounteren := rfl
@[simp] theorem putMip_mhcounteren : (s.putMip v).core.mhcounteren = s.core.mhcounteren := rfl
@[simp] theorem putMip_fcsr : (s.putMip v).core.fcsr = s.core.fcsr := rfl
@[simp] theorem putMip_parked : (s.putMip v).parked = s.parked := rfl
@[simp] theorem putMip_mem : (s.putMip v).mem = s.mem := rfl
@[simp] theorem putMip_clock : (s.putMip v).clock = s.clock := rfl
@[simp] theorem putMip_halted : (s.putMip v).halted = s.halted := rfl
@[simp] theorem putMip_fatal : (s.putMip v).fatal = s.fatal := rfl
@[simp] theorem putMip_params : (s.putMip v).params = s.params := rfl
@[simp] theorem putMip_inputs : (s.putMip v).inputs = s.inputs := rfl
@[simp] theorem putMip_xlen : (s.putMip v).xlen = s.xlen := rfl
@[simp] theorem putMip_misa : (s.putMip v).misa = s.misa := rfl
@[simp] theorem putMip_getX (r : RegIdx) : (s.putMip v).getX r = s.getX r := rfl
@[simp] theorem putMip_getF (r : RegIdx) : (s.putMip v).getF r = s.getF r := rfl
end

section
variable (s : State) (v : BitVec 8)
@[simp] theorem putFcsr_hartid : (s.putFcsr v).core.hartid = s.core.hartid := rfl
@[simp] theorem putFcsr_x : (s.putFcsr v).core.x = s.core.x := rfl
@[simp] theorem putFcsr_f : (s.putFcsr v).core.f = s.core.f := rfl
@[simp] theorem putFcsr_pc : (s.putFcsr v).core.pc = s.core.pc := rfl
@[simp] theorem putFcsr_cur : (s.putFcsr v).core.cur = s.core.cur := rfl
@[simp] theorem putFcsr_next : (s.putFcsr v).core.next = s.core.next := rfl
@[simp] theorem putFcsr_resv : (s.putFcsr v).core.resv = s.core.resv := rfl
@[simp] theorem putFcsr_tlb32 : (s.putFcsr v).core.tlb32 = s.core.tlb32 := rfl
@[simp] theorem putFcsr_tlb39 : (s.putFcsr v).core.tlb39 = s.core.tlb39 := rfl
@[simp] theorem putFcsr_cycles : (s.putFcsr v).core.cycles = s.core.cycles := rfl
@[simp] theorem putFcsr_instret : (s.putFcsr v).core.instret = s.core.instret := rfl
@[simp] theorem putFcsr_delta : (s.putFcsr v).core.delta = s.core.delta := rfl
@[simp] theorem putFcsr_mstatus : (s.putFcsr v).core.mstatus = s.core.mstatus := rfl
@[simp] theorem putFcsr_medeleg : (s.putFcsr v).core.medeleg = s.core.medeleg := rfl
@[simp] theorem putFcsr_mideleg : (s.putFcsr v).core.mideleg = s.core.mideleg := rfl
@[simp] theorem putFcsr_hedeleg : (s.putFcsr v).core.hedeleg = s.core.hedeleg := rfl
@[simp] theorem putFcsr_hideleg : (s.putFcsr v).core.hideleg = s.core.hideleg := rfl
@[simp] theorem putFcsr_sedeleg : (s.putFcsr v).core.sedeleg = s.core.sedeleg := rfl
@[simp] theorem putFcsr_sideleg : (s.putFcsr v).core.sideleg = s.core.sideleg := rfl
@[simp] theorem putFcsr_mie : (s.putFcsr v).core.mie = s.core.mie := rfl
@[simp] theorem putFcsr_mip : (s.putFcsr v).core.mip = s.core.mip := rfl
@[simp] theorem putFcsr_mBank : (s.putFcsr v).core.mBank = s.core.mBank := rfl
@[simp] theorem putFcsr_hBank : (s.putFcsr v).core.hBank = s.core.hBank := rfl
@[simp] theorem putFcsr_sBank : (s.putFcsr v).core.sBank = s.core.sBank := rfl
@[simp] theorem putFcsr_uBank : (s.putFcsr v).core.uBank = s.core.uBank := rfl
@[simp] theorem putFcsr_sptbr : (s.putFcsr v).core.sptbr = s.core.sptbr := rfl
@[simp] theorem putFcsr_mucounteren : (s.putFcsr v).core.mucounteren = s.core.mucounteren := rfl
@[simp] theorem putFcsr_mscounteren : (s.putFcsr v).core.mscounteren = s.core.mscounteren := rfl
@[simp] theorem putFcsr_mhcounteren : (s.putFcsr v).core.mhcounteren = s.core.mhcounteren := rfl
@[simp] theorem putFcsr_fcsr : (s.putFcsr v).core.fcsr = v := rfl
@[simp] theorem putFcsr_parked : (s.putFcsr v).parked = s.parked := rfl
@[simp] theorem putFcsr_mem : (s.putFcsr v).mem = s.mem := rfl
@[simp] theorem putFcsr_clock : (s.putFcsr v).clock = s.clock := rfl
@[simp] theorem putFcsr_halted : (s.putFcsr v).halted = s.halted := rfl
@[simp] theorem putFcsr_fatal : (s.putFcsr v).fatal = s.fatal := rfl
@[simp] theorem putFcsr_params : (s.putFcsr v).params = s.params := rfl
@[simp] theorem putFcsr_inputs : (s.putFcsr v).inputs = s.inputs := rfl
@[simp] theorem putFcsr_xlen : (s.putFcsr v).xlen = s.xlen := rfl
@[simp] theorem putFcsr_misa : (s.putFcsr v).misa = s.misa := rfl
@[simp] theorem putFcsr_getX (r : RegIdx) : (s.putFcsr v).getX r = s.getX r := rfl
@[simp] theorem putFcsr_getF (r : RegIdx) : (s.putFcsr v).getF r = s.getF r := rfl
end

section
variable (s : State) (p : Priv) (b : TrapBank)
@[simp] theorem putBank_hartid : (s.putBank p b).core.hartid = s.core.hartid := rfl
@[simp] theorem putBank_x : (s.putBank p b).core.x = s.core.x := rfl
@[simp] theorem putBank_f : (s.putBank p b).core.f = s.core.f := rfl
@[simp] theorem putBank_pc : (s.putBank p b).core.pc = s.core.pc := rfl
@[simp] theorem putBank_cur : (s.putBank p b).core.cur = s.core.cur := rfl
@[simp] theorem putBank_next : (s.putBank p b).core.next = s.core.next := rfl
@[simp] theorem putBank_resv : (s.putBank p b).core.resv = s.core.resv := rfl
@[simp] theorem putBank_tlb32 : (s.putBank p b).core.tlb32 = s.core.tlb32 := rfl
@[simp] theorem putBank_tlb39 : (s.putBank p b).core.tlb39 = s.core.tlb39 := rfl
@[simp] theorem putBank_cycles : (s.putBank p b).core.cycles = s.core.cycles := rfl
@[simp] theorem putBank_instret : (s.putBank p b).core.instret = s.core.instret := rfl
@[simp] theorem putBank_delta : (s.putBank p b).core.delta = s.core.delta := rfl
@[simp] theorem putBank_mstatus : (s.putBank p b).core.mstatus = s.core.mstatus := rfl
@[simp] theorem putBank_medeleg : (s.putBank p b).core.medeleg = s.core.medeleg := rfl
@[simp] theorem putBank_mideleg : (s.putBank p b).core.mideleg = s.core.mideleg := rfl
@[simp] theorem putBank_hedeleg : (s.putBank p b).core.hedeleg = s.core.hedeleg := rfl
@[simp] theorem putBank_hideleg : (s.putBank p b).core.hideleg = s.core.hideleg := rfl
@[simp] theorem putBank_sedeleg : (s.putBank p b).core.sedeleg = s.core.sedeleg := rfl
@[simp] theorem putBank_sideleg : (s.putBank p b).core.sideleg = s.core.sideleg := rfl
@[simp] theorem putBank_mie : (s.putBank p b).core.mie = s.core.mie := rfl
@[simp] theorem putBank_mip : (s.putBank p b).core.mip = s.core.mip := rfl
@[simp] theorem putBank_mBank : (s.putBank p b).core.mBank = if p = .machine then b else s.core.mBank := rfl
@[simp] theorem putBank_hBank : (s.putBank p b).core.hBank = if p = .hypervisor then b else s.core.hBank := rfl
@[simp] theorem putBank_sBank : (s.putBank p b).core.sBank = if p = .supervisor then b else s.core.sBank := rfl
@[simp] theorem putBank_uBank : (s.putBank p b).core.uBank = if p = .user then b else s.core.uBank := rfl
@[simp] theorem putBank_sptbr : (s.putBank p b).core.sptbr = s.core.sptbr := rfl
@[simp] theorem putBank_mucounteren : (s.putBank p b).core.mucounteren = s.core.mucounteren := rfl
@[simp] theorem putBank_mscounteren : (s.putBank p b).core.mscounteren = s.core.mscounteren := rfl
@[simp] theorem putBank_mhcounteren : (s.putBank p b).core.mhcounteren = s.core.mhcounteren := rfl
@[simp] theorem putBank_fcsr : (s.putBank p b).core.fcsr = s.core.fcsr := rfl
@[simp] theorem putBank_parked : (s.putBank p b).parked = s.parked := rfl
@[simp] theorem putBank_mem : (s.putBank p b).mem = s.mem := rfl
@[simp] theorem putBank_clock : (s.putBank p b).clock = s.clock := rfl
@[simp] theorem putBank_halted : (s.putBank p b).halted = s.halted := rfl
@[simp] theorem putBank_fatal : (s.putBank p b).fatal = s.fatal := rfl
@[simp] theorem putBank_params : (s.putBank p b).params = s.params := rfl
@[simp] theorem putBank_inputs : (s.putBank p b).inputs = s.inputs := rfl
@[simp] theorem putBank_xlen : (s.putBank p b).xlen = s.xlen := rfl
@[simp] theorem putBank_misa : (s.putBank p b).misa = s.misa := rfl
@[simp] theorem putBank_getX (r : RegIdx) : (s.putBank p b).getX r = s.getX r := rfl
@[simp] theorem putBank_getF (r : RegIdx) : (s.putBank p b).getF r = s.getF r := rfl
end

section
variable (s : State) (va : Option Word)
@[simp] theorem flushTlbs_hartid : (s.flushTlbs va).core.hartid = s.core.hartid := rfl
@[simp] theorem flushTlbs_x : (s.flushTlbs va).core.x = s.core.x := rfl
@[simp] theorem flushTlbs_f : (s.flushTlbs va).core.f = s.core.f := rfl
@[simp] theorem flushTlbs_pc : (s.flushTlbs va).core.pc = s.core.pc := rfl
@[simp] theorem flushTlbs_cur : (s.flushTlbs va).core.cur = s.core.cur := rfl
@[simp] theorem flushTlbs_next : (s.flushTlbs va).core.next = s.core.next := rfl
@[simp] theorem flushTlbs_resv : (s.flushTlbs va).core.resv = s.core.resv := rfl
@[simp] theorem flushTlbs_tlb32 : (s.flushTlbs va).core.tlb32 = s.core.tlb32.flush (VmFormat.asidOf .sv32 s.core.sptbr) va := rfl
@[simp] theorem flushTlbs_tlb39 : (s.flushTlbs va).core.tlb39 = s.core.tlb39.flush (VmFormat.asidOf .sv39 s.core.sptbr) va := rfl
@[simp] theorem flushTlbs_cycles : (s.flushTlbs va).core.cycles = s.core.cycles := rfl
@[simp] theorem flushTlbs_instret : (s.flushTlbs va).core.instret = s.core.instret := rfl
@[simp] theorem flushTlbs_delta : (s.flushTlbs va).core.delta = s.core.delta := rfl
@[simp] theorem flushTlbs_mstatus : (s.flushTlbs va).core.mstatus = s.core.mstatus := rfl
@[simp] theorem flushTlbs_medeleg : (s.flushTlbs va).core.medeleg = s.core.medeleg := rfl
@[simp] theorem flushTlbs_mideleg : (s.flushTlbs va).core.mideleg = s.core.mideleg := rfl
@[simp] theorem flushTlbs_hedeleg : (s.flushTlbs va).core.hedeleg = s.core.hedeleg := rfl
@[simp] theorem flushTlbs_hideleg : (s.flushTlbs va).core.hideleg = s.core.hideleg := rfl
@[simp] theorem flushTlbs_sedeleg : (s.flushTlbs va).core.sedeleg = s.core.sedeleg := rfl
@[simp] theorem flushTlbs_sideleg : (s.flushTlbs va).core.sideleg = s.core.sideleg := rfl
@[simp] theorem flushTlbs_mie : (s.flushTlbs va).core.mie = s.core.mie := rfl
@[simp] theorem flushTlbs_mip : (s.flushTlbs va).core.mip = s.core.mip := rfl
@[simp] theorem flushTlbs_mBank : (s.flushTlbs va).core.mBank = s.core.mBank := rfl
@[simp] theorem flushTlbs_hBank : (s.flushTlbs va).core.hBank = s.core.hBank := rfl
@[simp] theorem flushTlbs_sBank : (s.flushTlbs va).core.sBank = s.core.sBank := rfl
@[simp] theorem flushTlbs_uBank : (s.flushTlbs va).core.uBank = s.core.uBank := rfl
@[simp] theorem flushTlbs_sptbr : (s.flushTlbs va).core.sptbr = s.core.sptbr := rfl
@[simp] theorem flushTlbs_mucounteren : (s.flushTlbs va).core.mucounteren = s.core.mucounteren := rfl
@[simp] theorem flushTlbs_mscounteren : (s.flushTlbs va).core.mscounteren = s.core.mscounteren := rfl
@[simp] theorem flushTlbs_mhcounteren : (s.flushTlbs va).core.mhcounteren = s.core.mhcounteren := rfl
@[simp] theorem flushTlbs_fcsr : (s.flushTlbs va).core.fcsr = s.core.fcsr := rfl
@[simp] theorem flushTlbs_parked : (s.flushTlbs va).parked = s.parked := rfl
@[simp] theorem flushTlbs_mem : (s.flushTlbs va).mem = s.mem := rfl
@[simp] theorem flushTlbs_clock : (s.flushTlbs va).clock = s.clock := rfl
@[simp] theorem flushTlbs_halted : (s.flushTlbs va).halted = s.halted := rfl
@[simp] theorem flushTlbs_fatal : (s.flushTlbs va).fatal = s.fatal := rfl
@[simp] theorem flushTlbs_params : (s.flushTlbs va).params = s.params := rfl
@[simp] theorem flushTlbs_inputs : (s.flushTlbs va).inputs = s.inputs := rfl
@[simp] theorem flushTlbs_xlen : (s.flushTlbs va).xlen = s.xlen := rfl
@[simp] theorem flushTlbs_misa : (s.flushTlbs va).misa = s.misa := rfl
@[simp] theorem flushTlbs_getX (r : RegIdx) : (s.flushTlbs va).getX r = s.getX r := rfl
@[simp] theorem flushTlbs_getF (r : RegIdx) : (s.flushTlbs va).getF r = s.getF r := rfl
end

section
variable (s : State) (va pa : Word) (n : Nat) (v : Word)
@[simp] theorem pwrite_hartid : (s.pwrite va pa n v).core.hartid = s.core.hartid := rfl
@[simp] theorem pwrite_x : (s.pwrite va pa n v).core.x = s.core.x := rfl
@[simp] theorem pwrite_f : (s.pwrite va pa n v).core.f = s.core.f := rfl
@[simp] theorem pwrite_pc : (s.pwrite va pa n v).core.pc = s.core.pc := rfl
@[simp] theorem pwrite_cur : (s.pwrite va pa n v).core.cur = s.core.cur := rfl
@[simp] theorem pwrite_next : (s.pwrite va pa n v).core.next = s.core.next := rfl
@[simp] theorem pwrite_resv : (s.pwrite va pa n v).core.resv = if s.core.resv = some va then none else s.core.resv := rfl
@[simp] theorem pwrite_tlb32 : (s.pwrite va pa n v).core.tlb32 = s.core.tlb32 := rfl
@[simp] theorem pwrite_tlb39 : (s.pwrite va pa n v).core.tlb39 = s.core.tlb39 := rfl
@[simp] theorem pwrite_cycles : (s.pwrite va pa n v).core.cycles = s.core.cycles := rfl
@[simp] theorem pwrite_instret : (s.pwrite va pa n v).core.instret = s.core.instret := rfl
@[simp] theorem pwrite_delta : (s.pwrite va pa n v).core.delta = { s.core.delta with addr := some va, stWidth := some n } := rfl
@[simp] theorem pwrite_mstatus : (s.pwrite va pa n v).core.mstatus = s.core.mstatus := rfl
@[simp] theorem pwrite_medeleg : (s.pwrite va pa n v).core.medeleg = s.core.medeleg := rfl
@[simp] theorem pwrite_mideleg : (s.pwrite va pa n v).core.mideleg = s.core.mideleg := rfl
@[simp] theorem pwrite_hedeleg : (s.pwrite va pa n v).core.hedeleg = s.core.hedeleg := rfl
@[simp] theorem pwrite_hideleg : (s.pwrite va pa n v).core.hideleg = s.core.hideleg := rfl
@[simp] theorem pwrite_sedeleg : (s.pwrite va pa n v).core.sedeleg = s.core.sedeleg := rfl
@[simp] theorem pwrite_sideleg : (s.pwrite va pa n v).core.sideleg = s.core.sideleg := rfl
@[simp] theorem pwrite_mie : (s.pwrite va pa n v).core.mie = s.core.mie := rfl
@[simp] theorem pwrite_mip : (s.pwrite va pa n v).core.mip = s.core.mip := rfl
@[simp] theorem pwrite_mBank : (s.pwrite va pa n v).core.mBank = s.core.mBank := rfl
@[simp] theorem pwrite_hBank : (s.pwrite va pa n v).core.hBank = s.core.hBank := rfl
@[simp] theorem pwrite_sBank : (s.pwrite va pa n v).core.sBank = s.core.sBank := rfl
@[simp] theorem pwrite_uBank : (s.pwrite va pa n v).core.uBank = s.core.uBank := rfl
@[simp] theorem pwrite_sptbr : (s.pwrite va pa n v).core.sptbr = s.core.sptbr := rfl
@[simp] theorem pwrite_mucounteren : (s.pwrite va pa n v).core.mucounteren = s.core.mucounteren := rfl
@[simp] theorem pwrite_mscounteren : (s.pwrite va pa n v).core.mscounteren = s.core.mscounteren := rfl
@[simp] theorem pwrite_mhcounteren : (s.pwrite va pa n v).core.mhcounteren = s.core.mhcounteren := rfl
@[simp] theorem pwrite_fcsr : (s.pwrite va pa n v).core.fcsr = s.core.fcsr := rfl
@[simp] theorem pwrite_parked : (s.pwrite va pa n v).parked = s.parked := rfl
@[simp] theorem pwrite_mem : (s.pwrite va pa n v).mem = s.mem.writeLE pa n v := rfl
@[simp] theorem pwrite_clock : (s.pwrite va pa n v).clock = s.clock := rfl
@[simp] theorem pwrite_halted : (s.pwrite va pa n v).halted = if pa = s.params.exitAddr then some (lowBytes n v) else s.halted := rfl
@[simp] theorem pwrite_fatal : (s.pwrite va pa n v).fatal = s.fatal := rfl
@[simp] theorem pwrite_params : (s.pwrite va pa n v).params = s.params := rfl
@[simp] theorem pwrite_inputs : (s.pwrite va pa n v).inputs = s.inputs := rfl
@[simp] theorem pwrite_xlen : (s.pwrite va pa n v).xlen = s.xlen := rfl
@[simp] theorem pwrite_misa : (s.pwrite va pa n v).misa = s.misa := rfl
@[simp] theorem pwrite_getX (r : RegIdx) : (s.pwrite va pa n v).getX r = s.getX r := rfl
@[simp] theorem pwrite_getF (r : RegIdx) : (s.pwrite va pa n v).getF r = s.getF r := rfl
end

section
variable (s : State)
@[simp] theorem startStep_hartid : (s.startStep).core.hartid = s.core.hartid := rfl
@[simp] theorem startStep_x : (s.startStep).core.x = s.core.x := rfl
@[simp] theorem startStep_f : (s.startStep).core.f = s.core.f := rfl
@[simp] theorem startStep_pc : (s.startStep).core.pc = s.core.pc := rfl
@[simp] theorem startStep_cur : (s.startStep).core.cur = s.core.cur := rfl
@[simp] theorem startStep_next : (s.startStep).core.next = .none := rfl
@[simp] theorem startStep_resv : (s.startStep).core.resv = s.core.resv := rfl
@[simp] theorem startStep_tlb32 : (s.startStep).core.tlb32 = s.core.tlb32 := rfl
@[simp] theorem startStep_tlb39 : (s.startStep).core.tlb39 = s.core.tlb39 := rfl
@[simp] theorem startStep_cycles : (s.startStep).core.cycles = s.core.cycles := rfl
@[simp] theorem startStep_instret : (s.startStep).core.instret = s.core.instret := rfl
@[simp] theorem startStep_delta : (s.startStep).core.delta = Delta.clear s.core.pc := rfl
@[simp] theorem startStep_mstatus : (s.startStep).core.mstatus = s.core.mstatus := rfl
@[simp] theorem startStep_medeleg : (s.startStep).core.medeleg = s.core.medeleg := rfl
@[simp] theorem startStep_mideleg : (s.startStep).core.mideleg = s.core.mideleg := rfl
@[simp] theorem startStep_hedeleg : (s.startStep).core.hedeleg = s.core.hedeleg := rfl
@[simp] theorem startStep_hideleg : (s.startStep).core.hideleg = s.core.hideleg := rfl
@[simp] theorem startStep_sedeleg : (s.startStep).core.sedeleg = s.core.sedeleg := rfl
@[simp] theorem startStep_sideleg : (s.startStep).core.sideleg = s.core.sideleg := rfl
@[simp] theorem startStep_mie : (s.startStep).core.mie = s.core.mie := rfl
@[simp] theorem startStep_mip : (s.startStep).core.mip = s.core.mip := rfl
@[simp] theorem startStep_mBank : (s.startStep).core.mBank = s.core.mBank := rfl
@[simp] theorem startStep_hBank : (s.startStep).core.hBank = s.core.hBank := rfl
@[simp] theorem startStep_sBank : (s.startStep).core.sBank = s.core.sBank := rfl
@[simp] theorem startStep_uBank : (s.startStep).core.uBank = s.core.uBank := rfl
@[simp] theorem startStep_sptbr : (s.startStep).core.sptbr = s.core.sptbr := rfl
@[simp] theorem startStep_mucounteren : (s.startStep).core.mucounteren = s.core.mucounteren := rfl
@[simp] theorem startStep_mscounteren : (s.startStep).core.mscounteren = s.core.mscounteren := rfl
@[simp] theorem startStep_mhcounteren : (s.startStep).core.mhcounteren = s.core.mhcounteren := rfl
@[simp] theorem startStep_fcsr : (s.startStep).core.fcsr = s.core.fcsr := rfl
@[simp] theorem startStep_parked : (s.startStep).parked = s.parked := rfl
@[simp] theorem startStep_mem : (s.startStep).mem = s.mem := rfl
@[simp] theorem startStep_clock : (s.startStep).clock = s.clock := rfl
@[simp] theorem startStep_halted : (s.startStep).halted = s.halted := rfl
@[simp] theorem startStep_fatal : (s.startStep).fatal = s.fatal := rfl
@[simp] theorem startStep_params : (s.startStep).params = s.params := rfl
@[simp] theorem startStep_inputs : (s.startStep).inputs = s.inputs := rfl
@[simp] theorem startStep_xlen : (s.startStep).xlen = s.xlen := rfl
@[simp] theorem startStep_misa : (s.startStep).misa = s.misa := rfl
@[simp] theorem startStep_getX (r : RegIdx) : (s.startStep).getX r = s.getX r := rfl
@[simp] theorem startStep_getF (r : RegIdx) : (s.startStep).getF r = s.getF r := rfl
end

section
variable (s : State)
@[simp] theorem tick_hartid : (s.tick).core.hartid = s.core.hartid := rfl
@[simp] theorem tick_x : (s.tick).core.x = s.core.x := rfl
@[simp] theorem tick_f : (s.tick).core.f = s.core.f := rfl
@[simp] theorem tick_pc : (s.tick).core.pc = s.core.pc := rfl
@[simp] theorem tick_cur : (s.tick).core.cur = s.core.cur := rfl
@[simp] theorem tick_next : (s.tick).core.next = s.core.next := rfl
@[simp] theorem tick_resv : (s.tick).core.resv = s.core.resv := rfl
@[simp] theorem tick_tlb32 : (s.tick).core.tlb32 = s.core.tlb32 := rfl
@[simp] theorem tick_tlb39 : (s.tick).core.tlb39 = s.core.tlb39 := rfl
@[simp] theorem tick_cycles : (s.tick).core.cycles = s.core.cycles + 1#64 := rfl
@[simp] theorem tick_instret : (s.tick).core.instret = s.core.instret := rfl
@[simp] theorem tick_delta : (s.tick).core.delta = s.core.delta := rfl
@[simp] theorem tick_mstatus : (s.tick).core.mstatus = s.core.mstatus := rfl
@[simp] theorem tick_medeleg : (s.tick).core.medeleg = s.core.medeleg := rfl
@[simp] theorem tick_mideleg : (s.tick).core.mideleg = s.core.mideleg := rfl
@[simp] theorem tick_hedeleg : (s.tick).core.hedeleg = s.core.hedeleg := rfl
@[simp] theorem tick_hideleg : (s.tick).core.hideleg = s.core.hideleg := rfl
@[simp] theorem tick_sedeleg : (s.tick).core.sedeleg = s.core.sedeleg := rfl
@[simp] theorem tick_sideleg : (s.tick).core.sideleg = s.core.sideleg := rfl
@[simp] theorem tick_mie : (s.tick).core.mie = s.core.mie := rfl
@[simp] theorem tick_mip : (s.tick).core.mip = s.core.mip := rfl
@[simp] theorem tick_mBank : (s.tick).core.mBank = s.core.mBank := rfl
@[simp] theorem tick_hBank : (s.tick).core.hBank = s.core.hBank := rfl
@[simp] theorem tick_sBank : (s.tick).core.sBank = s.core.sBank := rfl
@[simp] theorem tick_uBank : (s.tick).core.uBank = s.core.uBank := rfl
@[simp] theorem tick_sptbr : (s.tick).core.sptbr = s.core.sptbr := rfl
@[simp] theorem tick_mucounteren : (s.tick).core.mucounteren = s.core.mucounteren := rfl
@[simp] theorem tick_mscounteren : (s.tick).core.mscounteren = s.core.mscounteren := rfl
@[simp] theorem tick_mhcounteren : (s.tick).core.mhcounteren = s.core.mhcounteren := rfl
@[simp] theorem tick_fcsr : (s.tick).core.fcsr = s.core.fcsr := rfl
@[simp] theorem tick_parked : (s.tick).parked = s.parked := rfl
@[simp] theorem tick_mem : (s.tick).mem = s.mem := rfl
@[simp] theorem tick_clock : (s.tick).clock = BitVec.ofNat 64 ((s.core.cycles + 1#64).toNat / s.params.tickRatio) := rfl
@[simp] theorem tick_halted : (s.tick).halted = s.halted := rfl
@[simp] theorem tick_fatal : (s.tick).fatal = s.fatal := rfl
@[simp] theorem tick_params : (s.tick).params = s.params := rfl
@[simp] theorem tick_inputs : (s.tick).inputs = s.inputs := rfl
@[simp] theorem tick_xlen : (s.tick).xlen = s.xlen := rfl
@[simp] theorem tick_misa : (s.tick).misa = s.misa := rfl
@[simp] theorem tick_getX (r : RegIdx) : (s.tick).getX r = s.getX r := rfl
@[simp] theorem tick_getF (r : RegIdx) : (s.tick).getF r = s.getF r := rfl
end

section
variable (s : State) (v : Word)
@[simp] theorem retireTo_hartid : (s.retireTo v).core.hartid = s.core.hartid := rfl
@[simp] theorem retireTo_x : (s.retireTo v).core.x = s.core.x := rfl
@[simp] theorem retireTo_f : (s.retireTo v).core.f = s.core.f := rfl
@[simp] theorem retireTo_pc : (s.retireTo v).core.pc = s.xlen.zext v := rfl
@[simp] theorem retireTo_cur : (s.retireTo v).core.cur = s.core.cur := rfl
@[simp] theorem retireTo_next : (s.retireTo v).core.next = s.core.next := rfl
@[simp] theorem retireTo_resv : (s.retireTo v).core.resv = s.core.resv := rfl
@[simp] theorem retireTo_tlb32 : (s.retireTo v).core.tlb32 = s.core.tlb32 := rfl
@[simp] theorem retireTo_tlb39 : (s.retireTo v).core.tlb39 = s.core.tlb39 := rfl
@[simp] theorem retireTo_cycles : (s.retireTo v).core.cycles = s.core.cycles := rfl
@[simp] theorem retireTo_instret : (s.retireTo v).core.instret = s.core.instret + 1#64 := rfl
@[simp] theorem retireTo_delta : (s.retireTo v).core.delta = s.core.delta := rfl
@[simp] theorem retireTo_mstatus : (s.retireTo v).core.mstatus = s.core.mstatus := rfl
@[simp] theorem retireTo_medeleg : (s.retireTo v).core.medeleg = s.core.medeleg := rfl
@[simp] theorem retireTo_mideleg : (s.retireTo v).core.mideleg = s.core.mideleg := rfl
@[simp] theorem retireTo_hedeleg : (s.retireTo v).core.hedeleg = s.core.hedeleg := rfl
@[simp] theorem retireTo_hideleg : (s.retireTo v).core.hideleg = s.core.hideleg := rfl
@[simp] theorem retireTo_sedeleg : (s.retireTo v).core.sedeleg = s.core.sedeleg := rfl
@[simp] theorem retireTo_sideleg : (s.retireTo v).core.sideleg = s.core.sideleg := rfl
@[simp] theorem retireTo_mie : (s.retireTo v).core.mie = s.core.mie := rfl
@[simp] theorem retireTo_mip : (s.retireTo v).core.mip = s.core.mip := rfl
@[simp] theorem retireTo_mBank : (s.retireTo v).core.mBank = s.core.mBank := rfl
@[simp] theorem retireTo_hBank : (s.retireTo v).core.hBank = s.core.hBank := rfl
@[simp] theorem retireTo_sBank : (s.retireTo v).core.sBank = s.core.sBank := rfl
@[simp] theorem retireTo_uBank : (s.retireTo v).core.uBank = s.core.uBank := rfl
@[simp] theorem retireTo_sptbr : (s.retireTo v).core.sptbr = s.core.sptbr := rfl
@[simp] theorem retireTo_mucounteren : (s.retireTo v).core.mucounteren = s.core.mucounteren := rfl
@[simp] theorem retireTo_mscounteren : (s.retireTo v).core.mscounteren = s.core.mscounteren := rfl
@[simp] theorem retireTo_mhcounteren : (s.retireTo v).core.mhcounteren = s.core.mhcounteren := rfl
@[simp] theorem retireTo_fcsr : (s.retireTo v).core.fcsr = s.core.fcsr := rfl
@[simp] theorem retireTo_parked : (s.retireTo v).parked = s.parked := rfl
@[simp] theorem retireTo_mem : (s.retireTo v).mem = s.mem := rfl
@[simp] theorem retireTo_clock : (s.retireTo v).clock = s.clock := rfl
@[simp] theorem retireTo_halted : (s.retireTo v).halted = s.halted := rfl
@[simp] theorem retireTo_fatal : (s.retireTo v).fatal = s.fatal := rfl
@[simp] theorem retireTo_params : (s.retireTo v).params = s.params := rfl
@[simp] theorem retireTo_inputs : (s.retireTo v).inputs = s.inputs := rfl
@[simp] theorem retireTo_xlen : (s.retireTo v).xlen = s.xlen := rfl
@[simp] theorem retireTo_misa : (s.retireTo v).misa = s.misa := rfl
@[simp] theorem retireTo_getX (r : RegIdx) : (s.retireTo v).getX r = s.getX r := rfl
@[simp] theorem retireTo_getF (r : RegIdx) : (s.retireTo v).getF r = s.getF r := rfl
end

section
variable (s : State)
@[simp] theorem retire_hartid : (s.retire).core.hartid = s.core.hartid := rfl
@[simp] theorem retire_x : (s.retire).core.x = s.core.x := rfl
@[simp] theorem retire_f : (s.retire).core.f = s.core.f := rfl
@[simp] theorem retire_pc : (s.retire).core.pc = s.core.pc := rfl
@[simp] theorem retire_cur : (s.retire).core.cur = s.core.cur := rfl
@[simp] theorem retire_next : (s.retire).core.next = s.core.next := rfl
@[simp] theorem retire_resv : (s.retire).core.resv = s.core.resv := rfl
@[simp] theorem retire_tlb32 : (s.retire).core.tlb32 = s.core.tlb32 := rfl
@[simp] theorem retire_tlb39 : (s.retire).core.tlb39 = s.core.tlb39 := rfl
@[simp] theorem retire_cycles : (s.retire).core.cycles = s.core.cycles := rfl
@[simp] theorem retire_instret : (s.retire).core.instret = s.core.instret + 1#64 := rfl
@[simp] theorem retire_delta : (s.retire).core.delta = s.core.delta := rfl
@[simp] theorem retire_mstatus : (s.retire).core.mstatus = s.core.mstatus := rfl
@[simp] theorem retire_medeleg : (s.retire).core.medeleg = s.core.medeleg := rfl
@[simp] theorem retire_mideleg : (s.retire).core.mideleg = s.core.mideleg := rfl
@[simp] theorem retire_hedeleg : (s.retire).core.hedeleg = s.core.hedeleg := rfl
@[simp] theorem retire_hideleg : (s.retire).core.hideleg = s.core.hideleg := rfl
@[simp] theorem retire_sedeleg : (s.retire).core.sedeleg = s.core.sedeleg := rfl
@[simp] theorem retire_sideleg : (s.retire).core.sideleg = s.core.sideleg := rfl
@[simp] theorem retire_mie : (s.retire).core.mie = s.core.mie := rfl
@[simp] theorem retire_mip : (s.retire).core.mip = s.core.mip := rfl
@[simp] theorem retire_mBank : (s.retire).core.mBank = s.core.mBank := rfl
@[simp] theorem retire_hBank : (s.retire).core.hBank = s.core.hBank := rfl
@[simp] theorem retire_sBank : (s.retire).core.sBank = s.core.sBank := rfl
@[simp] theorem retire_uBank : (s.retire).core.uBank = s.core.uBank := rfl
@[simp] theorem retire_sptbr : (s.retire).core.sptbr = s.core.sptbr := rfl
@[simp] theorem retire_mucounteren : (s.retire).core.mucounteren = s.core.mucounteren := rfl
@[simp] theorem retire_mscounteren : (s.retire).core.mscounteren = s.core.mscounteren := rfl
@[simp] theorem retire_mhcounteren : (s.retire).core.mhcounteren = s.core.mhcounteren := rfl
@[simp] theorem retire_fcsr : (s.retire).core.fcsr = s.core.fcsr := rfl
@[simp] theorem retire_parked : (s.retire).parked = s.parked := rfl
@[simp] theorem retire_mem : (s.retire).mem = s.mem := rfl
@[simp] theorem retire_clock : (s.retire).clock = s.clock := rfl
@[simp] theorem retire_halted : (s.retire).halted = s.halted := rfl
@[simp] theorem retire_fatal : (s.retire).fatal = s.fatal := rfl
@[simp] theorem retire_params : (s.retire).params = s.params := rfl
@[simp] theorem retire_inputs : (s.retire).inputs = s.inputs := rfl
@[simp] theorem retire_xlen : (s.retire).xlen = s.xlen := rfl
@[simp] theorem retire_misa : (s.retire).misa = s.misa := rfl
@[simp] theorem retire_getX (r : RegIdx) : (s.retire).getX r = s.getX r := rfl
@[simp] theorem retire_getF (r : RegIdx) : (s.retire).getF r = s.getF r := rfl
end

section
variable (s : State) (intr : Bool) (code : BitVec 4) (t : Priv) (epc : Word) (b : Option Word)
@[simp] theorem trapEntry_hartid : (s.trapEntry intr code t epc b).core.hartid = s.core.hartid := rfl
@[simp] theorem trapEntry_x : (s.trapEntry intr code t epc b).core.x = s.core.x := rfl
@[simp] theorem trapEntry_f : (s.trapEntry intr code t epc b).core.f = s.core.f := rfl
@[simp] theorem trapEntry_pc : (s.trapEntry intr code t epc b).core.pc = s.xlen.zext (s.core.bank t).tvec := rfl
@[simp] theorem trapEntry_cur : (s.trapEntry intr code t epc b).core.cur = t := rfl
@[simp] theorem trapEntry_next : (s.trapEntry intr code t epc b).core.next = s.core.next := rfl
@[simp] theorem trapEntry_resv : (s.trapEntry intr code t epc b).core.resv = s.core.resv := rfl
@[simp] theorem trapEntry_tlb32 : (s.trapEntry intr code t epc b).core.tlb32 = s.core.tlb32 := rfl
@[simp] theorem trapEntry_tlb39 : (s.trapEntry intr code t epc b).core.tlb39 = s.core.tlb39 := rfl
@[simp] theorem trapEntry_cycles : (s.trapEntry intr code t epc b).core.cycles = s.core.cycles := rfl
@[simp] theorem trapEntry_instret : (s.trapEntry intr code t epc b).core.instret = s.core.instret := rfl
@[simp] theorem trapEntry_delta : (s.trapEntry intr code t epc b).core.delta = { s.core.delta with excTaken := true } := rfl
@[simp] theorem trapEntry_mstatus : (s.trapEntry intr code t epc b).core.mstatus = statusTrap s.core.mstatus s.core.cur t := rfl
@[simp] theorem trapEntry_medeleg : (s.trapEntry intr code t epc b).core.medeleg = s.core.medeleg := rfl
@[simp] theorem trapEntry_mideleg : (s.trapEntry intr code t epc b).core.mideleg = s.core.mideleg := rfl
@[simp] theorem trapEntry_hedeleg : (s.trapEntry intr code t epc b).core.hedeleg = s.core.hedeleg := rfl
@[simp] theorem trapEntry_hideleg : (s.trapEntry intr code t epc b).core.hideleg = s.core.hideleg := rfl
@[simp] theorem trapEntry_sedeleg : (s.trapEntry intr code t epc b).core.sedeleg = s.core.sedeleg := rfl
@[simp] theorem trapEntry_sideleg : (s.trapEntry intr code t epc b).core.sideleg = s.core.sideleg := rfl
@[simp] theorem trapEntry_mie : (s.trapEntry intr code t epc b).core.mie = s.core.mie := rfl
@[simp] theorem trapEntry_mip : (s.trapEntry intr code t epc b).core.mip = s.core.mip := rfl
@[simp] theorem trapEntry_mBank : (s.trapEntry intr code t epc b).core.mBank = if t = .machine then (s.core.bank t).enter intr code epc b else s.core.mBank := rfl
@[simp] theorem trapEntry_hBank : (s.trapEntry intr code t epc b).core.hBank = if t = .hypervisor then (s.core.bank t).enter intr code epc b else s.core.hBank := rfl
@[simp] theorem trapEntry_sBank : (s.trapEntry intr code t epc b).core.sBank = if t = .supervisor then (s.core.bank t).enter intr code epc b else s.core.sBank := rfl
@[simp] theorem trapEntry_uBank : (s.trapEntry intr code t epc b).core.uBank = if t = .user then (s.core.bank t).enter intr code epc b else s.core.uBank := rfl
@[simp] theorem trapEntry_sptbr : (s.trapEntry intr code t epc b).core.sptbr = s.core.sptbr := rfl
@[simp] theorem trapEntry_mucounteren : (s.trapEntry intr code t epc b).core.mucounteren = s.core.mucounteren := rfl
@[simp] theorem trapEntry_mscounteren : (s.trapEntry intr code t epc b).core.mscounteren = s.core.mscounteren := rfl
@[simp] theorem trapEntry_mhcounteren : (s.trapEntry intr code t epc b).core.mhcounteren = s.core.mhcounteren := rfl
@[simp] theorem trapEntry_fcsr : (s.trapEntry intr code t epc b).core.fcsr = s.core.fcsr := rfl
@[simp] theorem trapEntry_parked : (s.trapEntry intr code t epc b).parked = s.parked := rfl
@[simp] theorem trapEntry_mem : (s.trapEntry intr code t epc b).mem = s.mem := rfl
@[simp] theorem trapEntry_clock : (s.trapEntry intr code t epc b).clock = s.clock := rfl
@[simp] theorem trapEntry_halted : (s.trapEntry intr code t epc b).halted = s.halted := rfl
@[simp] theorem trapEntry_fatal : (s.trapEntry intr code t epc b).fatal = s.fatal := rfl
@[simp] theorem trapEntry_params : (s.trapEntry intr code t epc b).params = s.params := rfl
@[simp] theorem trapEntry_inputs : (s.trapEntry intr code t epc b).inputs = s.inputs := rfl
@[simp] theorem trapEntry_xlen : (s.trapEntry intr code t epc b).xlen = s.xlen := rfl
@[simp] theorem trapEntry_misa : (s.trapEntry intr code t epc b).misa = s.misa := rfl
@[simp] theorem trapEntry_getX (r : RegIdx) : (s.trapEntry intr code t epc b).getX r = s.getX r := rfl
@[simp] theorem trapEntry_getF (r : RegIdx) : (s.trapEntry intr code t epc b).getF r = s.getF r := rfl
end

end Sys2Proof.Machine
end

