-- ==== Sys2Proof/Laws/Shapes.lean ====
section
/-!
SUPPORT. Each shared operation of the execute stage has the effect its shape in Safety.lean names: the
register writes, the raise, the flag accrual, the write of memory. One lemma each, cited instead of
unfolding the operation.
-/

namespace Sys2Proof.Machine

variable (s : State)

theorem getX_setX (rd r : RegIdx) (v : Word) :
    (s.setX rd v).getX r = if r = rd then (if rd = 0#5 then 0#64 else v) else s.getX r := by
  unfold State.getX State.setX
  by_cases h0 : rd = 0#5
  · subst h0; by_cases hr : r = 0#5 <;> simp [hr]
  · by_cases hr : r = rd
    · subst hr; simp [h0]
    · have hne : rd.toNat ≠ r.toNat := fun h => hr (BitVec.eq_of_toNat_eq h.symm)
      simp [h0, hr, hne]

theorem getF_setF (fd r : RegIdx) (v : Word) :
    (s.setF fd v).getF r = if r = fd then v else s.getF r := by
  unfold State.getF State.setF
  by_cases hr : r = fd
  · subst hr; simp
  · have hne : fd.toNat ≠ r.toNat := fun h => hr (BitVec.eq_of_toNat_eq h.symm)
    simp [hr, hne]

/-- `wr(rd, v)` writes `sext_64(v)` and nothing else. -/
theorem wroteX_wr (rd : RegIdx) (v : Word) : WroteX s (s.wr rd v) rd (s.params.arch.sext v) where
  value := by
    show (s.setX rd _).getX rd = _
    rw [getX_setX]; simp [State.xlen]
  others r hr := by
    show (s.setX rd _).getX r = _
    rw [getX_setX]; simp [hr]
  mem _ := rfl
  rest := rfl

/-- `f[fd] <- v` writes `v`, marks the context dirty, and nothing else. -/
theorem wroteF_wrF (fd : RegIdx) (v : Word) : WroteF s (s.wrF fd v) fd v where
  value := by
    show (s.setF fd _).getF fd = _
    rw [getF_setF]; simp
  others r hr := by
    show (s.setF fd _).getF r = _
    rw [getF_setF]; simp [hr]
  mem _ := rfl
  rest := rfl

/-- `raise` records the exception and nothing else. -/
theorem raised_raise (c : BitVec 4) (b : Option Word) : Raised s (s.raise c b) c b where
  slot := rfl
  record := by cases b <;> rfl
  regs := ⟨fun _ => rfl, fun _ => rfl⟩
  mem _ := rfl
  rest := rfl

/-- Accruing flags is what the statements call `withFlags`. -/
theorem accrue_eq_withFlags (fl : FpFlags) : s.accrue fl = s.withFlags fl := rfl

/-- A meaning that answers `wr(rd, v)` writes `sext_64(v)`. -/
theorem writes_of_wr {s : State} {i : Instr} {rd : RegIdx} {v w : Word}
    (h : exec i s = .next (s.wr rd v)) (hw : s.params.arch.sext v = w) : Writes s i rd w :=
  ⟨_, h, hw ▸ wroteX_wr s rd v⟩

/-- A meaning that raises has the raise as its whole effect. -/
theorem completes_raised {s : State} {i : Instr} {c : BitVec 4} {b : Option Word}
    (h : exec i s = .next (s.raise c b)) : Completes i s fun t => Raised s t c b :=
  ⟨_, h, raised_raise s c b⟩

/-- A floating-point result is written after its flags are accrued. -/
theorem fpWrites_of {s : State} {i : Instr} {fd : RegIdx} {v : Word} {fl : FpFlags}
    (h : exec i s = .next ((s.accrue fl).wrF fd v)) : FpWrites s i fd v fl :=
  ⟨_, h, wroteF_wrF _ fd v⟩

/-- An integer result of a floating-point instruction is written after its flags are accrued. -/
theorem fpWritesX_of {s : State} {i : Instr} {rd : RegIdx} {v w : Word} {fl : FpFlags}
    (h : exec i s = .next ((s.accrue fl).wr rd v)) (hw : s.params.arch.sext v = w) :
    FpWritesX s i rd w fl :=
  ⟨_, h, hw ▸ wroteX_wr (s.accrue fl) rd v⟩

/-! ## Memory -/

/-- `n` bytes make a number below `256^n`. -/
theorem nat_lt (m : Memory) (pa : Word) : ∀ n : Nat, m.nat pa n < 256 ^ n
  | 0 => by simp [Memory.nat]
  | n + 1 => by
    rw [Memory.nat]
    have h := nat_lt m pa n
    have hx := (m.read (pa + BitVec.ofNat 64 n).toNat).isLt
    rw [pow_succ]
    nlinarith [Nat.pos_of_ne_zero (pow_ne_zero n (show (256 : Nat) ≠ 0 by decide))]

/-- The little-endian value read is the weighted sum of its bytes. -/
theorem readLE_toNat (m : Memory) : ∀ (n : Nat) (pa : Word), n ≤ 8 →
    (m.readLE pa n).toNat = m.nat pa n := by
  have split : ∀ (n : Nat) (pa : Word), m.nat pa (n + 1) =
      (m.read pa.toNat).toNat + 256 * m.nat (pa + 1#64) n := by
    intro n
    induction n with
    | zero => intro pa; simp [Memory.nat]
    | succ n ih =>
      intro pa
      rw [Memory.nat, ih, Memory.nat, ← ofNat_succ_add]
      ring
  intro n
  induction n with
  | zero => intro pa _; rfl
  | succ n ih =>
    intro pa hn
    have ihn := ih (pa + 1#64) (by omega)
    have hb : m.nat (pa + 1#64) n < 256 ^ n := nat_lt m _ n
    have hp : (256 : Nat) ^ n * 256 ≤ 2 ^ 64 := by
      rw [← pow_succ, show (256 : Nat) = 2 ^ 8 by rfl, ← pow_mul]
      exact Nat.pow_le_pow_right (by decide) (by omega)
    rw [split, Memory.readLE, BitVec.toNat_or, BitVec.toNat_shiftLeft, ihn, Nat.shiftLeft_eq,
      Nat.mod_eq_of_lt (by omega), Nat.mul_comm]
    have hx := (m.read pa.toNat).isLt
    rw [BitVec.toNat_setWidth, Nat.mod_eq_of_lt (by omega), Nat.or_comm,
      show (256 : Nat) * m.nat (pa + 1#64) n = 2 ^ 8 * m.nat (pa + 1#64) n by rfl,
      ← Nat.two_pow_add_eq_or_of_lt hx, Nat.add_comm]

theorem readLE_eq_ofNat (m : Memory) (n : Nat) (pa : Word) (hn : n ≤ 8) :
    m.readLE pa n = BitVec.ofNat 64 (m.nat pa n) := by
  apply BitVec.eq_of_toNat_eq
  rw [BitVec.toNat_ofNat, ← readLE_toNat m n pa hn, Nat.mod_eq_of_lt (m.readLE pa n).isLt]

theorem and_lowMask_toNat (n : Nat) (hn : n ≤ 64) (v : Word) : (v &&& lowMask n).toNat = v.toNat % 2 ^ n := by
  have h : (lowMask n).toNat = 2 ^ n - 1 := by
    rcases Nat.lt_or_ge n 64 with hlt | hge
    · have hp : 2 ^ n < 2 ^ 64 := Nat.pow_lt_pow_right (by omega) hlt
      have h1 : 1 ≤ 2 ^ n := Nat.one_le_two_pow
      unfold lowMask
      rw [BitVec.toNat_sub, BitVec.toNat_shiftLeft]
      simp only [BitVec.toNat_ofNat, Nat.one_mod, Nat.shiftLeft_eq, Nat.one_mul]
      rw [Nat.mod_eq_of_lt hp]
      omega
    · obtain rfl : n = 64 := by omega
      rfl
  rw [BitVec.toNat_and, h, Nat.and_two_pow_sub_one_eq_mod]

theorem lowBytes_eq_low (n : Nat) (hn : n ≤ 8) (v : Word) : lowBytes n v = low n v := by
  apply BitVec.eq_of_toNat_eq
  have h : (256 : Nat) ^ n = 2 ^ (8 * n) := by rw [show (256 : Nat) = 2 ^ 8 by rfl, ← pow_mul]
  unfold lowBytes low
  rw [and_lowMask_toNat _ (by omega), BitVec.toNat_ofNat, h]
  exact (Nat.mod_eq_of_lt (lt_of_le_of_lt (Nat.mod_le _ _) v.isLt)).symm

/-! ## The write of memory -/

/-- `pwrite` is the effect `Stored` names. -/
theorem stored_pwrite (u : State) (va pa : Word) (n : Nat) (d : Word) (hn : n ≤ 8) :
    Stored u (u.pwrite va pa n d) va pa n d where
  bytes := by
    refine ⟨fun k hk => ?_, fun a ha => ?_⟩
    · exact read_writeLE_at n k u.mem pa d hk (by omega)
    · exact read_writeLE_of_ne n u.mem pa d ha
  rest := by rw [← lowBytes_eq_low n hn]; rfl

end Sys2Proof.Machine
end

