-- ==== Sys2Proof/Laws/Address.lean ====
section
/-!
SUPPORT. Addresses, targets and link values as exact integer sums reduced to the running width
(10_state.md R28, 42_control_transfer.md R290 to R292, 43_load_store.md R300, 45_atomics.md R340).
-/

namespace Sys2Proof.Machine

theorem two_pow_bits_dvd (x : Xlen) : (2:Int)^x.bits ∣ (2:Int)^64 := by cases x <;> decide

theorem bmod64_emod (x : Xlen) (z : Int) : (z.bmod (2^64)) % 2^x.bits = z % 2^x.bits := by
  have hx := two_pow_bits_dvd x
  rw [← Int.emod_emod_of_dvd _ hx, show ((2 : Int) ^ 64) = ((2 ^ 64 : Nat) : Int) by norm_num,
      Int.bmod_emod]
  rw [Int.emod_emod_of_dvd]; exact_mod_cast hx

theorem toInt_emod (x : Xlen) (v : Word) : v.toInt % 2^x.bits = (v.toNat : Int) % 2^x.bits := by
  rw [BitVec.toInt_eq_toNat_bmod, bmod64_emod]

theorem S_emod (x : Xlen) (v : Word) : x.S v % 2^x.bits = v.toInt % 2^x.bits := by
  rw [toInt_emod, ← U_eq_S_emod]; simp [Xlen.U]

/-- A 64-bit sum cut to the running width is the exact sum cut to it. -/
theorem addr_add (x : Xlen) (a b : Word) : x.zext (a + b) = x.addr (a.toInt + b.toInt) := by
  rw [zext_eq_addr, BitVec.toInt_add]
  exact addr_congr x (bmod64_emod x _)

theorem stored_add (x : Xlen) (a b : Word) : x.sext (a + b) = x.stored (a.toInt + b.toInt) := by
  rw [sext_eq_stored, BitVec.toInt_add]
  exact stored_congr x (bmod64_emod x _)

theorem add_emod_congr {m a b c d : Int} (h : a % m = c % m) (h' : b % m = d % m) : (a + b) % m = (c
    + d) % m := by
  rw [Int.add_emod, h, h', ← Int.add_emod]

/-- The target of JAL and of a branch. -/
theorem relTarget_eq (s : State) {n : Nat} (hn : n ≤ 64) (off : BitVec n) :
    s.relTarget off = s.params.arch.addr (s.core.pc.toNat + off.toInt) := by
  unfold State.relTarget
  rw [addr_add]
  apply addr_congr
  exact add_emod_congr (toInt_emod _ _) (by rw [offWord, BitVec.toInt_signExtend_of_le hn])

/-- The link value. -/
theorem link_eq (s : State) : s.params.arch.sext (s.core.pc + 4#64) = s.params.arch.stored
    (s.core.pc.toNat + 4) := by
  rw [stored_add]; exact stored_congr _ (add_emod_congr (toInt_emod _ _) rfl)

/-- The effective address of a load or store. -/
theorem ea_eq (s : State) (rs1 : RegIdx) (imm : BitVec 12) :
    s.ea rs1 imm = s.params.arch.addr (s.params.arch.S (s.getX rs1) + imm.toInt) := by
  unfold State.ea
  rw [addr_add]
  apply addr_congr
  refine add_emod_congr (S_emod _ _).symm (by rw [immWord, BitVec.toInt_signExtend_of_le (by decide)])

/-- The address of an atomic. -/
theorem amoAddr_eq (s : State) (rs1 : RegIdx) :
    s.amoAddr rs1 = s.params.arch.addr (s.params.arch.U (s.getX rs1)) := by
  unfold State.amoAddr
  rw [zext_eq_addr]; apply addr_congr; rw [toInt_emod]; simp [Xlen.U, State.xlen]

theorem misalignedTarget_iff (t : Word) : misalignedTarget t = true ↔ t.toNat % 4 ≠ 0 := by
  unfold misalignedTarget
  rw [bne_iff_ne, ne_eq, ← BitVec.toNat_inj]; simp

theorem and_not_mask (k : Nat) (hk : k ≤ 64) (v : Word) : (v &&& ~~~lowMask k).toNat = v.toNat / 2 ^
    k * 2 ^ k := by
  have h := and_lowMask_toNat k hk v
  have hs : (v &&& ~~~lowMask k) + (v &&& lowMask k) = v := by
    rw [BitVec.add_eq_or_of_and_eq_zero]
    · ext i hi; simp only [BitVec.getElem_or, BitVec.getElem_and, BitVec.getElem_not]
      cases v[i] <;> cases (lowMask k)[i] <;> rfl
    · ext i hi; simp only [BitVec.getElem_and, BitVec.getElem_not]
      cases v[i] <;> cases (lowMask k)[i] <;> simp
  have hle : (v &&& ~~~lowMask k).toNat + (v &&& lowMask k).toNat < 2 ^ 64 := by
    rw [← BitVec.toNat_add_of_and_eq_zero]
    · exact BitVec.isLt _
    · ext i hi; simp only [BitVec.getElem_and, BitVec.getElem_not]
      cases v[i] <;> cases (lowMask k)[i] <;> simp
  have h2 := congrArg BitVec.toNat hs
  rw [BitVec.toNat_add, Nat.mod_eq_of_lt hle, h] at h2
  have := Nat.div_add_mod v.toNat (2 ^ k)
  rw [Nat.mul_comm] at this
  omega

/-- The target of JALR. -/
theorem jalrTarget_eq (s : State) (rs1 : RegIdx) (imm : BitVec 12) :
    s.jalrTarget rs1 imm = s.params.arch.addr ((s.params.arch.S (s.getX rs1) + imm.toInt) / 2 * 2) := by
  unfold State.jalrTarget
  rw [zext_eq_addr]
  apply addr_congr
  rw [toInt_emod, show ~~~1#64 = ~~~lowMask 1 by rfl, and_not_mask 1 (by decide), show s.xlen =
      s.params.arch from rfl]
  have h : ((s.getX rs1 + immWord imm).toNat : Int) % 2 ^ s.params.arch.bits
      = (s.params.arch.S (s.getX rs1) + imm.toInt) % 2 ^ s.params.arch.bits := by
    rw [← toInt_emod, BitVec.toInt_add, bmod64_emod]
    exact add_emod_congr (S_emod _ _).symm (by rw [immWord, BitVec.toInt_signExtend_of_le (by decide)])
  generalize (s.getX rs1 + immWord imm).toNat = n at *
  generalize s.params.arch.S (s.getX rs1) + imm.toInt = w at *
  have : ((n / 2 ^ 1 * 2 ^ 1 : Nat) : Int) = (n : Int) - n % 2 := by omega
  rw [this, show w / 2 * 2 = w - w % 2 by omega]
  have h2 : (n : Int) % 2 = w % 2 := by
    rw [← Int.emod_emod_of_dvd (n : Int) (show (2 : Int) ∣ 2 ^ s.params.arch.bits by cases
        s.params.arch <;> decide), h,
      Int.emod_emod_of_dvd _ (by cases s.params.arch <;> decide)]
  rw [h2, Int.sub_emod, h, ← Int.sub_emod]

theorem signExt_ofNat (x : Xlen) (n : Nat) (hn : n ≤ 32) (v : Nat) :
    x.sext (signExt n (BitVec.ofNat 64 v)) = x.stored (BitVec.ofNat n v).toInt := by
  rw [sext_eq_stored_S, signExt, S_signExtend x _ hn, BitVec.setWidth_ofNat_of_le (by omega)]

theorem sext_small (x : Xlen) (v : Nat) : x.sext (BitVec.ofNat 64 v) = x.stored v := by
  rw [sext_eq_stored]; apply stored_congr; rw [toInt_emod]
  rw [BitVec.toNat_ofNat]
  push_cast
  exact Int.emod_emod_of_dvd _ (two_pow_bits_dvd x)

theorem aligned_iff_emod (va : Word) (n : Nat) : aligned va n = true ↔ va.toNat % n = 0 := by
    simp [aligned]

/-- What an LR or AMO writes to its destination. -/
theorem sext_atomic {x : Xlen} {n : Nat} (hn : n ≤ 8) (hx : n = 4 ∨ x = .w64) (v : Nat) :
    x.sext (((BitVec.ofNat 64 v).setWidth (8 * n)).signExtend 64) = x.stored (BitVec.ofNat (8 * n)
        v).toInt := by
  rcases hx with rfl | rfl
  · exact signExt_ofNat x 32 (by decide) v
  · show _ = BitVec.ofInt 64 _
    rw [BitVec.setWidth_ofNat_of_le (by omega)]; rfl

end Sys2Proof.Machine
end

