-- ==== Sys2Proof/Laws/Translate.lean ====
section
/-!
SUPPORT. Everything a translation can do: what a TLB lookup answers, what a walk finds, and the state
a translation leaves.
-/

namespace Sys2Proof.Machine

/-! ## Page-table entries after `ad_update` (20_memory.md R144) -/

/-- The bits `ad_update` sets: A, and D for a write. -/
def adMask (k : AccessKind) : Nat :=
  match k with
  | .read | .execute => 0x40
  | .write | .readWrite => 0xC0

theorem adUpdate_eq {n : Nat} (p : BitVec n) (k : AccessKind) :
    adUpdate p k = p ||| BitVec.ofNat n (adMask k) := by
  cases k <;> rfl

theorem getLsbD_adUpdate {n : Nat} (p : BitVec n) (k : AccessKind) (j : Nat) (hj : j < n) :
    (adUpdate p k).getLsbD j =
      (p.getLsbD j || decide (j = 6) || (decide (j = 7) && (k == .write || k == .readWrite))) := by
  rw [adUpdate_eq, BitVec.getLsbD_or, BitVec.getLsbD_ofNat, Bool.or_assoc]
  congr 1
  simp only [hj, decide_true, Bool.true_and]
  by_cases h8 : j < 8
  · have : ∀ (k : AccessKind) (j : Fin 8), (adMask k).testBit j.val
        = (decide (j.val = 6) || (decide (j.val = 7) && (k == .write || k == .readWrite))) := by
      intro k; cases k <;> decide
    exact this k ⟨j, h8⟩
  · have h1 : (adMask k).testBit j = false := by
      apply Nat.testBit_lt_two_pow
      calc adMask k < 2 ^ 8 := by cases k <;> decide
        _ ≤ 2 ^ j := Nat.pow_le_pow_right (by omega) (by omega)
    have h2 : ¬ j = 6 := by omega
    have h3 : ¬ j = 7 := by omega
    simp [h1, h2, h3]

/-- A page-table entry has the width of its format, at least 32 bits. -/
theorem pteBits_ge (f : VmFormat) : 32 ≤ f.pteBits := by cases f <;> decide

/-- `ad_update` changes no permission bit. -/
theorem getLsbD_adUpdate_low {n : Nat} (p : BitVec n) (k : AccessKind) (j : Nat) (h : j < 6) :
    (adUpdate p k).getLsbD j = p.getLsbD j := by
  by_cases hj : j < n
  · rw [getLsbD_adUpdate _ _ _ hj]
    have h2 : ¬ j = 6 := by omega
    have h3 : ¬ j = 7 := by omega
    simp [h2, h3]
  · rw [BitVec.getLsbD_of_ge _ _ (by omega), BitVec.getLsbD_of_ge _ _ (by omega)]

@[simp] theorem permOk_adUpdate {n : Nat} (p : BitVec n) (k k' : AccessKind) (q : Priv) (m u : Bool) :
    permOk (adUpdate p k) k' q m u = permOk p k' q m u := by
  unfold permOk pteU pteR pteW pteX
  rw [getLsbD_adUpdate_low p k 1 (by omega), getLsbD_adUpdate_low p k 2 (by omega),
    getLsbD_adUpdate_low p k 3 (by omega), getLsbD_adUpdate_low p k 4 (by omega)]

@[simp] theorem pteInvalid_adUpdate {n : Nat} (p : BitVec n) (k : AccessKind) :
    pteInvalid (adUpdate p k) = pteInvalid p := by
  unfold pteInvalid pteV pteR pteW
  rw [getLsbD_adUpdate_low p k 0 (by omega), getLsbD_adUpdate_low p k 1 (by omega),
    getLsbD_adUpdate_low p k 2 (by omega)]

@[simp] theorem ptePointer_adUpdate {n : Nat} (p : BitVec n) (k : AccessKind) :
    ptePointer (adUpdate p k) = ptePointer p := by
  unfold ptePointer pteR pteW pteX
  rw [getLsbD_adUpdate_low p k 1 (by omega), getLsbD_adUpdate_low p k 2 (by omega),
    getLsbD_adUpdate_low p k 3 (by omega)]

@[simp] theorem ppnBase_adUpdate (f : VmFormat) {n : Nat} (p : BitVec n) (k : AccessKind) :
    f.ppnBase (adUpdate p k) = f.ppnBase p := by
  unfold VmFormat.ppnBase
  have : (adUpdate p k).setWidth 64 >>> 10 = p.setWidth 64 >>> 10 := by
    apply BitVec.eq_of_getLsbD_eq
    intro i hi
    simp only [BitVec.getLsbD_ushiftRight, BitVec.getLsbD_setWidth]
    by_cases hn : 10 + i < n
    · rw [getLsbD_adUpdate _ _ _ hn]
      have h2 : ¬ 10 + i = 6 := by omega
      have h3 : ¬ 10 + i = 7 := by omega
      simp [h2, h3]
    · rw [BitVec.getLsbD_of_ge _ _ (by omega), BitVec.getLsbD_of_ge _ _ (by omega)]
  rw [this]

@[simp] theorem pbase_adUpdate (f : VmFormat) (i : Nat) {n : Nat} (p : BitVec n) (k : AccessKind) :
    f.pbase i (adUpdate p k) = f.pbase i p := by
  unfold VmFormat.pbase
  rw [ppnBase_adUpdate]

/-! ## The TLB -/

/-- The slot a lookup answers holds the entry, and the entry answers (R142). -/
theorem lookup_some {f : VmFormat} {t : Tlb f} {asid : BitVec f.asidBits} {va : Word} {k : Nat}
    {e : TlbEntry f} (h : t.lookup asid va = some (k, e)) :
    t[k]? = some (some e) ∧ e.hit asid va = true := by
  induction t generalizing k with
  | nil => simp [Tlb.lookup] at h
  | cons slot rest ih =>
    cases slot with
    | none =>
      simp only [Tlb.lookup, Option.map_eq_some_iff] at h
      obtain ⟨⟨k', e'⟩, h1, h2⟩ := h
      injection h2 with hk he
      subst he
      subst hk
      simpa using ih h1
    | some e0 =>
      simp only [Tlb.lookup] at h
      split at h
      · next hh =>
        injection h with h; injection h with hk he
        subst he; subst hk
        exact ⟨rfl, hh⟩
      · simp only [Option.map_eq_some_iff] at h
        obtain ⟨⟨k', e'⟩, h1, h2⟩ := h
        injection h2 with hk he
        subst he
        subst hk
        simpa using ih h1

/-- No entry answers when a lookup answers none (R142). -/
theorem lookup_none {f : VmFormat} {t : Tlb f} {asid : BitVec f.asidBits} {va : Word}
    (h : t.lookup asid va = none) {e : TlbEntry f} (he : some e ∈ t) : e.hit asid va = false := by
  induction t with
  | nil => cases he
  | cons slot rest ih =>
    cases slot with
    | none =>
      simp only [Tlb.lookup, Option.map_eq_none_iff] at h
      exact ih h (by simpa using he)
    | some e0 =>
      simp only [Tlb.lookup] at h
      split at h
      · cases h
      · next hh =>
        simp only [Option.map_eq_none_iff] at h
        rcases List.mem_cons.1 he with h0 | h0
        · injection h0 with h0; subst h0; simpa using hh
        · exact ih h h0

/-- A lookup answers when some entry does. -/
theorem lookup_isSome_of_mem {f : VmFormat} {t : Tlb f} {asid : BitVec f.asidBits} {va : Word}
    {e : TlbEntry f} (he : some e ∈ t) (hh : e.hit asid va = true) :
    ∃ r, t.lookup asid va = some r := by
  cases h : t.lookup asid va with
  | some r => exact ⟨r, rfl⟩
  | none => rw [lookup_none h he] at hh; cases hh

/-- Replacing the answering entry by one that answers leaves the lookup at the same slot. -/
theorem lookup_put_same {f : VmFormat} {t : Tlb f} {asid : BitVec f.asidBits} {va : Word} {k : Nat}
    {e e' : TlbEntry f} (h : t.lookup asid va = some (k, e)) (hh : e'.hit asid va = true) :
    (t.put k e').lookup asid va = some (k, e') := by
  induction t generalizing k with
  | nil => simp [Tlb.lookup] at h
  | cons slot rest ih =>
    cases slot with
    | none =>
      simp only [Tlb.lookup, Option.map_eq_some_iff] at h
      obtain ⟨⟨k', e0⟩, h1, h2⟩ := h
      injection h2 with hk he
      subst he
      subst hk
      have := ih h1
      simp only [Tlb.put] at this
      simp [Tlb.put, Tlb.lookup, this]
    | some e0 =>
      simp only [Tlb.lookup] at h
      split at h
      · injection h with h; injection h with hk he
        subst he; subst hk
        simp [Tlb.put, Tlb.lookup, hh]
      · next hn =>
        simp only [Option.map_eq_some_iff] at h
        obtain ⟨⟨k', e1⟩, h1, h2⟩ := h
        injection h2 with hk he
        subst he
        subst hk
        have := ih h1
        simp only [Tlb.put] at this
        simp [Tlb.put, Tlb.lookup, hn, this]

/-- After a miss, an entry that answers is found at the slot it was put into. -/
theorem lookup_put_miss {f : VmFormat} {t : Tlb f} {asid : BitVec f.asidBits} {va : Word} {k : Nat}
    {e : TlbEntry f} (h : t.lookup asid va = none) (hk : k < t.length) (hh : e.hit asid va = true) :
    (t.put k e).lookup asid va = some (k, e) := by
  induction t generalizing k with
  | nil => simp at hk
  | cons slot rest ih =>
    cases k with
    | zero => simp [Tlb.put, Tlb.lookup, hh]
    | succ k =>
      have hk' : k < rest.length := by simpa using hk
      cases slot with
      | none =>
        simp only [Tlb.lookup, Option.map_eq_none_iff] at h
        have := ih h hk'
        simp only [Tlb.put] at this
        simp [Tlb.put, Tlb.lookup, this]
      | some e0 =>
        simp only [Tlb.lookup] at h
        split at h
        · cases h
        · next hn =>
          simp only [Option.map_eq_none_iff] at h
          have := ih h hk'
          simp only [Tlb.put] at this
          simp [Tlb.put, Tlb.lookup, hn, this]

theorem firstEmpty_lt {f : VmFormat} {t : Tlb f} {k : Nat} (h : t.firstEmpty = some k) :
    k < t.length ∧ t[k]? = some none := by
  induction t generalizing k with
  | nil => simp [Tlb.firstEmpty] at h
  | cons slot rest ih =>
    cases slot with
    | none =>
      simp only [Tlb.firstEmpty, Option.some.injEq] at h
      subst h; simp
    | some e =>
      simp only [Tlb.firstEmpty, Option.map_eq_some_iff] at h
      obtain ⟨k', h1, rfl⟩ := h
      simpa using ih h1

theorem oldest_lt {f : VmFormat} {t : Tlb f} {k : Nat} {a : Word} (h : t.oldest = some (k, a)) :
    k < t.length := by
  induction t generalizing k a with
  | nil => simp [Tlb.oldest] at h
  | cons slot rest ih =>
    cases slot with
    | none =>
      simp only [Tlb.oldest, Option.map_eq_some_iff] at h
      obtain ⟨⟨k', a'⟩, h1, h2⟩ := h
      injection h2 with hk ha
      have := ih h1
      simp only at hk
      simp; omega
    | some e =>
      simp only [Tlb.oldest] at h
      split at h
      · injection h with h; injection h with hk ha
        simp; omega
      · next k' a' h1 =>
        split at h
        · injection h with h; injection h with hk ha
          have := ih h1
          simp; omega
        · injection h with h; injection h with hk ha
          simp; omega

/-- An insertion lands in a slot of a TLB that has one (R149). -/
theorem victim_lt {f : VmFormat} {t : Tlb f} (h : 0 < t.length) : t.victim < t.length := by
  unfold Tlb.victim
  split
  · next k hk => exact (firstEmpty_lt hk).1
  · split
    · next k a hk => exact oldest_lt hk
    · exact h

@[simp] theorem length_put {f : VmFormat} (t : Tlb f) (k : Nat) (e : TlbEntry f) :
    List.length (t.put k e) = t.length := by simp [Tlb.put]

@[simp] theorem length_flush {f : VmFormat} (t : Tlb f) (id : BitVec f.asidBits) (va : Option Word) :
    List.length (t.flush id va) = t.length := by simp [Tlb.flush]

/-- A slot after a put holds the new entry or what some slot held before. -/
theorem mem_put {f : VmFormat} {t : Tlb f} {k : Nat} {e : TlbEntry f} {slot : Option (TlbEntry f)}
    (h : slot ∈ t.put k e) : slot = some e ∨ slot ∈ t := by
  rcases List.mem_or_eq_of_mem_set h with h | h
  · exact .inr h
  · exact .inl h

/-- An entry that stays after a flush was there before and is not one the flush clears (R160). -/
theorem mem_flush {f : VmFormat} {t : Tlb f} {id : BitVec f.asidBits} {va : Option Word}
    {e : TlbEntry f} : some e ∈ t.flush id va ↔ some e ∈ t ∧ e.flushed id va = false := by
  unfold Tlb.flush
  rw [List.mem_map]
  constructor
  · rintro ⟨slot, hm, hs⟩
    cases slot with
    | none => cases hs
    | some e0 =>
      simp only at hs
      split at hs
      · cases hs
      · next hf => injection hs with hs; subst hs; exact ⟨hm, by simpa using hf⟩
  · rintro ⟨hm, hf⟩
    exact ⟨some e, hm, by simp [hf]⟩

/-! ## The walk (R145) -/

/-- A leaf the walk finds is a valid leaf of a level of the format that permits the access, read from
raw memory at its address. -/
theorem walkFrom_some {f : VmFormat} {m : Memory} {va : Word} {k : AccessKind} {q : Priv}
    {mxr pum : Bool} {l : Leaf f} :
    ∀ {i : Nat} {a : Word} {g : Bool}, walkFrom f m va k q mxr pum i a g = some l →
      l.level ≤ i ∧ pteInvalid l.pte = false ∧ ptePointer l.pte = false
        ∧ permOk l.pte k q mxr pum = true
        ∧ l.pte = (m.readLE l.pteAddr f.pteBytes).setWidth f.pteBits := by
  intro i
  induction i with
  | zero =>
    intro a g h
    unfold walkFrom at h
    simp only at h
    split at h
    · cases h
    · next h1 =>
      split at h
      · cases h
      · next h2 =>
        split at h
        · next h3 =>
          injection h with h; subst h
          exact ⟨Nat.le_refl _, by simpa using h1, by simpa using h2, h3, rfl⟩
        · cases h
  | succ j ih =>
    intro a g h
    unfold walkFrom at h
    simp only at h
    split at h
    · cases h
    · next h1 =>
      split at h
      · obtain ⟨hl, rest⟩ := ih h
        exact ⟨by omega, rest⟩
      · next h2 =>
        split at h
        · next h3 =>
          injection h with h; subst h
          exact ⟨Nat.le_refl _, by simpa using h1, by simpa using h2, h3, rfl⟩
        · cases h

/-! ## What a translation answers (R140, R141) -/

/-- A mapped answer of a paged translation: a hit on a permitted entry, or a walk that found a leaf. -/
theorem translatePaged_mapped {s u : State} {f : VmFormat} {va pa : Word} {k : AccessKind} {q : Priv}
    {mxr pum : Bool} (h : s.translatePaged f va k q mxr pum = .mapped pa u) :
    (∃ slot e, (s.core.tlb f).lookup (f.asidOf s.core.sptbr) va = some (slot, e)
        ∧ permOk e.pte k q mxr pum = true ∧ pa = e.pbase ||| (va &&& e.voff)
        ∧ u = s.hitUpdate f slot e (adUpdate e.pte k)) ∨
    (∃ l, (s.core.tlb f).lookup (f.asidOf s.core.sptbr) va = none
        ∧ walk f s.mem s.core.sptbr va k q mxr pum = some l
        ∧ pa = f.phys l.level (adUpdate l.pte k) va
        ∧ u = s.missUpdate f (f.asidOf s.core.sptbr) l (adUpdate l.pte k) va) := by
  unfold State.translatePaged at h
  simp only at h
  split at h
  · next slot e hl =>
    split at h
    · next hp =>
      injection h with h1 h2
      exact .inl ⟨slot, e, hl, hp, h1.symm, h2.symm⟩
    · cases h
  · next hl =>
    split at h
    · cases h
    · next l hw =>
      injection h with h1 h2
      exact .inr ⟨l, hl, hw, h1.symm, h2.symm⟩

/-- A mapped answer: the identity, or a paged translation of one of the two formats. -/
theorem translate_mapped {s u : State} {va pa : Word} {k : AccessKind} {q : Priv} {mxr pum : Bool}
    (h : s.translate va k q mxr pum = .mapped pa u) :
    (pa = va ∧ u = s ∧ (q = .machine ∨ statusVM s.core.mstatus = 0#5)) ∨
    (q ≠ .machine ∧ statusVM s.core.mstatus = 8#5
      ∧ s.translatePaged .sv32 va k q mxr pum = .mapped pa u) ∨
    (q ≠ .machine ∧ statusVM s.core.mstatus = 9#5
      ∧ s.translatePaged .sv39 va k q mxr pum = .mapped pa u) := by
  unfold State.translate at h
  split at h
  · next hq => injection h with h1 h2; exact .inl ⟨h1.symm, h2.symm, .inl hq⟩
  · next hq =>
    split at h
    · next hv => injection h with h1 h2; exact .inl ⟨h1.symm, h2.symm, .inr hv⟩
    · split at h
      · next hv => exact .inr (.inl ⟨hq, hv, h⟩)
      · split at h
        · next hv => exact .inr (.inr ⟨hq, hv, h⟩)
        · cases h

/-- A fatal answer (R140): a translation is needed and the mode is not implemented. -/
theorem translate_fatal_iff {s : State} {va : Word} {k : AccessKind} {q : Priv} {mxr pum : Bool} :
    s.translate va k q mxr pum = .fatal ↔
      q ≠ .machine ∧ statusVM s.core.mstatus ≠ 0#5 ∧ statusVM s.core.mstatus ≠ 8#5
        ∧ statusVM s.core.mstatus ≠ 9#5 := by
  have hp : ∀ f, s.translatePaged f va k q mxr pum ≠ .fatal := by
    intro f
    unfold State.translatePaged
    simp only
    split
    · split <;> simp
    · split <;> simp
  unfold State.translate
  split
  · next hq => simp [hq]
  · split
    · next hq hv => simp [hv]
    · split
      · next hv => simp [hv, hp]
      · split
        · next hv => simp [hv, hp]
        · next h1 h2 h3 h4 => simp [h1, h2, h3, h4]

/-- Machine level and mode 0 are the identity and change nothing (R140). -/
theorem translate_identity (s : State) (va : Word) (k : AccessKind) (q : Priv) (mxr pum : Bool)
    (h : q = .machine ∨ statusVM s.core.mstatus = 0#5) :
    s.translate va k q mxr pum = .mapped va s := by
  unfold State.translate
  rcases h with h | h
  · simp [h]
  · split
    · rfl
    · simp

/-- A paged translation changes memory and the TLBs and nothing else. -/
theorem translatePaged_frame {s u : State} {f : VmFormat} {va pa : Word} {k : AccessKind} {q : Priv}
    {mxr pum : Bool} (h : s.translatePaged f va k q mxr pum = .mapped pa u) :
    u = { s with
      mem := u.mem, core := { s.core with tlb32 := u.core.tlb32, tlb39 := u.core.tlb39 } } := by
  rcases translatePaged_mapped h with ⟨slot, e, -, -, -, rfl⟩ | ⟨l, -, -, -, rfl⟩
  · unfold State.hitUpdate
    split <;> rfl
  · rfl

/-- A translation changes memory and the TLBs and nothing else (R140, R141). -/
theorem translate_frame {s u : State} {va pa : Word} {k : AccessKind} {q : Priv} {mxr pum : Bool}
    (h : s.translate va k q mxr pum = .mapped pa u) :
    u = { s with
      mem := u.mem, core := { s.core with tlb32 := u.core.tlb32, tlb39 := u.core.tlb39 } } := by
  rcases translate_mapped h with ⟨-, rfl, -⟩ | ⟨-, -, hp⟩ | ⟨-, -, hp⟩
  · rfl
  · exact translatePaged_frame hp
  · exact translatePaged_frame hp

end Sys2Proof.Machine
end

