-- ==== Sys2Proof/Laws/Legal.lean ====
section
/-!
SUPPORT. What the shared operations do to a legal core, and what the execute stage can change.

`Evolves s t` collects what every meaning guarantees of its next state; each shared operation has one
lemma, `exec_evolves` puts them together, and the invariants of the step follow from it.
-/

namespace Sys2Proof.Machine

/-! ## A core after one update -/

/-- Legality only looks at eight fields. -/
theorem Core.Ok.congr {p : Params} {c c' : Core} (h : c.Ok p) (hpc : c'.pc = c.pc) (hx : c'.x = c.x)
    (hr : c'.resv = c.resv) (h32 : c'.tlb32 = c.tlb32) (h39 : c'.tlb39 = c.tlb39)
    (hs : c'.mstatus = c.mstatus) (hp : c'.mip = c.mip) : c'.Ok p where
  pcWidth := by rw [hpc]; exact h.pcWidth
  xWidth := by rw [hx]; exact h.xWidth
  x0 := by rw [hx]; exact h.x0
  resvWidth := by rw [hr]; exact h.resvWidth
  tlb32 := by rw [h32]; exact h.tlb32
  tlb39 := by rw [h39]; exact h.tlb39
  status := by rw [hs]; exact h.status
  pending := by rw [hp]; exact h.pending

/-- Legality after a change of the general registers. -/
theorem Core.Ok.setX {p : Params} {c : Core} (h : c.Ok p) (i : RegIdx) (v : Word) :
    Core.Ok p { c with x := if i = 0#5 then c.x else c.x.set i.toNat (p.arch.sext v) i.isLt } where
  pcWidth := h.pcWidth
  xWidth := by
    intro j
    by_cases hi : i = 0#5
    · simpa [hi] using h.xWidth j
    · by_cases hj : i.toNat = j.val
      · simp [hi, hj]
      · simpa [hi, Vector.getElem_set, hj] using h.xWidth j
  x0 := by
    by_cases hi : i = 0#5
    · simpa [hi] using h.x0
    · have hne : i.toNat ≠ 0 := fun h0 => hi (BitVec.eq_of_toNat_eq (by simpa using h0))
      simpa [hi, Vector.getElem_set, hne] using h.x0
  resvWidth := h.resvWidth
  tlb32 := h.tlb32
  tlb39 := h.tlb39
  status := h.status
  pending := h.pending

theorem Core.Ok.setStatus {p : Params} {c : Core} (h : c.Ok p) {m : Word} (hm : statusOk m = true) :
    Core.Ok p { c with mstatus := m } :=
  ⟨h.pcWidth, h.xWidth, h.x0, h.resvWidth, h.tlb32, h.tlb39, hm, h.pending⟩

theorem Core.Ok.setPending {p : Params} {c : Core} (h : c.Ok p) {m : Word}
    (hm : m &&& ~~~0xFFF#64 = 0#64) : Core.Ok p { c with mip := m } :=
  ⟨h.pcWidth, h.xWidth, h.x0, h.resvWidth, h.tlb32, h.tlb39, h.status, hm⟩

theorem Core.Ok.setResv {p : Params} {c : Core} (h : c.Ok p) {r : Option Word}
    (hr : ∀ a, r = some a → p.arch.zext a = a) : Core.Ok p { c with resv := r } :=
  ⟨h.pcWidth, h.xWidth, h.x0, hr, h.tlb32, h.tlb39, h.status, h.pending⟩

theorem Core.Ok.setPc {p : Params} {c : Core} (h : c.Ok p) (v : Word) :
    Core.Ok p { c with pc := p.arch.zext v } :=
  ⟨zext_zext _ _, h.xWidth, h.x0, h.resvWidth, h.tlb32, h.tlb39, h.status, h.pending⟩

/-- A write through a mask within the twelve indices keeps the others clear (R74 to R77). -/
theorem pending_maskWrite {old mask w : Word} (h : old &&& ~~~0xFFF#64 = 0#64)
    (hm : mask &&& ~~~0xFFF#64 = 0#64) : maskWrite old mask w &&& ~~~0xFFF#64 = 0#64 := by
  apply BitVec.eq_of_getLsbD_eq
  intro i hi
  have h1 := congrArg (BitVec.getLsbD · i) h
  have h2 := congrArg (BitVec.getLsbD · i) hm
  rw [BitVec.getLsbD_and] at h1 h2 ⊢
  rw [getLsbD_maskWrite _ _ _ _ hi]
  cases hmask : mask.getLsbD i <;> simp_all

/-! ## The TLBs -/

theorem Tlb.Ok.put {f : VmFormat} {n : Nat} {t : Tlb f} (h : t.Ok n) {k : Nat} {e : TlbEntry f}
    (he : e.Ok) : (t.put k e).Ok n :=
  ⟨by rw [length_put]; exact h.1, fun e' hm => by
    rcases mem_put hm with h1 | h1
    · injection h1 with h1; rw [h1]; exact he
    · exact h.2 e' h1⟩

theorem Tlb.Ok.flush {f : VmFormat} {n : Nat} {t : Tlb f} (h : t.Ok n) (id : BitVec f.asidBits)
    (va : Option Word) : (t.flush id va).Ok n :=
  ⟨by rw [length_flush]; exact h.1, fun e hm => h.2 e (mem_flush.1 hm).1⟩

theorem Tlb.Ok.empty (f : VmFormat) (n : Nat) : Tlb.Ok (f := f) n (List.replicate n none) :=
  ⟨by simp, fun e hm => by simp at hm⟩

theorem accessed_adUpdate (f : VmFormat) (p : BitVec f.pteBits) (k : AccessKind) :
    (adUpdate p k).getLsbD 6 = true := by
  have := pteBits_ge f
  rw [getLsbD_adUpdate _ _ _ (by omega)]; simp

/-- The entry a write-back leaves is legal. -/
theorem TlbEntry.Ok.refresh {f : VmFormat} {e : TlbEntry f} (h : e.Ok) (k : AccessKind) (a : Word) :
    TlbEntry.Ok { e with pte := adUpdate e.pte k, age := a } := by
  obtain ⟨⟨i, hi, h1, h2, h3⟩, h4, h5, h6, h7⟩ := h
  exact ⟨⟨i, hi, h1, h2, by simpa using h3⟩, h4, by simpa using h5, by simpa using h6,
    accessed_adUpdate f _ k⟩

/-- The entry an insertion makes from a leaf the walk found is legal. -/
theorem TlbEntry.Ok.make {f : VmFormat} {l : Leaf f} (asid : BitVec f.asidBits) (k : AccessKind)
    (va cycles : Word) (hl : l.level ≤ f.rootLevel) (hi : pteInvalid l.pte = false)
    (hp : ptePointer l.pte = false) :
    (TlbEntry.make asid l (adUpdate l.pte k) va cycles).Ok :=
  ⟨⟨l.level, hl, rfl, rfl, rfl⟩, by simp [TlbEntry.make, BitVec.and_assoc], by
    simpa [TlbEntry.make] using hi, by simpa [TlbEntry.make] using hp, accessed_adUpdate f _ k⟩

theorem Core.Ok.tlb {p : Params} {c : Core} (h : c.Ok p) (f : VmFormat) :
    (c.tlb f).Ok p.tlbEntries := by
  cases f
  · exact h.tlb32
  · exact h.tlb39

theorem Core.Ok.setTlb {p : Params} {c : Core} (h : c.Ok p) {f : VmFormat} {t : Tlb f}
    (ht : t.Ok p.tlbEntries) : (c.setTlb f t).Ok p := by
  cases f
  · exact ⟨h.pcWidth, h.xWidth, h.x0, h.resvWidth, ht, h.tlb39, h.status, h.pending⟩
  · exact ⟨h.pcWidth, h.xWidth, h.x0, h.resvWidth, h.tlb32, ht, h.status, h.pending⟩

/-! ## What a stretch of the execute stage guarantees -/

/-- The frame of the execute stage, legality of the core, and the canonical form of memory. -/
structure Evolves (s t : State) : Prop where
  frame : s.ExecFrame t
  ok : s.core.Ok s.params → t.core.Ok s.params
  mem : s.mem.wf = true → t.mem.wf = true

theorem State.ExecFrame.refl (s : State) : s.ExecFrame s := ⟨rfl, rfl, rfl, rfl, rfl, rfl, rfl, rfl⟩

theorem State.ExecFrame.trans {s t u : State} (h : s.ExecFrame t) (h' : t.ExecFrame u) :
    s.ExecFrame u :=
  ⟨h'.pc.trans h.pc, h'.cur.trans h.cur, h'.hartid.trans h.hartid, h'.parked.trans h.parked,
    h'.clock.trans h.clock, h'.fatal.trans h.fatal, h'.params.trans h.params,
    h'.inputs.trans h.inputs⟩

theorem Evolves.refl (s : State) : Evolves s s := ⟨.refl s, id, id⟩

theorem Evolves.trans {s t u : State} (h : Evolves s t) (h' : Evolves t u) : Evolves s u :=
  ⟨h.frame.trans h'.frame, fun hc => by
    have := h'.ok (by rw [h.frame.params]; exact h.ok hc)
    rwa [h.frame.params] at this, fun hm => h'.mem (h.mem hm)⟩

/-- An update of fields that legality does not look at. -/
theorem Evolves.of_core {s t : State} (hf : s.ExecFrame t) (hm : t.mem = s.mem)
    (hx : t.core.x = s.core.x) (hr : t.core.resv = s.core.resv) (h32 : t.core.tlb32 = s.core.tlb32)
    (h39 : t.core.tlb39 = s.core.tlb39) (hs : t.core.mstatus = s.core.mstatus)
    (hp : t.core.mip = s.core.mip) : Evolves s t :=
  ⟨hf, fun h => h.congr hf.pc hx hr h32 h39 hs hp, fun h => by rw [hm]; exact h⟩

theorem frame_rfl {s t : State} (pc : t.core.pc = s.core.pc) (cur : t.core.cur = s.core.cur)
    (hartid : t.core.hartid = s.core.hartid) (parked : t.parked = s.parked)
    (clock : t.clock = s.clock) (fatal : t.fatal = s.fatal) (params : t.params = s.params)
    (inputs : t.inputs = s.inputs) : s.ExecFrame t :=
  ⟨pc, cur, hartid, parked, clock, fatal, params, inputs⟩

section
variable (s : State)

theorem evolves_recAddr (v : Word) : Evolves s (s.recAddr v) :=
  .of_core ⟨rfl, rfl, rfl, rfl, rfl, rfl, rfl, rfl⟩ rfl rfl rfl rfl rfl rfl rfl
theorem evolves_recData1 (v : Word) : Evolves s (s.recData1 v) :=
  .of_core ⟨rfl, rfl, rfl, rfl, rfl, rfl, rfl, rfl⟩ rfl rfl rfl rfl rfl rfl rfl
theorem evolves_recData2 (v : Word) : Evolves s (s.recData2 v) :=
  .of_core ⟨rfl, rfl, rfl, rfl, rfl, rfl, rfl, rfl⟩ rfl rfl rfl rfl rfl rfl rfl
theorem evolves_recFp (v : Word) : Evolves s (s.recFp v) :=
  .of_core ⟨rfl, rfl, rfl, rfl, rfl, rfl, rfl, rfl⟩ rfl rfl rfl rfl rfl rfl rfl
theorem evolves_recRinstr (w : BitVec 32) : Evolves s (s.recRinstr w) :=
  .of_core ⟨rfl, rfl, rfl, rfl, rfl, rfl, rfl, rfl⟩ rfl rfl rfl rfl rfl rfl rfl
theorem evolves_recFetchExc : Evolves s s.recFetchExc :=
  .of_core ⟨rfl, rfl, rfl, rfl, rfl, rfl, rfl, rfl⟩ rfl rfl rfl rfl rfl rfl rfl
theorem evolves_raise (c : BitVec 4) (b : Option Word) : Evolves s (s.raise c b) :=
  .of_core ⟨rfl, rfl, rfl, rfl, rfl, rfl, rfl, rfl⟩ rfl rfl rfl rfl rfl rfl rfl
theorem evolves_setNext (n : Next) : Evolves s (s.setNext n) :=
  .of_core ⟨rfl, rfl, rfl, rfl, rfl, rfl, rfl, rfl⟩ rfl rfl rfl rfl rfl rfl rfl
theorem evolves_setF (i : RegIdx) (v : Word) : Evolves s (s.setF i v) :=
  .of_core ⟨rfl, rfl, rfl, rfl, rfl, rfl, rfl, rfl⟩ rfl rfl rfl rfl rfl rfl rfl
theorem evolves_putMie (v : Word) : Evolves s (s.putMie v) :=
  .of_core ⟨rfl, rfl, rfl, rfl, rfl, rfl, rfl, rfl⟩ rfl rfl rfl rfl rfl rfl rfl
theorem evolves_putFcsr (v : BitVec 8) : Evolves s (s.putFcsr v) :=
  .of_core ⟨rfl, rfl, rfl, rfl, rfl, rfl, rfl, rfl⟩ rfl rfl rfl rfl rfl rfl rfl
theorem evolves_putBank (p : Priv) (b : TrapBank) : Evolves s (s.putBank p b) :=
  .of_core ⟨rfl, rfl, rfl, rfl, rfl, rfl, rfl, rfl⟩ rfl rfl rfl rfl rfl rfl rfl

theorem evolves_setResv {r : Option Word} (hr : ∀ a, r = some a → s.params.arch.zext a = a) :
    Evolves s (s.setResv r) :=
  ⟨⟨rfl, rfl, rfl, rfl, rfl, rfl, rfl, rfl⟩, fun h => h.setResv hr, id⟩

theorem evolves_wr (rd : RegIdx) (v : Word) : Evolves s (s.wr rd v) :=
  ⟨⟨rfl, rfl, rfl, rfl, rfl, rfl, rfl, rfl⟩,
    fun h => (h.setX rd v).congr rfl rfl rfl rfl rfl rfl rfl, id⟩

theorem evolves_dirty : Evolves s s.dirty :=
  ⟨⟨rfl, rfl, rfl, rfl, rfl, rfl, rfl, rfl⟩, fun h => h.setStatus (statusOk_statusDirty h.status), id⟩

theorem evolves_wrF (i : RegIdx) (v : Word) : Evolves s (s.wrF i v) :=
  ((evolves_setF s i v).trans (evolves_recFp _ v)).trans (evolves_dirty _)

theorem evolves_accrue (fl : FpFlags) : Evolves s (s.accrue fl) :=
  ⟨⟨rfl, rfl, rfl, rfl, rfl, rfl, rfl, rfl⟩, fun h => by
    by_cases hf : fl = 0#5
    · exact h.congr rfl rfl rfl rfl rfl (by simp [hf]) rfl
    · exact (h.setStatus (statusOk_statusDirty h.status)).congr rfl rfl rfl rfl rfl
        (by simp [hf]) rfl, id⟩

/-- Storing a status value whose mode is recognised for a legal old one. -/
theorem evolves_putStatus {v : Word} (hv : statusOk s.core.mstatus = true →
    vmRecognised (statusVM v) = true) : Evolves s (s.putStatus v) :=
  ⟨⟨rfl, rfl, rfl, rfl, rfl, rfl, rfl, rfl⟩,
    fun h => h.setStatus (statusOk_statusSummary (hv h.status)), id⟩

theorem evolves_putMip {mask w : Word} (hm : mask &&& ~~~0xFFF#64 = 0#64) :
    Evolves s (s.putMip (maskWrite s.core.mip mask w)) :=
  ⟨⟨rfl, rfl, rfl, rfl, rfl, rfl, rfl, rfl⟩, fun h => h.setPending (pending_maskWrite h.pending hm), id⟩

theorem evolves_hypWrite {t : State} (h : Evolves s t) : Evolves s (s.hypWrite t) := by
  unfold State.hypWrite
  split
  · exact .refl s
  · exact h

theorem evolves_flushTlbs (va : Option Word) : Evolves s (s.flushTlbs va) :=
  ⟨⟨rfl, rfl, rfl, rfl, rfl, rfl, rfl, rfl⟩, fun h =>
    ⟨h.pcWidth, h.xWidth, h.x0, h.resvWidth, h.tlb32.flush _ _, h.tlb39.flush _ _, h.status,
      h.pending⟩, id⟩

theorem evolves_pwrite (va pa : Word) (n : Nat) (v : Word) : Evolves s (s.pwrite va pa n v) :=
  ⟨⟨rfl, rfl, rfl, rfl, rfl, rfl, rfl, rfl⟩, fun h => by
    refine (h.setResv (r := if s.core.resv = some va then none else s.core.resv) ?_).congr
      rfl rfl rfl rfl rfl rfl rfl
    intro a ha
    split at ha
    · cases ha
    · exact h.resvWidth a ha, fun h => wf_writeLE _ _ _ h⟩

theorem evolves_hitUpdate {f : VmFormat} {k : Nat} {e : TlbEntry f} {kind : AccessKind}
    (he : some e ∈ s.core.tlb f) : Evolves s (s.hitUpdate f k e (adUpdate e.pte kind)) := by
  unfold State.hitUpdate
  split
  · exact .refl s
  · refine ⟨?_, fun h => ?_, fun h => wf_writeLE _ _ _ h⟩
    · cases f <;> exact ⟨rfl, rfl, rfl, rfl, rfl, rfl, rfl, rfl⟩
    · exact h.setTlb ((h.tlb f).put (((h.tlb f).2 e he).refresh kind _))

theorem evolves_missUpdate {f : VmFormat} {l : Leaf f} (asid : BitVec f.asidBits) (kind : AccessKind)
    (va : Word) (hl : l.level ≤ f.rootLevel) (hi : pteInvalid l.pte = false)
    (hp : ptePointer l.pte = false) :
    Evolves s (s.missUpdate f asid l (adUpdate l.pte kind) va) := by
  unfold State.missUpdate
  refine ⟨?_, fun h => ?_, fun h => ?_⟩
  · cases f <;> exact ⟨rfl, rfl, rfl, rfl, rfl, rfl, rfl, rfl⟩
  · exact h.setTlb ((h.tlb f).put (.make asid kind va _ hl hi hp))
  · dsimp only
    split
    · exact h
    · exact wf_writeLE _ _ _ h

end

theorem mem_of_lookup {f : VmFormat} {t : Tlb f} {asid : BitVec f.asidBits} {va : Word} {k : Nat}
    {e : TlbEntry f} (h : t.lookup asid va = some (k, e)) : some e ∈ t :=
  List.mem_of_getElem? (lookup_some h).1

/-- A translation that answers an address. -/
theorem evolves_translate {s u : State} {va pa : Word} {k : AccessKind} {q : Priv} {mxr pum : Bool}
    (h : s.translate va k q mxr pum = .mapped pa u) : Evolves s u := by
  have paged : ∀ {f : VmFormat}, s.translatePaged f va k q mxr pum = .mapped pa u → Evolves s u := by
    intro f hp
    rcases translatePaged_mapped hp with ⟨slot, e, hl, -, -, rfl⟩ | ⟨l, -, hw, -, rfl⟩
    · exact evolves_hitUpdate s (mem_of_lookup hl)
    · obtain ⟨h1, h2, h3, -⟩ := walkFrom_some hw
      exact evolves_missUpdate s _ _ _ h1 h2 h3
  rcases translate_mapped h with ⟨-, rfl, -⟩ | ⟨-, -, hp⟩ | ⟨-, -, hp⟩
  · exact .refl _
  · exact paged hp
  · exact paged hp

/-! ## Accesses -/

/-- Everything `vread` can do (20_memory.md R165). -/
theorem vread_cases {s : State} {va : Word} {n : Nat} {k : AccessKind} {cont : Word → Word → State → Result}
    {r : Result} (h : s.vread va n k cont = r) :
    (∃ pa u, s.translateData va k = .mapped pa u ∧ cont pa (u.mem.readLE pa n) (u.recAddr va) = r) ∨
    (s.translateData va k = .unmapped
      ∧ r = .next (s.raise (if k = .read then 13#4 else 15#4) (some va))) ∨
    (s.translateData va k = .fatal ∧ r = .fault .unimplementedTranslationMode) := by
  unfold State.vread at h
  split at h
  · next hx => exact .inr (.inr ⟨hx, h.symm⟩)
  · next hx => exact .inr (.inl ⟨hx, h.symm⟩)
  · next pa u hx => exact .inl ⟨pa, u, hx, h⟩

/-- Everything `vwrite` can do (20_memory.md R166). -/
theorem vwrite_cases {s : State} {va : Word} {n : Nat} {v : Word} {cont : State → Result}
    {r : Result} (h : s.vwrite va n v cont = r) :
    (∃ pa u, s.translateData va .write = .mapped pa u ∧ cont (u.pwrite va pa n v) = r) ∨
    (s.translateData va .write = .unmapped ∧ r = .next (s.raise 15#4 (some va))) ∨
    (s.translateData va .write = .fatal ∧ r = .fault .unimplementedTranslationMode) := by
  unfold State.vwrite at h
  split at h
  · next hx => exact .inr (.inr ⟨hx, h.symm⟩)
  · next hx => exact .inr (.inl ⟨hx, h.symm⟩)
  · next pa u hx => exact .inl ⟨pa, u, hx, h⟩

theorem vread_evolves {s t : State} {va : Word} {n : Nat} {k : AccessKind}
    {cont : Word → Word → State → Result} (h : s.vread va n k cont = .next t)
    (hc : ∀ pa v u, u.params = s.params → cont pa v u = .next t → Evolves u t) : Evolves s t := by
  rcases vread_cases h with ⟨pa, u, hx, h⟩ | ⟨-, h⟩ | ⟨-, h⟩
  · have hu := evolves_translate hx
    exact (hu.trans (evolves_recAddr u va)).trans (hc pa _ _ hu.frame.params h)
  · injection h with h; rw [h]; exact evolves_raise s _ _
  · cases h

theorem vwrite_evolves {s t : State} {va : Word} {n : Nat} {v : Word} {cont : State → Result}
    (h : s.vwrite va n v cont = .next t)
    (hc : ∀ u, u.params = s.params → cont u = .next t → Evolves u t) : Evolves s t := by
  rcases vwrite_cases h with ⟨pa, u, hx, h⟩ | ⟨-, h⟩ | ⟨-, h⟩
  · have hu := evolves_translate hx
    exact (hu.trans (evolves_pwrite u va pa n v)).trans (hc _ hu.frame.params h)
  · injection h with h; rw [h]; exact evolves_raise s _ _
  · cases h

/-! ## Control and status registers -/

theorem csrStore_evolves (s : State) (c : Csr) (v : Word) : Evolves s (s.csrStore c v) := by
  cases c with
  | mstatus => exact evolves_putStatus s fun h => vmRecognised_mstatusWrite v h
  | hstatus =>
    exact evolves_hypWrite s (evolves_putStatus s fun h => vmRecognised_maskWrite (by decide) h)
  | sstatus => exact evolves_putStatus s fun h => vmRecognised_maskWrite (by decide) h
  | ustatus => exact evolves_putStatus s fun h => vmRecognised_maskWrite (by decide) h
  | fcsr => exact (evolves_putFcsr s _).trans (evolves_dirty _)
  | frm => exact (evolves_putFcsr s _).trans (evolves_dirty _)
  | fflags => exact (evolves_putFcsr s _).trans (evolves_dirty _)
  | mip => exact evolves_putMip s (by decide)
  | hip => exact evolves_hypWrite s (evolves_putMip s (by decide))
  | sip => exact evolves_putMip s (by decide)
  | uip => exact evolves_putMip s (by decide)
  | hie => exact evolves_hypWrite s (evolves_putMie s _)
  | hedeleg =>
    exact evolves_hypWrite s (.of_core ⟨rfl, rfl, rfl, rfl, rfl, rfl, rfl, rfl⟩ rfl rfl rfl rfl rfl rfl rfl)
  | hideleg =>
    exact evolves_hypWrite s (.of_core ⟨rfl, rfl, rfl, rfl, rfl, rfl, rfl, rfl⟩ rfl rfl rfl rfl rfl rfl rfl)
  | htvec | hscratch | hepc | hcause | hbadaddr => exact evolves_hypWrite s (evolves_putBank s _ _)
  | _ => exact .of_core ⟨rfl, rfl, rfl, rfl, rfl, rfl, rfl, rfl⟩ rfl rfl rfl rfl rfl rfl rfl

theorem csrWrite_evolves (s : State) (a : CsrAddr) (c : Csr) (w : Word) :
    Evolves s (s.csrWrite a c w) :=
  ((csrStore_evolves s c _).trans (evolves_recAddr _ _)).trans (evolves_recData2 _ _)

/-- Everything a CSR instruction can do (46_csr_system.md R371). -/
theorem csrInstr_cases {s t : State} {a : CsrAddr} {rd : RegIdx} {src : Word} {w : Bool}
    {f : (n : Nat) → BitVec n → BitVec n → BitVec n} (h : s.csrInstr a rd src w f = .next t) :
    (∃ c, Csr.ofAddr a = some c ∧ s.csrExists c s.core.cur = true ∧ csrAccess a s.core.cur w = true
      ∧ t = (if w then s.csrWrite a c (s.xlen.sext (s.xlen.lift2 f (s.csrRead c) src)) else s).wr rd
          (s.csrRead c)) ∨
    ((s.csrDefined a s.core.cur && csrAccess a s.core.cur w) = false ∧ t = s.raise 2#4 none) := by
  unfold State.csrInstr at h
  unfold State.csrDefined
  split at h
  · next hc => injection h with h; exact .inr ⟨by simp, h.symm⟩
  · next c hc =>
    split at h
    · next hok =>
      rw [Bool.and_eq_true] at hok
      injection h with h
      exact .inl ⟨c, hc, hok.1, hok.2, h.symm⟩
    · next hok => injection h with h; exact .inr ⟨by simpa [hc] using hok, h.symm⟩

theorem csrInstr_evolves {s t : State} {a : CsrAddr} {rd : RegIdx} {src : Word} {w : Bool}
    {f : (n : Nat) → BitVec n → BitVec n → BitVec n} (h : s.csrInstr a rd src w f = .next t) :
    Evolves s t := by
  rcases csrInstr_cases h with ⟨c, -, -, -, rfl⟩ | ⟨-, rfl⟩
  · cases w
    · exact evolves_wr s _ _
    · exact (csrWrite_evolves s a c _).trans (evolves_wr _ _ _)
  · exact evolves_raise s _ _

end Sys2Proof.Machine
end

