-- ==== Sys2Proof/Laws/Exec.lean ====
section
/-!
SUPPORT. What the execute stage can change: every meaning keeps the frame of the execute stage, the
legality of the core and the canonical form of memory (`exec_evolves`).
-/

namespace Sys2Proof.Machine

theorem next_inj {s t : State} (h : (.next s : Result) = .next t) : s = t := by injection h

theorem evolves_next_wr {s t : State} {rd : RegIdx} {v : Word} (h : (.next (s.wr rd v) : Result) = .next t) :
    Evolves s t := by
  rw [← next_inj h]; exact evolves_wr s _ _

theorem evolves_next_wrF {s t : State} {fd : RegIdx} {v : Word}
    (h : (.next (s.wrF fd v) : Result) = .next t) : Evolves s t := by
  rw [← next_inj h]; exact evolves_wrF s _ _

theorem evolves_next_raise {s t : State} {c : BitVec 4} {b : Option Word}
    (h : (.next (s.raise c b) : Result) = .next t) : Evolves s t := by
  rw [← next_inj h]; exact evolves_raise s _ _

theorem evolves_next_self {s t : State} (h : (.next s : Result) = .next t) : Evolves s t := by
  rw [← next_inj h]; exact .refl s

theorem jump_evolves {s t : State} {rd : RegIdx} {a : Word} (h : s.jump rd a = .next t) : Evolves s t := by
  unfold State.jump at h
  split at h
  · exact evolves_next_raise h
  · rw [← next_inj h]; exact (evolves_wr s _ _).trans (evolves_setNext _ _)

theorem branchIf_evolves {s t : State} {b : Bool} {a : Word} (h : s.branchIf b a = .next t) :
    Evolves s t := by
  unfold State.branchIf at h
  split at h
  · split at h
    · exact evolves_next_raise h
    · rw [← next_inj h]; exact evolves_setNext _ _
  · exact evolves_next_self h

theorem load_evolves {s t : State} {rd : RegIdx} {va : Word} {n : Nat} {ext : Word → Word}
    (h : s.load rd va n ext = .next t) : Evolves s t :=
  vread_evolves h fun _ _ _ _ h => evolves_next_wr h

theorem store_evolves {s t : State} {va : Word} {n : Nat} {d : Word}
    (h : s.store va n d = .next t) : Evolves s t :=
  vwrite_evolves h fun u _ h => by rw [← next_inj h]; exact evolves_recData1 u _

theorem loadF_evolves {s t : State} {fd : RegIdx} {va : Word} {n : Nat} {ext : Word → Word}
    (h : s.loadF fd va n ext = .next t) : Evolves s t :=
  vread_evolves h fun _ _ _ _ h => evolves_next_wrF h

theorem storeF_evolves {s t : State} {va : Word} {n : Nat} {d : Word}
    (h : s.storeF va n d = .next t) : Evolves s t :=
  vwrite_evolves h fun u _ h => by rw [← next_inj h]; exact evolves_recFp u _

theorem loadReserved_evolves {s t : State} {rd : RegIdx} {va : Word} {n : Nat}
    (hva : s.params.arch.zext va = va) (h : s.loadReserved rd va n = .next t) : Evolves s t := by
  unfold State.loadReserved at h
  split at h
  · refine vread_evolves h fun _ _ u hu h => ?_
    rw [← next_inj h]
    refine (evolves_setResv u fun a ha => ?_).trans (evolves_wr _ _ _)
    injection ha with ha
    rw [hu, ← ha, hva]
  · exact evolves_next_raise h

theorem storeConditional_evolves {s t : State} {rd : RegIdx} {va : Word} {n : Nat} {d : Word}
    (h : s.storeConditional rd va n d = .next t) : Evolves s t := by
  unfold State.storeConditional at h
  split at h
  · split at h
    · refine vwrite_evolves h fun u _ h => ?_
      rw [← next_inj h]
      exact ((evolves_setResv u fun a ha => by cases ha).trans (evolves_recData2 _ _)).trans
        (evolves_wr _ _ _)
    · rw [← next_inj h]; exact (evolves_recAddr s _).trans (evolves_wr _ _ _)
  · exact evolves_next_raise h

theorem amo_evolves {s t : State} {rd : RegIdx} {va : Word} {n : Nat}
    {op : BitVec (8 * n) → BitVec (8 * n) → BitVec (8 * n)} {src : Word}
    (h : s.amo rd va n op src = .next t) : Evolves s t := by
  unfold State.amo at h
  split at h
  · refine vread_evolves h fun _ _ u _ h => ?_
    rw [← next_inj h]
    exact ((evolves_pwrite u _ _ _ _).trans (evolves_recData2 _ _)).trans (evolves_wr _ _ _)
  · exact evolves_next_raise h

theorem xret_evolves {s t : State} {p : Priv} (h : s.xret p = .next t) : Evolves s t := by
  unfold State.xret at h
  split at h
  · cases h
  · rw [← next_inj h]; exact evolves_setNext _ _

theorem sfence_evolves {s t : State} {rs1 : RegIdx} (h : execSfenceVm rs1 s = .next t) : Evolves s t := by
  unfold execSfenceVm at h
  split at h
  · exact evolves_next_raise h
  · rw [← next_inj h]; exact evolves_flushTlbs s _

theorem fpResult_evolves {s t : State} {fd : RegIdx} {v : Word} {fl : FpFlags}
    (h : s.fpResult fd v fl = .next t) : Evolves s t := by
  unfold State.fpResult at h
  rw [← next_inj h]; exact (evolves_accrue s _).trans (evolves_wrF _ _ _)

theorem intResult_evolves {s t : State} {rd : RegIdx} {v : Word} {fl : FpFlags}
    (h : s.intResult rd v fl = .next t) : Evolves s t := by
  unfold State.intResult at h
  rw [← next_inj h]; exact (evolves_accrue s _).trans (evolves_wr _ _ _)

/-- Everything the rounding-mode check can do (47_float_single.md R401). -/
theorem withRm_cases {s : State} {rm : BitVec 3} {k : RoundingMode → Result} {r : Result}
    (h : s.withRm rm k = r) :
    (∃ m, rmEff rm s.core.fcsr = some m ∧ k m = r) ∨
    (rmEff rm s.core.fcsr = none ∧ r = .next (s.raise 2#4 none)) := by
  unfold State.withRm at h
  split at h
  · next m hm => exact .inl ⟨m, hm, h⟩
  · next hm => exact .inr ⟨hm, h.symm⟩

theorem withRm_evolves {s t : State} {rm : BitVec 3} {k : RoundingMode → Result}
    (h : s.withRm rm k = .next t) (hk : ∀ m, k m = .next t → Evolves s t) : Evolves s t := by
  rcases withRm_cases h with ⟨m, -, h⟩ | ⟨-, h⟩
  · exact hk m h
  · rw [← next_inj h.symm]; exact evolves_raise s _ _

/-- Every meaning keeps the frame of the execute stage, a legal core and canonical memory. -/
theorem exec_evolves {i : Instr} {s t : State} (h : exec i s = .next t) : Evolves s t := by
  cases i with
  | lui | auipc | addi | slti | sltiu | xori | ori | andi | slli | srli | srai | add | sub
  | sll | slt | sltu | xor | srl | sra | or | and | addiw | slliw | srliw | sraiw | addw
  | subw | sllw | srlw | sraw | mul | mulh | mulhsu | mulhu | div | divu | rem | remu | mulw
  | divw | divuw | remw | remuw | fmvXS | fclassS | fclassD | fmvXD =>
    exact evolves_next_wr h
  | jal | jalr =>
    exact jump_evolves h
  | beq | bne | blt | bge | bltu | bgeu =>
    exact branchIf_evolves h
  | lb | lh | lw | lbu | lhu | lwu | ld =>
    exact load_evolves h
  | sb | sh | sw | sd =>
    exact store_evolves h
  | fence | fenceI | wfi =>
    exact evolves_next_self h
  | lrW | lrD =>
    exact loadReserved_evolves (zext_zext _ _) h
  | scW | scD =>
    exact storeConditional_evolves h
  | amoswapW | amoaddW | amoxorW | amoandW | amoorW | amominW | amomaxW | amominuW | amomaxuW
  | amoswapD | amoaddD | amoxorD | amoandD | amoorD | amominD | amomaxD | amominuD | amomaxuD =>
    exact amo_evolves h
  | csrrw | csrrs | csrrc | csrrwi | csrrsi | csrrci =>
    exact csrInstr_evolves h
  | ecall | ebreak =>
    exact evolves_next_raise h
  | uret =>
    exact xret_evolves (p := .user) h
  | sret =>
    exact xret_evolves (p := .supervisor) h
  | hret =>
    exact xret_evolves (p := .hypervisor) h
  | mret =>
    exact xret_evolves (p := .machine) h
  | sfenceVm =>
    exact sfence_evolves h
  | flw =>
    exact loadF_evolves (ext := fun v => box (unbox v)) h
  | fsw | fsd =>
    exact storeF_evolves h
  | fmaddS | fmsubS | fnmsubS | fnmaddS | faddS | fsubS | fmulS | fdivS | fsqrtS | fcvtSW
  | fcvtSWU | fcvtSL | fcvtSLU | fmaddD | fmsubD | fnmsubD | fnmaddD | faddD | fsubD | fmulD
  | fdivD | fsqrtD | fcvtSD | fcvtDS | fcvtDW | fcvtDWU | fcvtDL | fcvtDLU =>
    exact withRm_evolves h fun _ h => fpResult_evolves h
  | fsgnjS | fsgnjnS | fsgnjxS | fmvSX | fsgnjD | fsgnjnD | fsgnjxD | fmvDX =>
    exact evolves_next_wrF h
  | fminS | fmaxS | fminD | fmaxD =>
    exact fpResult_evolves h
  | fcvtWS | fcvtWUS | fcvtLS | fcvtLUS | fcvtWD | fcvtWUD | fcvtLD | fcvtLUD =>
    exact withRm_evolves h fun _ h => intResult_evolves h
  | feqS | fltS | fleS | feqD | fltD | fleD =>
    exact intResult_evolves h
  | fld =>
    exact loadF_evolves (ext := id) h

end Sys2Proof.Machine
end

