-- ==== Sys2Proof/Laws/Stages.lean ====
section
/-!
SUPPORT. Everything the stages around a meaning can do: fetch, the clock tick, resolution, and the
environment's calls between steps.
-/

namespace Sys2Proof.Machine

/-! ## The step, taken apart -/

/-- A step of the current core that completes: the run was on, fetch and execute completed, and the
tick and the resolution followed (R210, R211). -/
theorem stepCurrent_next {s t : State} (h : s.stepCurrent = .next t) :
    s.fatal = false ∧ s.halted = none ∧
      ∃ u, s.startStep.fetchExecute = .next u ∧ u.tick.resolve = .next t := by
  unfold State.stepCurrent at h
  split at h
  · cases h
  · next hf =>
    split at h
    · cases h
    · next hh =>
      split at h
      · next u hu => exact ⟨by simpa using hf, by simpa using hh, u, hu, h⟩
      · cases h
      · cases h

/-- A step that completes: the environment's calls, then a step of the core they leave current. -/
theorem step_next {s t : State} (h : step s = .next t) :
    ∃ u, s.applyInputs = .next u ∧ u.stepCurrent = .next t := by
  unfold step at h
  split at h
  · next u hu => exact ⟨u, hu, h⟩
  · cases h
  · cases h

/-- With no call pending the step is a step of the current core. -/
theorem step_of_no_inputs {s : State} (h : s.inputs = []) : step s = s.stepCurrent := by
  have : s.applyInputs = .next s := by
    unfold State.applyInputs
    rw [h, State.applyCalls, ← h]
  unfold step
  rw [this]

/-- Everything fetch and execute can do (R212 to R214). -/
theorem fetchExecute_cases {s : State} {r : Result} (h : s.fetchExecute = r) :
    (s.fetch = .misaligned ∧ r = execFetchMisaligned s) ∨
    (s.fetch = .unmapped ∧ r = execFetchFault s) ∨
    (s.fetch = .fatal ∧ r = .fault .unimplementedTranslationMode) ∨
    (∃ w u i, s.fetch = .word w u ∧ decode u.xlen w = .ok i ∧ exec i u = r) ∨
    (∃ w u e, s.fetch = .word w u ∧ decode u.xlen w = .error e ∧ execUnknown u = r) := by
  unfold State.fetchExecute at h
  split at h
  · next hf => exact .inl ⟨hf, h.symm⟩
  · next hf => exact .inr (.inl ⟨hf, h.symm⟩)
  · next hf => exact .inr (.inr (.inl ⟨hf, h.symm⟩))
  · next w u hf =>
    split at h
    · next i hi => exact .inr (.inr (.inr (.inl ⟨w, u, i, hf, hi, h⟩)))
    · next e he => exact .inr (.inr (.inr (.inr ⟨w, u, e, hf, he, h⟩)))

/-- A word is fetched from an aligned `pc` that translates (R212). -/
theorem fetch_word {s u : State} {w : BitVec 32} (h : s.fetch = .word w u) :
    s.core.pc.extractLsb' 0 2 = 0#2 ∧ ∃ pa v, s.translatePc = .mapped pa v
      ∧ w = (v.mem.readLE pa 4).setWidth 32 ∧ u = v.recRinstr w := by
  unfold State.fetch at h
  split at h
  · next ha =>
    split at h
    · cases h
    · cases h
    · next pa v hv =>
      injection h with h1 h2
      exact ⟨ha, pa, v, hv, h1.symm, by rw [← h2, ← h1]⟩
  · cases h

theorem fetchExecute_evolves {s t : State} (h : s.fetchExecute = .next t) : Evolves s t := by
  rcases fetchExecute_cases h with ⟨-, h⟩ | ⟨-, h⟩ | ⟨-, h⟩ | ⟨w, u, i, hf, -, h⟩ | ⟨w, u, e, hf, -, h⟩
  · rw [next_inj h]; exact (evolves_recFetchExc s).trans (evolves_raise _ _ _)
  · rw [next_inj h]; exact (evolves_recFetchExc s).trans (evolves_raise _ _ _)
  · cases h
  · obtain ⟨-, pa, v, hv, -, rfl⟩ := fetch_word hf
    exact ((evolves_translate hv).trans (evolves_recRinstr v w)).trans (exec_evolves h)
  · obtain ⟨-, pa, v, hv, -, rfl⟩ := fetch_word hf
    rw [← next_inj h]
    exact ((evolves_translate hv).trans (evolves_recRinstr v w)).trans (evolves_raise _ _ _)

/-! ## Resolution -/

/-- A return completes or is fatal. -/
theorem privReturn_cases (s : State) (p : Priv) :
    (∃ t, s.privReturn p = .next t) ∨ s.privReturn p = .fault .returnAboveLevel := by
  unfold State.privReturn
  split
  · exact .inr rfl
  · exact .inl ⟨_, rfl⟩

/-- Everything the resolution can do (R216). -/
theorem resolve_cases {s : State} {r : Result} (h : s.resolve = r) :
    (∃ i p, s.core.checkInterrupts = some (i, p) ∧ r = .next ((s.takeInterrupt i p).setNext .none)) ∨
    (s.core.checkInterrupts = none ∧
      ((s.core.next = .none ∧ r = .next ((s.retireTo (s.core.pc + 4#64)).setNext .none)) ∨
       (∃ c b, s.core.next = .trap c b ∧ r = .next ((s.takeException c b).setNext .none)) ∨
       (∃ a, s.core.next = .branch a ∧ r = .next ((s.retireTo a).setNext .none)) ∨
       (∃ p u, s.core.next = .ret p ∧ s.privReturn p = .next u ∧ r = .next (u.retire.setNext .none)) ∨
       (∃ p, s.core.next = .ret p ∧ s.privReturn p = .fault .returnAboveLevel
          ∧ r = .fault .returnAboveLevel))) := by
  unfold State.resolve at h
  split at h
  · next i p hi => exact .inl ⟨i, p, hi, h.symm⟩
  · next hi =>
    refine .inr ⟨hi, ?_⟩
    unfold State.applyNext at h
    cases hn : s.core.next with
    | none => rw [hn] at h; exact .inl ⟨rfl, h.symm⟩
    | trap c b => rw [hn] at h; exact .inr (.inl ⟨c, b, rfl, h.symm⟩)
    | branch a => rw [hn] at h; exact .inr (.inr (.inl ⟨a, rfl, h.symm⟩))
    | ret p =>
      rw [hn] at h
      dsimp only at h
      rcases privReturn_cases s p with ⟨u, hu⟩ | hu
      · rw [hu] at h
        exact .inr (.inr (.inr (.inl ⟨p, u, rfl, hu, h.symm⟩)))
      · rw [hu] at h
        exact .inr (.inr (.inr (.inr ⟨p, rfl, hu, h.symm⟩)))

/-- Everything a return can do (60_exceptions.md R510). -/
theorem privReturn_next {s t : State} {p : Priv} (h : s.privReturn p = .next t) :
    (statusPrev s.core.mstatus p).num ≤ p.num ∧
    t = { s with core := { s.core with
      mstatus := statusReturn s.core.mstatus p
      cur := statusPrev s.core.mstatus p
      pc := s.xlen.zext ((s.core.bank p).epc &&& ~~~3#64) } } := by
  unfold State.privReturn at h
  split at h
  · cases h
  · next hp => exact ⟨by omega, (next_inj h).symm⟩

/-- What the resolution leaves alone: all but `pc`, the level, the status register, the trap banks,
`instret`, the slot and the record. -/
structure ResolveFrame (s t : State) : Prop where
  parked : t.parked = s.parked
  mem : t.mem = s.mem
  clock : t.clock = s.clock
  halted : t.halted = s.halted
  fatal : t.fatal = s.fatal
  params : t.params = s.params
  inputs : t.inputs = s.inputs
  hartid : t.core.hartid = s.core.hartid
  x : t.core.x = s.core.x
  f : t.core.f = s.core.f
  resv : t.core.resv = s.core.resv
  tlb32 : t.core.tlb32 = s.core.tlb32
  tlb39 : t.core.tlb39 = s.core.tlb39
  cycles : t.core.cycles = s.core.cycles
  mie : t.core.mie = s.core.mie
  mip : t.core.mip = s.core.mip
  sptbr : t.core.sptbr = s.core.sptbr
  fcsr : t.core.fcsr = s.core.fcsr
  idle : t.core.next = .none

theorem resolve_frame {s t : State} (h : s.resolve = .next t) : ResolveFrame s t := by
  rcases resolve_cases h with ⟨i, p, -, h⟩ | ⟨-, ⟨-, h⟩ | ⟨c, b, -, h⟩ | ⟨a, -, h⟩ | ⟨p, u, -, hu, h⟩ | ⟨p, -, -, h⟩⟩
  · rw [next_inj h]; constructor <;> rfl
  · rw [next_inj h]; constructor <;> rfl
  · rw [next_inj h]; constructor <;> rfl
  · rw [next_inj h]; constructor <;> rfl
  · obtain ⟨-, rfl⟩ := privReturn_next hu
    rw [next_inj h]; constructor <;> rfl
  · cases h

theorem trapEntry_ok {s : State} (h : s.core.Ok s.params) (intr : Bool) (c : BitVec 4) (p : Priv)
    (epc : Word) (b : Option Word) : (s.trapEntry intr c p epc b).core.Ok s.params :=
  ⟨zext_zext _ _, h.xWidth, h.x0, h.resvWidth, h.tlb32, h.tlb39, statusOk_statusTrap _ _ h.status,
    h.pending⟩

theorem retireTo_ok {s : State} (h : s.core.Ok s.params) (v : Word) :
    (s.retireTo v).core.Ok s.params :=
  ⟨zext_zext _ _, h.xWidth, h.x0, h.resvWidth, h.tlb32, h.tlb39, h.status, h.pending⟩

theorem setNext_ok {s : State} {p : Params} (h : s.core.Ok p) (n : Next) : (s.setNext n).core.Ok p :=
  h.congr rfl rfl rfl rfl rfl rfl rfl

/-- The resolution leaves a legal core. -/
theorem resolve_ok {s t : State} (hs : s.core.Ok s.params) (h : s.resolve = .next t) :
    t.core.Ok s.params := by
  rcases resolve_cases h with ⟨i, p, -, h⟩ | ⟨-, ⟨-, h⟩ | ⟨c, b, -, h⟩ | ⟨a, -, h⟩ | ⟨p, u, -, hu, h⟩ | ⟨p, -, -, h⟩⟩
  · rw [next_inj h]; exact setNext_ok (trapEntry_ok hs _ _ _ _ _) _
  · rw [next_inj h]; exact setNext_ok (retireTo_ok hs _) _
  · rw [next_inj h]; exact setNext_ok (trapEntry_ok hs _ _ _ _ _) _
  · rw [next_inj h]; exact setNext_ok (retireTo_ok hs _) _
  · obtain ⟨-, rfl⟩ := privReturn_next hu
    rw [next_inj h]
    exact ⟨zext_zext _ _, hs.xWidth, hs.x0, hs.resvWidth, hs.tlb32, hs.tlb39,
      statusOk_statusReturn _ hs.status, hs.pending⟩
  · cases h

/-- What one step of the current core does to the shared state and to the legality of the core. -/
theorem stepCurrent_evolves {s t : State} (h : s.stepCurrent = .next t) :
    t.parked = s.parked ∧ t.params = s.params ∧ t.inputs = s.inputs ∧ t.fatal = s.fatal
      ∧ t.core.hartid = s.core.hartid ∧ t.core.next = .none
      ∧ (s.mem.wf = true → t.mem.wf = true) ∧ (s.core.Ok s.params → t.core.Ok s.params) := by
  obtain ⟨-, -, u, hu, hr⟩ := stepCurrent_next h
  have he := fetchExecute_evolves hu
  have hf := resolve_frame hr
  refine ⟨hf.parked.trans he.frame.parked, hf.params.trans he.frame.params,
    hf.inputs.trans he.frame.inputs, hf.fatal.trans he.frame.fatal,
    hf.hartid.trans he.frame.hartid, hf.idle, fun hm => ?_, fun hc => ?_⟩
  · rw [hf.mem]; exact he.mem hm
  · have h1 : s.startStep.core.Ok s.startStep.params := hc.congr rfl rfl rfl rfl rfl rfl rfl
    have h2 := he.ok h1
    have h3 : u.tick.core.Ok u.tick.params := by
      have : u.tick.params = s.params := he.frame.params
      rw [this]
      exact h2.congr rfl rfl rfl rfl rfl rfl rfl
    have h4 := resolve_ok h3 hr
    have : u.tick.params = s.params := he.frame.params
    rwa [this] at h4

/-! ## The cores -/

theorem insertCore_perm (c : Core) (l : List Core) : (insertCore c l).Perm (c :: l) := by
  induction l with
  | nil => exact .refl _
  | cons d l ih =>
    unfold insertCore
    split
    · exact .refl _
    · exact (ih.cons d).trans (.swap c d l)

theorem insertCore_sorted {c : Core} {l : List Core} (h : l.Pairwise fun a b => a.hartid ≤ b.hartid) :
    (insertCore c l).Pairwise fun a b => a.hartid ≤ b.hartid := by
  induction l with
  | nil => simp [insertCore]
  | cons d l ih =>
    rw [List.pairwise_cons] at h
    unfold insertCore
    split
    · next hlt =>
      refine List.pairwise_cons.2 ⟨fun e he => ?_, List.pairwise_cons.2 h⟩
      rcases List.mem_cons.1 he with rfl | he
      · omega
      · have := h.1 e he; omega
    · next hge =>
      refine List.pairwise_cons.2 ⟨fun e he => ?_, ih h.2⟩
      rcases List.mem_cons.1 ((insertCore_perm c l).mem_iff.1 he) with rfl | he
      · omega
      · exact h.1 e he

theorem sublist_insertCore (c : Core) (l : List Core) : l.Sublist (insertCore c l) := by
  induction l with
  | nil => exact List.nil_sublist _
  | cons d l ih =>
    unfold insertCore
    split
    · exact List.sublist_cons_self _ _
    · exact ih.cons_cons d

/-- Taking a core out of a list splits it. -/
theorem takeCore_some {id : Nat} {l others : List Core} {d : Core}
    (h : takeCore id l = some (d, others)) :
    d.hartid = id ∧ l.Perm (d :: others) ∧ others.Sublist l := by
  induction l generalizing others with
  | nil => cases h
  | cons e l ih =>
    unfold takeCore at h
    split at h
    · next he =>
      injection h with h; injection h with h1 h2
      subst h1; subst h2
      exact ⟨he, .refl _, List.sublist_cons_self _ _⟩
    · split at h
      · cases h
      · next c o hc =>
        injection h with h; injection h with h1 h2
        subst h1; subst h2
        obtain ⟨h1, h2, h3⟩ := ih hc
        exact ⟨h1, (h2.cons e).trans (.swap c e o), h3.cons_cons e⟩

theorem eq_range_of_perm {l : List Core} {n : Nat} (hs : l.Pairwise fun a b => a.hartid ≤ b.hartid)
    (hp : (l.map Core.hartid).Perm (List.range n)) : l.map Core.hartid = List.range n := by
  refine List.Perm.eq_of_pairwise (le := (· ≤ ·)) (fun a b _ _ => Nat.le_antisymm) ?_ ?_ hp
  · exact List.pairwise_map.2 hs
  · exact List.pairwise_lt_range.imp Nat.le_of_lt

theorem sorted_of_ids {l : List Core} {n : Nat} (h : l.map Core.hartid = List.range n) :
    l.Pairwise fun a b => a.hartid ≤ b.hartid := by
  have : (l.map Core.hartid).Pairwise (· ≤ ·) := by
    rw [h]; exact List.pairwise_lt_range.imp Nat.le_of_lt
  exact List.pairwise_map.1 this

/-- Choosing another core keeps the ids (R221). -/
theorem selectCore_ids {s t : State} {c : Nat} (h : s.selectCore c = .next t)
    (hi : (insertCore s.core s.parked).map Core.hartid = List.range s.params.ncores) :
    (insertCore t.core t.parked).map Core.hartid = List.range s.params.ncores
      ∧ t.core.hartid = c ∧ (∀ d, d ∈ t.core :: t.parked ↔ d ∈ s.core :: s.parked) := by
  unfold State.selectCore at h
  split at h
  · next hc => rw [← next_inj h]; exact ⟨hi, hc, fun _ => .rfl⟩
  · split at h
    · cases h
    · next d others hd =>
      obtain ⟨h1, h2, h3⟩ := takeCore_some hd
      rw [← next_inj h]
      have hso := sorted_of_ids hi
      have hsp := hso.sublist (sublist_insertCore s.core s.parked)
      have hperm : (insertCore d (insertCore s.core others)).Perm (insertCore s.core s.parked) :=
        ((insertCore_perm _ _).trans (((insertCore_perm _ _).cons d).trans
          ((List.Perm.swap s.core d others).trans (h2.symm.cons s.core)))).trans
          (insertCore_perm _ _).symm
      refine ⟨eq_range_of_perm (insertCore_sorted (insertCore_sorted (hsp.sublist h3))) ?_, h1, ?_⟩
      · rw [← hi]; exact hperm.map _
      · intro e
        exact (((insertCore_perm s.core others).cons d).trans
          ((List.Perm.swap s.core d others).trans (h2.symm.cons s.core))).mem_iff

theorem setIrq_hartid (c : Core) (i : Fin 12) (v : Bool) : (c.setIrq i v).hartid = c.hartid := rfl

theorem map_setIrq_hartid (l : List Core) (c : Nat) (i : Fin 12) (v : Bool) :
    (l.map fun d => if d.hartid = c then d.setIrq i v else d).map Core.hartid
      = l.map Core.hartid := by
  rw [List.map_map]
  apply List.map_congr_left
  intro d _
  dsimp only [Function.comp]
  split
  · rfl
  · rfl

theorem map_insertCore_hartid (c : Core) (l : List Core) (c' : Core) (l' : List Core)
    (hc : c'.hartid = c.hartid) (hl : l'.map Core.hartid = l.map Core.hartid) :
    (insertCore c' l').map Core.hartid = (insertCore c l).map Core.hartid := by
  induction l generalizing l' with
  | nil =>
    have : l' = [] := by simpa using hl
    subst this; simp [insertCore, hc]
  | cons d l ih =>
    cases l' with
    | nil => simp at hl
    | cons d' l' =>
      rw [List.map_cons, List.map_cons] at hl
      injection hl with h1 h2
      unfold insertCore
      rw [hc, h1]
      split
      · simp [hc, h1, h2]
      · simp [h1, ih l' h2]

/-- An interrupt index that is set or cleared keeps the indices above 11 clear. -/
theorem pending_setIrq {m : Word} (i : Fin 12) (v : Bool) (h : m &&& ~~~0xFFF#64 = 0#64) :
    setBit m i.val v &&& ~~~0xFFF#64 = 0#64 := by
  apply BitVec.eq_of_getLsbD_eq
  intro j hj
  have h1 := congrArg (BitVec.getLsbD · j) h
  rw [BitVec.getLsbD_and] at h1 ⊢
  rw [getLsbD_setBit _ _ _ _ hj]
  split
  · next hji =>
    have : ∀ i : Fin 12, (~~~0xFFF#64 : Word).getLsbD i.val = false := by decide
    rw [hji, this i]; simp
  · exact h1

theorem Core.Ok.setIrq {p : Params} {c : Core} (h : c.Ok p) (i : Fin 12) (v : Bool) :
    (c.setIrq i v).Ok p := h.setPending (pending_setIrq i v h.pending)

/-- A core after reset is legal (R100). -/
theorem Core.Ok.reset (p : Params) (c : Nat) : (Core.reset p c).Ok p where
  pcWidth := zext_zext _ _
  xWidth := by intro i; simp [Core.reset]
  x0 := by simp [Core.reset]
  resvWidth := by intro a h; cases h
  tlb32 := .empty _ _
  tlb39 := .empty _ _
  status := (by decide : statusOk 0#64 = true)
  pending := (by decide : 0#64 &&& ~~~0xFFF#64 = 0#64)

end Sys2Proof.Machine
end

