-- ==== Sys2Proof/Laws/Calls.lean ====
section
/-!
SUPPORT. The environment's calls: the list of calls a state carries does not matter to making
    others, and
the calls on cores keep the invariant.
-/

namespace Sys2Proof.Machine

theorem State.Inv.withInputs {s : State} (h : s.Inv) (l : List Input) : State.Inv { s with inputs :=
    l } :=
  ⟨h.params, h.mem, h.mem0, h.cores, h.idle, h.ids⟩

theorem setIrq_inv {s t : State} (h : s.Inv) {c i v} (hs : s.setIrq c i v = .next t) : t.Inv := by
  unfold State.setIrq at hs
  split at hs
  · cases hs
  split at hs
  · cases hs
  split at hs
  · rw [← next_inj hs]
    refine ⟨h.params, h.mem, h.mem0, ?_, ?_, ?_⟩
    · intro d hd
      rcases List.mem_cons.1 hd with rfl | hd
      · exact (h.cores _ (.head _)).setIrq _ _
      · exact h.cores d (.tail _ hd)
    · intro d hd
      rcases List.mem_cons.1 hd with rfl | hd
      · exact h.idle s.core (.head _)
      · exact h.idle d (.tail _ hd)
    · rw [← h.ids]; exact map_insertCore_hartid _ _ _ _ rfl rfl
  split at hs
  · rw [← next_inj hs]
    refine ⟨h.params, h.mem, h.mem0, ?_, ?_, ?_⟩
    · intro d hd
      rcases List.mem_cons.1 hd with rfl | hd
      · exact h.cores _ (.head _)
      · obtain ⟨e, he, rfl⟩ := List.mem_map.1 hd
        split
        · exact (h.cores e (.tail _ he)).setIrq _ _
        · exact h.cores e (.tail _ he)
    · intro d hd
      rcases List.mem_cons.1 hd with rfl | hd
      · exact h.idle s.core (.head _)
      · obtain ⟨e, he, rfl⟩ := List.mem_map.1 hd
        split
        · exact h.idle e (.tail _ he)
        · exact h.idle e (.tail _ he)
    · rw [← h.ids]; exact map_insertCore_hartid _ _ _ _ rfl (map_setIrq_hartid _ _ _ _)
  · cases hs

/-- `SetIrq` does not read the list of calls. -/
theorem setIrq_inputs (s : State) (x : List Input) (c : Nat) (i : Fin 12) (v : Bool) :
    ({ s with inputs := x } : State).setIrq c i v = match s.setIrq c i v with
      | .next t => .next { t with inputs := x }
      | .fault r => .fault r
      | .refused r => .refused r := by
  simp only [State.setIrq]
  by_cases h1 : s.fatal = true
  · rw [if_pos h1, if_pos h1]
  rw [if_neg h1, if_neg h1]
  by_cases h2 : s.halted.isSome = true
  · rw [if_pos h2, if_pos h2]
  rw [if_neg h2, if_neg h2]
  by_cases h3 : s.core.hartid = c
  · rw [if_pos h3, if_pos h3]
  rw [if_neg h3, if_neg h3]
  by_cases h4 : (s.parked.any fun d => d.hartid == c) = true
  · rw [if_pos h4, if_pos h4]
  · rw [if_neg h4, if_neg h4]

/-- Making the calls of a list does not depend on the calls the state carries. -/
theorem applyCalls_inputs (l : List Input) : ∀ (s : State) (x : List Input),
    ({ s with inputs := x } : State).applyCalls l = s.applyCalls l := by
  induction l with
  | nil => intro s x; rfl
  | cons c rest ih =>
    intro s x
    cases c with
    | select c => rfl
    | reset => rfl
    | setIrq c i v =>
      simp only [State.applyCalls]
      rw [setIrq_inputs]
      cases s.setIrq c i v with
      | next t => exact ih t x
      | fault r => rfl
      | refused r => rfl

/-- What `SetIrq` answers while the block accepts it (R497, R211): the current core's bit, a parked
core's bit, or a refusal. -/
theorem setIrq_of_running {s : State} (h : s.fatal = false) (hh : s.halted = none) (c : Nat) (i : Fin 12)
    (v : Bool) : s.setIrq c i v =
      if s.core.hartid = c then .next { s with core := s.core.setIrq i v }
      else if ∃ d ∈ s.parked, d.hartid = c then
        .next { s with parked := s.parked.map fun d => if d.hartid = c then d.setIrq i v else d }
      else .refused .noSuchCore := by
  simp [State.setIrq, h, hh]

/-- A step whose first call is a `SetIrq` that is accepted is the step after it. -/
theorem step_setIrq {s t : State} {c : Nat} {i : Fin 12} {v : Bool} {rest : List Input}
    (hi : s.inputs = .setIrq c i v :: rest) (h : s.setIrq c i v = .next t) :
    step s = step { t with inputs := rest } := by
  have hr := applyCalls_inputs rest t rest
  simp only [step, State.applyInputs, hi, State.applyCalls, h]
  rw [← hr]

theorem takeCore_none {c : Nat} : ∀ {l : List Core}, (∀ d ∈ l, d.hartid ≠ c) → takeCore c l = none := by
  intro l h
  induction l with
  | nil => rfl
  | cons d r ih =>
    simp only [takeCore]
    rw [if_neg (h d (by simp)), ih (fun e he => h e (by simp [he]))]

end Sys2Proof.Machine
end

