-- ==== Sys2Proof/Laws/Csr.lean ====
section
/-!
SUPPORT. What a CSR access can do: the map and the checks in the form the statements use, and the frame
of `csr_write` for every register.
-/

namespace Sys2Proof.Machine

set_option Elab.async false

/-! ## The map and the checks (10_state.md R42, R43, R49) -/

/-- The decoder of CSR addresses is the map of R49. -/
theorem mem_csrMap_iff (a : CsrAddr) (c : Csr) : (a, c) ∈ csrMap ↔ Csr.ofAddr a = some c := by
  constructor
  · intro h
    have : ∀ p ∈ csrMap, Csr.ofAddr p.1 = some p.2 := by decide
    exact this _ h
  · unfold Csr.ofAddr
    intro h
    split at h
    all_goals first
      | (rename_i ha; injection h with h; subst h
         have : a = BitVec.ofNat 12 a.toNat := by simp
         rw [this, ha]; decide)
      | cases h

theorem csrAccess_iff (a : CsrAddr) (p : Priv) (w : Bool) : csrAccess a p w = true ↔
    (a.toNat / 2 ^ 8 % 4 ≤ p.num ∧ (w = true → a.toNat / 2 ^ 10 ≠ 3)) := by
  unfold csrAccess
  have h1 : (a.extractLsb' 8 2).toNat = a.toNat / 2 ^ 8 % 4 := by simp [Nat.shiftRight_eq_div_pow]
  have h2 : (a.extractLsb' 10 2 == 3#2) = decide (a.toNat / 2 ^ 10 = 3) := by
    rw [Bool.eq_iff_iff]; simp only [beq_iff_eq, decide_eq_true_eq, ← BitVec.toNat_inj]
    have := a.isLt
    simp [Nat.shiftRight_eq_div_pow]; omega
  rw [h1, h2]; cases w <;> simp

/-- What a read returns is a stored value already: `sext_64` leaves it (10_state.md R45). -/
theorem sext_csrRead (s : State) (c : Csr) : s.params.arch.sext (s.csrRead c) = s.csrRead c := by
  unfold State.csrRead State.xlen
  cases h : s.params.arch with
  | w64 => rfl
  | w32 =>
    simp only [Xlen.sext]
    congr 1
    apply BitVec.eq_of_getLsbD_eq
    intro i hi
    simp only [BitVec.getLsbD_setWidth, BitVec.getLsbD_signExtend, hi, show i < 64 by omega, decide_true,
      Bool.true_and, if_true]

/-! ## The frame of a write -/

theorem csrFrame_refl (c : Csr) (s : State) : CsrFrame c s s := by
  constructor <;> first | rfl | exact State.ExecFrame.refl s | (intro _; rfl) | (intro _ _; rfl) | (intro _; exact Or.inl rfl)

/-- An inert hypervisor write changes nothing (10_state.md R48). -/
theorem CsrFrame.hyp {c : Csr} {s t : State} (h : CsrFrame c s t) : CsrFrame c s (s.hypWrite t) := by
  unfold State.hypWrite
  split
  · exact csrFrame_refl c s
  · exact h

theorem csrFrame_csrStore (s : State) (c : Csr) (v : Word) : CsrFrame c s (s.csrStore c v) := by
  cases c with
  | hstatus | hie | hip | hedeleg | hideleg | htvec | hscratch | hepc | hcause | hbadaddr =>
    apply CsrFrame.hyp
    constructor <;>
      first
      | rfl
      | exact ⟨rfl, rfl, rfl, rfl, rfl, rfl, rfl, rfl⟩
      | (intro _; rfl)
      | (intro _ _; rfl)
      | (intro h; exact absurd rfl h)
      | (intro p h; cases p <;> first | rfl | exact absurd rfl h)
      | (intro h; cases h)
  | fcsr | frm | fflags =>
    constructor <;>
      first
      | rfl
      | exact ⟨rfl, rfl, rfl, rfl, rfl, rfl, rfl, rfl⟩
      | (intro _; rfl)
      | (intro _ _; rfl)
      | (intro h; exact absurd rfl h)
      | (intro h; exact Or.inr rfl)
      | (intro _ h; exact absurd rfl h)
  | _ =>
    constructor <;>
      first
      | rfl
      | exact ⟨rfl, rfl, rfl, rfl, rfl, rfl, rfl, rfl⟩
      | (intro _; rfl)
      | (intro _ _; rfl)
      | (intro h; exact absurd rfl h)
      | (intro p h; cases p <;> first | rfl | exact absurd rfl h)
      | (intro h; cases h)

/-- The record of a write is no register. -/
theorem CsrFrame.record {c : Csr} {s t : State} (a v : Word) (h : CsrFrame c s t) :
    CsrFrame c s ((t.recAddr a).recData2 v) :=
  ⟨⟨h.stage.pc, h.stage.cur, h.stage.hartid, h.stage.parked, h.stage.clock, h.stage.fatal, h.stage.params,
      h.stage.inputs⟩, h.x, h.f, h.mem, h.resv, h.next, h.tlb32, h.tlb39, h.halted, h.mstatus, h.dirty, h.fcsr, h.mie, h.mip,
    h.medeleg, h.mideleg, h.hedeleg, h.hideleg, h.sedeleg, h.sideleg, h.tvec, h.scratch, h.epc, h.cause,
    h.badaddr, h.sptbr, h.mucounteren, h.mscounteren, h.mhcounteren, h.cycles, h.instret⟩

/-- `csr_write` leaves every register alone that shares no storage with the one written (R47). -/
theorem csrFrame_csrWrite (s : State) (a : CsrAddr) (c : Csr) (w : Word) :
    CsrFrame c s (s.csrWrite a c w) :=
  .record _ _ (csrFrame_csrStore s c _)

/-- Storing a register leaves the record alone. -/
@[simp] theorem csrStore_delta (s : State) (c : Csr) (v : Word) :
    (s.csrStore c v).core.delta = s.core.delta := by
  cases c <;> first | rfl | (simp only [State.csrStore, State.hypWrite]; cases s.params.hypCsrWrites <;> rfl)

/-- `csr_write` records the address and the native write value (R37, R51). -/
theorem csrWrite_delta (s : State) (a : CsrAddr) (c : Csr) (w : Word) :
    (s.csrWrite a c w).core.delta = (s.recCsr a (s.csrNativeWrite c w)).core.delta := by
  simp [State.csrWrite, State.recCsr, State.recAddr, State.recData2]

/-- An inert write to the hypervisor bank is its record (R48). -/
theorem csrWrite_inert {s : State} (h : s.params.hypCsrWrites = .inert) (a : CsrAddr) (w : Word) :
    ∀ c ∈ [Csr.hstatus, .hedeleg, .hideleg, .hie, .htvec, .hscratch, .hepc, .hcause, .hbadaddr, .hip],
      s.csrWrite a c w = s.recCsr a (s.csrNativeWrite c w) := by
  simp only [List.forall_mem_cons, List.not_mem_nil, false_imp_iff, implies_true, and_true]
  refine ⟨?_, ?_, ?_, ?_, ?_, ?_, ?_, ?_, ?_, ?_⟩ <;>
    simp only [State.csrWrite, State.csrStore, State.hypWrite, h] <;> rfl

/-- The running width is the one `misa.MXL` names: 1 gives 32, otherwise 64 (10_state.md R44). -/
theorem xlen_eq_of_misa_mxl (s : State) :
    s.xlen = if s.misa.extractLsb' 62 2 = 1#2 then Xlen.w32 else Xlen.w64 := by
  unfold State.xlen State.misa misaOf
  cases s.params.arch <;> rfl

end Sys2Proof.Machine
end

