-- ==== Sys2Proof/Laws/CsrRules.lean ====
section
/-!
SUPPORT. The CSR procedure and the writes through views, in the shape the statements use
(46_csr_system.md R371; 10_state.md R42, R43, R45, R46, R61 to R65, R74 to R77).
-/

namespace Sys2Proof.Machine

theorem counterOn_iff (s : State) (b : Nat) : s.counterEnabled s.core.cur b = true ↔ counterOn s b := by
  unfold State.counterEnabled counterOn
  cases s.core.cur <;> simp

/-- Both checks of R42 and R43. -/
theorem allowed_iff (s : State) (a : CsrAddr) (w : Bool) (c : Csr) (h : Csr.ofAddr a = some c) :
    CsrAllowed s a w ↔ s.csrExists c s.core.cur = true ∧ csrAccess a s.core.cur w = true := by
  rw [csrAccess_iff]
  have hm := (mem_csrMap_iff a c).2 h
  have hx : s.csrExists c s.core.cur = true ↔
      (a ∈ [0xB80#12, 0xB82#12, 0xC80#12, 0xC81#12, 0xC82#12] → s.params.arch = .w32) ∧
      (a ∈ [0xC00#12, 0xC01#12, 0xC02#12, 0xC80#12, 0xC81#12, 0xC82#12] → counterOn s (a.toNat % 4))
          := by
    have key : ∀ p ∈ csrMap, s.csrExists p.2 s.core.cur = true ↔
      (p.1 ∈ [0xB80#12, 0xB82#12, 0xC80#12, 0xC81#12, 0xC82#12] → s.params.arch = .w32) ∧
      (p.1 ∈ [0xC00#12, 0xC01#12, 0xC02#12, 0xC80#12, 0xC81#12, 0xC82#12] → counterOn s (p.1.toNat %
          4)) := by
      simp only [csrMap, csrMapUser, csrMapSupervisor, csrMapHypervisor, csrMapMachine,
          List.cons_append, List.nil_append, List.forall_mem_cons, List.not_mem_nil, false_imp_iff,
              implies_true, and_true]
      have hm : s.misa.getLsbD 5 = true := by unfold State.misa misaOf; cases s.params.arch <;> rfl
      simp [State.csrExists, counterOn_iff, State.xlen, hm]
    exact key (a, c) hm
  constructor
  · intro h; exact ⟨hx.2 ⟨h.narrow, h.enabled⟩, h.level, h.writable⟩
  · rintro ⟨h1, h2, h3⟩
    exact ⟨⟨c, hm⟩, h2, h3, (hx.1 h1).1, (hx.1 h1).2⟩

/-- An instruction that is `csr_instr` obeys its rule. -/
theorem csrRule_of {s : State} {i : Instr} {a : CsrAddr} {rd : RegIdx} {w : Bool} {src : Word} {new
    : Word → Word}
    {f : (n : Nat) → BitVec n → BitVec n → BitVec n} (h : exec i s = s.csrInstr a rd src w f)
    (hf : ∀ old, s.params.arch.sext (s.params.arch.lift2 f old src) = s.params.arch.sext (new old)) :
    CsrRule s i a rd w new where
  allowed ha c hc := by
    rw [mem_csrMap_iff] at hc
    obtain ⟨h1, h2⟩ := (allowed_iff s a w c hc).1 ha
    refine ⟨_, by rw [h, State.csrInstr, hc]; simp only [h1, h2, Bool.and_self, if_true]; rfl, ?_⟩
    rw [← hf]
    cases w
    · have := wroteX_wr s rd (s.csrRead c)
      rw [sext_csrRead] at this; exact this
    · have := wroteX_wr (s.csrWrite a c (s.params.arch.sext (s.params.arch.lift2 f (s.csrRead c)
        src))) rd (s.csrRead c)
      rw [(csrWrite_evolves s a c _).frame.params, sext_csrRead] at this; exact this
  refused ha := by
    refine completes_raised ?_
    rw [h, State.csrInstr]
    split
    · rfl
    · next c hc =>
      rw [allowed_iff s a w c hc] at ha
      rw [if_neg (by rw [Bool.and_eq_true]; exact ha)]

theorem sext_swap (x : Xlen) (a b : Word) : x.sext (x.lift2 csrSwap a b) = x.sext b := by
  cases x <;> simp [Xlen.sext, Xlen.lift2, csrSwap]

theorem sext_clear (x : Xlen) (a b : Word) : x.sext (x.lift2 csrClear a b) = x.sext (a &&& ~~~b) := by
  cases x <;> simp [Xlen.sext, Xlen.lift2, csrClear, BitVec.setWidth_and, BitVec.setWidth_not]

theorem viewOf_eq (c : Csr) (v : Word) : viewOf c v = c.view32 v := by
  have h1 : BitVec.ofNat 32 (v.toNat / 2 ^ 63 * 2 ^ 31 + v.toNat % 2 ^ 31) = v.extractLsb' 63 1 ++
      v.extractLsb' 0 31 := by
    apply BitVec.eq_of_toNat_eq
    have := v.isLt
    rw [BitVec.toNat_append, BitVec.extractLsb'_toNat, BitVec.extractLsb'_toNat, BitVec.toNat_ofNat,
        Nat.shiftLeft_eq, Nat.mul_comm (_ % _), ← Nat.two_pow_add_eq_or_of_lt (by omega),
            Nat.shiftRight_eq_div_pow, Nat.shiftRight_eq_div_pow]
    omega
  have h2 : BitVec.ofNat 32 (v.toNat / 2 ^ 62 * 2 ^ 30 + v.toNat % 2 ^ 26) = v.extractLsb' 62 2 ++
      0#4 ++ v.extractLsb' 0 26 := by
    apply BitVec.eq_of_toNat_eq
    have := v.isLt
    rw [BitVec.toNat_append, BitVec.toNat_append, BitVec.extractLsb'_toNat,
        BitVec.extractLsb'_toNat, BitVec.toNat_ofNat, Nat.shiftLeft_eq, Nat.shiftLeft_eq,
            Nat.mul_comm _ (2^26), ← Nat.two_pow_add_eq_or_of_lt (by omega),
                Nat.shiftRight_eq_div_pow, Nat.shiftRight_eq_div_pow]
    simp
    omega
  have h3 : BitVec.ofNat 32 (v.toNat / 2 ^ 32) = v.extractLsb' 32 32 := by
    apply BitVec.eq_of_toNat_eq
    simp [Nat.shiftRight_eq_div_pow]
  have h4 : BitVec.ofNat 32 v.toNat = v.setWidth 32 := by
    apply BitVec.eq_of_toNat_eq; simp
  unfold viewOf Csr.view32
  rw [h1, h2, h3, h4]
  cases c <;> rfl

theorem sext32_eq (w : Word) : (w.setWidth 32).signExtend 64 = (BitVec.ofNat 32 w.toNat).signExtend
    64 := by
  simp

theorem native_plain (s : State) (c : Csr) (w : Word) (h : ∀ old, c.unview32 w old = (w.setWidth
    32).signExtend 64) :
    s.csrNativeWrite c w = plainNative s.params.arch w := by
  unfold State.csrNativeWrite State.xlen plainNative
  cases s.params.arch
  · simp only [h]; exact sext32_eq w
  · rfl

theorem native_cause (s : State) (c : Csr) (w : Word) (h : ∀ old, c.unview32 w old = w.extractLsb'
    31 1 ++ 0#32 ++ w.extractLsb' 0 31) :
    s.csrNativeWrite c w = causeNative s.params.arch w := by
  unfold State.csrNativeWrite State.xlen causeNative
  cases s.params.arch
  · simp only [h]
    apply BitVec.eq_of_toNat_eq
    have := w.isLt
    rw [BitVec.toNat_append, BitVec.toNat_append, BitVec.extractLsb'_toNat,
        BitVec.extractLsb'_toNat, BitVec.toNat_ofNat, Nat.shiftLeft_eq, Nat.shiftLeft_eq,
            Nat.mul_comm _ (2^31), ← Nat.two_pow_add_eq_or_of_lt (by omega),
                Nat.shiftRight_eq_div_pow, Nat.shiftRight_eq_div_pow]
    simp
    omega
  · rfl

theorem native_status (s : State) (c : Csr) (w : Word) (h : ∀ old, c.unview32 w old =
    old.extractLsb' 31 33 ++ w.extractLsb' 0 31) :
    s.csrNativeWrite c w = statusNative s.params.arch (s.csrNative c) w := by
  unfold State.csrNativeWrite State.xlen statusNative
  cases s.params.arch
  · simp only [h]
    apply BitVec.eq_of_toNat_eq
    have := w.isLt
    have := (s.csrNative c).isLt
    rw [BitVec.toNat_append, BitVec.extractLsb'_toNat, BitVec.extractLsb'_toNat, BitVec.toNat_ofNat,
        Nat.shiftLeft_eq, Nat.mul_comm (_ % _), ← Nat.two_pow_add_eq_or_of_lt (by omega),
            Nat.shiftRight_eq_div_pow, Nat.shiftRight_eq_div_pow]
    omega
  · rfl

theorem statusDirtyBits_iff (m : Word) : statusDirtyBits m = true ↔ (m.toNat / 2 ^ 13 % 4 = 3 ∨
    m.toNat / 2 ^ 15 % 4 = 3) := by
  unfold statusDirtyBits
  rw [← extract2_eq_three, ← extract2_eq_three]
  have : ∀ lo, (m.extractLsb' lo 2 == 3#2) = true ↔ m.toNat / 2 ^ lo % 4 = 3 := by
    intro lo; rw [beq_iff_eq, ← BitVec.toNat_inj]; simp [Nat.shiftRight_eq_div_pow]
  rw [Bool.or_eq_true, this, this]

theorem statusSummary_bit63 (v : Word) :
   ((statusSummary v).getLsbD 63 = true ↔ ((statusSummary v).toNat / 2 ^ 13 % 4 = 3 ∨ (statusSummary
       v).toNat / 2 ^ 15 % 4 = 3)) := by
  rw [← statusDirtyBits_iff, getLsbD_statusSummary _ _ (by decide)]
  have : statusDirtyBits (statusSummary v) = statusDirtyBits v := by
    apply statusDirtyBits_congr; intro j h1 h2
    rw [getLsbD_statusSummary _ _ (by omega), if_neg (by omega)]
  rw [this]; simp

theorem vmRecognised_iff (v : Word) : vmRecognised (statusVM v) = true ↔ v.toNat / 2 ^ 24 % 32 ∈ [0,
    1, 2, 8, 9, 10, 11, 12] := by
  have h : (statusVM v).toNat = v.toNat / 2 ^ 24 % 32 := by simp [statusVM, Nat.shiftRight_eq_div_pow]
  rw [← h]
  generalize statusVM v = x
  revert x; decide

theorem statusView_rule (s : State) (a : CsrAddr) (w : Word) (c : Csr) (mask : Word)
  (hst : (s.csrWrite a c w).core.mstatus = statusSummary (maskWrite s.core.mstatus mask
      (s.csrNativeWrite c w)))
  (hn : s.csrNativeWrite c w = statusNative s.params.arch (s.core.mstatus &&& mask) w) :
    let t := s.csrWrite a c w
    let v := statusNative s.params.arch (s.core.mstatus &&& mask) w
    CsrFrame c s t ∧ t.core.delta = (s.recCsr a v).core.delta ∧
      (t.core.mstatus.getLsbD 63 = true ↔ (t.core.mstatus.toNat / 2 ^ 13 % 4 = 3 ∨
        t.core.mstatus.toNat / 2 ^ 15 % 4 = 3)) ∧
      ∀ j, j < 63 → t.core.mstatus.getLsbD j = if mask.getLsbD j = true then v.getLsbD j else
          s.core.mstatus.getLsbD j := by
  intro t v
  refine ⟨csrFrame_csrWrite s a c w, by rw [show v = _ from hn.symm]; exact csrWrite_delta s a c w, ?_,
    fun j hj => ?_⟩
  · show ((s.csrWrite a c w).core.mstatus.getLsbD 63 = true ↔ _)
    rw [show t.core.mstatus = _ from hst]; exact statusSummary_bit63 _
  · rw [show t.core.mstatus = _ from hst, getLsbD_statusSummary _ _ (by omega), if_neg (by omega),
      getLsbD_maskWrite _ _ _ _ (by omega), hn]

theorem maskedView_rule (s : State) (a : CsrAddr) (w : Word) (c : Csr) (mask v : Word) {f : Core → Word}
  (hst : f (s.csrWrite a c w).core = (maskWrite (f s.core) mask (s.csrNativeWrite c w)))
  (hn : s.csrNativeWrite c w = v) :
    CsrFrame c s (s.csrWrite a c w) ∧ (s.csrWrite a c w).core.delta = (s.recCsr a v).core.delta ∧
      ∀ j, (f (s.csrWrite a c w).core).getLsbD j =
        if mask.getLsbD j = true then v.getLsbD j else (f s.core).getLsbD j := by
  refine ⟨csrFrame_csrWrite s a c w, by rw [← hn]; exact csrWrite_delta s a c w, fun j => ?_⟩
  rw [hst, hn]
  by_cases hj : j < 64
  · exact getLsbD_maskWrite _ _ _ _ hj
  · rw [BitVec.getLsbD_of_ge _ _ (by omega), BitVec.getLsbD_of_ge _ _ (by omega),
      BitVec.getLsbD_of_ge _ _ (by omega)]; simp [BitVec.getLsbD_of_ge (f s.core) j (by omega)]

end Sys2Proof.Machine
end

