-- ==== Sys2Proof/Laws/Divide.lean ====
section
/-!
SUPPORT. Multiplication, division and the word forms in the integers (44_muldiv.md R320 to R333).
-/

namespace Sys2Proof.Machine

theorem high_slice (n : Nat) (z : Int) :
  BitVec.ofInt n (z / 2^n) = (BitVec.ofInt (2*n) z).extractLsb' n n := by
  apply BitVec.eq_of_toNat_eq
  rw [BitVec.extractLsb'_toNat, BitVec.toNat_ofInt, BitVec.toNat_ofInt, Nat.shiftRight_eq_div_pow]
  have e : (2:Int)^(2*n) = 2^n * 2^n := by rw [← pow_add]; congr 1; omega
  have hp : (0:Int) < 2^n := by positivity
  have h1 : 0 ≤ z % 2^(2*n) := Int.emod_nonneg _ (by positivity)
  push_cast
  zify
  rw [Int.toNat_of_nonneg h1, Int.toNat_of_nonneg (Int.emod_nonneg _ (by positivity))]
  rw [e]
  have : z % (2^n * 2^n) = z + 2^n * (-(2^n * (z / (2^n*2^n)))) := by
    rw [Int.emod_def]; ring
  rw [this, Int.add_mul_ediv_left _ _ (ne_of_gt hp), ← mul_neg]; simp

theorem sext_high (x : Xlen) (a b : Word) {op : (n : Nat) → BitVec n → BitVec n → BitVec n} {z : Int}
    (h64 : x = .w64 → op 64 a b = BitVec.ofInt 64 (z / 2^64))
    (h32 : x = .w32 → op 32 (a.setWidth 32) (b.setWidth 32) = BitVec.ofInt 32 (z / 2^32)) :
    x.sext (x.lift2 op a b) = x.stored ((BitVec.ofInt (2 * x.bits) z).extractLsb' x.bits
        x.bits).toInt := by
  apply sext_lift2
  · rintro rfl; rw [h64 rfl, high_slice]; exact (BitVec.ofInt_toInt ..).symm
  · rintro rfl; rw [h32 rfl, high_slice]; exact (BitVec.ofInt_toInt ..).symm

theorem allOnes_eq (n : Nat) : BitVec.allOnes n = BitVec.ofInt n (-1) := by
  rw [← BitVec.neg_one_eq_allOnes, show (-1:Int) = -((1:Nat):Int) by rfl, BitVec.ofInt_neg,
      BitVec.ofInt_natCast]

/-- What the four operations give: by zero, for the overflow, otherwise. -/
structure DivSpec (n : Nat) (a b : BitVec n) : Prop where
  zero : b.toNat = 0 → opDiv n a b = BitVec.ofInt n (-1) ∧ opDivu n a b = BitVec.ofInt n (-1) ∧
      opRem n a b = a ∧ opRemu n a b = a
  ovf : a.toInt = -2^(n-1) → b.toInt = -1 → opDiv n a b = a ∧ opRem n a b = BitVec.ofInt n 0
  sg : b.toNat ≠ 0 → ¬ (a.toInt = -2^(n-1) ∧ b.toInt = -1) →
    opDiv n a b = BitVec.ofInt n (a.toInt.tdiv b.toInt) ∧ opRem n a b = BitVec.ofInt n (a.toInt -
        a.toInt.tdiv b.toInt * b.toInt)
  un : b.toNat ≠ 0 → opDivu n a b = BitVec.ofInt n (a.toNat / b.toNat : Nat) ∧ opRemu n a b =
      BitVec.ofInt n (a.toNat % b.toNat : Nat)

theorem minSigned_toInt (n : Nat) (hn : 0 < n) : (minSigned n).toInt = -2^(n-1) := by
  have : minSigned n = BitVec.intMin n := by
    unfold minSigned; apply BitVec.eq_of_toNat_eq;
    rw [BitVec.toNat_ofNat, BitVec.toNat_intMin]
  rw [this, BitVec.toInt_intMin_of_pos hn]

theorem divSpec (n : Nat) (hn : 1 < n) (a b : BitVec n) : DivSpec n a b := by
  have hb : (b = BitVec.ofNat n 0) ↔ b.toNat = 0 := by
    rw [← BitVec.toNat_inj]; simp
  have ha : (a = minSigned n ∧ b = BitVec.allOnes n) ↔ (a.toInt = -2^(n-1) ∧ b.toInt = -1) := by
    rw [← BitVec.toInt_inj, ← BitVec.toInt_inj, minSigned_toInt n (by omega), BitVec.toInt_allOnes];
        simp; omega
  constructor
  · intro h
    rw [← hb] at h
    refine ⟨?_, ?_, ?_, ?_⟩
    · unfold opDiv; rw [if_pos h, allOnes_eq]
    · unfold opDivu; rw [if_pos h, allOnes_eq]
    · unfold opRem; rw [if_pos h]
    · unfold opRemu; rw [if_pos h]
  · intro h1 h2
    have hz : ¬ b = BitVec.ofNat n 0 := by
      rintro rfl; simp at h2
    have := ha.2 ⟨h1,h2⟩
    constructor
    · unfold opDiv; rw [if_neg hz, if_pos this]
    · unfold opRem; rw [if_neg hz, if_pos this]; rfl
  · intro h1 h2
    rw [← ha] at h2; rw [Ne, ← hb] at h1
    constructor
    · unfold opDiv; rw [if_neg h1, if_neg h2]
    · unfold opRem; rw [if_neg h1, if_neg h2]
  · intro h1
    rw [Ne, ← hb] at h1
    constructor
    · unfold opDivu; rw [if_neg h1, BitVec.ofInt_natCast]
    · unfold opRemu; rw [if_neg h1, BitVec.ofInt_natCast]

/-- Quotient toward zero, remainder with the sign of the dividend. -/
theorem tdiv_quotient (A B : Int) (hB : B ≠ 0) : A = A.tdiv B * B + (A - A.tdiv B * B) ∧ (A - A.tdiv
    B * B).natAbs < B.natAbs ∧
   ((A - A.tdiv B * B) ≠ 0 → ((A - A.tdiv B * B) < 0 ↔ A < 0)) := by
  have e : A - A.tdiv B * B = A.tmod B := by rw [Int.tmod_def]; ring
  rw [e]
  refine ⟨by rw [← e]; ring, ?_, ?_⟩
  · rw [Int.natAbs_tmod]; exact Nat.mod_lt _ (Int.natAbs_pos.mpr hB)
  · intro h
    constructor
    · intro h2; by_contra h3
      have := Int.tmod_nonneg B (by omega : 0 ≤ A); omega
    · intro h2
      have := Int.tmod_nonneg B (by omega : 0 ≤ -A); rw [Int.neg_tmod] at this; omega

/-- The result of a word form. -/
theorem sext_liftW (op : BitVec 32 → BitVec 32 → BitVec 32) (a b : Word) (z : Int) (h : op
    (a.setWidth 32) (b.setWidth 32) = BitVec.ofInt 32 z) :
  Xlen.w64.sext (liftW op a b) = storedW z := by
  simp [Xlen.sext, liftW, storedW, h]

theorem lowU_eq (a : Word) : lowU a = (a.setWidth 32).toNat := by simp [lowU]

end Sys2Proof.Machine
end

