-- ==== Sys2Proof/Laws/Encoding.lean ====
section
/-!
SUPPORT. The fields of an encoded word: each format's encoder leaves the bits of its row's `match` and
puts every operand where the decoder reads it. `m` is a row's `match`, clear at the operands' places.
-/

namespace Sys2Proof

/-! ## A placed field -/

theorem getLsbD_place {n : Nat} (lo : Nat) (v : BitVec n) (j : Nat) :
    (place lo v).getLsbD j = (decide (j < 32) && decide (lo ≤ j) && v.getLsbD (j - lo)) := by
  unfold place
  rw [BitVec.getLsbD_shiftLeft, BitVec.getLsbD_setWidth]
  by_cases h1 : j < 32
  · by_cases h2 : lo ≤ j
    · have h3 : ¬ j < lo := by omega
      have h4 : j - lo < 32 := by omega
      simp [h1, h2, h3, h4]
    · have h3 : j < lo := by omega
      simp [h2, h3]
  · simp [h1]

/-- A field is read back where it was placed. -/
theorem extract_place_same {n : Nat} (lo : Nat) (v : BitVec n) (h : lo + n ≤ 32) :
    (place lo v).extractLsb' lo n = v := by
  apply BitVec.eq_of_getLsbD_eq
  intro i hi
  rw [BitVec.getLsbD_extractLsb', getLsbD_place]
  have h1 : lo + i < 32 := by omega
  have h2 : lo ≤ lo + i := by omega
  have h3 : lo + i - lo = i := by omega
  simp [hi, h1, h2, h3]

/-- A field placed elsewhere is not read. -/
theorem extract_place_other {n : Nat} (lo lo' n' : Nat) (v : BitVec n)
    (h : lo' + n' ≤ lo ∨ lo + n ≤ lo') : (place lo v).extractLsb' lo' n' = 0#n' := by
  apply BitVec.eq_of_getLsbD_eq
  intro i hi
  rw [BitVec.getLsbD_extractLsb', getLsbD_place, BitVec.getLsbD_zero]
  by_cases h1 : lo ≤ lo' + i
  · rw [BitVec.getLsbD_of_ge v (lo' + i - lo) (by omega)]; simp
  · simp [h1]

/-- A mask that is clear where the field stands hides it. -/
theorem place_and {n : Nat} (lo : Nat) (v : BitVec n) (mask : BitVec 32)
    (h : place lo (BitVec.allOnes n) &&& mask = 0#32) : place lo v &&& mask = 0#32 := by
  apply BitVec.eq_of_getLsbD_eq
  intro i hi
  have hb := congrArg (BitVec.getLsbD · i) h
  simp only [BitVec.getLsbD_and, getLsbD_place, BitVec.getLsbD_allOnes, BitVec.getLsbD_zero] at hb ⊢
  by_cases hin : i - lo < n
  · cases hm : mask.getLsbD i
    · simp
    · rw [hm] at hb
      simp only [hin, decide_true, Bool.and_true] at hb
      simp [hb]
  · rw [BitVec.getLsbD_of_ge v _ (by omega)]; simp

theorem zero_of_mask {m big : BitVec 32} (lo n : Nat) (h : m &&& big = 0#32)
    (hb : place lo (BitVec.allOnes n) &&& big = place lo (BitVec.allOnes n)) (hn : lo + n ≤ 32) :
    m.extractLsb' lo n = 0#n := by
  apply BitVec.eq_of_getLsbD_eq
  intro i hi
  rw [BitVec.getLsbD_extractLsb', BitVec.getLsbD_zero]
  have h1 := congrArg (BitVec.getLsbD · (lo + i)) h
  have h2 := congrArg (BitVec.getLsbD · (lo + i)) hb
  simp only [BitVec.getLsbD_and, getLsbD_place, BitVec.getLsbD_allOnes, BitVec.getLsbD_zero] at h1 h2
  have h3 : lo + i < 32 := by omega
  have h4 : lo ≤ lo + i := by omega
  have h5 : lo + i - lo = i := by omega
  simp only [h3, h4, h5, hi, decide_true, Bool.and_self, Bool.true_and] at h2
  rw [h2] at h1
  simpa [hi] using h1

theorem and_or_left (a b c : BitVec 32) : (a ||| b) &&& c = (a &&& c) ||| (b &&& c) := by
  apply BitVec.eq_of_getLsbD_eq
  intro i _
  simp only [BitVec.getLsbD_and, BitVec.getLsbD_or]
  cases a.getLsbD i <;> cases b.getLsbD i <;> cases c.getLsbD i <;> rfl

/-! ## The immediates put together again -/

theorem low_high12 (imm : BitVec 12) : imm.extractLsb' 5 7 ++ imm.extractLsb' 0 5 = imm := by
  apply BitVec.eq_of_getLsbD_eq
  intro i hi
  rw [BitVec.getLsbD_append, BitVec.getLsbD_extractLsb', BitVec.getLsbD_extractLsb']
  by_cases h : i < 5
  · simp [h]
  · have h2 : i - 5 < 7 := by omega
    have h3 : 5 + (i - 5) = i := by omega
    simp [h, h2, h3]

theorem branch_parts (off : BitVec 13) (h : off.getLsbD 0 = false) :
    off.extractLsb' 12 1 ++ off.extractLsb' 11 1 ++ off.extractLsb' 5 6 ++ off.extractLsb' 1 4 ++ 0#1
      = off := by
  apply BitVec.eq_of_getLsbD_eq
  intro i hi
  simp only [BitVec.getLsbD_append, BitVec.getLsbD_extractLsb', BitVec.getLsbD_zero]
  have : ∀ i : Fin 13, i.val = 0 ∨ (1 ≤ i.val ∧ i.val < 5) ∨ (5 ≤ i.val ∧ i.val < 11) ∨ i.val = 11
      ∨ i.val = 12 := by decide
  rcases this ⟨i, hi⟩ with h0 | h0 | h0 | h0 | h0 <;> simp only at h0
  · subst h0; simpa using h.symm
  · have h1 : ¬ i < 1 := by omega
    have h2 : i - 1 < 4 := by omega
    have h3 : 1 + (i - 1) = i := by omega
    simp [h1, h2, h3]
  · have h1 : ¬ i < 1 := by omega
    have h2 : ¬ i - 1 < 4 := by omega
    have h3 : i - 1 - 4 < 6 := by omega
    have h4 : 5 + (i - 1 - 4) = i := by omega
    simp [h1, h2, h3, h4]
  · subst h0; simp
  · subst h0; simp

theorem jump_parts (off : BitVec 21) (h : off.getLsbD 0 = false) :
    off.extractLsb' 20 1 ++ off.extractLsb' 12 8 ++ off.extractLsb' 11 1 ++ off.extractLsb' 1 10 ++ 0#1
      = off := by
  apply BitVec.eq_of_getLsbD_eq
  intro i hi
  simp only [BitVec.getLsbD_append, BitVec.getLsbD_extractLsb', BitVec.getLsbD_zero]
  have : ∀ i : Fin 21, i.val = 0 ∨ (1 ≤ i.val ∧ i.val < 11) ∨ i.val = 11 ∨ (12 ≤ i.val ∧ i.val < 20)
      ∨ i.val = 20 := by decide
  rcases this ⟨i, hi⟩ with h0 | h0 | h0 | h0 | h0 <;> simp only at h0
  · subst h0; simpa using h.symm
  · have h1 : ¬ i < 1 := by omega
    have h2 : i - 1 < 10 := by omega
    have h3 : 1 + (i - 1) = i := by omega
    simp [h1, h2, h3]
  · subst h0; simp
  · have h1 : ¬ i < 1 := by omega
    have h2 : ¬ i - 1 < 10 := by omega
    have h3 : ¬ i - 1 - 10 < 1 := by omega
    have h4 : i - 1 - 10 - 1 < 8 := by omega
    have h5 : 12 + (i - 1 - 10 - 1) = i := by omega
    simp [h1, h2, h3, h4, h5]
  · subst h0; simp

/-! ## Each format -/

section
variable (m mask : BitVec 32) (rd : RegIdx) (imm : BitVec 20)

theorem encU_fits (hm : m &&& mask = m) (hf : 0xffffff80#32 &&& mask = 0#32) :
    encU m rd imm &&& mask = m := by
  have hp : ∀ (lo n : Nat) (v : BitVec n), place lo (BitVec.allOnes n) &&& 0xffffff80#32 =
      place lo (BitVec.allOnes n) → place lo v &&& mask = 0#32 := by
    intro lo n v h
    apply place_and
    rw [← h, BitVec.and_assoc, hf, BitVec.and_zero]
  unfold encU
  simp only [and_or_left, hm]
  rw [hp 7 5 _ (by decide), hp 12 20 _ (by decide)]
  simp

theorem encU_rd (hm : m &&& 0xffffff80#32 = 0#32) :
    rdField (encU m rd imm) = rd := by
  unfold rdField encU
  simp only [BitVec.extractLsb'_or]
  simp only [zero_of_mask 7 5 hm (by decide) (by decide),
    extract_place_same (n := 5) 7 _ (by omega),
    extract_place_other (n := 20) 12 7 5 _ (by omega), BitVec.zero_or, BitVec.or_zero]

theorem encU_imm (hm : m &&& 0xffffff80#32 = 0#32) :
    immU (encU m rd imm) = imm := by
  unfold immU encU
  simp only [BitVec.extractLsb'_or]
  simp only [zero_of_mask 12 20 hm (by decide) (by decide),
    extract_place_other (n := 5) 7 12 20 _ (by omega),
    extract_place_same (n := 20) 12 _ (by omega), BitVec.zero_or, BitVec.or_zero]

end

section
variable (m mask : BitVec 32) (rd : RegIdx) (off : BitVec 21)

theorem encJ_fits (hm : m &&& mask = m) (hf : 0xffffff80#32 &&& mask = 0#32) :
    encJ m rd off &&& mask = m := by
  have hp : ∀ (lo n : Nat) (v : BitVec n), place lo (BitVec.allOnes n) &&& 0xffffff80#32 =
      place lo (BitVec.allOnes n) → place lo v &&& mask = 0#32 := by
    intro lo n v h
    apply place_and
    rw [← h, BitVec.and_assoc, hf, BitVec.and_zero]
  unfold encJ
  simp only [and_or_left, hm]
  rw [hp 7 5 _ (by decide), hp 12 8 _ (by decide), hp 20 1 _ (by decide), hp 21 10 _ (by decide), hp 31 1 _ (by decide)]
  simp

theorem encJ_rd (hm : m &&& 0xffffff80#32 = 0#32) :
    rdField (encJ m rd off) = rd := by
  unfold rdField encJ
  simp only [BitVec.extractLsb'_or]
  simp only [zero_of_mask 7 5 hm (by decide) (by decide),
    extract_place_same (n := 5) 7 _ (by omega),
    extract_place_other (n := 8) 12 7 5 _ (by omega),
    extract_place_other (n := 1) 20 7 5 _ (by omega),
    extract_place_other (n := 10) 21 7 5 _ (by omega),
    extract_place_other (n := 1) 31 7 5 _ (by omega), BitVec.zero_or, BitVec.or_zero]

theorem encJ_off (hm : m &&& 0xffffff80#32 = 0#32) (hoff : off.getLsbD 0 = false) :
    immJ (encJ m rd off) = off := by
  unfold immJ encJ
  simp only [BitVec.extractLsb'_or]
  simp only [zero_of_mask 12 8 hm (by decide) (by decide),
    extract_place_other (n := 5) 7 12 8 _ (by omega),
    extract_place_same (n := 8) 12 _ (by omega),
    extract_place_other (n := 1) 20 12 8 _ (by omega),
    extract_place_other (n := 10) 21 12 8 _ (by omega),
    extract_place_other (n := 1) 31 12 8 _ (by omega),
    zero_of_mask 20 1 hm (by decide) (by decide),
    extract_place_other (n := 5) 7 20 1 _ (by omega),
    extract_place_other (n := 8) 12 20 1 _ (by omega),
    extract_place_same (n := 1) 20 _ (by omega),
    extract_place_other (n := 10) 21 20 1 _ (by omega),
    extract_place_other (n := 1) 31 20 1 _ (by omega),
    zero_of_mask 21 10 hm (by decide) (by decide),
    extract_place_other (n := 5) 7 21 10 _ (by omega),
    extract_place_other (n := 8) 12 21 10 _ (by omega),
    extract_place_other (n := 1) 20 21 10 _ (by omega),
    extract_place_same (n := 10) 21 _ (by omega),
    extract_place_other (n := 1) 31 21 10 _ (by omega),
    zero_of_mask 31 1 hm (by decide) (by decide),
    extract_place_other (n := 5) 7 31 1 _ (by omega),
    extract_place_other (n := 8) 12 31 1 _ (by omega),
    extract_place_other (n := 1) 20 31 1 _ (by omega),
    extract_place_other (n := 10) 21 31 1 _ (by omega),
    extract_place_same (n := 1) 31 _ (by omega), BitVec.zero_or, BitVec.or_zero]
  exact jump_parts off hoff

end

section
variable (m mask : BitVec 32) (rs1 : RegIdx) (rs2 : RegIdx) (off : BitVec 13)

theorem encB_fits (hm : m &&& mask = m) (hf : 0xffff8f80#32 &&& mask = 0#32) :
    encB m rs1 rs2 off &&& mask = m := by
  have hp : ∀ (lo n : Nat) (v : BitVec n), place lo (BitVec.allOnes n) &&& 0xffff8f80#32 =
      place lo (BitVec.allOnes n) → place lo v &&& mask = 0#32 := by
    intro lo n v h
    apply place_and
    rw [← h, BitVec.and_assoc, hf, BitVec.and_zero]
  unfold encB
  simp only [and_or_left, hm]
  rw [hp 15 5 _ (by decide), hp 20 5 _ (by decide), hp 7 1 _ (by decide), hp 8 4 _ (by decide), hp 25 6 _ (by decide), hp 31 1 _ (by decide)]
  simp

theorem encB_rs1 (hm : m &&& 0xffff8f80#32 = 0#32) :
    rs1Field (encB m rs1 rs2 off) = rs1 := by
  unfold rs1Field encB
  simp only [BitVec.extractLsb'_or]
  simp only [zero_of_mask 15 5 hm (by decide) (by decide),
    extract_place_same (n := 5) 15 _ (by omega),
    extract_place_other (n := 5) 20 15 5 _ (by omega),
    extract_place_other (n := 1) 7 15 5 _ (by omega),
    extract_place_other (n := 4) 8 15 5 _ (by omega),
    extract_place_other (n := 6) 25 15 5 _ (by omega),
    extract_place_other (n := 1) 31 15 5 _ (by omega), BitVec.zero_or, BitVec.or_zero]

theorem encB_rs2 (hm : m &&& 0xffff8f80#32 = 0#32) :
    rs2Field (encB m rs1 rs2 off) = rs2 := by
  unfold rs2Field encB
  simp only [BitVec.extractLsb'_or]
  simp only [zero_of_mask 20 5 hm (by decide) (by decide),
    extract_place_other (n := 5) 15 20 5 _ (by omega),
    extract_place_same (n := 5) 20 _ (by omega),
    extract_place_other (n := 1) 7 20 5 _ (by omega),
    extract_place_other (n := 4) 8 20 5 _ (by omega),
    extract_place_other (n := 6) 25 20 5 _ (by omega),
    extract_place_other (n := 1) 31 20 5 _ (by omega), BitVec.zero_or, BitVec.or_zero]

theorem encB_off (hm : m &&& 0xffff8f80#32 = 0#32) (hoff : off.getLsbD 0 = false) :
    immB (encB m rs1 rs2 off) = off := by
  unfold immB encB
  simp only [BitVec.extractLsb'_or]
  simp only [zero_of_mask 7 1 hm (by decide) (by decide),
    extract_place_other (n := 5) 15 7 1 _ (by omega),
    extract_place_other (n := 5) 20 7 1 _ (by omega),
    extract_place_same (n := 1) 7 _ (by omega),
    extract_place_other (n := 4) 8 7 1 _ (by omega),
    extract_place_other (n := 6) 25 7 1 _ (by omega),
    extract_place_other (n := 1) 31 7 1 _ (by omega),
    zero_of_mask 8 4 hm (by decide) (by decide),
    extract_place_other (n := 5) 15 8 4 _ (by omega),
    extract_place_other (n := 5) 20 8 4 _ (by omega),
    extract_place_other (n := 1) 7 8 4 _ (by omega),
    extract_place_same (n := 4) 8 _ (by omega),
    extract_place_other (n := 6) 25 8 4 _ (by omega),
    extract_place_other (n := 1) 31 8 4 _ (by omega),
    zero_of_mask 25 6 hm (by decide) (by decide),
    extract_place_other (n := 5) 15 25 6 _ (by omega),
    extract_place_other (n := 5) 20 25 6 _ (by omega),
    extract_place_other (n := 1) 7 25 6 _ (by omega),
    extract_place_other (n := 4) 8 25 6 _ (by omega),
    extract_place_same (n := 6) 25 _ (by omega),
    extract_place_other (n := 1) 31 25 6 _ (by omega),
    zero_of_mask 31 1 hm (by decide) (by decide),
    extract_place_other (n := 5) 15 31 1 _ (by omega),
    extract_place_other (n := 5) 20 31 1 _ (by omega),
    extract_place_other (n := 1) 7 31 1 _ (by omega),
    extract_place_other (n := 4) 8 31 1 _ (by omega),
    extract_place_other (n := 6) 25 31 1 _ (by omega),
    extract_place_same (n := 1) 31 _ (by omega), BitVec.zero_or, BitVec.or_zero]
  exact branch_parts off hoff

end

section
variable (m mask : BitVec 32) (rd : RegIdx) (rs1 : RegIdx) (imm : BitVec 12)

theorem encI_fits (hm : m &&& mask = m) (hf : 0xffff8f80#32 &&& mask = 0#32) :
    encI m rd rs1 imm &&& mask = m := by
  have hp : ∀ (lo n : Nat) (v : BitVec n), place lo (BitVec.allOnes n) &&& 0xffff8f80#32 =
      place lo (BitVec.allOnes n) → place lo v &&& mask = 0#32 := by
    intro lo n v h
    apply place_and
    rw [← h, BitVec.and_assoc, hf, BitVec.and_zero]
  unfold encI
  simp only [and_or_left, hm]
  rw [hp 7 5 _ (by decide), hp 15 5 _ (by decide), hp 20 12 _ (by decide)]
  simp

theorem encI_rd (hm : m &&& 0xffff8f80#32 = 0#32) :
    rdField (encI m rd rs1 imm) = rd := by
  unfold rdField encI
  simp only [BitVec.extractLsb'_or]
  simp only [zero_of_mask 7 5 hm (by decide) (by decide),
    extract_place_same (n := 5) 7 _ (by omega),
    extract_place_other (n := 5) 15 7 5 _ (by omega),
    extract_place_other (n := 12) 20 7 5 _ (by omega), BitVec.zero_or, BitVec.or_zero]

theorem encI_rs1 (hm : m &&& 0xffff8f80#32 = 0#32) :
    rs1Field (encI m rd rs1 imm) = rs1 := by
  unfold rs1Field encI
  simp only [BitVec.extractLsb'_or]
  simp only [zero_of_mask 15 5 hm (by decide) (by decide),
    extract_place_other (n := 5) 7 15 5 _ (by omega),
    extract_place_same (n := 5) 15 _ (by omega),
    extract_place_other (n := 12) 20 15 5 _ (by omega), BitVec.zero_or, BitVec.or_zero]

theorem encI_imm (hm : m &&& 0xffff8f80#32 = 0#32) :
    immI (encI m rd rs1 imm) = imm := by
  unfold immI encI
  simp only [BitVec.extractLsb'_or]
  simp only [zero_of_mask 20 12 hm (by decide) (by decide),
    extract_place_other (n := 5) 7 20 12 _ (by omega),
    extract_place_other (n := 5) 15 20 12 _ (by omega),
    extract_place_same (n := 12) 20 _ (by omega), BitVec.zero_or, BitVec.or_zero]

end

section
variable (m mask : BitVec 32) (rs1 : RegIdx) (rs2 : RegIdx) (imm : BitVec 12)

theorem encS_fits (hm : m &&& mask = m) (hf : 0xffff8f80#32 &&& mask = 0#32) :
    encS m rs1 rs2 imm &&& mask = m := by
  have hp : ∀ (lo n : Nat) (v : BitVec n), place lo (BitVec.allOnes n) &&& 0xffff8f80#32 =
      place lo (BitVec.allOnes n) → place lo v &&& mask = 0#32 := by
    intro lo n v h
    apply place_and
    rw [← h, BitVec.and_assoc, hf, BitVec.and_zero]
  unfold encS
  simp only [and_or_left, hm]
  rw [hp 15 5 _ (by decide), hp 20 5 _ (by decide), hp 7 5 _ (by decide), hp 25 7 _ (by decide)]
  simp

theorem encS_rs1 (hm : m &&& 0xffff8f80#32 = 0#32) :
    rs1Field (encS m rs1 rs2 imm) = rs1 := by
  unfold rs1Field encS
  simp only [BitVec.extractLsb'_or]
  simp only [zero_of_mask 15 5 hm (by decide) (by decide),
    extract_place_same (n := 5) 15 _ (by omega),
    extract_place_other (n := 5) 20 15 5 _ (by omega),
    extract_place_other (n := 5) 7 15 5 _ (by omega),
    extract_place_other (n := 7) 25 15 5 _ (by omega), BitVec.zero_or, BitVec.or_zero]

theorem encS_rs2 (hm : m &&& 0xffff8f80#32 = 0#32) :
    rs2Field (encS m rs1 rs2 imm) = rs2 := by
  unfold rs2Field encS
  simp only [BitVec.extractLsb'_or]
  simp only [zero_of_mask 20 5 hm (by decide) (by decide),
    extract_place_other (n := 5) 15 20 5 _ (by omega),
    extract_place_same (n := 5) 20 _ (by omega),
    extract_place_other (n := 5) 7 20 5 _ (by omega),
    extract_place_other (n := 7) 25 20 5 _ (by omega), BitVec.zero_or, BitVec.or_zero]

theorem encS_imm (hm : m &&& 0xffff8f80#32 = 0#32) :
    immS (encS m rs1 rs2 imm) = imm := by
  unfold immS encS
  simp only [BitVec.extractLsb'_or]
  simp only [zero_of_mask 7 5 hm (by decide) (by decide),
    extract_place_other (n := 5) 15 7 5 _ (by omega),
    extract_place_other (n := 5) 20 7 5 _ (by omega),
    extract_place_same (n := 5) 7 _ (by omega),
    extract_place_other (n := 7) 25 7 5 _ (by omega),
    zero_of_mask 25 7 hm (by decide) (by decide),
    extract_place_other (n := 5) 15 25 7 _ (by omega),
    extract_place_other (n := 5) 20 25 7 _ (by omega),
    extract_place_other (n := 5) 7 25 7 _ (by omega),
    extract_place_same (n := 7) 25 _ (by omega), BitVec.zero_or, BitVec.or_zero]
  exact low_high12 imm

end

section
variable (m mask : BitVec 32) (rd : RegIdx) (rs1 : RegIdx) (shamt : BitVec 6)

theorem encShift64_fits (hm : m &&& mask = m) (hf : 0x03ff8f80#32 &&& mask = 0#32) :
    encShift64 m rd rs1 shamt &&& mask = m := by
  have hp : ∀ (lo n : Nat) (v : BitVec n), place lo (BitVec.allOnes n) &&& 0x03ff8f80#32 =
      place lo (BitVec.allOnes n) → place lo v &&& mask = 0#32 := by
    intro lo n v h
    apply place_and
    rw [← h, BitVec.and_assoc, hf, BitVec.and_zero]
  unfold encShift64
  simp only [and_or_left, hm]
  rw [hp 7 5 _ (by decide), hp 15 5 _ (by decide), hp 20 6 _ (by decide)]
  simp

theorem encShift64_rd (hm : m &&& 0x03ff8f80#32 = 0#32) :
    rdField (encShift64 m rd rs1 shamt) = rd := by
  unfold rdField encShift64
  simp only [BitVec.extractLsb'_or]
  simp only [zero_of_mask 7 5 hm (by decide) (by decide),
    extract_place_same (n := 5) 7 _ (by omega),
    extract_place_other (n := 5) 15 7 5 _ (by omega),
    extract_place_other (n := 6) 20 7 5 _ (by omega), BitVec.zero_or, BitVec.or_zero]

theorem encShift64_rs1 (hm : m &&& 0x03ff8f80#32 = 0#32) :
    rs1Field (encShift64 m rd rs1 shamt) = rs1 := by
  unfold rs1Field encShift64
  simp only [BitVec.extractLsb'_or]
  simp only [zero_of_mask 15 5 hm (by decide) (by decide),
    extract_place_other (n := 5) 7 15 5 _ (by omega),
    extract_place_same (n := 5) 15 _ (by omega),
    extract_place_other (n := 6) 20 15 5 _ (by omega), BitVec.zero_or, BitVec.or_zero]

theorem encShift64_shamt (hm : m &&& 0x03ff8f80#32 = 0#32) :
    shamt6 (encShift64 m rd rs1 shamt) = shamt := by
  unfold shamt6 encShift64
  simp only [BitVec.extractLsb'_or]
  simp only [zero_of_mask 20 6 hm (by decide) (by decide),
    extract_place_other (n := 5) 7 20 6 _ (by omega),
    extract_place_other (n := 5) 15 20 6 _ (by omega),
    extract_place_same (n := 6) 20 _ (by omega), BitVec.zero_or, BitVec.or_zero]

end

section
variable (m mask : BitVec 32) (rd : RegIdx) (rs1 : RegIdx) (shamt : BitVec 5)

theorem encShift32_fits (hm : m &&& mask = m) (hf : 0x01ff8f80#32 &&& mask = 0#32) :
    encShift32 m rd rs1 shamt &&& mask = m := by
  have hp : ∀ (lo n : Nat) (v : BitVec n), place lo (BitVec.allOnes n) &&& 0x01ff8f80#32 =
      place lo (BitVec.allOnes n) → place lo v &&& mask = 0#32 := by
    intro lo n v h
    apply place_and
    rw [← h, BitVec.and_assoc, hf, BitVec.and_zero]
  unfold encShift32
  simp only [and_or_left, hm]
  rw [hp 7 5 _ (by decide), hp 15 5 _ (by decide), hp 20 5 _ (by decide)]
  simp

theorem encShift32_rd (hm : m &&& 0x01ff8f80#32 = 0#32) :
    rdField (encShift32 m rd rs1 shamt) = rd := by
  unfold rdField encShift32
  simp only [BitVec.extractLsb'_or]
  simp only [zero_of_mask 7 5 hm (by decide) (by decide),
    extract_place_same (n := 5) 7 _ (by omega),
    extract_place_other (n := 5) 15 7 5 _ (by omega),
    extract_place_other (n := 5) 20 7 5 _ (by omega), BitVec.zero_or, BitVec.or_zero]

theorem encShift32_rs1 (hm : m &&& 0x01ff8f80#32 = 0#32) :
    rs1Field (encShift32 m rd rs1 shamt) = rs1 := by
  unfold rs1Field encShift32
  simp only [BitVec.extractLsb'_or]
  simp only [zero_of_mask 15 5 hm (by decide) (by decide),
    extract_place_other (n := 5) 7 15 5 _ (by omega),
    extract_place_same (n := 5) 15 _ (by omega),
    extract_place_other (n := 5) 20 15 5 _ (by omega), BitVec.zero_or, BitVec.or_zero]

theorem encShift32_shamt (hm : m &&& 0x01ff8f80#32 = 0#32) :
    rs2Field (encShift32 m rd rs1 shamt) = shamt := by
  unfold rs2Field encShift32
  simp only [BitVec.extractLsb'_or]
  simp only [zero_of_mask 20 5 hm (by decide) (by decide),
    extract_place_other (n := 5) 7 20 5 _ (by omega),
    extract_place_other (n := 5) 15 20 5 _ (by omega),
    extract_place_same (n := 5) 20 _ (by omega), BitVec.zero_or, BitVec.or_zero]

end

section
variable (m mask : BitVec 32) (rd : RegIdx) (rs1 : RegIdx) (rs2 : RegIdx)

theorem encR_fits (hm : m &&& mask = m) (hf : 0x01ff8f80#32 &&& mask = 0#32) :
    encR m rd rs1 rs2 &&& mask = m := by
  have hp : ∀ (lo n : Nat) (v : BitVec n), place lo (BitVec.allOnes n) &&& 0x01ff8f80#32 =
      place lo (BitVec.allOnes n) → place lo v &&& mask = 0#32 := by
    intro lo n v h
    apply place_and
    rw [← h, BitVec.and_assoc, hf, BitVec.and_zero]
  unfold encR
  simp only [and_or_left, hm]
  rw [hp 7 5 _ (by decide), hp 15 5 _ (by decide), hp 20 5 _ (by decide)]
  simp

theorem encR_rd (hm : m &&& 0x01ff8f80#32 = 0#32) :
    rdField (encR m rd rs1 rs2) = rd := by
  unfold rdField encR
  simp only [BitVec.extractLsb'_or]
  simp only [zero_of_mask 7 5 hm (by decide) (by decide),
    extract_place_same (n := 5) 7 _ (by omega),
    extract_place_other (n := 5) 15 7 5 _ (by omega),
    extract_place_other (n := 5) 20 7 5 _ (by omega), BitVec.zero_or, BitVec.or_zero]

theorem encR_rs1 (hm : m &&& 0x01ff8f80#32 = 0#32) :
    rs1Field (encR m rd rs1 rs2) = rs1 := by
  unfold rs1Field encR
  simp only [BitVec.extractLsb'_or]
  simp only [zero_of_mask 15 5 hm (by decide) (by decide),
    extract_place_other (n := 5) 7 15 5 _ (by omega),
    extract_place_same (n := 5) 15 _ (by omega),
    extract_place_other (n := 5) 20 15 5 _ (by omega), BitVec.zero_or, BitVec.or_zero]

theorem encR_rs2 (hm : m &&& 0x01ff8f80#32 = 0#32) :
    rs2Field (encR m rd rs1 rs2) = rs2 := by
  unfold rs2Field encR
  simp only [BitVec.extractLsb'_or]
  simp only [zero_of_mask 20 5 hm (by decide) (by decide),
    extract_place_other (n := 5) 7 20 5 _ (by omega),
    extract_place_other (n := 5) 15 20 5 _ (by omega),
    extract_place_same (n := 5) 20 _ (by omega), BitVec.zero_or, BitVec.or_zero]

end

section
variable (m mask : BitVec 32) (rd : RegIdx) (rs1 : RegIdx)

theorem encR1_fits (hm : m &&& mask = m) (hf : 0x000f8f80#32 &&& mask = 0#32) :
    encR1 m rd rs1 &&& mask = m := by
  have hp : ∀ (lo n : Nat) (v : BitVec n), place lo (BitVec.allOnes n) &&& 0x000f8f80#32 =
      place lo (BitVec.allOnes n) → place lo v &&& mask = 0#32 := by
    intro lo n v h
    apply place_and
    rw [← h, BitVec.and_assoc, hf, BitVec.and_zero]
  unfold encR1
  simp only [and_or_left, hm]
  rw [hp 7 5 _ (by decide), hp 15 5 _ (by decide)]
  simp

theorem encR1_rd (hm : m &&& 0x000f8f80#32 = 0#32) :
    rdField (encR1 m rd rs1) = rd := by
  unfold rdField encR1
  simp only [BitVec.extractLsb'_or]
  simp only [zero_of_mask 7 5 hm (by decide) (by decide),
    extract_place_same (n := 5) 7 _ (by omega),
    extract_place_other (n := 5) 15 7 5 _ (by omega), BitVec.zero_or, BitVec.or_zero]

theorem encR1_rs1 (hm : m &&& 0x000f8f80#32 = 0#32) :
    rs1Field (encR1 m rd rs1) = rs1 := by
  unfold rs1Field encR1
  simp only [BitVec.extractLsb'_or]
  simp only [zero_of_mask 15 5 hm (by decide) (by decide),
    extract_place_other (n := 5) 7 15 5 _ (by omega),
    extract_place_same (n := 5) 15 _ (by omega), BitVec.zero_or, BitVec.or_zero]

end

section
variable (m mask : BitVec 32) (rs1 : RegIdx)

theorem encRs1_fits (hm : m &&& mask = m) (hf : 0x000f8000#32 &&& mask = 0#32) :
    encRs1 m rs1 &&& mask = m := by
  have hp : ∀ (lo n : Nat) (v : BitVec n), place lo (BitVec.allOnes n) &&& 0x000f8000#32 =
      place lo (BitVec.allOnes n) → place lo v &&& mask = 0#32 := by
    intro lo n v h
    apply place_and
    rw [← h, BitVec.and_assoc, hf, BitVec.and_zero]
  unfold encRs1
  simp only [and_or_left, hm]
  rw [hp 15 5 _ (by decide)]
  simp

theorem encRs1_rs1 (hm : m &&& 0x000f8000#32 = 0#32) :
    rs1Field (encRs1 m rs1) = rs1 := by
  unfold rs1Field encRs1
  simp only [BitVec.extractLsb'_or]
  simp only [zero_of_mask 15 5 hm (by decide) (by decide),
    extract_place_same (n := 5) 15 _ (by omega), BitVec.zero_or, BitVec.or_zero]

end

section
variable (m mask : BitVec 32) (rd : RegIdx) (csr : CsrAddr) (rs1 : RegIdx)

theorem encCsr_fits (hm : m &&& mask = m) (hf : 0xffff8f80#32 &&& mask = 0#32) :
    encCsr m rd csr rs1 &&& mask = m := by
  have hp : ∀ (lo n : Nat) (v : BitVec n), place lo (BitVec.allOnes n) &&& 0xffff8f80#32 =
      place lo (BitVec.allOnes n) → place lo v &&& mask = 0#32 := by
    intro lo n v h
    apply place_and
    rw [← h, BitVec.and_assoc, hf, BitVec.and_zero]
  unfold encCsr
  simp only [and_or_left, hm]
  rw [hp 7 5 _ (by decide), hp 15 5 _ (by decide), hp 20 12 _ (by decide)]
  simp

theorem encCsr_rd (hm : m &&& 0xffff8f80#32 = 0#32) :
    rdField (encCsr m rd csr rs1) = rd := by
  unfold rdField encCsr
  simp only [BitVec.extractLsb'_or]
  simp only [zero_of_mask 7 5 hm (by decide) (by decide),
    extract_place_same (n := 5) 7 _ (by omega),
    extract_place_other (n := 12) 20 7 5 _ (by omega),
    extract_place_other (n := 5) 15 7 5 _ (by omega), BitVec.zero_or, BitVec.or_zero]

theorem encCsr_csr (hm : m &&& 0xffff8f80#32 = 0#32) :
    immI (encCsr m rd csr rs1) = csr := by
  unfold immI encCsr
  simp only [BitVec.extractLsb'_or]
  simp only [zero_of_mask 20 12 hm (by decide) (by decide),
    extract_place_other (n := 5) 7 20 12 _ (by omega),
    extract_place_same (n := 12) 20 _ (by omega),
    extract_place_other (n := 5) 15 20 12 _ (by omega), BitVec.zero_or, BitVec.or_zero]

theorem encCsr_rs1 (hm : m &&& 0xffff8f80#32 = 0#32) :
    rs1Field (encCsr m rd csr rs1) = rs1 := by
  unfold rs1Field encCsr
  simp only [BitVec.extractLsb'_or]
  simp only [zero_of_mask 15 5 hm (by decide) (by decide),
    extract_place_other (n := 5) 7 15 5 _ (by omega),
    extract_place_other (n := 12) 20 15 5 _ (by omega),
    extract_place_same (n := 5) 15 _ (by omega), BitVec.zero_or, BitVec.or_zero]

end

section
variable (m mask : BitVec 32) (rd : RegIdx) (rs1 : RegIdx) (rs2 : RegIdx) (rm : BitVec 3)

theorem encRm_fits (hm : m &&& mask = m) (hf : 0x01ffff80#32 &&& mask = 0#32) :
    encRm m rd rs1 rs2 rm &&& mask = m := by
  have hp : ∀ (lo n : Nat) (v : BitVec n), place lo (BitVec.allOnes n) &&& 0x01ffff80#32 =
      place lo (BitVec.allOnes n) → place lo v &&& mask = 0#32 := by
    intro lo n v h
    apply place_and
    rw [← h, BitVec.and_assoc, hf, BitVec.and_zero]
  unfold encRm
  simp only [and_or_left, hm]
  rw [hp 7 5 _ (by decide), hp 12 3 _ (by decide), hp 15 5 _ (by decide), hp 20 5 _ (by decide)]
  simp

theorem encRm_rd (hm : m &&& 0x01ffff80#32 = 0#32) :
    rdField (encRm m rd rs1 rs2 rm) = rd := by
  unfold rdField encRm
  simp only [BitVec.extractLsb'_or]
  simp only [zero_of_mask 7 5 hm (by decide) (by decide),
    extract_place_same (n := 5) 7 _ (by omega),
    extract_place_other (n := 5) 15 7 5 _ (by omega),
    extract_place_other (n := 5) 20 7 5 _ (by omega),
    extract_place_other (n := 3) 12 7 5 _ (by omega), BitVec.zero_or, BitVec.or_zero]

theorem encRm_rs1 (hm : m &&& 0x01ffff80#32 = 0#32) :
    rs1Field (encRm m rd rs1 rs2 rm) = rs1 := by
  unfold rs1Field encRm
  simp only [BitVec.extractLsb'_or]
  simp only [zero_of_mask 15 5 hm (by decide) (by decide),
    extract_place_other (n := 5) 7 15 5 _ (by omega),
    extract_place_same (n := 5) 15 _ (by omega),
    extract_place_other (n := 5) 20 15 5 _ (by omega),
    extract_place_other (n := 3) 12 15 5 _ (by omega), BitVec.zero_or, BitVec.or_zero]

theorem encRm_rs2 (hm : m &&& 0x01ffff80#32 = 0#32) :
    rs2Field (encRm m rd rs1 rs2 rm) = rs2 := by
  unfold rs2Field encRm
  simp only [BitVec.extractLsb'_or]
  simp only [zero_of_mask 20 5 hm (by decide) (by decide),
    extract_place_other (n := 5) 7 20 5 _ (by omega),
    extract_place_other (n := 5) 15 20 5 _ (by omega),
    extract_place_same (n := 5) 20 _ (by omega),
    extract_place_other (n := 3) 12 20 5 _ (by omega), BitVec.zero_or, BitVec.or_zero]

theorem encRm_rm (hm : m &&& 0x01ffff80#32 = 0#32) :
    rmField (encRm m rd rs1 rs2 rm) = rm := by
  unfold rmField encRm
  simp only [BitVec.extractLsb'_or]
  simp only [zero_of_mask 12 3 hm (by decide) (by decide),
    extract_place_other (n := 5) 7 12 3 _ (by omega),
    extract_place_other (n := 5) 15 12 3 _ (by omega),
    extract_place_other (n := 5) 20 12 3 _ (by omega),
    extract_place_same (n := 3) 12 _ (by omega), BitVec.zero_or, BitVec.or_zero]

end

section
variable (m mask : BitVec 32) (rd : RegIdx) (rs1 : RegIdx) (rm : BitVec 3)

theorem encRm1_fits (hm : m &&& mask = m) (hf : 0x000fff80#32 &&& mask = 0#32) :
    encRm1 m rd rs1 rm &&& mask = m := by
  have hp : ∀ (lo n : Nat) (v : BitVec n), place lo (BitVec.allOnes n) &&& 0x000fff80#32 =
      place lo (BitVec.allOnes n) → place lo v &&& mask = 0#32 := by
    intro lo n v h
    apply place_and
    rw [← h, BitVec.and_assoc, hf, BitVec.and_zero]
  unfold encRm1
  simp only [and_or_left, hm]
  rw [hp 7 5 _ (by decide), hp 12 3 _ (by decide), hp 15 5 _ (by decide)]
  simp

theorem encRm1_rd (hm : m &&& 0x000fff80#32 = 0#32) :
    rdField (encRm1 m rd rs1 rm) = rd := by
  unfold rdField encRm1
  simp only [BitVec.extractLsb'_or]
  simp only [zero_of_mask 7 5 hm (by decide) (by decide),
    extract_place_same (n := 5) 7 _ (by omega),
    extract_place_other (n := 5) 15 7 5 _ (by omega),
    extract_place_other (n := 3) 12 7 5 _ (by omega), BitVec.zero_or, BitVec.or_zero]

theorem encRm1_rs1 (hm : m &&& 0x000fff80#32 = 0#32) :
    rs1Field (encRm1 m rd rs1 rm) = rs1 := by
  unfold rs1Field encRm1
  simp only [BitVec.extractLsb'_or]
  simp only [zero_of_mask 15 5 hm (by decide) (by decide),
    extract_place_other (n := 5) 7 15 5 _ (by omega),
    extract_place_same (n := 5) 15 _ (by omega),
    extract_place_other (n := 3) 12 15 5 _ (by omega), BitVec.zero_or, BitVec.or_zero]

theorem encRm1_rm (hm : m &&& 0x000fff80#32 = 0#32) :
    rmField (encRm1 m rd rs1 rm) = rm := by
  unfold rmField encRm1
  simp only [BitVec.extractLsb'_or]
  simp only [zero_of_mask 12 3 hm (by decide) (by decide),
    extract_place_other (n := 5) 7 12 3 _ (by omega),
    extract_place_other (n := 5) 15 12 3 _ (by omega),
    extract_place_same (n := 3) 12 _ (by omega), BitVec.zero_or, BitVec.or_zero]

end

section
variable (m mask : BitVec 32) (rd : RegIdx) (rs1 : RegIdx) (rs2 : RegIdx) (rs3 : RegIdx) (rm : BitVec 3)

theorem encR4_fits (hm : m &&& mask = m) (hf : 0xf9ffff80#32 &&& mask = 0#32) :
    encR4 m rd rs1 rs2 rs3 rm &&& mask = m := by
  have hp : ∀ (lo n : Nat) (v : BitVec n), place lo (BitVec.allOnes n) &&& 0xf9ffff80#32 =
      place lo (BitVec.allOnes n) → place lo v &&& mask = 0#32 := by
    intro lo n v h
    apply place_and
    rw [← h, BitVec.and_assoc, hf, BitVec.and_zero]
  unfold encR4
  simp only [and_or_left, hm]
  rw [hp 7 5 _ (by decide), hp 12 3 _ (by decide), hp 15 5 _ (by decide), hp 20 5 _ (by decide), hp 27 5 _ (by decide)]
  simp

theorem encR4_rd (hm : m &&& 0xf9ffff80#32 = 0#32) :
    rdField (encR4 m rd rs1 rs2 rs3 rm) = rd := by
  unfold rdField encR4
  simp only [BitVec.extractLsb'_or]
  simp only [zero_of_mask 7 5 hm (by decide) (by decide),
    extract_place_same (n := 5) 7 _ (by omega),
    extract_place_other (n := 5) 15 7 5 _ (by omega),
    extract_place_other (n := 5) 20 7 5 _ (by omega),
    extract_place_other (n := 5) 27 7 5 _ (by omega),
    extract_place_other (n := 3) 12 7 5 _ (by omega), BitVec.zero_or, BitVec.or_zero]

theorem encR4_rs1 (hm : m &&& 0xf9ffff80#32 = 0#32) :
    rs1Field (encR4 m rd rs1 rs2 rs3 rm) = rs1 := by
  unfold rs1Field encR4
  simp only [BitVec.extractLsb'_or]
  simp only [zero_of_mask 15 5 hm (by decide) (by decide),
    extract_place_other (n := 5) 7 15 5 _ (by omega),
    extract_place_same (n := 5) 15 _ (by omega),
    extract_place_other (n := 5) 20 15 5 _ (by omega),
    extract_place_other (n := 5) 27 15 5 _ (by omega),
    extract_place_other (n := 3) 12 15 5 _ (by omega), BitVec.zero_or, BitVec.or_zero]

theorem encR4_rs2 (hm : m &&& 0xf9ffff80#32 = 0#32) :
    rs2Field (encR4 m rd rs1 rs2 rs3 rm) = rs2 := by
  unfold rs2Field encR4
  simp only [BitVec.extractLsb'_or]
  simp only [zero_of_mask 20 5 hm (by decide) (by decide),
    extract_place_other (n := 5) 7 20 5 _ (by omega),
    extract_place_other (n := 5) 15 20 5 _ (by omega),
    extract_place_same (n := 5) 20 _ (by omega),
    extract_place_other (n := 5) 27 20 5 _ (by omega),
    extract_place_other (n := 3) 12 20 5 _ (by omega), BitVec.zero_or, BitVec.or_zero]

theorem encR4_rs3 (hm : m &&& 0xf9ffff80#32 = 0#32) :
    rs3Field (encR4 m rd rs1 rs2 rs3 rm) = rs3 := by
  unfold rs3Field encR4
  simp only [BitVec.extractLsb'_or]
  simp only [zero_of_mask 27 5 hm (by decide) (by decide),
    extract_place_other (n := 5) 7 27 5 _ (by omega),
    extract_place_other (n := 5) 15 27 5 _ (by omega),
    extract_place_other (n := 5) 20 27 5 _ (by omega),
    extract_place_same (n := 5) 27 _ (by omega),
    extract_place_other (n := 3) 12 27 5 _ (by omega), BitVec.zero_or, BitVec.or_zero]

theorem encR4_rm (hm : m &&& 0xf9ffff80#32 = 0#32) :
    rmField (encR4 m rd rs1 rs2 rs3 rm) = rm := by
  unfold rmField encR4
  simp only [BitVec.extractLsb'_or]
  simp only [zero_of_mask 12 3 hm (by decide) (by decide),
    extract_place_other (n := 5) 7 12 3 _ (by omega),
    extract_place_other (n := 5) 15 12 3 _ (by omega),
    extract_place_other (n := 5) 20 12 3 _ (by omega),
    extract_place_other (n := 5) 27 12 3 _ (by omega),
    extract_place_same (n := 3) 12 _ (by omega), BitVec.zero_or, BitVec.or_zero]

end

end Sys2Proof
end

