-- ==== Sys2Proof/Laws/Float.lean ====
section
/-!
SUPPORT. The floating-point dispatch: boxing, the rounding mode, results with their flags, and the
    fields of
a value as numbers (47_float_single.md R400 to R402, R417; 48_float_double.md R455).
-/

namespace Sys2Proof.Machine

theorem box_eq_boxed (v : BitVec 32) : box v = boxed v := by
  apply BitVec.eq_of_toNat_eq
  have := v.isLt
  simp only [box, boxed, BitVec.toNat_append, BitVec.toNat_ofNat]
  rw [Nat.shiftLeft_eq, Nat.or_comm, Nat.mul_comm, Nat.or_comm, ← Nat.two_pow_add_eq_or_of_lt (by
      simpa using this)]
  omega

theorem getS_eq (s : State) (i : RegIdx) : s.getS i = s.single i := by
  unfold State.getS State.single unbox
  simp

theorem roundingMode_code (m : RoundingMode) : roundingMode m.code = some m := by cases m <;> rfl

theorem rmEff_of {rm : BitVec 3} {fcsr : BitVec 8} {m : RoundingMode} (h : Selects rm fcsr m) :
    rmEff rm fcsr = some m := by
  unfold rmEff
  rcases h with rfl | ⟨rfl, h⟩
  · cases m <;> rfl
  · rw [if_pos rfl, fcsrFrm, h]; exact roundingMode_code m

theorem withRm_of {s : State} {rm : BitVec 3} {m : RoundingMode} (h : Selects rm s.core.fcsr m) (k :
    RoundingMode → Result) :
    s.withRm rm k = k m := by
  unfold State.withRm; rw [rmEff_of h]

/-- An instruction that evaluates its rounding mode and writes a library value to `f[fd]`. -/
theorem fpWrites_withRm {s : State} {i : Instr} {fd : RegIdx} {rm : BitVec 3} {m : RoundingMode} (h
    : Selects rm s.core.fcsr m) {r : RoundingMode → Word × FpFlags}
   (hi : exec i s = s.withRm rm fun m => s.fpResult fd (r m).1 (r m).2) {v : Word} {fl : FpFlags}
       (hv : (r m).1 = v) (hfl : (r m).2 = fl) : FpWrites s i fd v fl := by
  subst hv; subst hfl
  exact fpWrites_of (by rw [hi, withRm_of h]; rfl)

/-- The same with an integer destination. -/
theorem fpWritesX_withRm {s : State} {i : Instr} {rd : RegIdx} {rm : BitVec 3} {m : RoundingMode} (h
    : Selects rm s.core.fcsr m) {r : RoundingMode → Word × FpFlags}
   (hi : exec i s = s.withRm rm fun m => s.intResult rd (r m).1 (r m).2) {v : Word} {fl : FpFlags}
       (hv : s.params.arch.sext (r m).1 = v) (hfl : (r m).2 = fl) : FpWritesX s i rd v fl := by
  subst hfl
  exact fpWritesX_of (by rw [hi, withRm_of h]; rfl) hv

theorem wrF_of {s : State} {i : Instr} {fd : RegIdx} {v w : Word} (h : exec i s = .next (s.wrF fd
    v)) (hv : v = w) : Completes i s fun t => WroteF s t fd w := by
  subst hv; exact ⟨_, h, wroteF_wrF s fd v⟩

theorem storedW_toInt (v : BitVec 32) : storedW v.toInt = v.signExtend 64 := by
  unfold storedW; rw [BitVec.ofInt_toInt]

theorem sext_signExtend32 (x : Xlen) (v : BitVec 32) : x.sext (v.signExtend 64) = storedW v.toInt := by
  rw [storedW_toInt]; cases x
  · simp only [Xlen.sext]; rw [setWidth_signExtend]; simp
  · rfl

theorem nan32_iff (v : BitVec 32) : isNan32 v = true ↔ nan32 v := by
  unfold isNan32 nan32
  have := v.isLt
  simp only [Bool.and_eq_true, beq_iff_eq, bne_iff_ne, ne_eq, ← BitVec.toNat_inj,
      BitVec.extractLsb'_toNat, Nat.shiftRight_eq_div_pow, BitVec.toNat_allOnes, BitVec.toNat_ofNat]
  omega

theorem snan32_iff (v : BitVec 32) : isSnan32 v = true ↔ snan32 v := by
  unfold isSnan32 snan32
  rw [Bool.and_eq_true, nan32_iff]
  simp only [Bool.not_eq_true', BitVec.getLsbD, Nat.testBit_eq_decide_div_mod_eq,
      decide_eq_false_iff_not]
  exact and_congr_right fun _ => Nat.mod_two_ne_one

theorem zero32_iff (a b : BitVec 32) : bothZero32 a b = true ↔ (a.toNat % 2 ^ 31 = 0 ∧ b.toNat % 2 ^
    31 = 0) := by
  unfold bothZero32
  simp only [Bool.and_eq_true, beq_iff_eq, ← BitVec.toNat_inj, BitVec.extractLsb'_toNat,
      Nat.shiftRight_zero, BitVec.toNat_ofNat, Nat.zero_mod]

theorem signFrom32_eq (a b : BitVec 32) : signFrom32 a b = BitVec.ofNat 32 (b.toNat / 2 ^ 31 * 2 ^
    31 + a.toNat % 2 ^ 31) := by
  unfold signFrom32
  apply BitVec.eq_of_toNat_eq
  have := a.isLt; have := b.isLt
  rw [BitVec.toNat_append, BitVec.extractLsb'_toNat, BitVec.extractLsb'_toNat, BitVec.toNat_ofNat,
      Nat.shiftLeft_eq, Nat.mul_comm (_ % _), ← Nat.two_pow_add_eq_or_of_lt (by omega),
          Nat.shiftRight_eq_div_pow, Nat.shiftRight_eq_div_pow]
  omega

theorem not_sign32 (a : BitVec 32) : (~~~a).toNat / 2 ^ 31 = 1 - a.toNat / 2 ^ 31 := by
  have := a.isLt
  rw [BitVec.toNat_not]; omega

theorem xor_sign32 (a b : BitVec 32) : (a ^^^ b).toNat / 2 ^ 31 = (a.toNat / 2 ^ 31 + b.toNat / 2 ^
    31) % 2 := by
  have h : ∀ v : BitVec 32, v.toNat / 2 ^ 31 = if v.getLsbD 31 then 1 else 0 := by
    intro v; have := v.isLt
    rw [BitVec.getLsbD, Nat.testBit_eq_decide_div_mod_eq]; simp; split <;> omega
  rw [h, h, h, BitVec.getLsbD_xor]
  cases a.getLsbD 31 <;> cases b.getLsbD 31 <;> rfl

theorem or_zero32 (a b : BitVec 32) (ha : a.toNat % 2 ^ 31 = 0) (hb : b.toNat % 2 ^ 31 = 0) :
   ((a ||| b) &&& 0x80000000#32 = BitVec.ofNat 32 (Nat.max (a.toNat / 2 ^ 31) (b.toNat / 2 ^ 31) * 2
       ^ 31)) ∧
   ((a &&& b) &&& 0x80000000#32 = BitVec.ofNat 32 (Nat.min (a.toNat / 2 ^ 31) (b.toNat / 2 ^ 31) * 2
       ^ 31)) := by
  have h : ∀ v : BitVec 32, v.toNat % 2 ^ 31 = 0 → (v = 0#32 ∨ v = 0x80000000#32) := by
    intro v hv; have := v.isLt
    have : v.toNat = 0 ∨ v.toNat = 2^31 := by omega
    rcases this with h | h
    · left; apply BitVec.eq_of_toNat_eq; simpa using h
    · right; apply BitVec.eq_of_toNat_eq; simpa using h
  rcases h a ha with rfl | rfl <;> rcases h b hb with rfl | rfl <;> decide

theorem nan64_iff (v : BitVec 64) : isNan64 v = true ↔ nan64 v := by
  unfold isNan64 nan64
  have := v.isLt
  simp only [Bool.and_eq_true, beq_iff_eq, bne_iff_ne, ne_eq, ← BitVec.toNat_inj,
      BitVec.extractLsb'_toNat, Nat.shiftRight_eq_div_pow, BitVec.toNat_allOnes, BitVec.toNat_ofNat]
  omega

theorem snan64_iff (v : BitVec 64) : isSnan64 v = true ↔ snan64 v := by
  unfold isSnan64 snan64
  rw [Bool.and_eq_true, nan64_iff]
  simp only [Bool.not_eq_true', BitVec.getLsbD, Nat.testBit_eq_decide_div_mod_eq,
      decide_eq_false_iff_not]
  exact and_congr_right fun _ => Nat.mod_two_ne_one

theorem zero64_iff (a b : BitVec 64) : bothZero64 a b = true ↔ (a.toNat % 2 ^ 63 = 0 ∧ b.toNat % 2 ^
    63 = 0) := by
  unfold bothZero64
  simp only [Bool.and_eq_true, beq_iff_eq, ← BitVec.toNat_inj, BitVec.extractLsb'_toNat,
      Nat.shiftRight_zero, BitVec.toNat_ofNat, Nat.zero_mod]

theorem signFrom64_eq (a b : BitVec 64) : signFrom64 a b = BitVec.ofNat 64 (b.toNat / 2 ^ 63 * 2 ^
    63 + a.toNat % 2 ^ 63) := by
  unfold signFrom64
  apply BitVec.eq_of_toNat_eq
  have := a.isLt; have := b.isLt
  rw [BitVec.toNat_append, BitVec.extractLsb'_toNat, BitVec.extractLsb'_toNat, BitVec.toNat_ofNat,
      Nat.shiftLeft_eq, Nat.mul_comm (_ % _), ← Nat.two_pow_add_eq_or_of_lt (by omega),
          Nat.shiftRight_eq_div_pow, Nat.shiftRight_eq_div_pow]
  omega

theorem not_sign64 (a : BitVec 64) : (~~~a).toNat / 2 ^ 63 = 1 - a.toNat / 2 ^ 63 := by
  have := a.isLt
  rw [BitVec.toNat_not]; omega

theorem xor_sign64 (a b : BitVec 64) : (a ^^^ b).toNat / 2 ^ 63 = (a.toNat / 2 ^ 63 + b.toNat / 2 ^
    63) % 2 := by
  have h : ∀ v : BitVec 64, v.toNat / 2 ^ 63 = if v.getLsbD 63 then 1 else 0 := by
    intro v; have := v.isLt
    rw [BitVec.getLsbD, Nat.testBit_eq_decide_div_mod_eq]; simp; split <;> omega
  rw [h, h, h, BitVec.getLsbD_xor]
  cases a.getLsbD 63 <;> cases b.getLsbD 63 <;> rfl

theorem or_zero64 (a b : BitVec 64) (ha : a.toNat % 2 ^ 63 = 0) (hb : b.toNat % 2 ^ 63 = 0) :
   ((a ||| b) &&& 0x8000000000000000#64 = BitVec.ofNat 64 (Nat.max (a.toNat / 2 ^ 63) (b.toNat / 2 ^
       63) * 2 ^ 63)) ∧
   ((a &&& b) &&& 0x8000000000000000#64 = BitVec.ofNat 64 (Nat.min (a.toNat / 2 ^ 63) (b.toNat / 2 ^
       63) * 2 ^ 63)) := by
  have h : ∀ v : BitVec 64, v.toNat % 2 ^ 63 = 0 → (v = 0#64 ∨ v = 0x8000000000000000#64) := by
    intro v hv; have := v.isLt
    have : v.toNat = 0 ∨ v.toNat = 2^63 := by omega
    rcases this with h | h
    · left; apply BitVec.eq_of_toNat_eq; simpa using h
    · right; apply BitVec.eq_of_toNat_eq; simpa using h
  rcases h a ha with rfl | rfl <;> rcases h b hb with rfl | rfl <;> decide

end Sys2Proof.Machine
end

