-- ==== Sys2Proof/Laws/Forms.lean ====
section
/-!
SUPPORT. Every meaning is one of a few shared operations (`exec_form`): what holds of the operations holds
of all instructions, without a case for each.
-/

namespace Sys2Proof.Machine

/-- The shared operation a meaning is, with what the statements name of it. -/
inductive ExecForm (i : Instr) (s : State) : Prop where
  | self (h : exec i s = .next s)
  | wr (rd : RegIdx) (v : Word) (h : exec i s = .next (s.wr rd v))
  | wrF (fd : RegIdx) (v : Word) (h : exec i s = .next (s.wrF fd v))
  | raise (c : BitVec 4) (h : exec i s = .next (s.raise c none))
  | jump (rd : RegIdx) (a : Word) (h : exec i s = s.jump rd a)
  | branch (b : Bool) (a : Word) (h : exec i s = s.branchIf b a)
  | load (rd : RegIdx) (va : Word) (n : Nat) (ext : Word → Word) (h : exec i s = s.load rd va n ext)
  | loadF (fd : RegIdx) (va : Word) (n : Nat) (ext : Word → Word) (h : exec i s = s.loadF fd va n ext)
  | store (va : Word) (n : Nat) (d : Word) (hs : storeAddr i s = some va) (h : exec i s = s.store va n d)
  | storeF (va : Word) (n : Nat) (d : Word) (hs : storeAddr i s = some va)
      (h : exec i s = s.storeF va n d)
  | loadReserved (rd : RegIdx) (va : Word) (n : Nat) (hr : reserveAddr i s = some va)
      (h : exec i s = s.loadReserved rd va n)
  | storeConditional (rd : RegIdx) (va : Word) (n : Nat) (d : Word) (hs : storeAddr i s = some va)
      (h : exec i s = s.storeConditional rd va n d)
  | amo (rd : RegIdx) (va : Word) (n : Nat) (op : BitVec (8 * n) → BitVec (8 * n) → BitVec (8 * n))
      (src : Word) (hs : storeAddr i s = some va) (h : exec i s = s.amo rd va n op src)
  | csr (a : CsrAddr) (rd : RegIdx) (src : Word) (w : Bool)
      (f : (n : Nat) → BitVec n → BitVec n → BitVec n) (h : exec i s = s.csrInstr a rd src w f)
  | ret (p : Priv) (hp : returnLevel i = some p) (h : exec i s = s.xret p)
  | sfence (rs1 : RegIdx) (h : exec i s = execSfenceVm rs1 s)
  | fp (fd : RegIdx) (v : Word) (fl : FpFlags) (h : exec i s = s.fpResult fd v fl)
  | fpInt (rd : RegIdx) (v : Word) (fl : FpFlags) (h : exec i s = s.intResult rd v fl)
  | fpRounded (rm : BitVec 3) (fd : RegIdx) (r : RoundingMode → Word × FpFlags)
      (h : exec i s = s.withRm rm fun m => s.fpResult fd (r m).1 (r m).2)
  | fpIntRounded (rm : BitVec 3) (rd : RegIdx) (r : RoundingMode → Word × FpFlags)
      (h : exec i s = s.withRm rm fun m => s.intResult rd (r m).1 (r m).2)

theorem exec_form (i : Instr) (s : State) : ExecForm i s := by
  cases i with
  | lui | auipc | addi | slti | sltiu | xori | ori | andi | slli | srli | srai | add | sub
  | sll | slt | sltu | xor | srl | sra | or | and | addiw | slliw | srliw | sraiw | addw
  | subw | sllw | srlw | sraw | mul | mulh | mulhsu | mulhu | div | divu | rem | remu | mulw
  | divw | divuw | remw | remuw | fmvXS | fclassS | fclassD | fmvXD =>
    exact .wr _ _ rfl
  | jal | jalr => exact .jump _ _ rfl
  | beq | bne | blt | bge | bltu | bgeu => exact .branch _ _ rfl
  | lb | lh | lw | lbu | lhu | lwu | ld => exact .load _ _ _ _ rfl
  | sb | sh | sw | sd => exact .store _ _ _ rfl rfl
  | fence | fenceI | wfi => exact .self rfl
  | lrW | lrD => exact .loadReserved _ _ _ rfl rfl
  | scW | scD => exact .storeConditional _ _ _ _ rfl rfl
  | amoswapW => exact .amo _ _ 4 (amoSwap 32) _ rfl rfl
  | amoaddW => exact .amo _ _ 4 (opAdd 32) _ rfl rfl
  | amoxorW => exact .amo _ _ 4 (opXor 32) _ rfl rfl
  | amoandW => exact .amo _ _ 4 (opAnd 32) _ rfl rfl
  | amoorW => exact .amo _ _ 4 (opOr 32) _ rfl rfl
  | amominW => exact .amo _ _ 4 (amoMin 32) _ rfl rfl
  | amomaxW => exact .amo _ _ 4 (amoMax 32) _ rfl rfl
  | amominuW => exact .amo _ _ 4 (amoMinu 32) _ rfl rfl
  | amomaxuW => exact .amo _ _ 4 (amoMaxu 32) _ rfl rfl
  | amoswapD => exact .amo _ _ 8 (amoSwap 64) _ rfl rfl
  | amoaddD => exact .amo _ _ 8 (opAdd 64) _ rfl rfl
  | amoxorD => exact .amo _ _ 8 (opXor 64) _ rfl rfl
  | amoandD => exact .amo _ _ 8 (opAnd 64) _ rfl rfl
  | amoorD => exact .amo _ _ 8 (opOr 64) _ rfl rfl
  | amominD => exact .amo _ _ 8 (amoMin 64) _ rfl rfl
  | amomaxD => exact .amo _ _ 8 (amoMax 64) _ rfl rfl
  | amominuD => exact .amo _ _ 8 (amoMinu 64) _ rfl rfl
  | amomaxuD => exact .amo _ _ 8 (amoMaxu 64) _ rfl rfl
  | csrrw | csrrs | csrrc | csrrwi | csrrsi | csrrci => exact .csr _ _ _ _ _ rfl
  | ecall | ebreak => exact .raise _ rfl
  | uret => exact .ret .user rfl rfl
  | sret => exact .ret .supervisor rfl rfl
  | hret => exact .ret .hypervisor rfl rfl
  | mret => exact .ret .machine rfl rfl
  | sfenceVm rs1 => exact .sfence rs1 rfl
  | flw => exact .loadF _ _ 4 (fun v => box (unbox v)) rfl
  | fld => exact .loadF _ _ 8 id rfl
  | fsw | fsd => exact .storeF _ _ _ rfl rfl
  | fsgnjS | fsgnjnS | fsgnjxS | fmvSX | fsgnjD | fsgnjnD | fsgnjxD | fmvDX => exact .wrF _ _ rfl
  | fminS | fmaxS | fminD | fmaxD => exact .fp _ _ _ rfl
  | feqS | fltS | fleS | feqD | fltD | fleD => exact .fpInt _ _ _ rfl
  | fmaddS fd a b c => exact .fpRounded _ fd (fun m =>
      let r := mulThen FPLib.mul32 FPLib.add32 m (s.getS a) (s.getS b) (s.getS c); (box r.1, r.2)) rfl
  | fmsubS fd a b c => exact .fpRounded _ fd (fun m =>
      let r := mulThen FPLib.mul32 FPLib.sub32 m (s.getS a) (s.getS b) (s.getS c); (box r.1, r.2)) rfl
  | fnmsubS fd a b c => exact .fpRounded _ fd (fun m =>
      let r := mulThen FPLib.mul32 FPLib.sub32 m (s.getS a) (s.getS b) (s.getS c)
      (box (neg32 r.1), r.2)) rfl
  | fnmaddS fd a b c => exact .fpRounded _ fd (fun m =>
      let r := mulThen FPLib.mul32 FPLib.add32 m (s.getS a) (s.getS b) (s.getS c)
      (box (neg32 r.1), r.2)) rfl
  | faddS fd a b => exact .fpRounded _ fd (fun m =>
      let r := FPLib.add32 m (s.getS a) (s.getS b); (box r.1, r.2)) rfl
  | fsubS fd a b => exact .fpRounded _ fd (fun m =>
      let r := FPLib.sub32 m (s.getS a) (s.getS b); (box r.1, r.2)) rfl
  | fmulS fd a b => exact .fpRounded _ fd (fun m =>
      let r := FPLib.mul32 m (s.getS a) (s.getS b); (box r.1, r.2)) rfl
  | fdivS fd a b => exact .fpRounded _ fd (fun m =>
      let r := FPLib.div32 m (s.getS a) (s.getS b); (box r.1, r.2)) rfl
  | fsqrtS fd a => exact .fpRounded _ fd (fun m =>
      let r := FPLib.sqrt32 m (s.getS a); (box r.1, r.2)) rfl
  | fcvtSW fd a => exact .fpRounded _ fd (fun m =>
      let r := FPLib.cvt_f32_i32 m ((s.getX a).setWidth 32); (box r.1, r.2)) rfl
  | fcvtSWU fd a => exact .fpRounded _ fd (fun m =>
      let r := FPLib.cvt_f32_u32 m ((s.getX a).setWidth 32); (box r.1, r.2)) rfl
  | fcvtSL fd a => exact .fpRounded _ fd (fun m =>
      let r := FPLib.cvt_f32_i64 m (s.getX a); (box r.1, r.2)) rfl
  | fcvtSLU fd a => exact .fpRounded _ fd (fun m =>
      let r := FPLib.cvt_f32_u64 m (s.getX a); (box r.1, r.2)) rfl
  | fcvtWS rd a => exact .fpIntRounded _ rd (fun m =>
      let r := FPLib.cvt_i32_f32 m (s.getS a); (r.1.signExtend 64, r.2)) rfl
  | fcvtWUS rd a => exact .fpIntRounded _ rd (fun m =>
      let r := FPLib.cvt_u32_f32 m (s.getS a); (r.1.signExtend 64, r.2)) rfl
  | fcvtLS rd a => exact .fpIntRounded _ rd (fun m => FPLib.cvt_i64_f32 m (s.getS a)) rfl
  | fcvtLUS rd a => exact .fpIntRounded _ rd (fun m => FPLib.cvt_u64_f32 m (s.getS a)) rfl
  | fmaddD fd a b c => exact .fpRounded _ fd (fun m =>
      mulThen FPLib.mul64 FPLib.add64 m (s.getF a) (s.getF b) (s.getF c)) rfl
  | fmsubD fd a b c => exact .fpRounded _ fd (fun m =>
      mulThen FPLib.mul64 FPLib.sub64 m (s.getF a) (s.getF b) (s.getF c)) rfl
  | fnmsubD fd a b c => exact .fpRounded _ fd (fun m =>
      let r := mulThen FPLib.mul64 FPLib.sub64 m (s.getF a) (s.getF b) (s.getF c); (neg64 r.1, r.2)) rfl
  | fnmaddD fd a b c => exact .fpRounded _ fd (fun m =>
      let r := mulThen FPLib.mul64 FPLib.add64 m (s.getF a) (s.getF b) (s.getF c); (neg64 r.1, r.2)) rfl
  | faddD fd a b => exact .fpRounded _ fd (fun m => FPLib.add64 m (s.getF a) (s.getF b)) rfl
  | fsubD fd a b => exact .fpRounded _ fd (fun m => FPLib.sub64 m (s.getF a) (s.getF b)) rfl
  | fmulD fd a b => exact .fpRounded _ fd (fun m => FPLib.mul64 m (s.getF a) (s.getF b)) rfl
  | fdivD fd a b => exact .fpRounded _ fd (fun m => FPLib.div64 m (s.getF a) (s.getF b)) rfl
  | fsqrtD fd a => exact .fpRounded _ fd (fun m => FPLib.sqrt64 m (s.getF a)) rfl
  | fcvtSD fd a => exact .fpRounded _ fd (fun m =>
      let r := FPLib.cvt_f32_f64 m (s.getF a); (box r.1, r.2)) rfl
  | fcvtDS fd a => exact .fpRounded _ fd (fun m => FPLib.cvt_f64_f32 m (s.getS a)) rfl
  | fcvtDW fd a => exact .fpRounded _ fd (fun m => FPLib.cvt_f64_i32 m ((s.getX a).setWidth 32)) rfl
  | fcvtDWU fd a => exact .fpRounded _ fd (fun m => FPLib.cvt_f64_u32 m ((s.getX a).setWidth 32)) rfl
  | fcvtDL fd a => exact .fpRounded _ fd (fun m => FPLib.cvt_f64_i64 m (s.getX a)) rfl
  | fcvtDLU fd a => exact .fpRounded _ fd (fun m => FPLib.cvt_f64_u64 m (s.getX a)) rfl
  | fcvtWD rd a => exact .fpIntRounded _ rd (fun m =>
      let r := FPLib.cvt_i32_f64 m (s.getF a); (r.1.signExtend 64, r.2)) rfl
  | fcvtWUD rd a => exact .fpIntRounded _ rd (fun m =>
      let r := FPLib.cvt_u32_f64 m (s.getF a); (r.1.signExtend 64, r.2)) rfl
  | fcvtLD rd a => exact .fpIntRounded _ rd (fun m => FPLib.cvt_i64_f64 m (s.getF a)) rfl
  | fcvtLUD rd a => exact .fpIntRounded _ rd (fun m => FPLib.cvt_u64_f64 m (s.getF a)) rfl

/-! ## What the operations can answer -/

/-- What the execute stage can answer: the operations one by one, the accesses taken apart by their
translation (20_memory.md R165, R166), the rounding mode by its check (47_float_single.md R401). -/
inductive ExecAnswer (i : Instr) (s : State) : Result → Prop where
  | self : ExecAnswer i s (.next s)
  | wr (rd : RegIdx) (v : Word) : ExecAnswer i s (.next (s.wr rd v))
  | wrF (fd : RegIdx) (v : Word) : ExecAnswer i s (.next (s.wrF fd v))
  | raise (c : BitVec 4) (b : Option Word) : ExecAnswer i s (.next (s.raise c b))
  | jump (rd : RegIdx) (v a : Word) : ExecAnswer i s (.next ((s.wr rd v).setNext (.branch a)))
  | branch (a : Word) : ExecAnswer i s (.next (s.setNext (.branch a)))
  | loaded (va pa : Word) (u : State) (rd : RegIdx) (v : Word)
      (hu : s.translateData va .read = .mapped pa u) : ExecAnswer i s (.next ((u.recAddr va).wr rd v))
  | loadedF (va pa : Word) (u : State) (fd : RegIdx) (v : Word)
      (hu : s.translateData va .read = .mapped pa u) : ExecAnswer i s (.next ((u.recAddr va).wrF fd v))
  | reserved (va pa : Word) (u : State) (rd : RegIdx) (v : Word) (hr : reserveAddr i s = some va)
      (hu : s.translateData va .read = .mapped pa u) :
      ExecAnswer i s (.next (((u.recAddr va).setResv (some va)).wr rd v))
  | stored (va pa : Word) (u : State) (n : Nat) (d r : Word) (hs : storeAddr i s = some va)
      (hu : s.translateData va .write = .mapped pa u) :
      ExecAnswer i s (.next ((u.pwrite va pa n d).recData1 r))
  | storedF (va pa : Word) (u : State) (n : Nat) (d r : Word) (hs : storeAddr i s = some va)
      (hu : s.translateData va .write = .mapped pa u) :
      ExecAnswer i s (.next ((u.pwrite va pa n d).recFp r))
  | conditional (va pa : Word) (u : State) (n : Nat) (d r v : Word) (rd : RegIdx)
      (hs : storeAddr i s = some va) (hr : s.core.resv = some va)
      (hu : s.translateData va .write = .mapped pa u) :
      ExecAnswer i s (.next ((((u.pwrite va pa n d).setResv none).recData2 r).wr rd v))
  | failed (va v : Word) (rd : RegIdx) : ExecAnswer i s (.next ((s.recAddr va).wr rd v))
  | swapped (va pa : Word) (u : State) (n : Nat) (d r v : Word) (rd : RegIdx)
      (hs : storeAddr i s = some va) (hu : s.translateData va .readWrite = .mapped pa u) :
      ExecAnswer i s (.next ((((u.recAddr va).pwrite va pa n d).recData2 r).wr rd v))
  | csrWritten (a : CsrAddr) (c : Csr) (rd : RegIdx) (w v : Word) (hc : Csr.ofAddr a = some c)
      (ha : csrAccess a s.core.cur true = true) : ExecAnswer i s (.next ((s.csrWrite a c w).wr rd v))
  | ret (p : Priv) (hp : returnLevel i = some p) (hl : p.num ≤ s.core.cur.num) :
      ExecAnswer i s (.next (s.setNext (.ret p)))
  | belowLevel (p : Priv) (hp : returnLevel i = some p) (hl : s.core.cur.num < p.num) :
      ExecAnswer i s (.fault .returnBelowLevel)
  | flushed (va : Option Word) (hl : s.core.cur ≠ .user) : ExecAnswer i s (.next (s.flushTlbs va))
  | fp (fd : RegIdx) (v : Word) (fl : FpFlags) : ExecAnswer i s (.next ((s.accrue fl).wrF fd v))
  | fpInt (rd : RegIdx) (v : Word) (fl : FpFlags) : ExecAnswer i s (.next ((s.accrue fl).wr rd v))
  | untranslated (va : Word) (k : AccessKind) (hu : s.translateData va k = .fatal) :
      ExecAnswer i s (.fault .unimplementedTranslationMode)

/-- Everything the execute stage can answer. -/
theorem exec_answer (i : Instr) (s : State) : ExecAnswer i s (exec i s) := by
  have read : ∀ (va : Word) (n : Nat) (k : AccessKind) (cont : Word → Word → State → Result),
      (∀ pa u, s.translateData va k = .mapped pa u →
        ExecAnswer i s (cont pa (u.mem.readLE pa n) (u.recAddr va))) →
      ExecAnswer i s (s.vread va n k cont) := by
    intro va n k cont hc
    rcases vread_cases (s := s) (va := va) (n := n) (k := k) (cont := cont) rfl with
      ⟨pa, u, hu, h⟩ | ⟨-, h⟩ | ⟨hu, h⟩
    · rw [← h]; exact hc pa u hu
    · rw [h]; exact .raise _ _
    · rw [h]; exact .untranslated va k hu
  have write : ∀ (va : Word) (n : Nat) (v : Word) (cont : State → Result),
      (∀ pa u, s.translateData va .write = .mapped pa u → ExecAnswer i s (cont (u.pwrite va pa n v))) →
      ExecAnswer i s (s.vwrite va n v cont) := by
    intro va n v cont hc
    rcases vwrite_cases (s := s) (va := va) (n := n) (v := v) (cont := cont) rfl with
      ⟨pa, u, hu, h⟩ | ⟨-, h⟩ | ⟨hu, h⟩
    · rw [← h]; exact hc pa u hu
    · rw [h]; exact .raise _ _
    · rw [h]; exact .untranslated va .write hu
  have rounded : ∀ (rm : BitVec 3) (k : RoundingMode → Result), (∀ m, ExecAnswer i s (k m)) →
      ExecAnswer i s (s.withRm rm k) := by
    intro rm k hk
    rcases withRm_cases (s := s) (rm := rm) (k := k) rfl with ⟨m, -, h⟩ | ⟨-, h⟩
    · rw [← h]; exact hk m
    · rw [h]; exact .raise _ _
  cases exec_form i s with
  | self h => rw [h]; exact .self
  | wr rd v h => rw [h]; exact .wr rd v
  | wrF fd v h => rw [h]; exact .wrF fd v
  | raise c h => rw [h]; exact .raise c none
  | jump rd a h =>
    rw [h]; unfold State.jump
    split
    · exact .raise _ _
    · exact .jump _ _ _
  | branch b a h =>
    rw [h]; unfold State.branchIf
    split
    · split
      · exact .raise _ _
      · exact .branch _
    · exact .self
  | load rd va n ext h => rw [h]; exact read _ _ _ _ fun pa u hu => .loaded va pa u rd _ hu
  | loadF fd va n ext h => rw [h]; exact read _ _ _ _ fun pa u hu => .loadedF va pa u fd _ hu
  | store va n d hs h => rw [h]; exact write _ _ _ _ fun pa u hu => .stored va pa u n d _ hs hu
  | storeF va n d hs h => rw [h]; exact write _ _ _ _ fun pa u hu => .storedF va pa u n d _ hs hu
  | loadReserved rd va n hr h =>
    rw [h]; unfold State.loadReserved
    split
    · exact read _ _ _ _ fun pa u hu => .reserved va pa u rd _ hr hu
    · exact .raise _ _
  | storeConditional rd va n d hs h =>
    rw [h]; unfold State.storeConditional
    split
    · split
      · next hr => exact write _ _ _ _ fun pa u hu => .conditional va pa u n d _ _ rd hs hr hu
      · exact .failed va _ rd
    · exact .raise _ _
  | amo rd va n op src hs h =>
    rw [h]; unfold State.amo
    split
    · exact read _ _ _ _ fun pa u hu => .swapped va pa u n _ _ _ rd hs hu
    · exact .raise _ _
  | csr a rd src w f h =>
    rw [h]; unfold State.csrInstr
    split
    · exact .raise _ _
    · next c hc =>
      split
      · next hok =>
        rw [Bool.and_eq_true] at hok
        cases w
        · exact .wr rd _
        · exact .csrWritten a c rd _ _ hc hok.2
      · exact .raise _ _
  | ret p hp h =>
    rw [h]; unfold State.xret
    split
    · next hl => exact .belowLevel p hp hl
    · next hl => exact .ret p hp (by omega)
  | sfence rs1 h =>
    rw [h]; unfold execSfenceVm
    split
    · exact .raise _ _
    · next hl => exact .flushed _ hl
  | fp fd v fl h => rw [h]; exact .fp fd v fl
  | fpInt rd v fl h => rw [h]; exact .fpInt rd v fl
  | fpRounded rm fd r h => rw [h]; exact rounded _ _ fun m => .fp _ _ _
  | fpIntRounded rm rd r h => rw [h]; exact rounded _ _ fun m => .fpInt _ _ _

end Sys2Proof.Machine
end

