-- ==== Sys2Proof/Laws/PerInstr.lean ====
section
/-!
SUPPORT. Family `EncodingRow`: for every instruction, the row of the decode table its encoding fits, and
that the row reads the instruction back from it.
-/

namespace Sys2Proof.Laws.EncodingRow

set_option Elab.async false

/-- Some row of the table fits the encoded word; it is an `XLEN = 64` row exactly when the instruction
exists at width 64 only; its I-shift64 check rejects the word exactly for a shift amount of 32 or more;
and where the offset is even it builds the instruction back. -/
def Statement (i : Instr) : Prop :=
  ∃ r ∈ table, r.fits (encode i) = true ∧ r.only64 = i.rv64Only
    ∧ (r.shift6 && (encode i).getLsbD 25) = i.shamtBit5
    ∧ (i.evenOffset = true → r.build (encode i) = i)

theorem intro_row {i : Instr} (k : Nat) (r : Row) (hk : table[k]? = some r)
    (hf : encode i &&& r.mask = r.mtch) (h64 : r.only64 = i.rv64Only)
    (h6 : (r.shift6 && (encode i).getLsbD 25) = i.shamtBit5)
    (hb : i.evenOffset = true → r.build (encode i) = i) : Statement i :=
  ⟨r, List.mem_of_getElem? hk, by simpa [Row.fits] using hf, h64, h6, hb⟩

/-- Bit 25 of an encoded I-shift64 word is bit 5 of the shift amount (R183). -/
theorem shift_bit25 (m : BitVec 32) (rd rs1 : RegIdx) (shamt : BitVec 6)
    (hm : m &&& 0x03ff8f80#32 = 0#32) :
    (encShift64 m rd rs1 shamt).getLsbD 25 = shamt.getLsbD 5 := by
  have h := congrArg (BitVec.getLsbD · 5) (encShift64_shamt m rd rs1 shamt hm)
  unfold shamt6 at h
  rw [BitVec.getLsbD_extractLsb'] at h
  simpa using h

theorem lui (rd : RegIdx) (imm : BitVec 20) : Statement (.lui rd imm) :=
  intro_row 0 (row 0x00000037#32 0x0000007f#32 fun w => .lui (rdField w) (immU w)) rfl
    (encU_fits _ _ _ _ (by decide) (by decide)) rfl rfl
    (fun _ => by
      simp only [row, encode, encU_rd 0x00000037#32 _ _ (by decide), encU_imm 0x00000037#32 _ _ (by decide)])

theorem auipc (rd : RegIdx) (imm : BitVec 20) : Statement (.auipc rd imm) :=
  intro_row 1 (row 0x00000017#32 0x0000007f#32 fun w => .auipc (rdField w) (immU w)) rfl
    (encU_fits _ _ _ _ (by decide) (by decide)) rfl rfl
    (fun _ => by
      simp only [row, encode, encU_rd 0x00000017#32 _ _ (by decide), encU_imm 0x00000017#32 _ _ (by decide)])

theorem addi (rd : RegIdx) (rs1 : RegIdx) (imm : BitVec 12) : Statement (.addi rd rs1 imm) :=
  intro_row 2 (row 0x00000013#32 0x0000707f#32 fun w => .addi (rdField w) (rs1Field w) (immI w)) rfl
    (encI_fits _ _ _ _ _ (by decide) (by decide)) rfl rfl
    (fun _ => by
      simp only [row, encode, encI_rd 0x00000013#32 _ _ _ (by decide), encI_rs1 0x00000013#32 _ _ _ (by decide), encI_imm 0x00000013#32 _ _ _ (by decide)])

theorem slti (rd : RegIdx) (rs1 : RegIdx) (imm : BitVec 12) : Statement (.slti rd rs1 imm) :=
  intro_row 3 (row 0x00002013#32 0x0000707f#32 fun w => .slti (rdField w) (rs1Field w) (immI w)) rfl
    (encI_fits _ _ _ _ _ (by decide) (by decide)) rfl rfl
    (fun _ => by
      simp only [row, encode, encI_rd 0x00002013#32 _ _ _ (by decide), encI_rs1 0x00002013#32 _ _ _ (by decide), encI_imm 0x00002013#32 _ _ _ (by decide)])

theorem sltiu (rd : RegIdx) (rs1 : RegIdx) (imm : BitVec 12) : Statement (.sltiu rd rs1 imm) :=
  intro_row 4 (row 0x00003013#32 0x0000707f#32 fun w => .sltiu (rdField w) (rs1Field w) (immI w)) rfl
    (encI_fits _ _ _ _ _ (by decide) (by decide)) rfl rfl
    (fun _ => by
      simp only [row, encode, encI_rd 0x00003013#32 _ _ _ (by decide), encI_rs1 0x00003013#32 _ _ _ (by decide), encI_imm 0x00003013#32 _ _ _ (by decide)])

theorem xori (rd : RegIdx) (rs1 : RegIdx) (imm : BitVec 12) : Statement (.xori rd rs1 imm) :=
  intro_row 5 (row 0x00004013#32 0x0000707f#32 fun w => .xori (rdField w) (rs1Field w) (immI w)) rfl
    (encI_fits _ _ _ _ _ (by decide) (by decide)) rfl rfl
    (fun _ => by
      simp only [row, encode, encI_rd 0x00004013#32 _ _ _ (by decide), encI_rs1 0x00004013#32 _ _ _ (by decide), encI_imm 0x00004013#32 _ _ _ (by decide)])

theorem ori (rd : RegIdx) (rs1 : RegIdx) (imm : BitVec 12) : Statement (.ori rd rs1 imm) :=
  intro_row 6 (row 0x00006013#32 0x0000707f#32 fun w => .ori (rdField w) (rs1Field w) (immI w)) rfl
    (encI_fits _ _ _ _ _ (by decide) (by decide)) rfl rfl
    (fun _ => by
      simp only [row, encode, encI_rd 0x00006013#32 _ _ _ (by decide), encI_rs1 0x00006013#32 _ _ _ (by decide), encI_imm 0x00006013#32 _ _ _ (by decide)])

theorem andi (rd : RegIdx) (rs1 : RegIdx) (imm : BitVec 12) : Statement (.andi rd rs1 imm) :=
  intro_row 7 (row 0x00007013#32 0x0000707f#32 fun w => .andi (rdField w) (rs1Field w) (immI w)) rfl
    (encI_fits _ _ _ _ _ (by decide) (by decide)) rfl rfl
    (fun _ => by
      simp only [row, encode, encI_rd 0x00007013#32 _ _ _ (by decide), encI_rs1 0x00007013#32 _ _ _ (by decide), encI_imm 0x00007013#32 _ _ _ (by decide)])

theorem slli (rd : RegIdx) (rs1 : RegIdx) (shamt : BitVec 6) : Statement (.slli rd rs1 shamt) :=
  intro_row 8 (rowShift6 0x00001013#32 0xfc00707f#32 fun w => .slli (rdField w) (rs1Field w) (shamt6 w)) rfl
    (encShift64_fits _ _ _ _ _ (by decide) (by decide)) rfl (shift_bit25 _ _ _ _ (by decide))
    (fun _ => by
      simp only [rowShift6, encode, encShift64_rd 0x00001013#32 _ _ _ (by decide), encShift64_rs1 0x00001013#32 _ _ _ (by decide), encShift64_shamt 0x00001013#32 _ _ _ (by decide)])

theorem srli (rd : RegIdx) (rs1 : RegIdx) (shamt : BitVec 6) : Statement (.srli rd rs1 shamt) :=
  intro_row 9 (rowShift6 0x00005013#32 0xfc00707f#32 fun w => .srli (rdField w) (rs1Field w) (shamt6 w)) rfl
    (encShift64_fits _ _ _ _ _ (by decide) (by decide)) rfl (shift_bit25 _ _ _ _ (by decide))
    (fun _ => by
      simp only [rowShift6, encode, encShift64_rd 0x00005013#32 _ _ _ (by decide), encShift64_rs1 0x00005013#32 _ _ _ (by decide), encShift64_shamt 0x00005013#32 _ _ _ (by decide)])

theorem srai (rd : RegIdx) (rs1 : RegIdx) (shamt : BitVec 6) : Statement (.srai rd rs1 shamt) :=
  intro_row 10 (rowShift6 0x40005013#32 0xfc00707f#32 fun w => .srai (rdField w) (rs1Field w) (shamt6 w)) rfl
    (encShift64_fits _ _ _ _ _ (by decide) (by decide)) rfl (shift_bit25 _ _ _ _ (by decide))
    (fun _ => by
      simp only [rowShift6, encode, encShift64_rd 0x40005013#32 _ _ _ (by decide), encShift64_rs1 0x40005013#32 _ _ _ (by decide), encShift64_shamt 0x40005013#32 _ _ _ (by decide)])

theorem add (rd : RegIdx) (rs1 : RegIdx) (rs2 : RegIdx) : Statement (.add rd rs1 rs2) :=
  intro_row 11 (row 0x00000033#32 0xfe00707f#32 fun w => .add (rdField w) (rs1Field w) (rs2Field w)) rfl
    (encR_fits _ _ _ _ _ (by decide) (by decide)) rfl rfl
    (fun _ => by
      simp only [row, encode, encR_rd 0x00000033#32 _ _ _ (by decide), encR_rs1 0x00000033#32 _ _ _ (by decide), encR_rs2 0x00000033#32 _ _ _ (by decide)])

theorem sub (rd : RegIdx) (rs1 : RegIdx) (rs2 : RegIdx) : Statement (.sub rd rs1 rs2) :=
  intro_row 12 (row 0x40000033#32 0xfe00707f#32 fun w => .sub (rdField w) (rs1Field w) (rs2Field w)) rfl
    (encR_fits _ _ _ _ _ (by decide) (by decide)) rfl rfl
    (fun _ => by
      simp only [row, encode, encR_rd 0x40000033#32 _ _ _ (by decide), encR_rs1 0x40000033#32 _ _ _ (by decide), encR_rs2 0x40000033#32 _ _ _ (by decide)])

theorem sll (rd : RegIdx) (rs1 : RegIdx) (rs2 : RegIdx) : Statement (.sll rd rs1 rs2) :=
  intro_row 13 (row 0x00001033#32 0xfe00707f#32 fun w => .sll (rdField w) (rs1Field w) (rs2Field w)) rfl
    (encR_fits _ _ _ _ _ (by decide) (by decide)) rfl rfl
    (fun _ => by
      simp only [row, encode, encR_rd 0x00001033#32 _ _ _ (by decide), encR_rs1 0x00001033#32 _ _ _ (by decide), encR_rs2 0x00001033#32 _ _ _ (by decide)])

theorem slt (rd : RegIdx) (rs1 : RegIdx) (rs2 : RegIdx) : Statement (.slt rd rs1 rs2) :=
  intro_row 14 (row 0x00002033#32 0xfe00707f#32 fun w => .slt (rdField w) (rs1Field w) (rs2Field w)) rfl
    (encR_fits _ _ _ _ _ (by decide) (by decide)) rfl rfl
    (fun _ => by
      simp only [row, encode, encR_rd 0x00002033#32 _ _ _ (by decide), encR_rs1 0x00002033#32 _ _ _ (by decide), encR_rs2 0x00002033#32 _ _ _ (by decide)])

theorem sltu (rd : RegIdx) (rs1 : RegIdx) (rs2 : RegIdx) : Statement (.sltu rd rs1 rs2) :=
  intro_row 15 (row 0x00003033#32 0xfe00707f#32 fun w => .sltu (rdField w) (rs1Field w) (rs2Field w)) rfl
    (encR_fits _ _ _ _ _ (by decide) (by decide)) rfl rfl
    (fun _ => by
      simp only [row, encode, encR_rd 0x00003033#32 _ _ _ (by decide), encR_rs1 0x00003033#32 _ _ _ (by decide), encR_rs2 0x00003033#32 _ _ _ (by decide)])

theorem xor (rd : RegIdx) (rs1 : RegIdx) (rs2 : RegIdx) : Statement (.xor rd rs1 rs2) :=
  intro_row 16 (row 0x00004033#32 0xfe00707f#32 fun w => .xor (rdField w) (rs1Field w) (rs2Field w)) rfl
    (encR_fits _ _ _ _ _ (by decide) (by decide)) rfl rfl
    (fun _ => by
      simp only [row, encode, encR_rd 0x00004033#32 _ _ _ (by decide), encR_rs1 0x00004033#32 _ _ _ (by decide), encR_rs2 0x00004033#32 _ _ _ (by decide)])

theorem srl (rd : RegIdx) (rs1 : RegIdx) (rs2 : RegIdx) : Statement (.srl rd rs1 rs2) :=
  intro_row 17 (row 0x00005033#32 0xfe00707f#32 fun w => .srl (rdField w) (rs1Field w) (rs2Field w)) rfl
    (encR_fits _ _ _ _ _ (by decide) (by decide)) rfl rfl
    (fun _ => by
      simp only [row, encode, encR_rd 0x00005033#32 _ _ _ (by decide), encR_rs1 0x00005033#32 _ _ _ (by decide), encR_rs2 0x00005033#32 _ _ _ (by decide)])

theorem sra (rd : RegIdx) (rs1 : RegIdx) (rs2 : RegIdx) : Statement (.sra rd rs1 rs2) :=
  intro_row 18 (row 0x40005033#32 0xfe00707f#32 fun w => .sra (rdField w) (rs1Field w) (rs2Field w)) rfl
    (encR_fits _ _ _ _ _ (by decide) (by decide)) rfl rfl
    (fun _ => by
      simp only [row, encode, encR_rd 0x40005033#32 _ _ _ (by decide), encR_rs1 0x40005033#32 _ _ _ (by decide), encR_rs2 0x40005033#32 _ _ _ (by decide)])

theorem or (rd : RegIdx) (rs1 : RegIdx) (rs2 : RegIdx) : Statement (.or rd rs1 rs2) :=
  intro_row 19 (row 0x00006033#32 0xfe00707f#32 fun w => .or (rdField w) (rs1Field w) (rs2Field w)) rfl
    (encR_fits _ _ _ _ _ (by decide) (by decide)) rfl rfl
    (fun _ => by
      simp only [row, encode, encR_rd 0x00006033#32 _ _ _ (by decide), encR_rs1 0x00006033#32 _ _ _ (by decide), encR_rs2 0x00006033#32 _ _ _ (by decide)])

theorem and (rd : RegIdx) (rs1 : RegIdx) (rs2 : RegIdx) : Statement (.and rd rs1 rs2) :=
  intro_row 20 (row 0x00007033#32 0xfe00707f#32 fun w => .and (rdField w) (rs1Field w) (rs2Field w)) rfl
    (encR_fits _ _ _ _ _ (by decide) (by decide)) rfl rfl
    (fun _ => by
      simp only [row, encode, encR_rd 0x00007033#32 _ _ _ (by decide), encR_rs1 0x00007033#32 _ _ _ (by decide), encR_rs2 0x00007033#32 _ _ _ (by decide)])

theorem addiw (rd : RegIdx) (rs1 : RegIdx) (imm : BitVec 12) : Statement (.addiw rd rs1 imm) :=
  intro_row 21 (row64 0x0000001b#32 0x0000707f#32 fun w => .addiw (rdField w) (rs1Field w) (immI w)) rfl
    (encI_fits _ _ _ _ _ (by decide) (by decide)) rfl rfl
    (fun _ => by
      simp only [row64, encode, encI_rd 0x0000001b#32 _ _ _ (by decide), encI_rs1 0x0000001b#32 _ _ _ (by decide), encI_imm 0x0000001b#32 _ _ _ (by decide)])

theorem slliw (rd : RegIdx) (rs1 : RegIdx) (shamt : BitVec 5) : Statement (.slliw rd rs1 shamt) :=
  intro_row 22 (row64 0x0000101b#32 0xfe00707f#32 fun w => .slliw (rdField w) (rs1Field w) (rs2Field w)) rfl
    (encShift32_fits _ _ _ _ _ (by decide) (by decide)) rfl rfl
    (fun _ => by
      simp only [row64, encode, encShift32_rd 0x0000101b#32 _ _ _ (by decide), encShift32_rs1 0x0000101b#32 _ _ _ (by decide), encShift32_shamt 0x0000101b#32 _ _ _ (by decide)])

theorem srliw (rd : RegIdx) (rs1 : RegIdx) (shamt : BitVec 5) : Statement (.srliw rd rs1 shamt) :=
  intro_row 23 (row64 0x0000501b#32 0xfe00707f#32 fun w => .srliw (rdField w) (rs1Field w) (rs2Field w)) rfl
    (encShift32_fits _ _ _ _ _ (by decide) (by decide)) rfl rfl
    (fun _ => by
      simp only [row64, encode, encShift32_rd 0x0000501b#32 _ _ _ (by decide), encShift32_rs1 0x0000501b#32 _ _ _ (by decide), encShift32_shamt 0x0000501b#32 _ _ _ (by decide)])

theorem sraiw (rd : RegIdx) (rs1 : RegIdx) (shamt : BitVec 5) : Statement (.sraiw rd rs1 shamt) :=
  intro_row 24 (row64 0x4000501b#32 0xfe00707f#32 fun w => .sraiw (rdField w) (rs1Field w) (rs2Field w)) rfl
    (encShift32_fits _ _ _ _ _ (by decide) (by decide)) rfl rfl
    (fun _ => by
      simp only [row64, encode, encShift32_rd 0x4000501b#32 _ _ _ (by decide), encShift32_rs1 0x4000501b#32 _ _ _ (by decide), encShift32_shamt 0x4000501b#32 _ _ _ (by decide)])

theorem addw (rd : RegIdx) (rs1 : RegIdx) (rs2 : RegIdx) : Statement (.addw rd rs1 rs2) :=
  intro_row 25 (row64 0x0000003b#32 0xfe00707f#32 fun w => .addw (rdField w) (rs1Field w) (rs2Field w)) rfl
    (encR_fits _ _ _ _ _ (by decide) (by decide)) rfl rfl
    (fun _ => by
      simp only [row64, encode, encR_rd 0x0000003b#32 _ _ _ (by decide), encR_rs1 0x0000003b#32 _ _ _ (by decide), encR_rs2 0x0000003b#32 _ _ _ (by decide)])

theorem subw (rd : RegIdx) (rs1 : RegIdx) (rs2 : RegIdx) : Statement (.subw rd rs1 rs2) :=
  intro_row 26 (row64 0x4000003b#32 0xfe00707f#32 fun w => .subw (rdField w) (rs1Field w) (rs2Field w)) rfl
    (encR_fits _ _ _ _ _ (by decide) (by decide)) rfl rfl
    (fun _ => by
      simp only [row64, encode, encR_rd 0x4000003b#32 _ _ _ (by decide), encR_rs1 0x4000003b#32 _ _ _ (by decide), encR_rs2 0x4000003b#32 _ _ _ (by decide)])

theorem sllw (rd : RegIdx) (rs1 : RegIdx) (rs2 : RegIdx) : Statement (.sllw rd rs1 rs2) :=
  intro_row 27 (row64 0x0000103b#32 0xfe00707f#32 fun w => .sllw (rdField w) (rs1Field w) (rs2Field w)) rfl
    (encR_fits _ _ _ _ _ (by decide) (by decide)) rfl rfl
    (fun _ => by
      simp only [row64, encode, encR_rd 0x0000103b#32 _ _ _ (by decide), encR_rs1 0x0000103b#32 _ _ _ (by decide), encR_rs2 0x0000103b#32 _ _ _ (by decide)])

theorem srlw (rd : RegIdx) (rs1 : RegIdx) (rs2 : RegIdx) : Statement (.srlw rd rs1 rs2) :=
  intro_row 28 (row64 0x0000503b#32 0xfe00707f#32 fun w => .srlw (rdField w) (rs1Field w) (rs2Field w)) rfl
    (encR_fits _ _ _ _ _ (by decide) (by decide)) rfl rfl
    (fun _ => by
      simp only [row64, encode, encR_rd 0x0000503b#32 _ _ _ (by decide), encR_rs1 0x0000503b#32 _ _ _ (by decide), encR_rs2 0x0000503b#32 _ _ _ (by decide)])

theorem sraw (rd : RegIdx) (rs1 : RegIdx) (rs2 : RegIdx) : Statement (.sraw rd rs1 rs2) :=
  intro_row 29 (row64 0x4000503b#32 0xfe00707f#32 fun w => .sraw (rdField w) (rs1Field w) (rs2Field w)) rfl
    (encR_fits _ _ _ _ _ (by decide) (by decide)) rfl rfl
    (fun _ => by
      simp only [row64, encode, encR_rd 0x4000503b#32 _ _ _ (by decide), encR_rs1 0x4000503b#32 _ _ _ (by decide), encR_rs2 0x4000503b#32 _ _ _ (by decide)])

theorem jal (rd : RegIdx) (off : BitVec 21) : Statement (.jal rd off) :=
  intro_row 30 (row 0x0000006f#32 0x0000007f#32 fun w => .jal (rdField w) (immJ w)) rfl
    (encJ_fits _ _ _ _ (by decide) (by decide)) rfl rfl
    (fun h => by
      have h0 : off.getLsbD 0 = false := by simpa [Instr.evenOffset] using h
      simp only [row, encode, encJ_rd 0x0000006f#32 _ _ (by decide), encJ_off 0x0000006f#32 _ _ (by decide) h0])

theorem jalr (rd : RegIdx) (rs1 : RegIdx) (imm : BitVec 12) : Statement (.jalr rd rs1 imm) :=
  intro_row 31 (row 0x00000067#32 0x0000707f#32 fun w => .jalr (rdField w) (rs1Field w) (immI w)) rfl
    (encI_fits _ _ _ _ _ (by decide) (by decide)) rfl rfl
    (fun _ => by
      simp only [row, encode, encI_rd 0x00000067#32 _ _ _ (by decide), encI_rs1 0x00000067#32 _ _ _ (by decide), encI_imm 0x00000067#32 _ _ _ (by decide)])

theorem beq (rs1 : RegIdx) (rs2 : RegIdx) (off : BitVec 13) : Statement (.beq rs1 rs2 off) :=
  intro_row 32 (row 0x00000063#32 0x0000707f#32 fun w => .beq (rs1Field w) (rs2Field w) (immB w)) rfl
    (encB_fits _ _ _ _ _ (by decide) (by decide)) rfl rfl
    (fun h => by
      have h0 : off.getLsbD 0 = false := by simpa [Instr.evenOffset] using h
      simp only [row, encode, encB_rs1 0x00000063#32 _ _ _ (by decide), encB_rs2 0x00000063#32 _ _ _ (by decide), encB_off 0x00000063#32 _ _ _ (by decide) h0])

theorem bne (rs1 : RegIdx) (rs2 : RegIdx) (off : BitVec 13) : Statement (.bne rs1 rs2 off) :=
  intro_row 33 (row 0x00001063#32 0x0000707f#32 fun w => .bne (rs1Field w) (rs2Field w) (immB w)) rfl
    (encB_fits _ _ _ _ _ (by decide) (by decide)) rfl rfl
    (fun h => by
      have h0 : off.getLsbD 0 = false := by simpa [Instr.evenOffset] using h
      simp only [row, encode, encB_rs1 0x00001063#32 _ _ _ (by decide), encB_rs2 0x00001063#32 _ _ _ (by decide), encB_off 0x00001063#32 _ _ _ (by decide) h0])

theorem blt (rs1 : RegIdx) (rs2 : RegIdx) (off : BitVec 13) : Statement (.blt rs1 rs2 off) :=
  intro_row 34 (row 0x00004063#32 0x0000707f#32 fun w => .blt (rs1Field w) (rs2Field w) (immB w)) rfl
    (encB_fits _ _ _ _ _ (by decide) (by decide)) rfl rfl
    (fun h => by
      have h0 : off.getLsbD 0 = false := by simpa [Instr.evenOffset] using h
      simp only [row, encode, encB_rs1 0x00004063#32 _ _ _ (by decide), encB_rs2 0x00004063#32 _ _ _ (by decide), encB_off 0x00004063#32 _ _ _ (by decide) h0])

theorem bge (rs1 : RegIdx) (rs2 : RegIdx) (off : BitVec 13) : Statement (.bge rs1 rs2 off) :=
  intro_row 35 (row 0x00005063#32 0x0000707f#32 fun w => .bge (rs1Field w) (rs2Field w) (immB w)) rfl
    (encB_fits _ _ _ _ _ (by decide) (by decide)) rfl rfl
    (fun h => by
      have h0 : off.getLsbD 0 = false := by simpa [Instr.evenOffset] using h
      simp only [row, encode, encB_rs1 0x00005063#32 _ _ _ (by decide), encB_rs2 0x00005063#32 _ _ _ (by decide), encB_off 0x00005063#32 _ _ _ (by decide) h0])

theorem bltu (rs1 : RegIdx) (rs2 : RegIdx) (off : BitVec 13) : Statement (.bltu rs1 rs2 off) :=
  intro_row 36 (row 0x00006063#32 0x0000707f#32 fun w => .bltu (rs1Field w) (rs2Field w) (immB w)) rfl
    (encB_fits _ _ _ _ _ (by decide) (by decide)) rfl rfl
    (fun h => by
      have h0 : off.getLsbD 0 = false := by simpa [Instr.evenOffset] using h
      simp only [row, encode, encB_rs1 0x00006063#32 _ _ _ (by decide), encB_rs2 0x00006063#32 _ _ _ (by decide), encB_off 0x00006063#32 _ _ _ (by decide) h0])

theorem bgeu (rs1 : RegIdx) (rs2 : RegIdx) (off : BitVec 13) : Statement (.bgeu rs1 rs2 off) :=
  intro_row 37 (row 0x00007063#32 0x0000707f#32 fun w => .bgeu (rs1Field w) (rs2Field w) (immB w)) rfl
    (encB_fits _ _ _ _ _ (by decide) (by decide)) rfl rfl
    (fun h => by
      have h0 : off.getLsbD 0 = false := by simpa [Instr.evenOffset] using h
      simp only [row, encode, encB_rs1 0x00007063#32 _ _ _ (by decide), encB_rs2 0x00007063#32 _ _ _ (by decide), encB_off 0x00007063#32 _ _ _ (by decide) h0])

theorem lb (rd : RegIdx) (rs1 : RegIdx) (imm : BitVec 12) : Statement (.lb rd rs1 imm) :=
  intro_row 38 (row 0x00000003#32 0x0000707f#32 fun w => .lb (rdField w) (rs1Field w) (immI w)) rfl
    (encI_fits _ _ _ _ _ (by decide) (by decide)) rfl rfl
    (fun _ => by
      simp only [row, encode, encI_rd 0x00000003#32 _ _ _ (by decide), encI_rs1 0x00000003#32 _ _ _ (by decide), encI_imm 0x00000003#32 _ _ _ (by decide)])

theorem lh (rd : RegIdx) (rs1 : RegIdx) (imm : BitVec 12) : Statement (.lh rd rs1 imm) :=
  intro_row 39 (row 0x00001003#32 0x0000707f#32 fun w => .lh (rdField w) (rs1Field w) (immI w)) rfl
    (encI_fits _ _ _ _ _ (by decide) (by decide)) rfl rfl
    (fun _ => by
      simp only [row, encode, encI_rd 0x00001003#32 _ _ _ (by decide), encI_rs1 0x00001003#32 _ _ _ (by decide), encI_imm 0x00001003#32 _ _ _ (by decide)])

theorem lw (rd : RegIdx) (rs1 : RegIdx) (imm : BitVec 12) : Statement (.lw rd rs1 imm) :=
  intro_row 40 (row 0x00002003#32 0x0000707f#32 fun w => .lw (rdField w) (rs1Field w) (immI w)) rfl
    (encI_fits _ _ _ _ _ (by decide) (by decide)) rfl rfl
    (fun _ => by
      simp only [row, encode, encI_rd 0x00002003#32 _ _ _ (by decide), encI_rs1 0x00002003#32 _ _ _ (by decide), encI_imm 0x00002003#32 _ _ _ (by decide)])

theorem lbu (rd : RegIdx) (rs1 : RegIdx) (imm : BitVec 12) : Statement (.lbu rd rs1 imm) :=
  intro_row 41 (row 0x00004003#32 0x0000707f#32 fun w => .lbu (rdField w) (rs1Field w) (immI w)) rfl
    (encI_fits _ _ _ _ _ (by decide) (by decide)) rfl rfl
    (fun _ => by
      simp only [row, encode, encI_rd 0x00004003#32 _ _ _ (by decide), encI_rs1 0x00004003#32 _ _ _ (by decide), encI_imm 0x00004003#32 _ _ _ (by decide)])

theorem lhu (rd : RegIdx) (rs1 : RegIdx) (imm : BitVec 12) : Statement (.lhu rd rs1 imm) :=
  intro_row 42 (row 0x00005003#32 0x0000707f#32 fun w => .lhu (rdField w) (rs1Field w) (immI w)) rfl
    (encI_fits _ _ _ _ _ (by decide) (by decide)) rfl rfl
    (fun _ => by
      simp only [row, encode, encI_rd 0x00005003#32 _ _ _ (by decide), encI_rs1 0x00005003#32 _ _ _ (by decide), encI_imm 0x00005003#32 _ _ _ (by decide)])

theorem lwu (rd : RegIdx) (rs1 : RegIdx) (imm : BitVec 12) : Statement (.lwu rd rs1 imm) :=
  intro_row 43 (row64 0x00006003#32 0x0000707f#32 fun w => .lwu (rdField w) (rs1Field w) (immI w)) rfl
    (encI_fits _ _ _ _ _ (by decide) (by decide)) rfl rfl
    (fun _ => by
      simp only [row64, encode, encI_rd 0x00006003#32 _ _ _ (by decide), encI_rs1 0x00006003#32 _ _ _ (by decide), encI_imm 0x00006003#32 _ _ _ (by decide)])

theorem ld (rd : RegIdx) (rs1 : RegIdx) (imm : BitVec 12) : Statement (.ld rd rs1 imm) :=
  intro_row 44 (row64 0x00003003#32 0x0000707f#32 fun w => .ld (rdField w) (rs1Field w) (immI w)) rfl
    (encI_fits _ _ _ _ _ (by decide) (by decide)) rfl rfl
    (fun _ => by
      simp only [row64, encode, encI_rd 0x00003003#32 _ _ _ (by decide), encI_rs1 0x00003003#32 _ _ _ (by decide), encI_imm 0x00003003#32 _ _ _ (by decide)])

theorem sb (rs1 : RegIdx) (rs2 : RegIdx) (imm : BitVec 12) : Statement (.sb rs1 rs2 imm) :=
  intro_row 45 (row 0x00000023#32 0x0000707f#32 fun w => .sb (rs1Field w) (rs2Field w) (immS w)) rfl
    (encS_fits _ _ _ _ _ (by decide) (by decide)) rfl rfl
    (fun _ => by
      simp only [row, encode, encS_rs1 0x00000023#32 _ _ _ (by decide), encS_rs2 0x00000023#32 _ _ _ (by decide), encS_imm 0x00000023#32 _ _ _ (by decide)])

theorem sh (rs1 : RegIdx) (rs2 : RegIdx) (imm : BitVec 12) : Statement (.sh rs1 rs2 imm) :=
  intro_row 46 (row 0x00001023#32 0x0000707f#32 fun w => .sh (rs1Field w) (rs2Field w) (immS w)) rfl
    (encS_fits _ _ _ _ _ (by decide) (by decide)) rfl rfl
    (fun _ => by
      simp only [row, encode, encS_rs1 0x00001023#32 _ _ _ (by decide), encS_rs2 0x00001023#32 _ _ _ (by decide), encS_imm 0x00001023#32 _ _ _ (by decide)])

theorem sw (rs1 : RegIdx) (rs2 : RegIdx) (imm : BitVec 12) : Statement (.sw rs1 rs2 imm) :=
  intro_row 47 (row 0x00002023#32 0x0000707f#32 fun w => .sw (rs1Field w) (rs2Field w) (immS w)) rfl
    (encS_fits _ _ _ _ _ (by decide) (by decide)) rfl rfl
    (fun _ => by
      simp only [row, encode, encS_rs1 0x00002023#32 _ _ _ (by decide), encS_rs2 0x00002023#32 _ _ _ (by decide), encS_imm 0x00002023#32 _ _ _ (by decide)])

theorem sd (rs1 : RegIdx) (rs2 : RegIdx) (imm : BitVec 12) : Statement (.sd rs1 rs2 imm) :=
  intro_row 48 (row64 0x00003023#32 0x0000707f#32 fun w => .sd (rs1Field w) (rs2Field w) (immS w)) rfl
    (encS_fits _ _ _ _ _ (by decide) (by decide)) rfl rfl
    (fun _ => by
      simp only [row64, encode, encS_rs1 0x00003023#32 _ _ _ (by decide), encS_rs2 0x00003023#32 _ _ _ (by decide), encS_imm 0x00003023#32 _ _ _ (by decide)])

theorem fence : Statement (.fence) :=
  intro_row 49 (row 0x0000000f#32 0x0000707f#32 fun _ => .fence) rfl
    ((by decide)) rfl rfl
    (fun _ => rfl)

theorem fenceI : Statement (.fenceI) :=
  intro_row 50 (row 0x0000100f#32 0x0000707f#32 fun _ => .fenceI) rfl
    ((by decide)) rfl rfl
    (fun _ => rfl)

theorem mul (rd : RegIdx) (rs1 : RegIdx) (rs2 : RegIdx) : Statement (.mul rd rs1 rs2) :=
  intro_row 51 (row 0x02000033#32 0xfe00707f#32 fun w => .mul (rdField w) (rs1Field w) (rs2Field w)) rfl
    (encR_fits _ _ _ _ _ (by decide) (by decide)) rfl rfl
    (fun _ => by
      simp only [row, encode, encR_rd 0x02000033#32 _ _ _ (by decide), encR_rs1 0x02000033#32 _ _ _ (by decide), encR_rs2 0x02000033#32 _ _ _ (by decide)])

theorem mulh (rd : RegIdx) (rs1 : RegIdx) (rs2 : RegIdx) : Statement (.mulh rd rs1 rs2) :=
  intro_row 52 (row 0x02001033#32 0xfe00707f#32 fun w => .mulh (rdField w) (rs1Field w) (rs2Field w)) rfl
    (encR_fits _ _ _ _ _ (by decide) (by decide)) rfl rfl
    (fun _ => by
      simp only [row, encode, encR_rd 0x02001033#32 _ _ _ (by decide), encR_rs1 0x02001033#32 _ _ _ (by decide), encR_rs2 0x02001033#32 _ _ _ (by decide)])

theorem mulhsu (rd : RegIdx) (rs1 : RegIdx) (rs2 : RegIdx) : Statement (.mulhsu rd rs1 rs2) :=
  intro_row 53 (row 0x02002033#32 0xfe00707f#32 fun w => .mulhsu (rdField w) (rs1Field w) (rs2Field w)) rfl
    (encR_fits _ _ _ _ _ (by decide) (by decide)) rfl rfl
    (fun _ => by
      simp only [row, encode, encR_rd 0x02002033#32 _ _ _ (by decide), encR_rs1 0x02002033#32 _ _ _ (by decide), encR_rs2 0x02002033#32 _ _ _ (by decide)])

theorem mulhu (rd : RegIdx) (rs1 : RegIdx) (rs2 : RegIdx) : Statement (.mulhu rd rs1 rs2) :=
  intro_row 54 (row 0x02003033#32 0xfe00707f#32 fun w => .mulhu (rdField w) (rs1Field w) (rs2Field w)) rfl
    (encR_fits _ _ _ _ _ (by decide) (by decide)) rfl rfl
    (fun _ => by
      simp only [row, encode, encR_rd 0x02003033#32 _ _ _ (by decide), encR_rs1 0x02003033#32 _ _ _ (by decide), encR_rs2 0x02003033#32 _ _ _ (by decide)])

theorem div (rd : RegIdx) (rs1 : RegIdx) (rs2 : RegIdx) : Statement (.div rd rs1 rs2) :=
  intro_row 55 (row 0x02004033#32 0xfe00707f#32 fun w => .div (rdField w) (rs1Field w) (rs2Field w)) rfl
    (encR_fits _ _ _ _ _ (by decide) (by decide)) rfl rfl
    (fun _ => by
      simp only [row, encode, encR_rd 0x02004033#32 _ _ _ (by decide), encR_rs1 0x02004033#32 _ _ _ (by decide), encR_rs2 0x02004033#32 _ _ _ (by decide)])

theorem divu (rd : RegIdx) (rs1 : RegIdx) (rs2 : RegIdx) : Statement (.divu rd rs1 rs2) :=
  intro_row 56 (row 0x02005033#32 0xfe00707f#32 fun w => .divu (rdField w) (rs1Field w) (rs2Field w)) rfl
    (encR_fits _ _ _ _ _ (by decide) (by decide)) rfl rfl
    (fun _ => by
      simp only [row, encode, encR_rd 0x02005033#32 _ _ _ (by decide), encR_rs1 0x02005033#32 _ _ _ (by decide), encR_rs2 0x02005033#32 _ _ _ (by decide)])

theorem rem (rd : RegIdx) (rs1 : RegIdx) (rs2 : RegIdx) : Statement (.rem rd rs1 rs2) :=
  intro_row 57 (row 0x02006033#32 0xfe00707f#32 fun w => .rem (rdField w) (rs1Field w) (rs2Field w)) rfl
    (encR_fits _ _ _ _ _ (by decide) (by decide)) rfl rfl
    (fun _ => by
      simp only [row, encode, encR_rd 0x02006033#32 _ _ _ (by decide), encR_rs1 0x02006033#32 _ _ _ (by decide), encR_rs2 0x02006033#32 _ _ _ (by decide)])

theorem remu (rd : RegIdx) (rs1 : RegIdx) (rs2 : RegIdx) : Statement (.remu rd rs1 rs2) :=
  intro_row 58 (row 0x02007033#32 0xfe00707f#32 fun w => .remu (rdField w) (rs1Field w) (rs2Field w)) rfl
    (encR_fits _ _ _ _ _ (by decide) (by decide)) rfl rfl
    (fun _ => by
      simp only [row, encode, encR_rd 0x02007033#32 _ _ _ (by decide), encR_rs1 0x02007033#32 _ _ _ (by decide), encR_rs2 0x02007033#32 _ _ _ (by decide)])

theorem mulw (rd : RegIdx) (rs1 : RegIdx) (rs2 : RegIdx) : Statement (.mulw rd rs1 rs2) :=
  intro_row 59 (row64 0x0200003b#32 0xfe00707f#32 fun w => .mulw (rdField w) (rs1Field w) (rs2Field w)) rfl
    (encR_fits _ _ _ _ _ (by decide) (by decide)) rfl rfl
    (fun _ => by
      simp only [row64, encode, encR_rd 0x0200003b#32 _ _ _ (by decide), encR_rs1 0x0200003b#32 _ _ _ (by decide), encR_rs2 0x0200003b#32 _ _ _ (by decide)])

theorem divw (rd : RegIdx) (rs1 : RegIdx) (rs2 : RegIdx) : Statement (.divw rd rs1 rs2) :=
  intro_row 60 (row64 0x0200403b#32 0xfe00707f#32 fun w => .divw (rdField w) (rs1Field w) (rs2Field w)) rfl
    (encR_fits _ _ _ _ _ (by decide) (by decide)) rfl rfl
    (fun _ => by
      simp only [row64, encode, encR_rd 0x0200403b#32 _ _ _ (by decide), encR_rs1 0x0200403b#32 _ _ _ (by decide), encR_rs2 0x0200403b#32 _ _ _ (by decide)])

theorem divuw (rd : RegIdx) (rs1 : RegIdx) (rs2 : RegIdx) : Statement (.divuw rd rs1 rs2) :=
  intro_row 61 (row64 0x0200503b#32 0xfe00707f#32 fun w => .divuw (rdField w) (rs1Field w) (rs2Field w)) rfl
    (encR_fits _ _ _ _ _ (by decide) (by decide)) rfl rfl
    (fun _ => by
      simp only [row64, encode, encR_rd 0x0200503b#32 _ _ _ (by decide), encR_rs1 0x0200503b#32 _ _ _ (by decide), encR_rs2 0x0200503b#32 _ _ _ (by decide)])

theorem remw (rd : RegIdx) (rs1 : RegIdx) (rs2 : RegIdx) : Statement (.remw rd rs1 rs2) :=
  intro_row 62 (row64 0x0200603b#32 0xfe00707f#32 fun w => .remw (rdField w) (rs1Field w) (rs2Field w)) rfl
    (encR_fits _ _ _ _ _ (by decide) (by decide)) rfl rfl
    (fun _ => by
      simp only [row64, encode, encR_rd 0x0200603b#32 _ _ _ (by decide), encR_rs1 0x0200603b#32 _ _ _ (by decide), encR_rs2 0x0200603b#32 _ _ _ (by decide)])

theorem remuw (rd : RegIdx) (rs1 : RegIdx) (rs2 : RegIdx) : Statement (.remuw rd rs1 rs2) :=
  intro_row 63 (row64 0x0200703b#32 0xfe00707f#32 fun w => .remuw (rdField w) (rs1Field w) (rs2Field w)) rfl
    (encR_fits _ _ _ _ _ (by decide) (by decide)) rfl rfl
    (fun _ => by
      simp only [row64, encode, encR_rd 0x0200703b#32 _ _ _ (by decide), encR_rs1 0x0200703b#32 _ _ _ (by decide), encR_rs2 0x0200703b#32 _ _ _ (by decide)])

theorem lrW (rd : RegIdx) (rs1 : RegIdx) : Statement (.lrW rd rs1) :=
  intro_row 64 (row 0x1000202f#32 0xf9f0707f#32 fun w => .lrW (rdField w) (rs1Field w)) rfl
    (encR1_fits _ _ _ _ (by decide) (by decide)) rfl rfl
    (fun _ => by
      simp only [row, encode, encR1_rd 0x1000202f#32 _ _ (by decide), encR1_rs1 0x1000202f#32 _ _ (by decide)])

theorem lrD (rd : RegIdx) (rs1 : RegIdx) : Statement (.lrD rd rs1) :=
  intro_row 65 (row64 0x1000302f#32 0xf9f0707f#32 fun w => .lrD (rdField w) (rs1Field w)) rfl
    (encR1_fits _ _ _ _ (by decide) (by decide)) rfl rfl
    (fun _ => by
      simp only [row64, encode, encR1_rd 0x1000302f#32 _ _ (by decide), encR1_rs1 0x1000302f#32 _ _ (by decide)])

theorem scW (rd : RegIdx) (rs1 : RegIdx) (rs2 : RegIdx) : Statement (.scW rd rs1 rs2) :=
  intro_row 66 (row 0x1800202f#32 0xf800707f#32 fun w => .scW (rdField w) (rs1Field w) (rs2Field w)) rfl
    (encR_fits _ _ _ _ _ (by decide) (by decide)) rfl rfl
    (fun _ => by
      simp only [row, encode, encR_rd 0x1800202f#32 _ _ _ (by decide), encR_rs1 0x1800202f#32 _ _ _ (by decide), encR_rs2 0x1800202f#32 _ _ _ (by decide)])

theorem scD (rd : RegIdx) (rs1 : RegIdx) (rs2 : RegIdx) : Statement (.scD rd rs1 rs2) :=
  intro_row 67 (row64 0x1800302f#32 0xf800707f#32 fun w => .scD (rdField w) (rs1Field w) (rs2Field w)) rfl
    (encR_fits _ _ _ _ _ (by decide) (by decide)) rfl rfl
    (fun _ => by
      simp only [row64, encode, encR_rd 0x1800302f#32 _ _ _ (by decide), encR_rs1 0x1800302f#32 _ _ _ (by decide), encR_rs2 0x1800302f#32 _ _ _ (by decide)])

theorem amoswapW (rd : RegIdx) (rs1 : RegIdx) (rs2 : RegIdx) : Statement (.amoswapW rd rs1 rs2) :=
  intro_row 68 (row 0x0800202f#32 0xf800707f#32 fun w => .amoswapW (rdField w) (rs1Field w) (rs2Field w)) rfl
    (encR_fits _ _ _ _ _ (by decide) (by decide)) rfl rfl
    (fun _ => by
      simp only [row, encode, encR_rd 0x0800202f#32 _ _ _ (by decide), encR_rs1 0x0800202f#32 _ _ _ (by decide), encR_rs2 0x0800202f#32 _ _ _ (by decide)])

theorem amoaddW (rd : RegIdx) (rs1 : RegIdx) (rs2 : RegIdx) : Statement (.amoaddW rd rs1 rs2) :=
  intro_row 69 (row 0x0000202f#32 0xf800707f#32 fun w => .amoaddW (rdField w) (rs1Field w) (rs2Field w)) rfl
    (encR_fits _ _ _ _ _ (by decide) (by decide)) rfl rfl
    (fun _ => by
      simp only [row, encode, encR_rd 0x0000202f#32 _ _ _ (by decide), encR_rs1 0x0000202f#32 _ _ _ (by decide), encR_rs2 0x0000202f#32 _ _ _ (by decide)])

theorem amoxorW (rd : RegIdx) (rs1 : RegIdx) (rs2 : RegIdx) : Statement (.amoxorW rd rs1 rs2) :=
  intro_row 70 (row 0x2000202f#32 0xf800707f#32 fun w => .amoxorW (rdField w) (rs1Field w) (rs2Field w)) rfl
    (encR_fits _ _ _ _ _ (by decide) (by decide)) rfl rfl
    (fun _ => by
      simp only [row, encode, encR_rd 0x2000202f#32 _ _ _ (by decide), encR_rs1 0x2000202f#32 _ _ _ (by decide), encR_rs2 0x2000202f#32 _ _ _ (by decide)])

theorem amoandW (rd : RegIdx) (rs1 : RegIdx) (rs2 : RegIdx) : Statement (.amoandW rd rs1 rs2) :=
  intro_row 71 (row 0x6000202f#32 0xf800707f#32 fun w => .amoandW (rdField w) (rs1Field w) (rs2Field w)) rfl
    (encR_fits _ _ _ _ _ (by decide) (by decide)) rfl rfl
    (fun _ => by
      simp only [row, encode, encR_rd 0x6000202f#32 _ _ _ (by decide), encR_rs1 0x6000202f#32 _ _ _ (by decide), encR_rs2 0x6000202f#32 _ _ _ (by decide)])

theorem amoorW (rd : RegIdx) (rs1 : RegIdx) (rs2 : RegIdx) : Statement (.amoorW rd rs1 rs2) :=
  intro_row 72 (row 0x4000202f#32 0xf800707f#32 fun w => .amoorW (rdField w) (rs1Field w) (rs2Field w)) rfl
    (encR_fits _ _ _ _ _ (by decide) (by decide)) rfl rfl
    (fun _ => by
      simp only [row, encode, encR_rd 0x4000202f#32 _ _ _ (by decide), encR_rs1 0x4000202f#32 _ _ _ (by decide), encR_rs2 0x4000202f#32 _ _ _ (by decide)])

theorem amominW (rd : RegIdx) (rs1 : RegIdx) (rs2 : RegIdx) : Statement (.amominW rd rs1 rs2) :=
  intro_row 73 (row 0x8000202f#32 0xf800707f#32 fun w => .amominW (rdField w) (rs1Field w) (rs2Field w)) rfl
    (encR_fits _ _ _ _ _ (by decide) (by decide)) rfl rfl
    (fun _ => by
      simp only [row, encode, encR_rd 0x8000202f#32 _ _ _ (by decide), encR_rs1 0x8000202f#32 _ _ _ (by decide), encR_rs2 0x8000202f#32 _ _ _ (by decide)])

theorem amomaxW (rd : RegIdx) (rs1 : RegIdx) (rs2 : RegIdx) : Statement (.amomaxW rd rs1 rs2) :=
  intro_row 74 (row 0xa000202f#32 0xf800707f#32 fun w => .amomaxW (rdField w) (rs1Field w) (rs2Field w)) rfl
    (encR_fits _ _ _ _ _ (by decide) (by decide)) rfl rfl
    (fun _ => by
      simp only [row, encode, encR_rd 0xa000202f#32 _ _ _ (by decide), encR_rs1 0xa000202f#32 _ _ _ (by decide), encR_rs2 0xa000202f#32 _ _ _ (by decide)])

theorem amominuW (rd : RegIdx) (rs1 : RegIdx) (rs2 : RegIdx) : Statement (.amominuW rd rs1 rs2) :=
  intro_row 75 (row 0xc000202f#32 0xf800707f#32 fun w => .amominuW (rdField w) (rs1Field w) (rs2Field w)) rfl
    (encR_fits _ _ _ _ _ (by decide) (by decide)) rfl rfl
    (fun _ => by
      simp only [row, encode, encR_rd 0xc000202f#32 _ _ _ (by decide), encR_rs1 0xc000202f#32 _ _ _ (by decide), encR_rs2 0xc000202f#32 _ _ _ (by decide)])

theorem amomaxuW (rd : RegIdx) (rs1 : RegIdx) (rs2 : RegIdx) : Statement (.amomaxuW rd rs1 rs2) :=
  intro_row 76 (row 0xe000202f#32 0xf800707f#32 fun w => .amomaxuW (rdField w) (rs1Field w) (rs2Field w)) rfl
    (encR_fits _ _ _ _ _ (by decide) (by decide)) rfl rfl
    (fun _ => by
      simp only [row, encode, encR_rd 0xe000202f#32 _ _ _ (by decide), encR_rs1 0xe000202f#32 _ _ _ (by decide), encR_rs2 0xe000202f#32 _ _ _ (by decide)])

theorem amoswapD (rd : RegIdx) (rs1 : RegIdx) (rs2 : RegIdx) : Statement (.amoswapD rd rs1 rs2) :=
  intro_row 77 (row64 0x0800302f#32 0xf800707f#32 fun w => .amoswapD (rdField w) (rs1Field w) (rs2Field w)) rfl
    (encR_fits _ _ _ _ _ (by decide) (by decide)) rfl rfl
    (fun _ => by
      simp only [row64, encode, encR_rd 0x0800302f#32 _ _ _ (by decide), encR_rs1 0x0800302f#32 _ _ _ (by decide), encR_rs2 0x0800302f#32 _ _ _ (by decide)])

theorem amoaddD (rd : RegIdx) (rs1 : RegIdx) (rs2 : RegIdx) : Statement (.amoaddD rd rs1 rs2) :=
  intro_row 78 (row64 0x0000302f#32 0xf800707f#32 fun w => .amoaddD (rdField w) (rs1Field w) (rs2Field w)) rfl
    (encR_fits _ _ _ _ _ (by decide) (by decide)) rfl rfl
    (fun _ => by
      simp only [row64, encode, encR_rd 0x0000302f#32 _ _ _ (by decide), encR_rs1 0x0000302f#32 _ _ _ (by decide), encR_rs2 0x0000302f#32 _ _ _ (by decide)])

theorem amoxorD (rd : RegIdx) (rs1 : RegIdx) (rs2 : RegIdx) : Statement (.amoxorD rd rs1 rs2) :=
  intro_row 79 (row64 0x2000302f#32 0xf800707f#32 fun w => .amoxorD (rdField w) (rs1Field w) (rs2Field w)) rfl
    (encR_fits _ _ _ _ _ (by decide) (by decide)) rfl rfl
    (fun _ => by
      simp only [row64, encode, encR_rd 0x2000302f#32 _ _ _ (by decide), encR_rs1 0x2000302f#32 _ _ _ (by decide), encR_rs2 0x2000302f#32 _ _ _ (by decide)])

theorem amoandD (rd : RegIdx) (rs1 : RegIdx) (rs2 : RegIdx) : Statement (.amoandD rd rs1 rs2) :=
  intro_row 80 (row64 0x6000302f#32 0xf800707f#32 fun w => .amoandD (rdField w) (rs1Field w) (rs2Field w)) rfl
    (encR_fits _ _ _ _ _ (by decide) (by decide)) rfl rfl
    (fun _ => by
      simp only [row64, encode, encR_rd 0x6000302f#32 _ _ _ (by decide), encR_rs1 0x6000302f#32 _ _ _ (by decide), encR_rs2 0x6000302f#32 _ _ _ (by decide)])

theorem amoorD (rd : RegIdx) (rs1 : RegIdx) (rs2 : RegIdx) : Statement (.amoorD rd rs1 rs2) :=
  intro_row 81 (row64 0x4000302f#32 0xf800707f#32 fun w => .amoorD (rdField w) (rs1Field w) (rs2Field w)) rfl
    (encR_fits _ _ _ _ _ (by decide) (by decide)) rfl rfl
    (fun _ => by
      simp only [row64, encode, encR_rd 0x4000302f#32 _ _ _ (by decide), encR_rs1 0x4000302f#32 _ _ _ (by decide), encR_rs2 0x4000302f#32 _ _ _ (by decide)])

theorem amominD (rd : RegIdx) (rs1 : RegIdx) (rs2 : RegIdx) : Statement (.amominD rd rs1 rs2) :=
  intro_row 82 (row64 0x8000302f#32 0xf800707f#32 fun w => .amominD (rdField w) (rs1Field w) (rs2Field w)) rfl
    (encR_fits _ _ _ _ _ (by decide) (by decide)) rfl rfl
    (fun _ => by
      simp only [row64, encode, encR_rd 0x8000302f#32 _ _ _ (by decide), encR_rs1 0x8000302f#32 _ _ _ (by decide), encR_rs2 0x8000302f#32 _ _ _ (by decide)])

theorem amomaxD (rd : RegIdx) (rs1 : RegIdx) (rs2 : RegIdx) : Statement (.amomaxD rd rs1 rs2) :=
  intro_row 83 (row64 0xa000302f#32 0xf800707f#32 fun w => .amomaxD (rdField w) (rs1Field w) (rs2Field w)) rfl
    (encR_fits _ _ _ _ _ (by decide) (by decide)) rfl rfl
    (fun _ => by
      simp only [row64, encode, encR_rd 0xa000302f#32 _ _ _ (by decide), encR_rs1 0xa000302f#32 _ _ _ (by decide), encR_rs2 0xa000302f#32 _ _ _ (by decide)])

theorem amominuD (rd : RegIdx) (rs1 : RegIdx) (rs2 : RegIdx) : Statement (.amominuD rd rs1 rs2) :=
  intro_row 84 (row64 0xc000302f#32 0xf800707f#32 fun w => .amominuD (rdField w) (rs1Field w) (rs2Field w)) rfl
    (encR_fits _ _ _ _ _ (by decide) (by decide)) rfl rfl
    (fun _ => by
      simp only [row64, encode, encR_rd 0xc000302f#32 _ _ _ (by decide), encR_rs1 0xc000302f#32 _ _ _ (by decide), encR_rs2 0xc000302f#32 _ _ _ (by decide)])

theorem amomaxuD (rd : RegIdx) (rs1 : RegIdx) (rs2 : RegIdx) : Statement (.amomaxuD rd rs1 rs2) :=
  intro_row 85 (row64 0xe000302f#32 0xf800707f#32 fun w => .amomaxuD (rdField w) (rs1Field w) (rs2Field w)) rfl
    (encR_fits _ _ _ _ _ (by decide) (by decide)) rfl rfl
    (fun _ => by
      simp only [row64, encode, encR_rd 0xe000302f#32 _ _ _ (by decide), encR_rs1 0xe000302f#32 _ _ _ (by decide), encR_rs2 0xe000302f#32 _ _ _ (by decide)])

theorem csrrw (rd : RegIdx) (csr : CsrAddr) (rs1 : RegIdx) : Statement (.csrrw rd csr rs1) :=
  intro_row 86 (row 0x00001073#32 0x0000707f#32 fun w => .csrrw (rdField w) (immI w) (rs1Field w)) rfl
    (encCsr_fits _ _ _ _ _ (by decide) (by decide)) rfl rfl
    (fun _ => by
      simp only [row, encode, encCsr_rd 0x00001073#32 _ _ _ (by decide), encCsr_csr 0x00001073#32 _ _ _ (by decide), encCsr_rs1 0x00001073#32 _ _ _ (by decide)])

theorem csrrs (rd : RegIdx) (csr : CsrAddr) (rs1 : RegIdx) : Statement (.csrrs rd csr rs1) :=
  intro_row 87 (row 0x00002073#32 0x0000707f#32 fun w => .csrrs (rdField w) (immI w) (rs1Field w)) rfl
    (encCsr_fits _ _ _ _ _ (by decide) (by decide)) rfl rfl
    (fun _ => by
      simp only [row, encode, encCsr_rd 0x00002073#32 _ _ _ (by decide), encCsr_csr 0x00002073#32 _ _ _ (by decide), encCsr_rs1 0x00002073#32 _ _ _ (by decide)])

theorem csrrc (rd : RegIdx) (csr : CsrAddr) (rs1 : RegIdx) : Statement (.csrrc rd csr rs1) :=
  intro_row 88 (row 0x00003073#32 0x0000707f#32 fun w => .csrrc (rdField w) (immI w) (rs1Field w)) rfl
    (encCsr_fits _ _ _ _ _ (by decide) (by decide)) rfl rfl
    (fun _ => by
      simp only [row, encode, encCsr_rd 0x00003073#32 _ _ _ (by decide), encCsr_csr 0x00003073#32 _ _ _ (by decide), encCsr_rs1 0x00003073#32 _ _ _ (by decide)])

theorem csrrwi (rd : RegIdx) (csr : CsrAddr) (zimm : BitVec 5) : Statement (.csrrwi rd csr zimm) :=
  intro_row 89 (row 0x00005073#32 0x0000707f#32 fun w => .csrrwi (rdField w) (immI w) (rs1Field w)) rfl
    (encCsr_fits _ _ _ _ _ (by decide) (by decide)) rfl rfl
    (fun _ => by
      simp only [row, encode, encCsr_rd 0x00005073#32 _ _ _ (by decide), encCsr_csr 0x00005073#32 _ _ _ (by decide), encCsr_rs1 0x00005073#32 _ _ _ (by decide)])

theorem csrrsi (rd : RegIdx) (csr : CsrAddr) (zimm : BitVec 5) : Statement (.csrrsi rd csr zimm) :=
  intro_row 90 (row 0x00006073#32 0x0000707f#32 fun w => .csrrsi (rdField w) (immI w) (rs1Field w)) rfl
    (encCsr_fits _ _ _ _ _ (by decide) (by decide)) rfl rfl
    (fun _ => by
      simp only [row, encode, encCsr_rd 0x00006073#32 _ _ _ (by decide), encCsr_csr 0x00006073#32 _ _ _ (by decide), encCsr_rs1 0x00006073#32 _ _ _ (by decide)])

theorem csrrci (rd : RegIdx) (csr : CsrAddr) (zimm : BitVec 5) : Statement (.csrrci rd csr zimm) :=
  intro_row 91 (row 0x00007073#32 0x0000707f#32 fun w => .csrrci (rdField w) (immI w) (rs1Field w)) rfl
    (encCsr_fits _ _ _ _ _ (by decide) (by decide)) rfl rfl
    (fun _ => by
      simp only [row, encode, encCsr_rd 0x00007073#32 _ _ _ (by decide), encCsr_csr 0x00007073#32 _ _ _ (by decide), encCsr_rs1 0x00007073#32 _ _ _ (by decide)])

theorem ecall : Statement (.ecall) :=
  intro_row 92 (row 0x00000073#32 0xffffffff#32 fun _ => .ecall) rfl
    ((by decide)) rfl rfl
    (fun _ => rfl)

theorem ebreak : Statement (.ebreak) :=
  intro_row 93 (row 0x00100073#32 0xffffffff#32 fun _ => .ebreak) rfl
    ((by decide)) rfl rfl
    (fun _ => rfl)

theorem uret : Statement (.uret) :=
  intro_row 94 (row 0x00200073#32 0xffffffff#32 fun _ => .uret) rfl
    ((by decide)) rfl rfl
    (fun _ => rfl)

theorem sret : Statement (.sret) :=
  intro_row 95 (row 0x10200073#32 0xffffffff#32 fun _ => .sret) rfl
    ((by decide)) rfl rfl
    (fun _ => rfl)

theorem hret : Statement (.hret) :=
  intro_row 96 (row 0x20200073#32 0xffffffff#32 fun _ => .hret) rfl
    ((by decide)) rfl rfl
    (fun _ => rfl)

theorem mret : Statement (.mret) :=
  intro_row 97 (row 0x30200073#32 0xffffffff#32 fun _ => .mret) rfl
    ((by decide)) rfl rfl
    (fun _ => rfl)

theorem wfi : Statement (.wfi) :=
  intro_row 98 (row 0x10500073#32 0xffffffff#32 fun _ => .wfi) rfl
    ((by decide)) rfl rfl
    (fun _ => rfl)

theorem sfenceVm (rs1 : RegIdx) : Statement (.sfenceVm rs1) :=
  intro_row 99 (row 0x10400073#32 0xfff07fff#32 fun w => .sfenceVm (rs1Field w)) rfl
    (encRs1_fits _ _ _ (by decide) (by decide)) rfl rfl
    (fun _ => by
      simp only [row, encode, encRs1_rs1 0x10400073#32 _ (by decide)])

theorem flw (fd : RegIdx) (rs1 : RegIdx) (imm : BitVec 12) : Statement (.flw fd rs1 imm) :=
  intro_row 100 (row 0x00002007#32 0x0000707f#32 fun w => .flw (rdField w) (rs1Field w) (immI w)) rfl
    (encI_fits _ _ _ _ _ (by decide) (by decide)) rfl rfl
    (fun _ => by
      simp only [row, encode, encI_rd 0x00002007#32 _ _ _ (by decide), encI_rs1 0x00002007#32 _ _ _ (by decide), encI_imm 0x00002007#32 _ _ _ (by decide)])

theorem fsw (rs1 : RegIdx) (fs2 : RegIdx) (imm : BitVec 12) : Statement (.fsw rs1 fs2 imm) :=
  intro_row 101 (row 0x00002027#32 0x0000707f#32 fun w => .fsw (rs1Field w) (rs2Field w) (immS w)) rfl
    (encS_fits _ _ _ _ _ (by decide) (by decide)) rfl rfl
    (fun _ => by
      simp only [row, encode, encS_rs1 0x00002027#32 _ _ _ (by decide), encS_rs2 0x00002027#32 _ _ _ (by decide), encS_imm 0x00002027#32 _ _ _ (by decide)])

theorem fmaddS (fd : RegIdx) (fs1 : RegIdx) (fs2 : RegIdx) (fs3 : RegIdx) (rm : BitVec 3) : Statement (.fmaddS fd fs1 fs2 fs3 rm) :=
  intro_row 102 (row 0x00000043#32 0x0600007f#32 fun w => .fmaddS (rdField w) (rs1Field w) (rs2Field w) (rs3Field w) (rmField w)) rfl
    (encR4_fits _ _ _ _ _ _ _ (by decide) (by decide)) rfl rfl
    (fun _ => by
      simp only [row, encode, encR4_rd 0x00000043#32 _ _ _ _ _ (by decide), encR4_rs1 0x00000043#32 _ _ _ _ _ (by decide), encR4_rs2 0x00000043#32 _ _ _ _ _ (by decide), encR4_rs3 0x00000043#32 _ _ _ _ _ (by decide), encR4_rm 0x00000043#32 _ _ _ _ _ (by decide)])

theorem fmsubS (fd : RegIdx) (fs1 : RegIdx) (fs2 : RegIdx) (fs3 : RegIdx) (rm : BitVec 3) : Statement (.fmsubS fd fs1 fs2 fs3 rm) :=
  intro_row 103 (row 0x00000047#32 0x0600007f#32 fun w => .fmsubS (rdField w) (rs1Field w) (rs2Field w) (rs3Field w) (rmField w)) rfl
    (encR4_fits _ _ _ _ _ _ _ (by decide) (by decide)) rfl rfl
    (fun _ => by
      simp only [row, encode, encR4_rd 0x00000047#32 _ _ _ _ _ (by decide), encR4_rs1 0x00000047#32 _ _ _ _ _ (by decide), encR4_rs2 0x00000047#32 _ _ _ _ _ (by decide), encR4_rs3 0x00000047#32 _ _ _ _ _ (by decide), encR4_rm 0x00000047#32 _ _ _ _ _ (by decide)])

theorem fnmsubS (fd : RegIdx) (fs1 : RegIdx) (fs2 : RegIdx) (fs3 : RegIdx) (rm : BitVec 3) : Statement (.fnmsubS fd fs1 fs2 fs3 rm) :=
  intro_row 104 (row 0x0000004b#32 0x0600007f#32 fun w => .fnmsubS (rdField w) (rs1Field w) (rs2Field w) (rs3Field w) (rmField w)) rfl
    (encR4_fits _ _ _ _ _ _ _ (by decide) (by decide)) rfl rfl
    (fun _ => by
      simp only [row, encode, encR4_rd 0x0000004b#32 _ _ _ _ _ (by decide), encR4_rs1 0x0000004b#32 _ _ _ _ _ (by decide), encR4_rs2 0x0000004b#32 _ _ _ _ _ (by decide), encR4_rs3 0x0000004b#32 _ _ _ _ _ (by decide), encR4_rm 0x0000004b#32 _ _ _ _ _ (by decide)])

theorem fnmaddS (fd : RegIdx) (fs1 : RegIdx) (fs2 : RegIdx) (fs3 : RegIdx) (rm : BitVec 3) : Statement (.fnmaddS fd fs1 fs2 fs3 rm) :=
  intro_row 105 (row 0x0000004f#32 0x0600007f#32 fun w => .fnmaddS (rdField w) (rs1Field w) (rs2Field w) (rs3Field w) (rmField w)) rfl
    (encR4_fits _ _ _ _ _ _ _ (by decide) (by decide)) rfl rfl
    (fun _ => by
      simp only [row, encode, encR4_rd 0x0000004f#32 _ _ _ _ _ (by decide), encR4_rs1 0x0000004f#32 _ _ _ _ _ (by decide), encR4_rs2 0x0000004f#32 _ _ _ _ _ (by decide), encR4_rs3 0x0000004f#32 _ _ _ _ _ (by decide), encR4_rm 0x0000004f#32 _ _ _ _ _ (by decide)])

theorem faddS (fd : RegIdx) (fs1 : RegIdx) (fs2 : RegIdx) (rm : BitVec 3) : Statement (.faddS fd fs1 fs2 rm) :=
  intro_row 106 (row 0x00000053#32 0xfe00007f#32 fun w => .faddS (rdField w) (rs1Field w) (rs2Field w) (rmField w)) rfl
    (encRm_fits _ _ _ _ _ _ (by decide) (by decide)) rfl rfl
    (fun _ => by
      simp only [row, encode, encRm_rd 0x00000053#32 _ _ _ _ (by decide), encRm_rs1 0x00000053#32 _ _ _ _ (by decide), encRm_rs2 0x00000053#32 _ _ _ _ (by decide), encRm_rm 0x00000053#32 _ _ _ _ (by decide)])

theorem fsubS (fd : RegIdx) (fs1 : RegIdx) (fs2 : RegIdx) (rm : BitVec 3) : Statement (.fsubS fd fs1 fs2 rm) :=
  intro_row 107 (row 0x08000053#32 0xfe00007f#32 fun w => .fsubS (rdField w) (rs1Field w) (rs2Field w) (rmField w)) rfl
    (encRm_fits _ _ _ _ _ _ (by decide) (by decide)) rfl rfl
    (fun _ => by
      simp only [row, encode, encRm_rd 0x08000053#32 _ _ _ _ (by decide), encRm_rs1 0x08000053#32 _ _ _ _ (by decide), encRm_rs2 0x08000053#32 _ _ _ _ (by decide), encRm_rm 0x08000053#32 _ _ _ _ (by decide)])

theorem fmulS (fd : RegIdx) (fs1 : RegIdx) (fs2 : RegIdx) (rm : BitVec 3) : Statement (.fmulS fd fs1 fs2 rm) :=
  intro_row 108 (row 0x10000053#32 0xfe00007f#32 fun w => .fmulS (rdField w) (rs1Field w) (rs2Field w) (rmField w)) rfl
    (encRm_fits _ _ _ _ _ _ (by decide) (by decide)) rfl rfl
    (fun _ => by
      simp only [row, encode, encRm_rd 0x10000053#32 _ _ _ _ (by decide), encRm_rs1 0x10000053#32 _ _ _ _ (by decide), encRm_rs2 0x10000053#32 _ _ _ _ (by decide), encRm_rm 0x10000053#32 _ _ _ _ (by decide)])

theorem fdivS (fd : RegIdx) (fs1 : RegIdx) (fs2 : RegIdx) (rm : BitVec 3) : Statement (.fdivS fd fs1 fs2 rm) :=
  intro_row 109 (row 0x18000053#32 0xfe00007f#32 fun w => .fdivS (rdField w) (rs1Field w) (rs2Field w) (rmField w)) rfl
    (encRm_fits _ _ _ _ _ _ (by decide) (by decide)) rfl rfl
    (fun _ => by
      simp only [row, encode, encRm_rd 0x18000053#32 _ _ _ _ (by decide), encRm_rs1 0x18000053#32 _ _ _ _ (by decide), encRm_rs2 0x18000053#32 _ _ _ _ (by decide), encRm_rm 0x18000053#32 _ _ _ _ (by decide)])

theorem fsqrtS (fd : RegIdx) (fs1 : RegIdx) (rm : BitVec 3) : Statement (.fsqrtS fd fs1 rm) :=
  intro_row 110 (row 0x58000053#32 0xfff0007f#32 fun w => .fsqrtS (rdField w) (rs1Field w) (rmField w)) rfl
    (encRm1_fits _ _ _ _ _ (by decide) (by decide)) rfl rfl
    (fun _ => by
      simp only [row, encode, encRm1_rd 0x58000053#32 _ _ _ (by decide), encRm1_rs1 0x58000053#32 _ _ _ (by decide), encRm1_rm 0x58000053#32 _ _ _ (by decide)])

theorem fsgnjS (fd : RegIdx) (fs1 : RegIdx) (fs2 : RegIdx) : Statement (.fsgnjS fd fs1 fs2) :=
  intro_row 111 (row 0x20000053#32 0xfe00707f#32 fun w => .fsgnjS (rdField w) (rs1Field w) (rs2Field w)) rfl
    (encR_fits _ _ _ _ _ (by decide) (by decide)) rfl rfl
    (fun _ => by
      simp only [row, encode, encR_rd 0x20000053#32 _ _ _ (by decide), encR_rs1 0x20000053#32 _ _ _ (by decide), encR_rs2 0x20000053#32 _ _ _ (by decide)])

theorem fsgnjnS (fd : RegIdx) (fs1 : RegIdx) (fs2 : RegIdx) : Statement (.fsgnjnS fd fs1 fs2) :=
  intro_row 112 (row 0x20001053#32 0xfe00707f#32 fun w => .fsgnjnS (rdField w) (rs1Field w) (rs2Field w)) rfl
    (encR_fits _ _ _ _ _ (by decide) (by decide)) rfl rfl
    (fun _ => by
      simp only [row, encode, encR_rd 0x20001053#32 _ _ _ (by decide), encR_rs1 0x20001053#32 _ _ _ (by decide), encR_rs2 0x20001053#32 _ _ _ (by decide)])

theorem fsgnjxS (fd : RegIdx) (fs1 : RegIdx) (fs2 : RegIdx) : Statement (.fsgnjxS fd fs1 fs2) :=
  intro_row 113 (row 0x20002053#32 0xfe00707f#32 fun w => .fsgnjxS (rdField w) (rs1Field w) (rs2Field w)) rfl
    (encR_fits _ _ _ _ _ (by decide) (by decide)) rfl rfl
    (fun _ => by
      simp only [row, encode, encR_rd 0x20002053#32 _ _ _ (by decide), encR_rs1 0x20002053#32 _ _ _ (by decide), encR_rs2 0x20002053#32 _ _ _ (by decide)])

theorem fminS (fd : RegIdx) (fs1 : RegIdx) (fs2 : RegIdx) : Statement (.fminS fd fs1 fs2) :=
  intro_row 114 (row 0x28000053#32 0xfe00707f#32 fun w => .fminS (rdField w) (rs1Field w) (rs2Field w)) rfl
    (encR_fits _ _ _ _ _ (by decide) (by decide)) rfl rfl
    (fun _ => by
      simp only [row, encode, encR_rd 0x28000053#32 _ _ _ (by decide), encR_rs1 0x28000053#32 _ _ _ (by decide), encR_rs2 0x28000053#32 _ _ _ (by decide)])

theorem fmaxS (fd : RegIdx) (fs1 : RegIdx) (fs2 : RegIdx) : Statement (.fmaxS fd fs1 fs2) :=
  intro_row 115 (row 0x28001053#32 0xfe00707f#32 fun w => .fmaxS (rdField w) (rs1Field w) (rs2Field w)) rfl
    (encR_fits _ _ _ _ _ (by decide) (by decide)) rfl rfl
    (fun _ => by
      simp only [row, encode, encR_rd 0x28001053#32 _ _ _ (by decide), encR_rs1 0x28001053#32 _ _ _ (by decide), encR_rs2 0x28001053#32 _ _ _ (by decide)])

theorem fcvtWS (rd : RegIdx) (fs1 : RegIdx) (rm : BitVec 3) : Statement (.fcvtWS rd fs1 rm) :=
  intro_row 116 (row 0xc0000053#32 0xfff0007f#32 fun w => .fcvtWS (rdField w) (rs1Field w) (rmField w)) rfl
    (encRm1_fits _ _ _ _ _ (by decide) (by decide)) rfl rfl
    (fun _ => by
      simp only [row, encode, encRm1_rd 0xc0000053#32 _ _ _ (by decide), encRm1_rs1 0xc0000053#32 _ _ _ (by decide), encRm1_rm 0xc0000053#32 _ _ _ (by decide)])

theorem fcvtWUS (rd : RegIdx) (fs1 : RegIdx) (rm : BitVec 3) : Statement (.fcvtWUS rd fs1 rm) :=
  intro_row 117 (row 0xc0100053#32 0xfff0007f#32 fun w => .fcvtWUS (rdField w) (rs1Field w) (rmField w)) rfl
    (encRm1_fits _ _ _ _ _ (by decide) (by decide)) rfl rfl
    (fun _ => by
      simp only [row, encode, encRm1_rd 0xc0100053#32 _ _ _ (by decide), encRm1_rs1 0xc0100053#32 _ _ _ (by decide), encRm1_rm 0xc0100053#32 _ _ _ (by decide)])

theorem fmvXS (rd : RegIdx) (fs1 : RegIdx) : Statement (.fmvXS rd fs1) :=
  intro_row 118 (row 0xe0000053#32 0xfff0707f#32 fun w => .fmvXS (rdField w) (rs1Field w)) rfl
    (encR1_fits _ _ _ _ (by decide) (by decide)) rfl rfl
    (fun _ => by
      simp only [row, encode, encR1_rd 0xe0000053#32 _ _ (by decide), encR1_rs1 0xe0000053#32 _ _ (by decide)])

theorem feqS (rd : RegIdx) (fs1 : RegIdx) (fs2 : RegIdx) : Statement (.feqS rd fs1 fs2) :=
  intro_row 119 (row 0xa0002053#32 0xfe00707f#32 fun w => .feqS (rdField w) (rs1Field w) (rs2Field w)) rfl
    (encR_fits _ _ _ _ _ (by decide) (by decide)) rfl rfl
    (fun _ => by
      simp only [row, encode, encR_rd 0xa0002053#32 _ _ _ (by decide), encR_rs1 0xa0002053#32 _ _ _ (by decide), encR_rs2 0xa0002053#32 _ _ _ (by decide)])

theorem fltS (rd : RegIdx) (fs1 : RegIdx) (fs2 : RegIdx) : Statement (.fltS rd fs1 fs2) :=
  intro_row 120 (row 0xa0001053#32 0xfe00707f#32 fun w => .fltS (rdField w) (rs1Field w) (rs2Field w)) rfl
    (encR_fits _ _ _ _ _ (by decide) (by decide)) rfl rfl
    (fun _ => by
      simp only [row, encode, encR_rd 0xa0001053#32 _ _ _ (by decide), encR_rs1 0xa0001053#32 _ _ _ (by decide), encR_rs2 0xa0001053#32 _ _ _ (by decide)])

theorem fleS (rd : RegIdx) (fs1 : RegIdx) (fs2 : RegIdx) : Statement (.fleS rd fs1 fs2) :=
  intro_row 121 (row 0xa0000053#32 0xfe00707f#32 fun w => .fleS (rdField w) (rs1Field w) (rs2Field w)) rfl
    (encR_fits _ _ _ _ _ (by decide) (by decide)) rfl rfl
    (fun _ => by
      simp only [row, encode, encR_rd 0xa0000053#32 _ _ _ (by decide), encR_rs1 0xa0000053#32 _ _ _ (by decide), encR_rs2 0xa0000053#32 _ _ _ (by decide)])

theorem fclassS (rd : RegIdx) (fs1 : RegIdx) : Statement (.fclassS rd fs1) :=
  intro_row 122 (row 0xe0001053#32 0xfff0707f#32 fun w => .fclassS (rdField w) (rs1Field w)) rfl
    (encR1_fits _ _ _ _ (by decide) (by decide)) rfl rfl
    (fun _ => by
      simp only [row, encode, encR1_rd 0xe0001053#32 _ _ (by decide), encR1_rs1 0xe0001053#32 _ _ (by decide)])

theorem fcvtSW (fd : RegIdx) (rs1 : RegIdx) (rm : BitVec 3) : Statement (.fcvtSW fd rs1 rm) :=
  intro_row 123 (row 0xd0000053#32 0xfff0007f#32 fun w => .fcvtSW (rdField w) (rs1Field w) (rmField w)) rfl
    (encRm1_fits _ _ _ _ _ (by decide) (by decide)) rfl rfl
    (fun _ => by
      simp only [row, encode, encRm1_rd 0xd0000053#32 _ _ _ (by decide), encRm1_rs1 0xd0000053#32 _ _ _ (by decide), encRm1_rm 0xd0000053#32 _ _ _ (by decide)])

theorem fcvtSWU (fd : RegIdx) (rs1 : RegIdx) (rm : BitVec 3) : Statement (.fcvtSWU fd rs1 rm) :=
  intro_row 124 (row 0xd0100053#32 0xfff0007f#32 fun w => .fcvtSWU (rdField w) (rs1Field w) (rmField w)) rfl
    (encRm1_fits _ _ _ _ _ (by decide) (by decide)) rfl rfl
    (fun _ => by
      simp only [row, encode, encRm1_rd 0xd0100053#32 _ _ _ (by decide), encRm1_rs1 0xd0100053#32 _ _ _ (by decide), encRm1_rm 0xd0100053#32 _ _ _ (by decide)])

theorem fmvSX (fd : RegIdx) (rs1 : RegIdx) : Statement (.fmvSX fd rs1) :=
  intro_row 125 (row 0xf0000053#32 0xfff0707f#32 fun w => .fmvSX (rdField w) (rs1Field w)) rfl
    (encR1_fits _ _ _ _ (by decide) (by decide)) rfl rfl
    (fun _ => by
      simp only [row, encode, encR1_rd 0xf0000053#32 _ _ (by decide), encR1_rs1 0xf0000053#32 _ _ (by decide)])

theorem fcvtLS (rd : RegIdx) (fs1 : RegIdx) (rm : BitVec 3) : Statement (.fcvtLS rd fs1 rm) :=
  intro_row 126 (row64 0xc0200053#32 0xfff0007f#32 fun w => .fcvtLS (rdField w) (rs1Field w) (rmField w)) rfl
    (encRm1_fits _ _ _ _ _ (by decide) (by decide)) rfl rfl
    (fun _ => by
      simp only [row64, encode, encRm1_rd 0xc0200053#32 _ _ _ (by decide), encRm1_rs1 0xc0200053#32 _ _ _ (by decide), encRm1_rm 0xc0200053#32 _ _ _ (by decide)])

theorem fcvtLUS (rd : RegIdx) (fs1 : RegIdx) (rm : BitVec 3) : Statement (.fcvtLUS rd fs1 rm) :=
  intro_row 127 (row64 0xc0300053#32 0xfff0007f#32 fun w => .fcvtLUS (rdField w) (rs1Field w) (rmField w)) rfl
    (encRm1_fits _ _ _ _ _ (by decide) (by decide)) rfl rfl
    (fun _ => by
      simp only [row64, encode, encRm1_rd 0xc0300053#32 _ _ _ (by decide), encRm1_rs1 0xc0300053#32 _ _ _ (by decide), encRm1_rm 0xc0300053#32 _ _ _ (by decide)])

theorem fcvtSL (fd : RegIdx) (rs1 : RegIdx) (rm : BitVec 3) : Statement (.fcvtSL fd rs1 rm) :=
  intro_row 128 (row64 0xd0200053#32 0xfff0007f#32 fun w => .fcvtSL (rdField w) (rs1Field w) (rmField w)) rfl
    (encRm1_fits _ _ _ _ _ (by decide) (by decide)) rfl rfl
    (fun _ => by
      simp only [row64, encode, encRm1_rd 0xd0200053#32 _ _ _ (by decide), encRm1_rs1 0xd0200053#32 _ _ _ (by decide), encRm1_rm 0xd0200053#32 _ _ _ (by decide)])

theorem fcvtSLU (fd : RegIdx) (rs1 : RegIdx) (rm : BitVec 3) : Statement (.fcvtSLU fd rs1 rm) :=
  intro_row 129 (row64 0xd0300053#32 0xfff0007f#32 fun w => .fcvtSLU (rdField w) (rs1Field w) (rmField w)) rfl
    (encRm1_fits _ _ _ _ _ (by decide) (by decide)) rfl rfl
    (fun _ => by
      simp only [row64, encode, encRm1_rd 0xd0300053#32 _ _ _ (by decide), encRm1_rs1 0xd0300053#32 _ _ _ (by decide), encRm1_rm 0xd0300053#32 _ _ _ (by decide)])

theorem fld (fd : RegIdx) (rs1 : RegIdx) (imm : BitVec 12) : Statement (.fld fd rs1 imm) :=
  intro_row 130 (row 0x00003007#32 0x0000707f#32 fun w => .fld (rdField w) (rs1Field w) (immI w)) rfl
    (encI_fits _ _ _ _ _ (by decide) (by decide)) rfl rfl
    (fun _ => by
      simp only [row, encode, encI_rd 0x00003007#32 _ _ _ (by decide), encI_rs1 0x00003007#32 _ _ _ (by decide), encI_imm 0x00003007#32 _ _ _ (by decide)])

theorem fsd (rs1 : RegIdx) (fs2 : RegIdx) (imm : BitVec 12) : Statement (.fsd rs1 fs2 imm) :=
  intro_row 131 (row 0x00003027#32 0x0000707f#32 fun w => .fsd (rs1Field w) (rs2Field w) (immS w)) rfl
    (encS_fits _ _ _ _ _ (by decide) (by decide)) rfl rfl
    (fun _ => by
      simp only [row, encode, encS_rs1 0x00003027#32 _ _ _ (by decide), encS_rs2 0x00003027#32 _ _ _ (by decide), encS_imm 0x00003027#32 _ _ _ (by decide)])

theorem fmaddD (fd : RegIdx) (fs1 : RegIdx) (fs2 : RegIdx) (fs3 : RegIdx) (rm : BitVec 3) : Statement (.fmaddD fd fs1 fs2 fs3 rm) :=
  intro_row 132 (row 0x02000043#32 0x0600007f#32 fun w => .fmaddD (rdField w) (rs1Field w) (rs2Field w) (rs3Field w) (rmField w)) rfl
    (encR4_fits _ _ _ _ _ _ _ (by decide) (by decide)) rfl rfl
    (fun _ => by
      simp only [row, encode, encR4_rd 0x02000043#32 _ _ _ _ _ (by decide), encR4_rs1 0x02000043#32 _ _ _ _ _ (by decide), encR4_rs2 0x02000043#32 _ _ _ _ _ (by decide), encR4_rs3 0x02000043#32 _ _ _ _ _ (by decide), encR4_rm 0x02000043#32 _ _ _ _ _ (by decide)])

theorem fmsubD (fd : RegIdx) (fs1 : RegIdx) (fs2 : RegIdx) (fs3 : RegIdx) (rm : BitVec 3) : Statement (.fmsubD fd fs1 fs2 fs3 rm) :=
  intro_row 133 (row 0x02000047#32 0x0600007f#32 fun w => .fmsubD (rdField w) (rs1Field w) (rs2Field w) (rs3Field w) (rmField w)) rfl
    (encR4_fits _ _ _ _ _ _ _ (by decide) (by decide)) rfl rfl
    (fun _ => by
      simp only [row, encode, encR4_rd 0x02000047#32 _ _ _ _ _ (by decide), encR4_rs1 0x02000047#32 _ _ _ _ _ (by decide), encR4_rs2 0x02000047#32 _ _ _ _ _ (by decide), encR4_rs3 0x02000047#32 _ _ _ _ _ (by decide), encR4_rm 0x02000047#32 _ _ _ _ _ (by decide)])

theorem fnmsubD (fd : RegIdx) (fs1 : RegIdx) (fs2 : RegIdx) (fs3 : RegIdx) (rm : BitVec 3) : Statement (.fnmsubD fd fs1 fs2 fs3 rm) :=
  intro_row 134 (row 0x0200004b#32 0x0600007f#32 fun w => .fnmsubD (rdField w) (rs1Field w) (rs2Field w) (rs3Field w) (rmField w)) rfl
    (encR4_fits _ _ _ _ _ _ _ (by decide) (by decide)) rfl rfl
    (fun _ => by
      simp only [row, encode, encR4_rd 0x0200004b#32 _ _ _ _ _ (by decide), encR4_rs1 0x0200004b#32 _ _ _ _ _ (by decide), encR4_rs2 0x0200004b#32 _ _ _ _ _ (by decide), encR4_rs3 0x0200004b#32 _ _ _ _ _ (by decide), encR4_rm 0x0200004b#32 _ _ _ _ _ (by decide)])

theorem fnmaddD (fd : RegIdx) (fs1 : RegIdx) (fs2 : RegIdx) (fs3 : RegIdx) (rm : BitVec 3) : Statement (.fnmaddD fd fs1 fs2 fs3 rm) :=
  intro_row 135 (row 0x0200004f#32 0x0600007f#32 fun w => .fnmaddD (rdField w) (rs1Field w) (rs2Field w) (rs3Field w) (rmField w)) rfl
    (encR4_fits _ _ _ _ _ _ _ (by decide) (by decide)) rfl rfl
    (fun _ => by
      simp only [row, encode, encR4_rd 0x0200004f#32 _ _ _ _ _ (by decide), encR4_rs1 0x0200004f#32 _ _ _ _ _ (by decide), encR4_rs2 0x0200004f#32 _ _ _ _ _ (by decide), encR4_rs3 0x0200004f#32 _ _ _ _ _ (by decide), encR4_rm 0x0200004f#32 _ _ _ _ _ (by decide)])

theorem faddD (fd : RegIdx) (fs1 : RegIdx) (fs2 : RegIdx) (rm : BitVec 3) : Statement (.faddD fd fs1 fs2 rm) :=
  intro_row 136 (row 0x02000053#32 0xfe00007f#32 fun w => .faddD (rdField w) (rs1Field w) (rs2Field w) (rmField w)) rfl
    (encRm_fits _ _ _ _ _ _ (by decide) (by decide)) rfl rfl
    (fun _ => by
      simp only [row, encode, encRm_rd 0x02000053#32 _ _ _ _ (by decide), encRm_rs1 0x02000053#32 _ _ _ _ (by decide), encRm_rs2 0x02000053#32 _ _ _ _ (by decide), encRm_rm 0x02000053#32 _ _ _ _ (by decide)])

theorem fsubD (fd : RegIdx) (fs1 : RegIdx) (fs2 : RegIdx) (rm : BitVec 3) : Statement (.fsubD fd fs1 fs2 rm) :=
  intro_row 137 (row 0x0a000053#32 0xfe00007f#32 fun w => .fsubD (rdField w) (rs1Field w) (rs2Field w) (rmField w)) rfl
    (encRm_fits _ _ _ _ _ _ (by decide) (by decide)) rfl rfl
    (fun _ => by
      simp only [row, encode, encRm_rd 0x0a000053#32 _ _ _ _ (by decide), encRm_rs1 0x0a000053#32 _ _ _ _ (by decide), encRm_rs2 0x0a000053#32 _ _ _ _ (by decide), encRm_rm 0x0a000053#32 _ _ _ _ (by decide)])

theorem fmulD (fd : RegIdx) (fs1 : RegIdx) (fs2 : RegIdx) (rm : BitVec 3) : Statement (.fmulD fd fs1 fs2 rm) :=
  intro_row 138 (row 0x12000053#32 0xfe00007f#32 fun w => .fmulD (rdField w) (rs1Field w) (rs2Field w) (rmField w)) rfl
    (encRm_fits _ _ _ _ _ _ (by decide) (by decide)) rfl rfl
    (fun _ => by
      simp only [row, encode, encRm_rd 0x12000053#32 _ _ _ _ (by decide), encRm_rs1 0x12000053#32 _ _ _ _ (by decide), encRm_rs2 0x12000053#32 _ _ _ _ (by decide), encRm_rm 0x12000053#32 _ _ _ _ (by decide)])

theorem fdivD (fd : RegIdx) (fs1 : RegIdx) (fs2 : RegIdx) (rm : BitVec 3) : Statement (.fdivD fd fs1 fs2 rm) :=
  intro_row 139 (row 0x1a000053#32 0xfe00007f#32 fun w => .fdivD (rdField w) (rs1Field w) (rs2Field w) (rmField w)) rfl
    (encRm_fits _ _ _ _ _ _ (by decide) (by decide)) rfl rfl
    (fun _ => by
      simp only [row, encode, encRm_rd 0x1a000053#32 _ _ _ _ (by decide), encRm_rs1 0x1a000053#32 _ _ _ _ (by decide), encRm_rs2 0x1a000053#32 _ _ _ _ (by decide), encRm_rm 0x1a000053#32 _ _ _ _ (by decide)])

theorem fsqrtD (fd : RegIdx) (fs1 : RegIdx) (rm : BitVec 3) : Statement (.fsqrtD fd fs1 rm) :=
  intro_row 140 (row 0x5a000053#32 0xfff0007f#32 fun w => .fsqrtD (rdField w) (rs1Field w) (rmField w)) rfl
    (encRm1_fits _ _ _ _ _ (by decide) (by decide)) rfl rfl
    (fun _ => by
      simp only [row, encode, encRm1_rd 0x5a000053#32 _ _ _ (by decide), encRm1_rs1 0x5a000053#32 _ _ _ (by decide), encRm1_rm 0x5a000053#32 _ _ _ (by decide)])

theorem fsgnjD (fd : RegIdx) (fs1 : RegIdx) (fs2 : RegIdx) : Statement (.fsgnjD fd fs1 fs2) :=
  intro_row 141 (row 0x22000053#32 0xfe00707f#32 fun w => .fsgnjD (rdField w) (rs1Field w) (rs2Field w)) rfl
    (encR_fits _ _ _ _ _ (by decide) (by decide)) rfl rfl
    (fun _ => by
      simp only [row, encode, encR_rd 0x22000053#32 _ _ _ (by decide), encR_rs1 0x22000053#32 _ _ _ (by decide), encR_rs2 0x22000053#32 _ _ _ (by decide)])

theorem fsgnjnD (fd : RegIdx) (fs1 : RegIdx) (fs2 : RegIdx) : Statement (.fsgnjnD fd fs1 fs2) :=
  intro_row 142 (row 0x22001053#32 0xfe00707f#32 fun w => .fsgnjnD (rdField w) (rs1Field w) (rs2Field w)) rfl
    (encR_fits _ _ _ _ _ (by decide) (by decide)) rfl rfl
    (fun _ => by
      simp only [row, encode, encR_rd 0x22001053#32 _ _ _ (by decide), encR_rs1 0x22001053#32 _ _ _ (by decide), encR_rs2 0x22001053#32 _ _ _ (by decide)])

theorem fsgnjxD (fd : RegIdx) (fs1 : RegIdx) (fs2 : RegIdx) : Statement (.fsgnjxD fd fs1 fs2) :=
  intro_row 143 (row 0x22002053#32 0xfe00707f#32 fun w => .fsgnjxD (rdField w) (rs1Field w) (rs2Field w)) rfl
    (encR_fits _ _ _ _ _ (by decide) (by decide)) rfl rfl
    (fun _ => by
      simp only [row, encode, encR_rd 0x22002053#32 _ _ _ (by decide), encR_rs1 0x22002053#32 _ _ _ (by decide), encR_rs2 0x22002053#32 _ _ _ (by decide)])

theorem fminD (fd : RegIdx) (fs1 : RegIdx) (fs2 : RegIdx) : Statement (.fminD fd fs1 fs2) :=
  intro_row 144 (row 0x2a000053#32 0xfe00707f#32 fun w => .fminD (rdField w) (rs1Field w) (rs2Field w)) rfl
    (encR_fits _ _ _ _ _ (by decide) (by decide)) rfl rfl
    (fun _ => by
      simp only [row, encode, encR_rd 0x2a000053#32 _ _ _ (by decide), encR_rs1 0x2a000053#32 _ _ _ (by decide), encR_rs2 0x2a000053#32 _ _ _ (by decide)])

theorem fmaxD (fd : RegIdx) (fs1 : RegIdx) (fs2 : RegIdx) : Statement (.fmaxD fd fs1 fs2) :=
  intro_row 145 (row 0x2a001053#32 0xfe00707f#32 fun w => .fmaxD (rdField w) (rs1Field w) (rs2Field w)) rfl
    (encR_fits _ _ _ _ _ (by decide) (by decide)) rfl rfl
    (fun _ => by
      simp only [row, encode, encR_rd 0x2a001053#32 _ _ _ (by decide), encR_rs1 0x2a001053#32 _ _ _ (by decide), encR_rs2 0x2a001053#32 _ _ _ (by decide)])

theorem fcvtSD (fd : RegIdx) (fs1 : RegIdx) (rm : BitVec 3) : Statement (.fcvtSD fd fs1 rm) :=
  intro_row 146 (row 0x40100053#32 0xfff0007f#32 fun w => .fcvtSD (rdField w) (rs1Field w) (rmField w)) rfl
    (encRm1_fits _ _ _ _ _ (by decide) (by decide)) rfl rfl
    (fun _ => by
      simp only [row, encode, encRm1_rd 0x40100053#32 _ _ _ (by decide), encRm1_rs1 0x40100053#32 _ _ _ (by decide), encRm1_rm 0x40100053#32 _ _ _ (by decide)])

theorem fcvtDS (fd : RegIdx) (fs1 : RegIdx) (rm : BitVec 3) : Statement (.fcvtDS fd fs1 rm) :=
  intro_row 147 (row 0x42000053#32 0xfff0007f#32 fun w => .fcvtDS (rdField w) (rs1Field w) (rmField w)) rfl
    (encRm1_fits _ _ _ _ _ (by decide) (by decide)) rfl rfl
    (fun _ => by
      simp only [row, encode, encRm1_rd 0x42000053#32 _ _ _ (by decide), encRm1_rs1 0x42000053#32 _ _ _ (by decide), encRm1_rm 0x42000053#32 _ _ _ (by decide)])

theorem feqD (rd : RegIdx) (fs1 : RegIdx) (fs2 : RegIdx) : Statement (.feqD rd fs1 fs2) :=
  intro_row 148 (row 0xa2002053#32 0xfe00707f#32 fun w => .feqD (rdField w) (rs1Field w) (rs2Field w)) rfl
    (encR_fits _ _ _ _ _ (by decide) (by decide)) rfl rfl
    (fun _ => by
      simp only [row, encode, encR_rd 0xa2002053#32 _ _ _ (by decide), encR_rs1 0xa2002053#32 _ _ _ (by decide), encR_rs2 0xa2002053#32 _ _ _ (by decide)])

theorem fltD (rd : RegIdx) (fs1 : RegIdx) (fs2 : RegIdx) : Statement (.fltD rd fs1 fs2) :=
  intro_row 149 (row 0xa2001053#32 0xfe00707f#32 fun w => .fltD (rdField w) (rs1Field w) (rs2Field w)) rfl
    (encR_fits _ _ _ _ _ (by decide) (by decide)) rfl rfl
    (fun _ => by
      simp only [row, encode, encR_rd 0xa2001053#32 _ _ _ (by decide), encR_rs1 0xa2001053#32 _ _ _ (by decide), encR_rs2 0xa2001053#32 _ _ _ (by decide)])

theorem fleD (rd : RegIdx) (fs1 : RegIdx) (fs2 : RegIdx) : Statement (.fleD rd fs1 fs2) :=
  intro_row 150 (row 0xa2000053#32 0xfe00707f#32 fun w => .fleD (rdField w) (rs1Field w) (rs2Field w)) rfl
    (encR_fits _ _ _ _ _ (by decide) (by decide)) rfl rfl
    (fun _ => by
      simp only [row, encode, encR_rd 0xa2000053#32 _ _ _ (by decide), encR_rs1 0xa2000053#32 _ _ _ (by decide), encR_rs2 0xa2000053#32 _ _ _ (by decide)])

theorem fclassD (rd : RegIdx) (fs1 : RegIdx) : Statement (.fclassD rd fs1) :=
  intro_row 151 (row 0xe2001053#32 0xfff0707f#32 fun w => .fclassD (rdField w) (rs1Field w)) rfl
    (encR1_fits _ _ _ _ (by decide) (by decide)) rfl rfl
    (fun _ => by
      simp only [row, encode, encR1_rd 0xe2001053#32 _ _ (by decide), encR1_rs1 0xe2001053#32 _ _ (by decide)])

theorem fcvtWD (rd : RegIdx) (fs1 : RegIdx) (rm : BitVec 3) : Statement (.fcvtWD rd fs1 rm) :=
  intro_row 152 (row 0xc2000053#32 0xfff0007f#32 fun w => .fcvtWD (rdField w) (rs1Field w) (rmField w)) rfl
    (encRm1_fits _ _ _ _ _ (by decide) (by decide)) rfl rfl
    (fun _ => by
      simp only [row, encode, encRm1_rd 0xc2000053#32 _ _ _ (by decide), encRm1_rs1 0xc2000053#32 _ _ _ (by decide), encRm1_rm 0xc2000053#32 _ _ _ (by decide)])

theorem fcvtWUD (rd : RegIdx) (fs1 : RegIdx) (rm : BitVec 3) : Statement (.fcvtWUD rd fs1 rm) :=
  intro_row 153 (row 0xc2100053#32 0xfff0007f#32 fun w => .fcvtWUD (rdField w) (rs1Field w) (rmField w)) rfl
    (encRm1_fits _ _ _ _ _ (by decide) (by decide)) rfl rfl
    (fun _ => by
      simp only [row, encode, encRm1_rd 0xc2100053#32 _ _ _ (by decide), encRm1_rs1 0xc2100053#32 _ _ _ (by decide), encRm1_rm 0xc2100053#32 _ _ _ (by decide)])

theorem fcvtDW (fd : RegIdx) (rs1 : RegIdx) (rm : BitVec 3) : Statement (.fcvtDW fd rs1 rm) :=
  intro_row 154 (row 0xd2000053#32 0xfff0007f#32 fun w => .fcvtDW (rdField w) (rs1Field w) (rmField w)) rfl
    (encRm1_fits _ _ _ _ _ (by decide) (by decide)) rfl rfl
    (fun _ => by
      simp only [row, encode, encRm1_rd 0xd2000053#32 _ _ _ (by decide), encRm1_rs1 0xd2000053#32 _ _ _ (by decide), encRm1_rm 0xd2000053#32 _ _ _ (by decide)])

theorem fcvtDWU (fd : RegIdx) (rs1 : RegIdx) (rm : BitVec 3) : Statement (.fcvtDWU fd rs1 rm) :=
  intro_row 155 (row 0xd2100053#32 0xfff0007f#32 fun w => .fcvtDWU (rdField w) (rs1Field w) (rmField w)) rfl
    (encRm1_fits _ _ _ _ _ (by decide) (by decide)) rfl rfl
    (fun _ => by
      simp only [row, encode, encRm1_rd 0xd2100053#32 _ _ _ (by decide), encRm1_rs1 0xd2100053#32 _ _ _ (by decide), encRm1_rm 0xd2100053#32 _ _ _ (by decide)])

theorem fcvtLD (rd : RegIdx) (fs1 : RegIdx) (rm : BitVec 3) : Statement (.fcvtLD rd fs1 rm) :=
  intro_row 156 (row64 0xc2200053#32 0xfff0007f#32 fun w => .fcvtLD (rdField w) (rs1Field w) (rmField w)) rfl
    (encRm1_fits _ _ _ _ _ (by decide) (by decide)) rfl rfl
    (fun _ => by
      simp only [row64, encode, encRm1_rd 0xc2200053#32 _ _ _ (by decide), encRm1_rs1 0xc2200053#32 _ _ _ (by decide), encRm1_rm 0xc2200053#32 _ _ _ (by decide)])

theorem fcvtLUD (rd : RegIdx) (fs1 : RegIdx) (rm : BitVec 3) : Statement (.fcvtLUD rd fs1 rm) :=
  intro_row 157 (row64 0xc2300053#32 0xfff0007f#32 fun w => .fcvtLUD (rdField w) (rs1Field w) (rmField w)) rfl
    (encRm1_fits _ _ _ _ _ (by decide) (by decide)) rfl rfl
    (fun _ => by
      simp only [row64, encode, encRm1_rd 0xc2300053#32 _ _ _ (by decide), encRm1_rs1 0xc2300053#32 _ _ _ (by decide), encRm1_rm 0xc2300053#32 _ _ _ (by decide)])

theorem fmvXD (rd : RegIdx) (fs1 : RegIdx) : Statement (.fmvXD rd fs1) :=
  intro_row 158 (row64 0xe2000053#32 0xfff0707f#32 fun w => .fmvXD (rdField w) (rs1Field w)) rfl
    (encR1_fits _ _ _ _ (by decide) (by decide)) rfl rfl
    (fun _ => by
      simp only [row64, encode, encR1_rd 0xe2000053#32 _ _ (by decide), encR1_rs1 0xe2000053#32 _ _ (by decide)])

theorem fcvtDL (fd : RegIdx) (rs1 : RegIdx) (rm : BitVec 3) : Statement (.fcvtDL fd rs1 rm) :=
  intro_row 159 (row64 0xd2200053#32 0xfff0007f#32 fun w => .fcvtDL (rdField w) (rs1Field w) (rmField w)) rfl
    (encRm1_fits _ _ _ _ _ (by decide) (by decide)) rfl rfl
    (fun _ => by
      simp only [row64, encode, encRm1_rd 0xd2200053#32 _ _ _ (by decide), encRm1_rs1 0xd2200053#32 _ _ _ (by decide), encRm1_rm 0xd2200053#32 _ _ _ (by decide)])

theorem fcvtDLU (fd : RegIdx) (rs1 : RegIdx) (rm : BitVec 3) : Statement (.fcvtDLU fd rs1 rm) :=
  intro_row 160 (row64 0xd2300053#32 0xfff0007f#32 fun w => .fcvtDLU (rdField w) (rs1Field w) (rmField w)) rfl
    (encRm1_fits _ _ _ _ _ (by decide) (by decide)) rfl rfl
    (fun _ => by
      simp only [row64, encode, encRm1_rd 0xd2300053#32 _ _ _ (by decide), encRm1_rs1 0xd2300053#32 _ _ _ (by decide), encRm1_rm 0xd2300053#32 _ _ _ (by decide)])

theorem fmvDX (fd : RegIdx) (rs1 : RegIdx) : Statement (.fmvDX fd rs1) :=
  intro_row 161 (row64 0xf2000053#32 0xfff0707f#32 fun w => .fmvDX (rdField w) (rs1Field w)) rfl
    (encR1_fits _ _ _ _ (by decide) (by decide)) rfl rfl
    (fun _ => by
      simp only [row64, encode, encR1_rd 0xf2000053#32 _ _ (by decide), encR1_rs1 0xf2000053#32 _ _ (by decide)])

end Sys2Proof.Laws.EncodingRow
end

