-- ==== Sys2Proof/Laws/Registers.lean ====
section
/-!
SUPPORT. No general register is used implicitly (10_state.md R21): each shared operation writes no
register but the one it is given (`KeepsX`), and a register given another value from outside changes
of its answer at most that register (`BlindX`).
-/

namespace Sys2Proof.Machine

/-- Only the general register `d` may differ. -/
def KeepsX (d : Option RegIdx) (s t : State) : Prop := ∀ r, d ≠ some r → t.getX r = s.getX r

/-- The same answer but for the general register `r`. -/
def BlindX (r : RegIdx) (a b : Result) : Prop := blankX r a = blankX r b

/-- A translation with the general register `r` given the value `v`. -/
def Xlat.putX (r : RegIdx) (v : Word) : Xlat → Xlat
  | .mapped pa s => .mapped pa (s.putX r v)
  | .unmapped => .unmapped
  | .fatal => .fatal

/-- An answer with the general register `r` given the value `v`. -/
def onX (r : RegIdx) (v : Word) : Result → Result
  | .next s => .next (s.putX r v)
  | .fault e => .fault e
  | .refused e => .refused e

variable {s t : State} {r : RegIdx} {v : Word}

/-! ## A register given a value from outside -/

theorem getX_putX {q : RegIdx} (h : r ≠ q) : (s.putX r v).getX q = s.getX q := by
  have : r.toNat ≠ q.toNat := fun e => h (BitVec.eq_of_toNat_eq e)
  simp [State.getX, State.putX, this]

theorem ea_putX {q : RegIdx} (h : r ≠ q) (imm : BitVec 12) : (s.putX r v).ea q imm = s.ea q imm := by
  unfold State.ea; rw [getX_putX h]; rfl

theorem amoAddr_putX {q : RegIdx} (h : r ≠ q) : (s.putX r v).amoAddr q = s.amoAddr q := by
  unfold State.amoAddr; rw [getX_putX h]; rfl

@[simp] theorem putX_getF (q : RegIdx) : (s.putX r v).getF q = s.getF q := rfl
@[simp] theorem putX_xlen : (s.putX r v).xlen = s.xlen := rfl

@[simp] theorem putX_putX (a b : Word) : (s.putX r a).putX r b = s.putX r b := by
  simp [State.putX]

/-- The register written is blanked, or the two writes are of different registers. -/
theorem putX_setX (rd : RegIdx) (w : Word) :
    ((s.putX r v).setX rd w).putX r 0#64 = (s.setX rd w).putX r 0#64 := by
  unfold State.setX State.putX
  by_cases h : rd = 0#5
  · simp [h]
  · simp only [if_neg h]
    by_cases e : r = rd
    · subst e; simp
    · have : r.toNat ≠ rd.toNat := fun h => e (BitVec.eq_of_toNat_eq h)
      simp [Vector.set_comm (xs := s.core.x) _ _ this]

/-! ## What a shared operation writes -/

namespace KeepsX

theorem refl (d : Option RegIdx) (s : State) : KeepsX d s s := fun _ _ => rfl

theorem trans {d : Option RegIdx} {s t u : State} (h : KeepsX d s t) (h' : KeepsX d t u) :
    KeepsX d s u := fun r hr => (h' r hr).trans (h r hr)

theorem of_x {d : Option RegIdx} {s t : State} (h : t.core.x = s.core.x) : KeepsX d s t :=
  fun r _ => by simp [State.getX, h]

theorem wr (s : State) (rd : RegIdx) (w : Word) : KeepsX (some rd) s (s.wr rd w) := fun r hr =>
  (wroteX_wr s rd w).others r fun e => hr (by rw [e])

theorem next_wr {s t u : State} {rd : RegIdx} {w : Word} (h : (.next (u.wr rd w) : Result) = .next t)
    (hx : u.core.x = s.core.x) : KeepsX (some rd) s t := by
  rw [← next_inj h]; exact (of_x hx).trans (wr u rd w)

theorem next_x {d : Option RegIdx} {s t u : State} (h : (.next u : Result) = .next t)
    (hx : u.core.x = s.core.x) : KeepsX d s t := by
  rw [← next_inj h]; exact of_x hx

end KeepsX

theorem translateData_x {va pa : Word} {k : AccessKind} {u : State}
    (h : s.translateData va k = .mapped pa u) : u.core.x = s.core.x :=
  congrArg (·.core.x) (translate_frame h)

theorem vread_keepsX {d : Option RegIdx} {va : Word} {n : Nat} {k : AccessKind}
    {cont : Word → Word → State → Result} (h : s.vread va n k cont = .next t)
    (hc : ∀ pa m u, u.core.x = s.core.x → cont pa m u = .next t → KeepsX d s t) : KeepsX d s t := by
  unfold State.vread at h
  split at h
  · cases h
  · exact .next_x h rfl
  · next pa u hu => exact hc _ _ (u.recAddr va) (translateData_x (u := u) hu) h

theorem vwrite_keepsX {d : Option RegIdx} {va w : Word} {n : Nat} {cont : State → Result}
    (h : s.vwrite va n w cont = .next t)
    (hc : ∀ u, u.core.x = s.core.x → cont u = .next t → KeepsX d s t) : KeepsX d s t := by
  unfold State.vwrite at h
  split at h
  · cases h
  · exact .next_x h rfl
  · next pa u hu => exact hc (u.pwrite va pa n w) (translateData_x (u := u) hu) h

theorem csrInstr_keepsX {a : CsrAddr} {rd : RegIdx} {src : Word} {w : Bool}
    {f : (n : Nat) → BitVec n → BitVec n → BitVec n} (h : s.csrInstr a rd src w f = .next t) :
    KeepsX (some rd) s t := by
  unfold State.csrInstr at h
  split at h
  · exact .next_x h rfl
  · next c _ =>
    split at h
    · refine .next_wr h ?_
      split
      · exact (csrFrame_csrWrite s a c _).x
      · rfl
    · exact .next_x h rfl

theorem withRm_keepsX {d : Option RegIdx} {rm : BitVec 3} {k : RoundingMode → Result}
    (h : s.withRm rm k = .next t) (hk : ∀ m, k m = .next t → KeepsX d s t) : KeepsX d s t := by
  rcases withRm_cases h with ⟨m, -, h⟩ | ⟨-, h⟩
  · exact hk m h
  · exact .next_x h.symm rfl

theorem load_keepsX {rd : RegIdx} {va : Word} {n : Nat} {ext : Word → Word}
    (h : s.load rd va n ext = .next t) : KeepsX (some rd) s t :=
  vread_keepsX h fun _ _ _ hx h => .next_wr h hx

theorem loadF_keepsX {o : Option RegIdx} {fd : RegIdx} {va : Word} {n : Nat} {ext : Word → Word}
    (h : s.loadF fd va n ext = .next t) : KeepsX o s t :=
  vread_keepsX h fun _ _ _ hx h => .next_x h hx

theorem store_keepsX {o : Option RegIdx} {va d : Word} {n : Nat} (h : s.store va n d = .next t) :
    KeepsX o s t := vwrite_keepsX h fun _ hx h => .next_x h hx

theorem storeF_keepsX {o : Option RegIdx} {va d : Word} {n : Nat} (h : s.storeF va n d = .next t) :
    KeepsX o s t := vwrite_keepsX h fun _ hx h => .next_x h hx

theorem loadReserved_keepsX {rd : RegIdx} {va : Word} {n : Nat}
    (h : s.loadReserved rd va n = .next t) : KeepsX (some rd) s t := by
  unfold State.loadReserved at h
  split at h
  · exact vread_keepsX h fun _ _ _ hx h => .next_wr h hx
  · exact .next_x h rfl

theorem storeConditional_keepsX {rd : RegIdx} {va d : Word} {n : Nat}
    (h : s.storeConditional rd va n d = .next t) : KeepsX (some rd) s t := by
  unfold State.storeConditional at h
  split at h
  · split at h
    · exact vwrite_keepsX h fun _ hx h => .next_wr h hx
    · exact .next_wr h rfl
  · exact .next_x h rfl

theorem amo_keepsX {rd : RegIdx} {va src : Word} {n : Nat}
    {op : BitVec (8 * n) → BitVec (8 * n) → BitVec (8 * n)}
    (h : s.amo rd va n op src = .next t) : KeepsX (some rd) s t := by
  unfold State.amo at h
  split at h
  · exact vread_keepsX h fun _ _ _ hx h => .next_wr h hx
  · exact .next_x h rfl

theorem jump_keepsX {rd : RegIdx} {a : Word} (h : s.jump rd a = .next t) : KeepsX (some rd) s t := by
  unfold State.jump at h
  split at h
  · exact .next_x h rfl
  · rw [← next_inj h]; exact (KeepsX.wr s rd _).trans (.of_x rfl)

theorem branchIf_keepsX {b : Bool} {a : Word} {o : Option RegIdx} (h : s.branchIf b a = .next t) : KeepsX o s t := by
  unfold State.branchIf at h
  split at h
  · split at h <;> exact .next_x h rfl
  · exact .next_x h rfl

theorem xret_keepsX {p : Priv} {o : Option RegIdx} (h : s.xret p = .next t) : KeepsX o s t := by
  unfold State.xret at h
  split at h
  · cases h
  · exact .next_x h rfl

theorem sfenceVm_keepsX {o : Option RegIdx} {rs1 : RegIdx} (h : execSfenceVm rs1 s = .next t) : KeepsX o s t := by
  unfold execSfenceVm at h
  split at h <;> exact .next_x h rfl

/-! ## What a shared operation reads -/

theorem blindX_next {u w : State} (h : u.putX r 0#64 = w.putX r 0#64) : BlindX r (.next u) (.next w) :=
  congrArg Host.Outcome.next h

theorem blindX_wr {rd : RegIdx} {a b : Word} (h : a = b) :
    BlindX r (.next ((s.putX r v).wr rd a)) (.next (s.wr rd b)) := by
  subst h
  exact blindX_next (congrArg (·.recData1 (s.xlen.sext a)) (putX_setX (s := s) rd (s.xlen.sext a)))

theorem blindX_wrF {fd : RegIdx} {a b : Word} (h : a = b) :
    BlindX r (.next ((s.putX r v).wrF fd a)) (.next (s.wrF fd b)) := by
  subst h; exact blindX_next (putX_putX (s := s.wrF fd a) v 0#64)

theorem blindX_raise {c : BitVec 4} {a b : Option Word} (h : a = b) :
    BlindX r (.next ((s.putX r v).raise c a)) (.next (s.raise c b)) := by
  subst h; exact blindX_next (putX_putX (s := s.raise c a) v 0#64)

theorem blindX_setNext (n : Next) : BlindX r (.next ((s.putX r v).setNext n)) (.next (s.setNext n)) :=
  blindX_next (putX_putX (s := s.setNext n) v 0#64)

theorem blindX_self : BlindX r (.next (s.putX r v)) (.next s) := blindX_next (putX_putX v 0#64)

theorem blindX_jump {rd : RegIdx} {a b : Word} (h : a = b) :
    BlindX r ((s.putX r v).jump rd a) (s.jump rd b) := by
  subst h
  unfold State.jump
  split
  · exact blindX_raise rfl
  · exact blindX_next (congrArg (·.setNext (.branch a))
      (congrArg (·.recData1 (s.xlen.sext (s.core.pc + 4#64))) (putX_setX (s := s) rd _)))

theorem blindX_branchIf {p q : Bool} {a : Word} (h : p = q) :
    BlindX r ((s.putX r v).branchIf p a) (s.branchIf q a) := by
  subst h
  unfold State.branchIf
  split
  · split
    · exact blindX_raise rfl
    · exact blindX_setNext _
  · exact blindX_self

theorem blindX_xret (p : Priv) : BlindX r ((s.putX r v).xret p) (s.xret p) := by
  unfold State.xret
  show BlindX r (if s.core.cur.num < p.num then _ else _) (if s.core.cur.num < p.num then _ else _)
  split
  · rfl
  · exact blindX_setNext _

/-- A translation neither reads nor writes a general register (20_memory.md R140, R141). -/
theorem translate_putX (s : State) (r : RegIdx) (v va : Word) (k : AccessKind) (q : Priv) (mxr pum : Bool) :
    (s.putX r v).translate va k q mxr pum = (s.translate va k q mxr pum).putX r v := by
  have paged : ∀ f, (s.putX r v).translatePaged f va k q mxr pum
      = (s.translatePaged f va k q mxr pum).putX r v := by
    intro f
    have ht : (s.putX r v).core.tlb f = s.core.tlb f := by cases f <;> rfl
    unfold State.translatePaged
    rw [ht]
    dsimp only [State.putX]
    split
    · split
      · unfold State.hitUpdate
        split
        · rfl
        · simp only [Xlat.putX, State.putX, State.writePte, Core.setTlb]
          congr 4
      · rfl
    · split
      · rfl
      · simp only [Xlat.putX, State.putX, State.missUpdate, Core.setTlb]
        congr 4
  unfold State.translate
  rw [paged, paged]
  repeat' split
  all_goals first | rfl | contradiction

theorem translateData_putX (s : State) (r : RegIdx) (v va : Word) (k : AccessKind) :
    (s.putX r v).translateData va k = (s.translateData va k).putX r v := translate_putX ..

theorem blindX_vread {va wa : Word} {n : Nat} {k : AccessKind} {c d : Word → Word → State → Result}
    (h : va = wa) (hc : ∀ pa m u, BlindX r (c pa m (u.putX r v)) (d pa m u)) :
    BlindX r ((s.putX r v).vread va n k c) (s.vread wa n k d) := by
  subst h
  unfold State.vread
  rw [translateData_putX]
  cases s.translateData va k with
  | fatal => rfl
  | unmapped => exact blindX_raise rfl
  | mapped pa u => exact hc pa _ (u.recAddr va)

theorem blindX_vwrite {va wa a b : Word} {n : Nat} {c d : State → Result} (h : va = wa) (h' : a = b)
    (hc : ∀ u, BlindX r (c (u.putX r v)) (d u)) :
    BlindX r ((s.putX r v).vwrite va n a c) (s.vwrite wa n b d) := by
  subst h h'
  unfold State.vwrite
  rw [translateData_putX]
  cases s.translateData va .write with
  | fatal => rfl
  | unmapped => exact blindX_raise rfl
  | mapped pa u => exact hc (u.pwrite va pa n a)

theorem blindX_load {rd : RegIdx} {va wa : Word} {n : Nat} {ext : Word → Word} (h : va = wa) :
    BlindX r ((s.putX r v).load rd va n ext) (s.load rd wa n ext) :=
  blindX_vread h fun _ _ _ => blindX_wr rfl

theorem blindX_loadF {fd : RegIdx} {va wa : Word} {n : Nat} {ext : Word → Word} (h : va = wa) :
    BlindX r ((s.putX r v).loadF fd va n ext) (s.loadF fd wa n ext) :=
  blindX_vread h fun _ _ _ => blindX_wrF rfl

theorem blindX_store {va wa a b : Word} {n : Nat} (h : va = wa) (h' : a = b) :
    BlindX r ((s.putX r v).store va n a) (s.store wa n b) := by
  subst h h'
  exact blindX_vwrite rfl rfl fun u => blindX_next (putX_putX (s := u.recData1 (lowBytes n a)) v 0#64)

theorem blindX_storeF {va wa a : Word} {n : Nat} (h : va = wa) :
    BlindX r ((s.putX r v).storeF va n a) (s.storeF wa n a) := by
  subst h
  exact blindX_vwrite rfl rfl fun u => blindX_next (putX_putX (s := u.recFp (lowBytes n a)) v 0#64)

theorem blindX_loadReserved {rd : RegIdx} {va wa : Word} {n : Nat} (h : va = wa) :
    BlindX r ((s.putX r v).loadReserved rd va n) (s.loadReserved rd wa n) := by
  subst h
  unfold State.loadReserved
  split
  · exact blindX_vread rfl fun _ _ u => blindX_wr (s := u.setResv (some va)) rfl
  · exact blindX_raise rfl

theorem blindX_storeConditional {rd : RegIdx} {va wa a b : Word} {n : Nat} (h : va = wa) (h' : a = b) :
    BlindX r ((s.putX r v).storeConditional rd va n a) (s.storeConditional rd wa n b) := by
  subst h h'
  unfold State.storeConditional
  show BlindX r (if _ then if s.core.resv = some va then _ else _ else _) _
  split
  · split
    · exact blindX_vwrite rfl rfl fun u =>
        blindX_wr (s := (u.setResv none).recData2 (lowBytes n a)) rfl
    · exact blindX_wr (s := s.recAddr va) rfl
  · exact blindX_raise rfl

theorem blindX_amo {rd : RegIdx} {va wa a b : Word} {n : Nat}
    {op : BitVec (8 * n) → BitVec (8 * n) → BitVec (8 * n)} (h : va = wa) (h' : a = b) :
    BlindX r ((s.putX r v).amo rd va n op a) (s.amo rd wa n op b) := by
  subst h h'
  unfold State.amo
  split
  · exact blindX_vread rfl fun pa m u => blindX_wr
      (s := (u.pwrite va pa n ((op (m.setWidth (8 * n)) (a.setWidth (8 * n))).setWidth 64)).recData2 _) rfl
  · exact blindX_raise rfl

theorem csrRead_putX (c : Csr) : (s.putX r v).csrRead c = s.csrRead c := by cases c <;> rfl

theorem csrStore_putX (c : Csr) (w : Word) : (s.putX r v).csrStore c w = (s.csrStore c w).putX r v := by
  cases c <;> first
    | rfl
    | (simp only [State.csrStore, State.hypWrite]
       show (match s.params.hypCsrWrites with | .inert => _ | .symmetric => _) = _
       cases s.params.hypCsrWrites <;> rfl)

theorem csrWrite_putX (a : CsrAddr) (c : Csr) (w : Word) :
    (s.putX r v).csrWrite a c w = (s.csrWrite a c w).putX r v := by
  have h : (s.putX r v).csrNativeWrite c w = s.csrNativeWrite c w := by cases c <;> rfl
  unfold State.csrWrite
  rw [h, csrStore_putX]
  rfl

theorem blindX_csrInstr {a : CsrAddr} {rd : RegIdx} {x y : Word} {w : Bool}
    {f : (n : Nat) → BitVec n → BitVec n → BitVec n} (h : x = y) :
    BlindX r ((s.putX r v).csrInstr a rd x w f) (s.csrInstr a rd y w f) := by
  subst h
  unfold State.csrInstr
  cases Csr.ofAddr a with
  | none => exact blindX_raise rfl
  | some c =>
    have he : (s.putX r v).csrExists c (s.putX r v).core.cur = s.csrExists c s.core.cur := by
      cases c <;> rfl
    dsimp only
    rw [he, csrRead_putX]
    show BlindX r (if (_ && csrAccess a s.core.cur w) = true then _ else _) _
    split
    · cases w
      · exact blindX_wr rfl
      · simp only [if_true, csrWrite_putX]
        exact blindX_wr rfl
    · exact blindX_raise rfl

theorem blindX_withRm {rm : BitVec 3} {k l : RoundingMode → Result} (h : ∀ m, BlindX r (k m) (l m)) :
    BlindX r ((s.putX r v).withRm rm k) (s.withRm rm l) := by
  unfold State.withRm
  rw [show (s.putX r v).core.fcsr = s.core.fcsr from rfl]
  cases rmEff rm s.core.fcsr with
  | some m => exact h m
  | none => exact blindX_raise rfl

theorem blindX_fpResult {fd : RegIdx} {a b : Word} {fl gl : FpFlags} (h : a = b) (h' : fl = gl) :
    BlindX r ((s.putX r v).fpResult fd a fl) (s.fpResult fd b gl) := by
  subst h h'; exact blindX_wrF (s := s.accrue fl) rfl

theorem blindX_intResult {rd : RegIdx} {a : Word} {fl : FpFlags} :
    BlindX r ((s.putX r v).intResult rd a fl) (s.intResult rd a fl) :=
  blindX_wr (s := s.accrue fl) rfl

theorem blindX_sfenceVm {rs1 : RegIdx} (h : (s.putX r v).getX rs1 = s.getX rs1) :
    BlindX r (execSfenceVm rs1 (s.putX r v)) (execSfenceVm rs1 s) := by
  unfold execSfenceVm State.amoAddr
  rw [h]
  show BlindX r (if s.core.cur = .user then _ else _) (if s.core.cur = .user then _ else _)
  split
  · exact blindX_raise rfl
  · exact blindX_next (putX_putX (s := s.flushTlbs _) v 0#64)

/-! ## The stages around a meaning -/

/-- The resolution neither reads nor writes a general register (40_step_and_fetch.md R216). -/
theorem resolve_putX (s : State) (r : RegIdx) (v : Word) : (s.putX r v).resolve = onX r v s.resolve := by
  unfold State.resolve State.applyNext State.privReturn
  rw [show (s.putX r v).core.checkInterrupts = s.core.checkInterrupts from rfl,
    show (s.putX r v).core.next = s.core.next from rfl,
    show (s.putX r v).core.mstatus = s.core.mstatus from rfl]
  cases s.core.checkInterrupts with
  | some i => rfl
  | none =>
    cases s.core.next with
    | none | trap | branch => rfl
    | ret p => by_cases h : p.num < (statusPrev s.core.mstatus p).num <;> simp only [h, if_true, if_false] <;> rfl

/-- A fetch with the general register `r` given the value `v`. -/
def Fetched.putX (r : RegIdx) (v : Word) : Fetched → Fetched
  | .word w s => .word w (s.putX r v)
  | .misaligned => .misaligned
  | .unmapped => .unmapped
  | .fatal => .fatal

/-- The fetch neither reads nor writes a general register (40_step_and_fetch.md R212). -/
theorem fetch_putX (s : State) (r : RegIdx) (v : Word) : (s.putX r v).fetch = s.fetch.putX r v := by
  have ht : (s.putX r v).translatePc = s.translatePc.putX r v := translate_putX ..
  unfold State.fetch
  rw [ht]
  show (if s.core.pc.extractLsb' 0 2 = 0#2 then _ else _) = _
  split
  · cases s.translatePc <;> rfl
  · rfl

theorem fetch_x {w : BitVec 32} {u : State} (h : s.fetch = .word w u) : u.core.x = s.core.x := by
  obtain ⟨-, pa, t, ht, -, rfl⟩ := fetch_word h
  exact congrArg (·.core.x) (translate_frame ht)

end Sys2Proof.Machine
end

