-- ==== Sys2Proof/Laws/Rules.lean ====
section
/-!
SUPPORT. What each shared operation can do, said once in the shape the statements use: an
    instruction whose
meaning is that operation obeys that rule.
-/

namespace Sys2Proof.Machine

/-- JAL and JALR. -/
theorem jumpRule_of {s : State} {i : Instr} {rd : RegIdx} {target : Word}
    (h : exec i s = s.jump rd target) :
    JumpRule s i rd (s.params.arch.stored (s.core.pc.toNat + 4)) target where
  jumps ha := by
    refine ⟨_, link_eq s ▸ wroteX_wr s rd _, ?_⟩
    rw [h, State.jump, if_neg (by rw [misalignedTarget_iff]; simpa using ha)]
  misaligned ha := by
    refine completes_raised ?_
    rw [h, State.jump, if_pos (by rw [misalignedTarget_iff]; exact ha)]; rfl

/-- A conditional branch. -/
theorem branchRule_of {s : State} {i : Instr} {taken : Prop} {b : Bool} {target : Word}
    (h : exec i s = s.branchIf b target) (hb : b = true ↔ taken) : BranchRule s i taken target where
  notTaken ht := by
    have : b = false := by rw [← hb] at ht; simpa using ht
    subst this; exact h
  jumps ht ha := by
    have : b = true := hb.2 ht
    subst this; rw [h, State.branchIf, if_pos rfl, if_neg (by rw [misalignedTarget_iff]; simpa using
        ha)]
  misaligned ht ha := by
    have : b = true := hb.2 ht
    subst this; refine completes_raised ?_
    rw [h, State.branchIf, if_pos rfl, if_pos (by rw [misalignedTarget_iff]; exact ha)]; rfl

/-- A translation keeps the parameters. -/
theorem translateData_params {s u : State} {va pa : Word} {k : AccessKind} (h : s.translateData va k
    = .mapped pa u) :
    u.params = s.params := (evolves_translate h).frame.params

/-- An integer load; `ext` is the extension, `value` what the register receives. -/
theorem loadRule_of {s : State} {i : Instr} {rd : RegIdx} {va : Word} {n : Nat} {ext : Word → Word}
    {value : Nat → Word}
    (hn : n ≤ 8) (h : exec i s = s.load rd va n ext) (hv : ∀ v, s.params.arch.sext (ext
        (BitVec.ofNat 64 v)) = value v) :
    LoadRule s i rd va n value := by
  intro pa u hu
  refine ⟨_, by rw [h, State.load, State.vread, hu], ?_⟩
  have := wroteX_wr (u.recAddr va) rd (ext (u.mem.readLE pa n))
  rw [show (u.recAddr va).params = u.params from rfl, translateData_params hu, readLE_eq_ofNat _ _ _
      hn, hv] at this
  rw [readLE_eq_ofNat _ _ _ hn]
  exact this

/-- A floating-point load. -/
theorem loadFRule_of {s : State} {i : Instr} {rd : RegIdx} {va : Word} {n : Nat} {ext : Word → Word}
    {value : Nat → Word}
    (hn : n ≤ 8) (h : exec i s = s.loadF rd va n ext) (hv : ∀ v, ext (BitVec.ofNat 64 v) = value v) :
    LoadFRule s i rd va n value := by
  intro pa u hu
  refine ⟨_, by rw [h, State.loadF, State.vread, hu], ?_⟩
  have := wroteF_wrF (u.recAddr va) rd (ext (u.mem.readLE pa n))
  rw [readLE_eq_ofNat _ _ _ hn, hv] at this
  rw [readLE_eq_ofNat _ _ _ hn, hv]
  exact this

/-- An integer store. -/
theorem storeRule_of {s : State} {i : Instr} {va d : Word} {n : Nat} (hn : n ≤ 8) (h : exec i s =
    s.store va n d) :
    StoreRule s i va n d := by
  intro pa u hu
  refine ⟨_, stored_pwrite u va pa n d hn, ?_⟩
  rw [h, State.store, State.vwrite, hu, ← lowBytes_eq_low n hn]

/-- A floating-point store. -/
theorem storeFRule_of {s : State} {i : Instr} {va d : Word} {n : Nat} (hn : n ≤ 8) (h : exec i s =
    s.storeF va n d) :
    StoreFRule s i va n d := by
  intro pa u hu
  refine ⟨_, stored_pwrite u va pa n d hn, ?_⟩
  rw [h, State.storeF, State.vwrite, hu, ← lowBytes_eq_low n hn]

/-- A failed translation: each kind of access raises its code. -/
theorem raised_load {s : State} {i : Instr} {rd : RegIdx} {va : Word} {n : Nat} {ext : Word → Word}
    (h : exec i s = s.load rd va n ext) (hu : s.translateData va .read = .unmapped) :
    Completes i s fun t => Raised s t 13#4 (some va) := by
  refine completes_raised ?_; rw [h, State.load, State.vread, hu]; rfl

theorem raised_loadF {s : State} {i : Instr} {rd : RegIdx} {va : Word} {n : Nat} {ext : Word → Word}
    (h : exec i s = s.loadF rd va n ext) (hu : s.translateData va .read = .unmapped) :
    Completes i s fun t => Raised s t 13#4 (some va) := by
  refine completes_raised ?_; rw [h, State.loadF, State.vread, hu]; rfl

theorem raised_store {s : State} {i : Instr} {va d : Word} {n : Nat}
    (h : exec i s = s.store va n d) (hu : s.translateData va .write = .unmapped) :
    Completes i s fun t => Raised s t 15#4 (some va) := by
  refine completes_raised ?_; rw [h, State.store, State.vwrite, hu]

theorem raised_storeF {s : State} {i : Instr} {va d : Word} {n : Nat}
    (h : exec i s = s.storeF va n d) (hu : s.translateData va .write = .unmapped) :
    Completes i s fun t => Raised s t 15#4 (some va) := by
  refine completes_raised ?_; rw [h, State.storeF, State.vwrite, hu]

theorem raised_amo {s : State} {i : Instr} {rd : RegIdx} {va src : Word} {n : Nat} {op : BitVec (8 *
    n) → BitVec (8 * n) → BitVec (8 * n)}
    (h : exec i s = s.amo rd va n op src) (ha : va.toNat % n = 0) (hu : s.translateData va
        .readWrite = .unmapped) :
    Completes i s fun t => Raised s t 15#4 (some va) := by
  refine completes_raised ?_
  rw [h, State.amo, if_pos ((aligned_iff_emod _ _).2 ha), State.vread, hu]; rfl

/-- A translation in an unimplemented mode: each kind of access that is made stops the machine
(20_memory.md R140). -/
theorem fatal_load {s : State} {i : Instr} {rd : RegIdx} {va : Word} {n : Nat} {ext : Word → Word}
    (h : exec i s = s.load rd va n ext) (hu : s.translateData va .read = .fatal) :
    exec i s = .fault .unimplementedTranslationMode := by
  rw [h, State.load, State.vread, hu]

theorem fatal_loadF {s : State} {i : Instr} {rd : RegIdx} {va : Word} {n : Nat} {ext : Word → Word}
    (h : exec i s = s.loadF rd va n ext) (hu : s.translateData va .read = .fatal) :
    exec i s = .fault .unimplementedTranslationMode := by
  rw [h, State.loadF, State.vread, hu]

theorem fatal_store {s : State} {i : Instr} {va d : Word} {n : Nat}
    (h : exec i s = s.store va n d) (hu : s.translateData va .write = .fatal) :
    exec i s = .fault .unimplementedTranslationMode := by
  rw [h, State.store, State.vwrite, hu]

theorem fatal_storeF {s : State} {i : Instr} {va d : Word} {n : Nat}
    (h : exec i s = s.storeF va n d) (hu : s.translateData va .write = .fatal) :
    exec i s = .fault .unimplementedTranslationMode := by
  rw [h, State.storeF, State.vwrite, hu]

theorem fatal_reserved {s : State} {i : Instr} {rd : RegIdx} {va : Word} {n : Nat}
    (h : exec i s = s.loadReserved rd va n) (ha : va.toNat % n = 0)
    (hu : s.translateData va .read = .fatal) : exec i s = .fault .unimplementedTranslationMode := by
  rw [h, State.loadReserved, if_pos ((aligned_iff_emod _ _).2 ha), State.vread, hu]

theorem fatal_conditional {s : State} {i : Instr} {rd : RegIdx} {va d : Word} {n : Nat}
    (h : exec i s = s.storeConditional rd va n d) (ha : va.toNat % n = 0) (hr : s.core.resv = some va)
    (hu : s.translateData va .write = .fatal) : exec i s = .fault .unimplementedTranslationMode := by
  rw [h, State.storeConditional, if_pos ((aligned_iff_emod _ _).2 ha), if_pos hr, State.vwrite, hu]

theorem fatal_amo {s : State} {i : Instr} {rd : RegIdx} {va src : Word} {n : Nat}
    {op : BitVec (8 * n) → BitVec (8 * n) → BitVec (8 * n)}
    (h : exec i s = s.amo rd va n op src) (ha : va.toNat % n = 0)
    (hu : s.translateData va .readWrite = .fatal) :
    exec i s = .fault .unimplementedTranslationMode := by
  rw [h, State.amo, if_pos ((aligned_iff_emod _ _).2 ha), State.vread, hu]

/-- LR. -/
theorem reserveRule_of {s : State} {i : Instr} {rd : RegIdx} {va : Word} {n : Nat} (hn : n ≤ 8)
    (hx : n = 4 ∨ s.params.arch = .w64)
    (h : exec i s = s.loadReserved rd va n) : ReserveRule s i rd va n where
  reserves ha pa u hu := by
    refine ⟨_, by rw [h, State.loadReserved, if_pos ((aligned_iff_emod _ _).2 ha), State.vread, hu], ?_⟩
    have := wroteX_wr ((u.recAddr va).setResv (some va)) rd (((u.mem.readLE pa n).setWidth (8 *
        n)).signExtend 64)
    rw [show ((u.recAddr va).setResv (some va)).params = u.params from rfl, translateData_params hu,
        readLE_eq_ofNat _ _ _ hn,
      sext_atomic hn hx] at this
    rw [readLE_eq_ofNat _ _ _ hn]; exact this
  misaligned ha := by
    refine completes_raised ?_
    rw [h, State.loadReserved, if_neg (by rw [aligned_iff_emod]; exact ha)]

/-- SC. -/
theorem conditionalRule_of {s : State} {i : Instr} {rd : RegIdx} {va d : Word} {n : Nat} (hn : n ≤ 8)
    (h : exec i s = s.storeConditional rd va n d) : ConditionalRule s i rd va n d where
  stores ha hr pa u hu := by
    have hur : u.core.resv = some va := by
      have := congrArg (·.core.resv) (translate_frame hu)
      exact this.trans hr
    refine ⟨u.pwrite va pa n d, stored_pwrite u va pa n d hn, by simp [State.pwrite, hur], _,
      by rw [h, State.storeConditional, if_pos ((aligned_iff_emod _ _).2 ha), if_pos hr,
          State.vwrite, hu], ?_⟩
    have e : (u.pwrite va pa n d).setResv none = u.pwrite va pa n d := by
      simp [State.pwrite, hur, State.setResv]
    rw [e, lowBytes_eq_low n hn]
    have := wroteX_wr ((u.pwrite va pa n d).recData2 (low n d)) rd 0#64
    convert this using 1
    cases ((u.pwrite va pa n d).recData2 (low n d)).params.arch <;> rfl
  fails ha hr := by
    refine ⟨_, by rw [h, State.storeConditional, if_pos ((aligned_iff_emod _ _).2 ha), if_neg hr], ?_⟩
    have := wroteX_wr (s.recAddr va) rd 1#64
    convert this using 1
    cases (s.recAddr va).params.arch <;> rfl
  misaligned ha := by
    refine completes_raised ?_
    rw [h, State.storeConditional, if_neg (by rw [aligned_iff_emod]; exact ha)]

/-- An AMO; `f` is its operation on unsigned integers. -/
theorem amoRule_of {s : State} {i : Instr} {rd : RegIdx} {va src : Word} {n : Nat} {op : BitVec (8 *
    n) → BitVec (8 * n) → BitVec (8 * n)}
    {f : Nat → Nat → Nat} (hn : n ≤ 8) (hx : n = 4 ∨ s.params.arch = .w64)
    (h : exec i s = s.amo rd va n op src)
    (hf : ∀ a b, a < 256 ^ n → b < 256 ^ n → (op (BitVec.ofNat _ a) (BitVec.ofNat _ b)).toNat = f a
        b % 256 ^ n) :
    AmoRule s i rd va n src f where
  swaps ha pa u hu := by
    have hp : (256 : Nat) ^ n = 2 ^ (8 * n) := by rw [pow_mul]; rfl
    have hlt : u.mem.nat pa n < 256 ^ n := nat_lt _ _ _
    have hnew : (op ((u.mem.readLE pa n).setWidth (8 * n)) (src.setWidth (8 * n))).setWidth 64
        = BitVec.ofNat 64 (f (u.mem.nat pa n) (src.toNat % 256 ^ n) % 256 ^ n) := by
      rw [← hf _ _ hlt (Nat.mod_lt _ (by positivity)), readLE_eq_ofNat _ _ _ hn,
          BitVec.setWidth_ofNat_of_le (by omega)]
      apply BitVec.eq_of_toNat_eq
      rw [BitVec.toNat_setWidth, BitVec.toNat_ofNat]
      congr 3
      apply BitVec.eq_of_toNat_eq
      simp [hp]
    refine ⟨u.pwrite va pa n _, stored_pwrite u va pa n _ hn, _,
      by rw [h, State.amo, if_pos ((aligned_iff_emod _ _).2 ha), State.vread, hu], ?_⟩
    rw [hnew]
    have := wroteX_wr ((u.pwrite va pa n (BitVec.ofNat 64 (f (u.mem.nat pa n) (src.toNat % 256 ^ n)
        % 256 ^ n))).recData2
      (BitVec.ofNat 64 (f (u.mem.nat pa n) (src.toNat % 256 ^ n) % 256 ^ n))) rd (((u.mem.readLE pa
          n).setWidth (8 * n)).signExtend 64)
    rw [show ∀ a b c d e, ((u.pwrite a b c d).recData2 e).params = u.params from fun _ _ _ _ _ =>
        rfl, translateData_params hu] at this
    rw [readLE_eq_ofNat _ _ _ hn, sext_atomic hn hx] at this
    rw [readLE_eq_ofNat _ _ _ hn]; exact this
  misaligned ha := by
    refine completes_raised ?_
    rw [h, State.amo, if_neg (by rw [aligned_iff_emod]; exact ha)]

end Sys2Proof.Machine
end

