-- ==== Sys2Proof/Laws/Tlb.lean ====
section
/-!
SUPPORT. The TLB and the paged translation in the words of the rules (20_memory.md R141, R142, R144,
R146, R149): which slot answers, which slot an insertion takes, what an updated entry and a leaf's
masks are, and the answer on a hit and on a miss.
-/

namespace Sys2Proof.Machine

/-! ## Which slot answers (R142) -/

theorem hit_iff {f : VmFormat} (e : TlbEntry f) (id : BitVec f.asidBits) (va : Word) :
    e.hit id va = true ↔ (e.global = true ∨ e.asid = id) ∧ va &&& e.vmatch = e.vtag := by
  simp [TlbEntry.hit]

/-- The head of a TLB answers as the entry it holds does, the slots behind it as those of the rest. -/
theorem answers_zero {f : VmFormat} {slot : Option (TlbEntry f)} {rest : Tlb f}
    {id : BitVec f.asidBits} {va : Word} {e : TlbEntry f} :
    Answers (slot :: rest) id va 0 e ↔ slot = some e ∧ e.hit id va = true := by
  rw [hit_iff]; simp [Answers]

theorem answers_succ {f : VmFormat} {slot : Option (TlbEntry f)} {rest : Tlb f}
    {id : BitVec f.asidBits} {va : Word} {j : Nat} {e : TlbEntry f} :
    Answers (slot :: rest) id va (j + 1) e ↔ Answers rest id va j e := by
  simp [Answers]

/-- The lookup finds the lowest-numbered slot that answers. -/
theorem lookup_of_answers {f : VmFormat} {t : Tlb f} {id : BitVec f.asidBits} {va : Word} {k : Nat}
    {e : TlbEntry f} (h : Answers t id va k e) (hlow : ∀ j e', j < k → ¬Answers t id va j e') :
    t.lookup id va = some (k, e) := by
  induction t generalizing k with
  | nil => simp [Answers] at h
  | cons slot rest ih =>
    cases k with
    | zero =>
      obtain ⟨rfl, hh⟩ := answers_zero.1 h
      simp [Tlb.lookup, hh]
    | succ k =>
      have hr := ih (answers_succ.1 h) fun j e' hj ha => hlow (j + 1) e' (by omega) (answers_succ.2 ha)
      cases slot with
      | none => simp [Tlb.lookup, hr]
      | some e0 =>
        have h0 : ¬e0.hit id va = true := fun hh => hlow 0 e0 (by omega) (answers_zero.2 ⟨rfl, hh⟩)
        simp [Tlb.lookup, h0, hr]

/-- Where no slot answers the lookup finds none. -/
theorem lookup_of_no_answer {f : VmFormat} {t : Tlb f} {id : BitVec f.asidBits} {va : Word}
    (h : ∀ j e, ¬Answers t id va j e) : t.lookup id va = none := by
  cases hl : t.lookup id va with
  | none => rfl
  | some r =>
    obtain ⟨hs, hh⟩ := lookup_some hl
    exact absurd ⟨hs, (hit_iff _ _ _).1 hh⟩ (h r.1 r.2)

/-! ## Which slot an insertion takes (R149) -/

theorem firstEmpty_some {f : VmFormat} {t : Tlb f} {k : Nat} (h : t.firstEmpty = some k) :
    t[k]? = some none ∧ ∀ i, i < k → t[i]? ≠ some none := by
  induction t generalizing k with
  | nil => simp [Tlb.firstEmpty] at h
  | cons slot rest ih =>
    cases slot with
    | none =>
      simp only [Tlb.firstEmpty, Option.some.injEq] at h
      subst h
      exact ⟨rfl, fun i hi => by omega⟩
    | some e =>
      simp only [Tlb.firstEmpty, Option.map_eq_some_iff] at h
      obtain ⟨k', h1, rfl⟩ := h
      obtain ⟨h2, h3⟩ := ih h1
      refine ⟨by simpa using h2, fun i hi => ?_⟩
      cases i with
      | zero => simp
      | succ i => simpa using h3 i (by omega)

theorem firstEmpty_none {f : VmFormat} {t : Tlb f} (h : t.firstEmpty = none) (i : Nat) :
    t[i]? ≠ some none := by
  induction t generalizing i with
  | nil => simp
  | cons slot rest ih =>
    cases slot with
    | none => simp [Tlb.firstEmpty] at h
    | some e =>
      simp only [Tlb.firstEmpty, Option.map_eq_none_iff] at h
      cases i with
      | zero => simp
      | succ i => simpa using ih h i

/-- A TLB without an oldest slot holds no entry. -/
theorem oldest_none {f : VmFormat} {t : Tlb f} (h : t.oldest = none) (i : Nat) (e : TlbEntry f) :
    t[i]? ≠ some (some e) := by
  induction t generalizing i with
  | nil => simp
  | cons slot rest ih =>
    cases slot with
    | none =>
      simp only [Tlb.oldest, Option.map_eq_none_iff] at h
      cases i with
      | zero => simp
      | succ i => simpa using ih h i
    | some e0 =>
      simp only [Tlb.oldest] at h
      split at h
      · cases h
      · split at h <;> cases h

/-- No slot is older than the one `oldest` names, and none before it is as old. -/
theorem oldest_some {f : VmFormat} {t : Tlb f} {k : Nat} {a : Word} (h : t.oldest = some (k, a)) :
    ∃ e, t[k]? = some (some e) ∧ e.age = a ∧
      ∀ (i : Nat) (e' : TlbEntry f), t[i]? = some (some e') →
        e.age.toNat ≤ e'.age.toNat ∧ (i < k → e.age.toNat < e'.age.toNat) := by
  induction t generalizing k a with
  | nil => simp [Tlb.oldest] at h
  | cons slot rest ih =>
    cases slot with
    | none =>
      simp only [Tlb.oldest, Option.map_eq_some_iff] at h
      obtain ⟨⟨k', a'⟩, h1, h2⟩ := h
      injection h2 with hk ha
      subst hk; subst ha
      obtain ⟨e, he, hage, hmin⟩ := ih h1
      refine ⟨e, by simpa using he, hage, fun i e' hi => ?_⟩
      cases i with
      | zero => simp at hi
      | succ i =>
        have := hmin i e' (by simpa using hi)
        exact ⟨this.1, fun hlt => this.2 (by simp only at hlt; omega)⟩
    | some e0 =>
      simp only [Tlb.oldest] at h
      cases hr : Tlb.oldest rest with
      | none =>
        rw [hr] at h
        injection h with h; injection h with hk ha
        subst hk; subst ha
        refine ⟨e0, rfl, rfl, fun i e' hi => ?_⟩
        cases i with
        | zero =>
          have : e0 = e' := by simpa using hi
          subst this; exact ⟨Nat.le_refl _, fun hlt => by omega⟩
        | succ i => exact absurd (by simpa using hi) (oldest_none hr i e')
      | some r =>
        obtain ⟨k', a'⟩ := r
        obtain ⟨e, he, hage, hmin⟩ := ih hr
        rw [hr] at h
        simp only at h
        subst hage
        split at h
        · next hlt =>
          injection h with h; injection h with hk ha
          subst hk; subst ha
          refine ⟨e, by simpa using he, rfl, fun i e' hi => ?_⟩
          cases i with
          | zero =>
            have : e0 = e' := by simpa using hi
            subst this
            exact ⟨Nat.le_of_lt hlt, fun _ => hlt⟩
          | succ i =>
            have := hmin i e' (by simpa using hi)
            exact ⟨this.1, fun hl => this.2 (by omega)⟩
        · next hge =>
          have hge : e0.age.toNat ≤ e.age.toNat := by
            simpa only [BitVec.lt_def, Nat.not_lt] using hge
          injection h with h; injection h with hk ha
          subst hk; subst ha
          refine ⟨e0, rfl, rfl, fun i e' hi => ⟨?_, fun hlt => by omega⟩⟩
          cases i with
          | zero =>
            have : e0 = e' := by simpa using hi
            subst this; exact Nat.le_refl _
          | succ i => exact Nat.le_trans hge (hmin i e' (by simpa using hi)).1

/-- An insertion takes the slot R149 names. -/
theorem evicts_victim {f : VmFormat} {t : Tlb f} (h : 0 < t.length) : Evicts t t.victim := by
  unfold Tlb.victim
  split
  · next k hk => exact .inl (firstEmpty_some hk)
  · next hn =>
    split
    · next k a hk =>
      obtain ⟨e, he, -, hmin⟩ := oldest_some hk
      exact .inr ⟨firstEmpty_none hn, e, he, hmin⟩
    · next ho =>
      cases t with
      | nil => simp at h
      | cons slot rest =>
        cases slot with
        | none => simp [Tlb.firstEmpty] at hn
        | some e => exact absurd rfl (oldest_none ho 0 e)

/-! ## Updated entries and the masks of a leaf (R144, R146) -/

theorem adSet_adUpdate {n : Nat} (k : AccessKind) (p : BitVec n) : AdSet k p (adUpdate p k) := by
  intro j hj
  rw [getLsbD_adUpdate p k j hj]
  by_cases h6 : j = 6
  · simp [h6]
  · by_cases h7 : j = 7
    · cases k <;> simp [h7]
    · simp [h6, h7]

theorem leafMasks_eq (f : VmFormat) {i : Nat} (h : i ≤ f.rootLevel) :
    leafMasks f i = (f.vmatch i, f.voff i) := by
  cases f with
  | sv32 =>
    have : i = 0 ∨ i = 1 := by simp only [VmFormat.rootLevel] at h; omega
    rcases this with rfl | rfl <;> decide
  | sv39 =>
    have : i = 0 ∨ i = 1 ∨ i = 2 := by simp only [VmFormat.rootLevel] at h; omega
    rcases this with rfl | rfl | rfl <;> decide

/-- The page of a leaf is its physical address with the offset bits cleared. -/
theorem phys_and_not_voff (f : VmFormat) (i : Nat) {n : Nat} (p : BitVec n) (va : Word) :
    f.phys i p va &&& ~~~(f.voff i) = f.pbase i p := by
  unfold VmFormat.phys VmFormat.pbase
  apply BitVec.eq_of_getLsbD_eq
  intro j hj
  simp only [BitVec.getLsbD_and, BitVec.getLsbD_or, BitVec.getLsbD_not, hj, decide_true, Bool.true_and]
  cases (f.voff i).getLsbD j <;> simp

/-! ## What a translation writes -/

@[simp] theorem tlb_setTlb (c : Core) (f : VmFormat) (t : Tlb f) : (c.setTlb f t).tlb f = t := by
  cases f <;> rfl

theorem tlb_setTlb_ne (c : Core) {f f' : VmFormat} (t : Tlb f) (h : f' ≠ f) :
    (c.setTlb f t).tlb f' = c.tlb f' := by
  cases f <;> cases f' <;> first | rfl | exact absurd rfl h

/-- The bytes of a written value, and every other byte (R123). -/
theorem storedAt_of_writeLE {s t : State} {pa : Word} {n : Nat} {v : Word} (hn : n ≤ 8)
    (h : t.mem = s.mem.writeLE pa n v) : StoredAt s t pa n v :=
  ⟨fun k hk => by rw [h]; exact read_writeLE_at n k s.mem pa v hk (by omega),
    fun a ha => by rw [h]; exact read_writeLE_of_ne _ _ _ _ ha⟩

theorem pteBytes_le (f : VmFormat) : f.pteBytes ≤ 8 := by cases f <;> decide

theorem xlatFrame_hitUpdate (s : State) (f : VmFormat) (k : Nat) (e : TlbEntry f)
    (p : BitVec f.pteBits) : XlatFrame f s (s.hitUpdate f k e p) := by
  unfold State.hitUpdate
  split
  · exact ⟨rfl, fun _ _ => rfl⟩
  · exact ⟨rfl, fun _ h => tlb_setTlb_ne _ _ h⟩

theorem xlatFrame_missUpdate (s : State) (f : VmFormat) (id : BitVec f.asidBits) (l : Leaf f)
    (p : BitVec f.pteBits) (va : Word) : XlatFrame f s (s.missUpdate f id l p va) :=
  ⟨rfl, fun _ h => tlb_setTlb_ne _ _ h⟩

/-! ## The answer (R141) -/

/-- On a hit the entry's permissions decide; there is no walk. -/
theorem translatePaged_hit {s : State} {f : VmFormat} {va : Word} {k : AccessKind} {q : Priv}
    {mxr pum : Bool} {slot : Nat} {e : TlbEntry f}
    (h : (s.core.tlb f).lookup (f.asidOf s.core.sptbr) va = some (slot, e)) :
    s.translatePaged f va k q mxr pum =
      if permOk e.pte k q mxr pum then
        .mapped (e.pbase ||| (va &&& e.voff)) (s.hitUpdate f slot e (adUpdate e.pte k))
      else .unmapped := by
  unfold State.translatePaged
  simp only [h]

/-- On a miss the walk decides. -/
theorem translatePaged_miss {s : State} {f : VmFormat} {va : Word} {k : AccessKind} {q : Priv}
    {mxr pum : Bool} (h : (s.core.tlb f).lookup (f.asidOf s.core.sptbr) va = none) :
    s.translatePaged f va k q mxr pum =
      match walk f s.mem s.core.sptbr va k q mxr pum with
      | none => .unmapped
      | some l => .mapped (f.phys l.level (adUpdate l.pte k) va)
        (s.missUpdate f (f.asidOf s.core.sptbr) l (adUpdate l.pte k) va) := by
  unfold State.translatePaged
  cases walk f s.mem s.core.sptbr va k q mxr pum <;> simp only [h]

end Sys2Proof.Machine
end

