-- ==== Sys2Proof/Laws/Walk.lean ====
section
/-!
SUPPORT. The walk of the 3-level format, level by level, in numbers (20_memory.md R134 to R138,
    R145, R146).
-/

namespace Sys2Proof.Machine

theorem ppnBase_eq (p : BitVec 64) : VmFormat.ppnBase .sv39 p = BitVec.ofNat 64 (p.toNat / 2 ^ 10 %
    2 ^ 38 * 4096) := by
  apply BitVec.eq_of_toNat_eq
  simp only [VmFormat.ppnBase, VmFormat.ppnBits, BitVec.toNat_shiftLeft, and_lowMask_toNat 38 (by
      omega), BitVec.setWidth_eq, BitVec.toNat_ushiftRight, BitVec.toNat_ofNat,
          Nat.shiftRight_eq_div_pow, Nat.shiftLeft_eq]

theorem root_eq (p : BitVec 64) : VmFormat.root .sv39 p = BitVec.ofNat 64 (p.toNat % 2 ^ 38 * 4096)
    := by
  apply BitVec.eq_of_toNat_eq
  simp only [VmFormat.root, VmFormat.ppnBits, BitVec.toNat_shiftLeft, and_lowMask_toNat 38 (by
      omega), BitVec.toNat_ofNat, Nat.shiftLeft_eq]

theorem vpn_eq (va : Word) (i : Nat) : VmFormat.vpn .sv39 va i * 8#64 = BitVec.ofNat 64 (va.toNat /
    2 ^ (12 + i * 9) % 512 * 8) := by
  apply BitVec.eq_of_toNat_eq
  simp only [VmFormat.vpn, VmFormat.indexBits, VmFormat.pageShift, BitVec.toNat_mul,
      and_lowMask_toNat 9 (by omega), BitVec.toNat_ofNat,
          BitVec.toNat_ushiftRight,Nat.shiftRight_eq_div_pow]
  omega

theorem walkFrom_succ (m : Memory) (va a : Word) (k q mxr pum i g) (p : BitVec 64) (hp :
    BitVec.ofNat 64 (m.nat (a + BitVec.ofNat 64 (va.toNat / 2 ^ (12 + (i+1) * 9) % 512 * 8)) 8) = p) :
  walkFrom .sv39 m va k q mxr pum (i+1) a g = if pteInvalid p then none else if ptePointer p then
      walkFrom .sv39 m va k q mxr pum i (BitVec.ofNat 64 (p.toNat / 2 ^ 10 % 2 ^ 38 * 4096)) (g ||
          p.getLsbD 5)
    else if permOk p k q mxr pum then some ⟨i+1, p, a + BitVec.ofNat 64 (va.toNat / 2 ^ (12 + (i+1)
        * 9) % 512 * 8), g || p.getLsbD 5⟩ else none := by
  have E : ∀ a, ((m.readLE a 8).setWidth 64 : BitVec 64) = BitVec.ofNat 64 (m.nat a 8) := fun a => by
    rw [readLE_eq_ofNat m 8 a (by omega)]; simp
  subst hp
  rw [walkFrom]
  simp only [VmFormat.pteBytes, vpn_eq, VmFormat.pteBits, E, ppnBase_eq, pteG]

theorem walkFrom_zero (m : Memory) (va a : Word) (k q mxr pum g) (p : BitVec 64) (hp : BitVec.ofNat
    64 (m.nat (a + BitVec.ofNat 64 (va.toNat / 2 ^ (12 + (0) * 9) % 512 * 8)) 8) = p) :
  walkFrom .sv39 m va k q mxr pum (0) a g = if pteInvalid p then none else if ptePointer p then none
    else if permOk p k q mxr pum then some ⟨0, p, a + BitVec.ofNat 64 (va.toNat / 2 ^ (12 + (0) * 9)
        % 512 * 8), g || p.getLsbD 5⟩ else none := by
  have E : ∀ a, ((m.readLE a 8).setWidth 64 : BitVec 64) = BitVec.ofNat 64 (m.nat a 8) := fun a => by
    rw [readLE_eq_ofNat m 8 a (by omega)]; simp
  subst hp
  rw [walkFrom]
  simp only [VmFormat.pteBytes, vpn_eq, VmFormat.pteBits, E, pteG]

theorem toNat_or_of_low (a b : Word) (n c d x : Nat) (ha : a.toNat = c) (hb : b.toNat = d) (hd : d <
    2^n) (hc : c = x * 2^n) : (a ||| b).toNat = c + d := by
  rw [BitVec.toNat_or, ha, hb, hc, Nat.mul_comm, Nat.two_pow_add_eq_or_of_lt hd]

/-- The physical address of a leaf of the 3-level format. -/
theorem phys_toNat (i : Nat) (hi : i < 3) (p : BitVec 64) (va : Word) : (VmFormat.phys .sv39 i p
    va).toNat = p.toNat / 2^(10+9*i) % 2^(38-9*i) * 2^(12+9*i) + va.toNat % 2^(12+9*i) := by
  unfold VmFormat.phys
  refine toNat_or_of_low _ _ (12+9*i) _ _ (p.toNat / 2^(10+9*i) % 2^(38-9*i)) ?_ ?_ (Nat.mod_lt _
      (Nat.two_pow_pos _)) rfl
  · apply Nat.eq_of_testBit_eq
    intro j
    rw [Nat.testBit_mul_two_pow, Nat.testBit_mod_two_pow, Nat.testBit_div_two_pow]
    by_cases hj : j < 64
    · show (VmFormat.pbase _ _ _).getLsbD j = _
      simp only [VmFormat.pbase, VmFormat.voff, VmFormat.ppnBase, BitVec.getLsbD_and,
          BitVec.getLsbD_not, BitVec.getLsbD_shiftLeft, getLsbD_lowMask 38 _ (by decide),
              VmFormat.pageShift, VmFormat.indexBits, getLsbD_lowMask _ _ (show 12 + i*9 < 64 by
                  omega), BitVec.getLsbD_ushiftRight, VmFormat.ppnBits, BitVec.setWidth_eq, hj]
      rcases Nat.lt_or_ge j (12+9*i) with h | h
      · have : j < 12 + i * 9 := by omega
        simp [this, show ¬ (12+9*i ≤ j) by omega]
      · have : ¬ j < 12 + i * 9 := by omega
        have h2 : ¬ j < 12 := by omega
        have h3 : j - (12+9*i) + (10+9*i) = 10 + (j-12) := by omega
        have h4 : (j - (12+9*i) < 38 - 9*i) ↔ j - 12 < 38 := by omega
        rw [h3]; simp [this, h2, h4, show 12 + 9 * i ≤ j from h, BitVec.getLsbD, Bool.and_comm]
    · have h1 := BitVec.getLsbD_of_ge (VmFormat.pbase .sv39 i p) j (by omega)
      rw [show ((VmFormat.pbase .sv39 i p).toNat).testBit j = false from h1]
      have : ¬ (j - (12+9*i) < 38 - 9*i) := by omega
      simp [this]
  · rw [VmFormat.voff, and_lowMask_toNat _ (by simp [VmFormat.pageShift, VmFormat.indexBits]; omega)]
    simp [VmFormat.pageShift, VmFormat.indexBits, Nat.mul_comm]

end Sys2Proof.Machine
end

