-- ==== Sys2Proof/Tests/Slice0.lean ====
section
/-!
SUPPORT. Tests: ill-formed terms, words of every constructor, one-step runs, and for every statement
with hypotheses a state and operands that meet them.

The words and the expected results are those the spec gives: the examples of each rule and the
vectors of 95_test_vectors.md, which is named where a test follows it.
-/

namespace Sys2Proof.Tests

-- The kernel evaluates each test; side by side they would hold too much memory at once.
set_option Elab.async false

open Sys2Proof Sys2Proof.Machine

/-! ## Small states -/

/-- After reset with `pc = 0x1000`, as the vectors of 95_test_vectors.md part 2 start. -/
def start : State := { State.reset with core := { State.reset.core with pc := 0x1000#64 } }

/-- The same at width 32. -/
def start32 : State :=
  let s := State.resetOf { Params.default with arch := .w32 }
  { s with core := { s.core with pc := 0x1000#64 } }

/-- General registers set from outside. -/
def withX (s : State) (l : List (RegIdx × Word)) : State := l.foldl (fun t p => t.setX p.1 p.2) s

/-- Bytes of memory set from outside. -/
def withBytes (s : State) (a : Word) (n : Nat) (v : Word) : State :=
  { s with mem := s.mem.writeLE a n v }

/-- The current core changed from outside. -/
def withCore (s : State) (f : Core → Core) : State := { s with core := f s.core }

/-- One step on the instruction word `w` completes and leaves a state of which `p` holds. -/
def runs (w : BitVec 32) (s : State) (p : State → Bool) : Bool :=
  match step (s.withFetchWord 32 w.toNat) with
  | .next t => p t
  | .fault _ => false
  | .refused _ => false

/-- One step on the instruction word `w` ends in the fault `r`. -/
def stops (w : BitVec 32) (s : State) (r : Fault) : Bool :=
  match step (s.withFetchWord 32 w.toNat) with
  | .next _ => false
  | .fault q => q == r
  | .refused _ => false

/-- A step is refused for the reason `r`. -/
def refuses (s : State) (r : Refusal) : Bool :=
  match step s with
  | .next _ => false
  | .fault _ => false
  | .refused q => q == r

/-- The step retired at `pc + 4` and `x[r] = v`. -/
def wrote (r : RegIdx) (v : Word) (t : State) : Bool :=
  t.getX r == v && t.core.delta.data1 == some v && t.core.pc == 0x1004#64 && t.core.instret == 1#64

/-- A row of a table of register instructions: on `x2 = a`, `x3 = b` the word writes `v` to `x1`. -/
def rowsOf (s : State) (l : List (BitVec 32 × Word × Word × Word)) : Bool :=
  l.all fun p => runs p.1 (withX s [(2#5, p.2.1), (3#5, p.2.2.1)]) (wrote 1#5 p.2.2.2)

/-- The same for words that read `x1`, `x2` and write `x3`. -/
def rowsOf3 (s : State) (l : List (BitVec 32 × Word × Word × Word)) : Bool :=
  l.all fun p => runs p.1 (withX s [(1#5, p.2.1), (2#5, p.2.2.1)]) (wrote 3#5 p.2.2.2)

/-- Every word of the list decodes, at width 64, to the instruction beside it. -/
def decodesTo (l : List (BitVec 32 × Instr)) : Bool :=
  l.all fun p => match decode .w64 p.1 with
    | .ok i => i == p.2
    | .error _ => false

/-- Every word of the list is rejected at width `x`. -/
def rejects (x : Xlen) (l : List (BitVec 32)) : Bool :=
  l.all fun w => match decode x w with
    | .ok _ => false
    | .error _ => true

/-! ## Well-formedness: an ill-formed term for each check -/

theorem test_wf_odd_branch_offset : (Instr.beq 1#5 2#5 3#13).wf .w64 = false := by decide
theorem test_wf_odd_jump_offset : (Instr.jal 1#5 5#21).wf .w64 = false := by decide
theorem test_wf_rv64_only : (Instr.addw 1#5 2#5 3#5).wf .w32 = false := by decide
theorem test_wf_shift_bit5 : (Instr.slli 1#5 2#5 32#6).wf .w32 = false := by decide
theorem test_wf_accepts : (Instr.slli 1#5 2#5 31#6).wf .w32 = true ∧ (Instr.slli 1#5 2#5 63#6).wf .w64 = true ∧
    (Instr.beq 1#5 2#5 0x1000#13).wf .w32 = true := by decide

/-! ## Decoding: a word of every constructor, from the examples of the rules -/

theorem test_decode_immediate : decodesTo [
    (0x800002B7#32, .lui 5#5 0x80000#20),
    (0x00001317#32, .auipc 6#5 1#20),
    (0xFFF08113#32, .addi 2#5 1#5 0xFFF#12),
    (0xFFF0A193#32, .slti 3#5 1#5 0xFFF#12),
    (0xFFF0B193#32, .sltiu 3#5 1#5 0xFFF#12),
    (0xFFF0C213#32, .xori 4#5 1#5 0xFFF#12),
    (0x0F00E213#32, .ori 4#5 1#5 0x0F0#12),
    (0x0FF0F213#32, .andi 4#5 1#5 0x0FF#12),
    (0x03F09293#32, .slli 5#5 1#5 63#6),
    (0x0040D293#32, .srli 5#5 1#5 4#6),
    (0x43F0D293#32, .srai 5#5 1#5 63#6)] = true := by decide +kernel

theorem test_decode_register : decodesTo [
    (0x002081B3#32, .add 3#5 1#5 2#5),
    (0x402081B3#32, .sub 3#5 1#5 2#5),
    (0x002091B3#32, .sll 3#5 1#5 2#5),
    (0x0020A1B3#32, .slt 3#5 1#5 2#5),
    (0x0020B1B3#32, .sltu 3#5 1#5 2#5),
    (0x0020C1B3#32, .xor 3#5 1#5 2#5),
    (0x0020D1B3#32, .srl 3#5 1#5 2#5),
    (0x4020D1B3#32, .sra 3#5 1#5 2#5),
    (0x0020E1B3#32, .or 3#5 1#5 2#5),
    (0x0020F1B3#32, .and 3#5 1#5 2#5),
    (0x002031B3#32, .sltu 3#5 0#5 2#5)] = true := by decide +kernel

theorem test_decode_word : decodesTo [
    (0x0010819B#32, .addiw 3#5 1#5 1#12),
    (0x01F0919B#32, .slliw 3#5 1#5 31#5),
    (0x0010D19B#32, .srliw 3#5 1#5 1#5),
    (0x4010D19B#32, .sraiw 3#5 1#5 1#5),
    (0x002081BB#32, .addw 3#5 1#5 2#5),
    (0x402081BB#32, .subw 3#5 1#5 2#5),
    (0x002091BB#32, .sllw 3#5 1#5 2#5),
    (0x0020D1BB#32, .srlw 3#5 1#5 2#5),
    (0x4020D1BB#32, .sraw 3#5 1#5 2#5)] = true := by decide +kernel

theorem test_decode_control : decodesTo [
    (0xFF9FF06F#32, .jal 0#5 0x1FFFF8#21),
    (0x010000EF#32, .jal 1#5 16#21),
    (0x800FF0EF#32, .jal 1#5 0x1FF000#21),
    (0x004280E7#32, .jalr 1#5 5#5 4#12),
    (0x00208463#32, .beq 1#5 2#5 8#13),
    (0xFE209EE3#32, .bne 1#5 2#5 0x1FFC#13),
    (0x0020C463#32, .blt 1#5 2#5 8#13),
    (0x0020D463#32, .bge 1#5 2#5 8#13),
    (0x0020E463#32, .bltu 1#5 2#5 8#13),
    (0x7E20FFE3#32, .bgeu 1#5 2#5 4094#13)] = true := by decide +kernel

theorem test_decode_memory : decodesTo [
    (0xFFF30283#32, .lb 5#5 6#5 0xFFF#12),
    (0x00231283#32, .lh 5#5 6#5 2#12),
    (0x00132283#32, .lw 5#5 6#5 1#12),
    (0x00034283#32, .lbu 5#5 6#5 0#12),
    (0x00035283#32, .lhu 5#5 6#5 0#12),
    (0x00036283#32, .lwu 5#5 6#5 0#12),
    (0x00833283#32, .ld 5#5 6#5 8#12),
    (0x00530023#32, .sb 6#5 5#5 0#12),
    (0x00531123#32, .sh 6#5 5#5 2#12),
    (0xFE532E23#32, .sw 6#5 5#5 0xFFC#12),
    (0x00533423#32, .sd 6#5 5#5 8#12),
    (0x0FF0000F#32, .fence),
    (0x8330000F#32, .fence),
    (0x0000100F#32, .fenceI)] = true := by decide +kernel

theorem test_decode_muldiv : decodesTo [
    (0x022081B3#32, .mul 3#5 1#5 2#5),
    (0x022091B3#32, .mulh 3#5 1#5 2#5),
    (0x0220A1B3#32, .mulhsu 3#5 1#5 2#5),
    (0x0220B1B3#32, .mulhu 3#5 1#5 2#5),
    (0x0220C1B3#32, .div 3#5 1#5 2#5),
    (0x0220D1B3#32, .divu 3#5 1#5 2#5),
    (0x0220E1B3#32, .rem 3#5 1#5 2#5),
    (0x0220F1B3#32, .remu 3#5 1#5 2#5),
    (0x022081BB#32, .mulw 3#5 1#5 2#5),
    (0x0220C1BB#32, .divw 3#5 1#5 2#5),
    (0x0220D1BB#32, .divuw 3#5 1#5 2#5),
    (0x0220E1BB#32, .remw 3#5 1#5 2#5),
    (0x0220F1BB#32, .remuw 3#5 1#5 2#5)] = true := by decide +kernel

theorem test_decode_atomic : decodesTo [
    (0x100322AF#32, .lrW 5#5 6#5),
    (0x100332AF#32, .lrD 5#5 6#5),
    (0x188323AF#32, .scW 7#5 6#5 8#5),
    (0x188333AF#32, .scD 7#5 6#5 8#5),
    (0x067322AF#32, .amoaddW 5#5 6#5 7#5),
    (0x087322AF#32, .amoswapW 5#5 6#5 7#5),
    (0x007322AF#32, .amoaddW 5#5 6#5 7#5),
    (0x207322AF#32, .amoxorW 5#5 6#5 7#5),
    (0x607322AF#32, .amoandW 5#5 6#5 7#5),
    (0x407322AF#32, .amoorW 5#5 6#5 7#5),
    (0x807322AF#32, .amominW 5#5 6#5 7#5),
    (0xA07322AF#32, .amomaxW 5#5 6#5 7#5),
    (0xC07322AF#32, .amominuW 5#5 6#5 7#5),
    (0xE07322AF#32, .amomaxuW 5#5 6#5 7#5),
    (0x087332AF#32, .amoswapD 5#5 6#5 7#5),
    (0x007332AF#32, .amoaddD 5#5 6#5 7#5),
    (0x207332AF#32, .amoxorD 5#5 6#5 7#5),
    (0x607332AF#32, .amoandD 5#5 6#5 7#5),
    (0x407332AF#32, .amoorD 5#5 6#5 7#5),
    (0x807332AF#32, .amominD 5#5 6#5 7#5),
    (0xA07332AF#32, .amomaxD 5#5 6#5 7#5),
    (0xC07332AF#32, .amominuD 5#5 6#5 7#5),
    (0xE07332AF#32, .amomaxuD 5#5 6#5 7#5)] = true := by decide +kernel

theorem test_decode_system : decodesTo [
    (0x340312F3#32, .csrrw 5#5 0x340#12 6#5),
    (0x30432073#32, .csrrs 0#5 0x304#12 6#5),
    (0x300332F3#32, .csrrc 5#5 0x300#12 6#5),
    (0x0021D2F3#32, .csrrwi 5#5 0x002#12 3#5),
    (0xF14062F3#32, .csrrsi 5#5 0xF14#12 0#5),
    (0x30047073#32, .csrrci 0#5 0x300#12 8#5),
    (0x00000073#32, .ecall),
    (0x00100073#32, .ebreak),
    (0x00200073#32, .uret),
    (0x10200073#32, .sret),
    (0x20200073#32, .hret),
    (0x30200073#32, .mret),
    (0x10500073#32, .wfi),
    (0x10438073#32, .sfenceVm 7#5),
    (0x104F8073#32, .sfenceVm 31#5)] = true := by decide +kernel

theorem test_decode_float_single : decodesTo [
    (0x00832087#32, .flw 1#5 6#5 8#12),
    (0x00132427#32, .fsw 6#5 1#5 8#12),
    (0x1820F243#32, .fmaddS 4#5 1#5 2#5 3#5 7#3),
    (0x1820F247#32, .fmsubS 4#5 1#5 2#5 3#5 7#3),
    (0x1820F24B#32, .fnmsubS 4#5 1#5 2#5 3#5 7#3),
    (0x1820F24F#32, .fnmaddS 4#5 1#5 2#5 3#5 7#3),
    (0x0020F1D3#32, .faddS 3#5 1#5 2#5 7#3),
    (0x0820F1D3#32, .fsubS 3#5 1#5 2#5 7#3),
    (0x1020F1D3#32, .fmulS 3#5 1#5 2#5 7#3),
    (0x1820F1D3#32, .fdivS 3#5 1#5 2#5 7#3),
    (0x5800F1D3#32, .fsqrtS 3#5 1#5 7#3),
    (0x202081D3#32, .fsgnjS 3#5 1#5 2#5),
    (0x202091D3#32, .fsgnjnS 3#5 1#5 2#5),
    (0x2020A1D3#32, .fsgnjxS 3#5 1#5 2#5),
    (0x282081D3#32, .fminS 3#5 1#5 2#5),
    (0x282091D3#32, .fmaxS 3#5 1#5 2#5),
    (0xA020A2D3#32, .feqS 5#5 1#5 2#5),
    (0xA02092D3#32, .fltS 5#5 1#5 2#5),
    (0xA02082D3#32, .fleS 5#5 1#5 2#5),
    (0xE00092D3#32, .fclassS 5#5 1#5),
    (0xC00092D3#32, .fcvtWS 5#5 1#5 1#3),
    (0xC01092D3#32, .fcvtWUS 5#5 1#5 1#3),
    (0xC02092D3#32, .fcvtLS 5#5 1#5 1#3),
    (0xC03092D3#32, .fcvtLUS 5#5 1#5 1#3),
    (0xD002F0D3#32, .fcvtSW 1#5 5#5 7#3),
    (0xD012F0D3#32, .fcvtSWU 1#5 5#5 7#3),
    (0xD022F0D3#32, .fcvtSL 1#5 5#5 7#3),
    (0xD032F0D3#32, .fcvtSLU 1#5 5#5 7#3),
    (0xE00082D3#32, .fmvXS 5#5 1#5),
    (0xF00280D3#32, .fmvSX 1#5 5#5)] = true := by decide +kernel

theorem test_decode_float_double : decodesTo [
    (0x00833087#32, .fld 1#5 6#5 8#12),
    (0x00133427#32, .fsd 6#5 1#5 8#12),
    (0x1A20F243#32, .fmaddD 4#5 1#5 2#5 3#5 7#3),
    (0x1A20F247#32, .fmsubD 4#5 1#5 2#5 3#5 7#3),
    (0x1A20F24B#32, .fnmsubD 4#5 1#5 2#5 3#5 7#3),
    (0x1A20F24F#32, .fnmaddD 4#5 1#5 2#5 3#5 7#3),
    (0x0220F1D3#32, .faddD 3#5 1#5 2#5 7#3),
    (0x0A20F1D3#32, .fsubD 3#5 1#5 2#5 7#3),
    (0x1220F1D3#32, .fmulD 3#5 1#5 2#5 7#3),
    (0x1A20F1D3#32, .fdivD 3#5 1#5 2#5 7#3),
    (0x5A00F1D3#32, .fsqrtD 3#5 1#5 7#3),
    (0x222081D3#32, .fsgnjD 3#5 1#5 2#5),
    (0x222091D3#32, .fsgnjnD 3#5 1#5 2#5),
    (0x2220A1D3#32, .fsgnjxD 3#5 1#5 2#5),
    (0x2A2081D3#32, .fminD 3#5 1#5 2#5),
    (0x2A2091D3#32, .fmaxD 3#5 1#5 2#5),
    (0xA220A2D3#32, .feqD 5#5 1#5 2#5),
    (0xA22092D3#32, .fltD 5#5 1#5 2#5),
    (0xA22082D3#32, .fleD 5#5 1#5 2#5),
    (0xE20092D3#32, .fclassD 5#5 1#5),
    (0xC20092D3#32, .fcvtWD 5#5 1#5 1#3),
    (0xC21092D3#32, .fcvtWUD 5#5 1#5 1#3),
    (0xC22092D3#32, .fcvtLD 5#5 1#5 1#3),
    (0xC23092D3#32, .fcvtLUD 5#5 1#5 1#3),
    (0xD202F0D3#32, .fcvtDW 1#5 5#5 7#3),
    (0xD212F0D3#32, .fcvtDWU 1#5 5#5 7#3),
    (0xD222F0D3#32, .fcvtDL 1#5 5#5 7#3),
    (0xD232F0D3#32, .fcvtDLU 1#5 5#5 7#3),
    (0xE20082D3#32, .fmvXD 5#5 1#5),
    (0xF20280D3#32, .fmvDX 1#5 5#5),
    (0x4010F1D3#32, .fcvtSD 3#5 1#5 7#3),
    (0x420081D3#32, .fcvtDS 3#5 1#5 0#3)] = true := by decide +kernel

/-- 95_test_vectors.md section 2.7, and 30_encoding.md R187. -/
theorem test_decode_rejects : rejects .w64 [
    0x00000000#32, 0xFFFFFFFF#32, 0x000000F3#32, 0x00004073#32, 0x00007003#32, 0x00004023#32,
    0x00002063#32, 0x00001067#32, 0x0000200F#32, 0x40001033#32, 0x0000201B#32, 0x0200109B#32,
    0x04001013#32, 0x0000402F#32, 0x1010202F#32, 0x5810F1D3#32, 0x10400173#32, 0x00000001#32,
    0x00004501#32] = true := by decide +kernel

/-- 30_encoding.md R190: rows of width 64, and shifts by 32 or more. -/
theorem test_decode_rejects_32 : rejects .w32 [
    0x02001013#32, 0x0001009B#32, 0x00036283#32, 0x00833283#32, 0x00533423#32, 0x022081BB#32,
    0x100332AF#32, 0x007332AF#32, 0xC02092D3#32, 0xE20082D3#32] = true := by decide +kernel

/-- FLD and FSD exist at width 32 (R190). -/
theorem test_decode_fld_32 : decode .w32 0x00833087#32 = .ok (.fld 1#5 6#5 8#12) := by rfl

/-- The numbering of opcode_table.json: bit 0 of the word is the least significant. -/
theorem test_decode_table_word :
    decodeTableWord 32 0xFFF08113 = some (.addi 2#5 1#5 0xFFF#12) ∧ decodeTableWord 32 0 = none := by
  exact ⟨rfl, rfl⟩

/-- The encoder writes the ignored bits as zero (R189, R192). -/
theorem test_encode_ignored : encode .fence = 0x0000000F#32 ∧
    encode (.amoaddW 5#5 6#5 7#5) = 0x007322AF#32 := by decide +kernel

/-! ## Integer instructions (95_test_vectors.md sections 2.1, 2.4) -/

theorem test_immediate_results : rowsOf start [
    (0x00500093#32, 0x0#64, 0x0#64, 0x5#64),
    (0xFFF12093#32, 0xFFFFFFFFFFFFFFFE#64, 0x0#64, 0x1#64),
    (0xFFF13093#32, 0x5#64, 0x0#64, 0x1#64),
    (0x00103093#32, 0x0#64, 0x0#64, 0x1#64),
    (0xFFF14093#32, 0xF0F#64, 0x0#64, 0xFFFFFFFFFFFFF0F0#64),
    (0x70016093#32, 0xFF#64, 0x0#64, 0x7FF#64),
    (0xFF017093#32, 0x12345#64, 0x0#64, 0x12340#64),
    (0x03F11093#32, 0x3#64, 0x0#64, 0x8000000000000000#64),
    (0x03F15093#32, 0xFFFFFFFFFFFFFFFF#64, 0x0#64, 0x1#64),
    (0x43F15093#32, 0x8000000000000000#64, 0x0#64, 0xFFFFFFFFFFFFFFFF#64),
    (0x40415093#32, 0xFFFFFFFFFFFFFF00#64, 0x0#64, 0xFFFFFFFFFFFFFFF0#64),
    (0x800000B7#32, 0x0#64, 0x0#64, 0xFFFFFFFF80000000#64),
    (0x123450B7#32, 0x0#64, 0x0#64, 0x12345000#64),
    (0xFFFFF097#32, 0x0#64, 0x0#64, 0x0#64)] = true := by decide +kernel

theorem test_register_results : rowsOf start [
    (0x003100B3#32, 0xFFFFFFFFFFFFFFFF#64, 0x1#64, 0x0#64),
    (0x403100B3#32, 0x0#64, 0x1#64, 0xFFFFFFFFFFFFFFFF#64),
    (0x003110B3#32, 0x1#64, 0x7F#64, 0x8000000000000000#64),
    (0x003120B3#32, 0x8000000000000000#64, 0x0#64, 0x1#64),
    (0x003130B3#32, 0x8000000000000000#64, 0x0#64, 0x0#64),
    (0x002140B3#32, 0xABCDEF#64, 0x0#64, 0x0#64),
    (0x003150B3#32, 0x8000000000000000#64, 0x44#64, 0x800000000000000#64),
    (0x403150B3#32, 0x8000000000000000#64, 0x4#64, 0xF800000000000000#64),
    (0x003160B3#32, 0xF0#64, 0xF#64, 0xFF#64),
    (0x003170B3#32, 0xFF#64, 0x3C#64, 0x3C#64)] = true := by decide +kernel

theorem test_word_results : rowsOf start [
    (0x0011009B#32, 0x7FFFFFFF#64, 0x0#64, 0xFFFFFFFF80000000#64),
    (0x0001009B#32, 0x123456789ABCDEF0#64, 0x0#64, 0xFFFFFFFF9ABCDEF0#64),
    (0x01F1109B#32, 0x1#64, 0x0#64, 0xFFFFFFFF80000000#64),
    (0x0001509B#32, 0x80000000#64, 0x0#64, 0xFFFFFFFF80000000#64),
    (0x0041509B#32, 0xFFFFFFFFFFFFFFFF#64, 0x0#64, 0xFFFFFFF#64),
    (0x4041509B#32, 0x80000000#64, 0x0#64, 0xFFFFFFFFF8000000#64),
    (0x003100BB#32, 0x7FFFFFFF#64, 0x1#64, 0xFFFFFFFF80000000#64),
    (0x403100BB#32, 0x0#64, 0x1#64, 0xFFFFFFFFFFFFFFFF#64),
    (0x003110BB#32, 0x1#64, 0x3F#64, 0xFFFFFFFF80000000#64),
    (0x003150BB#32, 0xFFFFFFFFFFFFFFFF#64, 0x21#64, 0x7FFFFFFF#64),
    (0x403150BB#32, 0x80000000#64, 0x1F#64, 0xFFFFFFFFFFFFFFFF#64)] = true := by decide +kernel

theorem test_width32_results : rowsOf start32 [
    (0x003100B3#32, 0x7FFFFFFF#64, 0x1#64, 0xFFFFFFFF80000000#64),
    (0x000100B3#32, 0x1234567800000005#64, 0x0#64, 0x5#64),
    (0x41F15093#32, 0xFFFFFFFF80000000#64, 0x0#64, 0xFFFFFFFFFFFFFFFF#64)] = true := by decide +kernel

/-- A write to `x0` is discarded and still recorded (R20, R22). -/
theorem test_addi_x0 : runs 0x00308013#32 (withX start [(1#5, 5#64)]) (fun t =>
    t.getX 0#5 == 0#64 && t.getX 1#5 == 5#64 && t.core.delta.data1 == some 8#64 &&
    t.core.delta.addr == none) = true := by decide +kernel

/-- At width 32 `pc` wraps modulo `2^32` (10_state.md R28). -/
theorem test_pc_wraps_32 : runs 0x00100093#32 (withCore start32 fun c => { c with pc := 0xFFFFFFFC#64 })
    (fun t => t.core.pc == 0#64 && t.getX 1#5 == 1#64) = true := by decide +kernel

theorem test_multiply_results : rowsOf3 start [
    (0x022081B3#32, 0xFFFFFFFFFFFFFFF9#64, 0x2#64, 0xFFFFFFFFFFFFFFF2#64),
    (0x022081B3#32, 0x8000000000000000#64, 0x2#64, 0x0#64),
    (0x022091B3#32, 0x8000000000000000#64, 0x8000000000000000#64, 0x4000000000000000#64),
    (0x022091B3#32, 0xFFFFFFFFFFFFFFFF#64, 0xFFFFFFFFFFFFFFFF#64, 0x0#64),
    (0x0220A1B3#32, 0xFFFFFFFFFFFFFFFF#64, 0xFFFFFFFFFFFFFFFF#64, 0xFFFFFFFFFFFFFFFF#64),
    (0x0220A1B3#32, 0x8000000000000000#64, 0x8000000000000000#64, 0xC000000000000000#64),
    (0x0220B1B3#32, 0xFFFFFFFFFFFFFFFF#64, 0xFFFFFFFFFFFFFFFF#64, 0xFFFFFFFFFFFFFFFE#64),
    (0x022081BB#32, 0x10000#64, 0x10000#64, 0x0#64),
    (0x022081BB#32, 0x10000#64, 0x8000#64, 0xFFFFFFFF80000000#64)] = true := by decide +kernel

theorem test_divide_results : rowsOf3 start [
    (0x0220C1B3#32, 0xFFFFFFFFFFFFFFF9#64, 0x2#64, 0xFFFFFFFFFFFFFFFD#64),
    (0x0220C1B3#32, 0x7#64, 0xFFFFFFFFFFFFFFFE#64, 0xFFFFFFFFFFFFFFFD#64),
    (0x0220C1B3#32, 0x7#64, 0x0#64, 0xFFFFFFFFFFFFFFFF#64),
    (0x0220C1B3#32, 0x8000000000000000#64, 0xFFFFFFFFFFFFFFFF#64, 0x8000000000000000#64),
    (0x0220D1B3#32, 0x8000000000000000#64, 0x0#64, 0xFFFFFFFFFFFFFFFF#64),
    (0x0220D1B3#32, 0xFFFFFFFFFFFFFFFF#64, 0x2#64, 0x7FFFFFFFFFFFFFFF#64),
    (0x0220E1B3#32, 0xFFFFFFFFFFFFFFF9#64, 0x2#64, 0xFFFFFFFFFFFFFFFF#64),
    (0x0220E1B3#32, 0x7#64, 0xFFFFFFFFFFFFFFFE#64, 0x1#64),
    (0x0220E1B3#32, 0x7#64, 0x0#64, 0x7#64),
    (0x0220E1B3#32, 0x8000000000000000#64, 0xFFFFFFFFFFFFFFFF#64, 0x0#64),
    (0x0220F1B3#32, 0xFFFFFFFFFFFFFFFF#64, 0x0#64, 0xFFFFFFFFFFFFFFFF#64),
    (0x0220F1B3#32, 0xFFFFFFFFFFFFFFFF#64, 0x10#64, 0xF#64)] = true := by decide +kernel

theorem test_divide_word_results : rowsOf3 start [
    (0x0220C1BB#32, 0xFFFFFFFF80000000#64, 0xFFFFFFFFFFFFFFFF#64, 0xFFFFFFFF80000000#64),
    (0x0220C1BB#32, 0xFFFFFFFFFFFFFFF9#64, 0x0#64, 0xFFFFFFFFFFFFFFFF#64),
    (0x0220C1BB#32, 0x5#64, 0x100000000#64, 0xFFFFFFFFFFFFFFFF#64),
    (0x0220D1BB#32, 0xFFFFFFFFFFFFFFFF#64, 0x2#64, 0x7FFFFFFF#64),
    (0x0220D1BB#32, 0xFFFFFFFF#64, 0x1#64, 0xFFFFFFFFFFFFFFFF#64),
    (0x0220E1BB#32, 0xFFFFFFFF80000000#64, 0xFFFFFFFFFFFFFFFF#64, 0x0#64),
    (0x0220E1BB#32, 0x12345678FFFFFFF9#64, 0x0#64, 0xFFFFFFFFFFFFFFF9#64),
    (0x0220F1BB#32, 0xFFFFFFFFFFFFFFF9#64, 0x0#64, 0xFFFFFFFFFFFFFFF9#64),
    (0x0220F1BB#32, 0x80000007#64, 0x8#64, 0x7#64)] = true := by decide +kernel

/-! ## Control transfer (95_test_vectors.md section 2.2) -/

/-- Rows: word, `x1`, `x2`, the `pc` after a step that retires. -/
def goesTo (l : List (BitVec 32 × Word × Word × Word)) : Bool :=
  l.all fun p => runs p.1 (withX start [(1#5, p.2.1), (2#5, p.2.2.1)])
    (fun t => t.core.pc == p.2.2.2 && t.core.instret == 1#64)

/-- Rows: word, `x1`, `x2`, the misaligned target; `x1` keeps its value. -/
def misalignedAt (l : List (BitVec 32 × Word × Word × Word)) : Bool :=
  l.all fun p => runs p.1 (withX start [(1#5, p.2.1), (2#5, p.2.2.1)])
    (fun t => t.core.pc == 0#64 && t.core.instret == 0#64 && t.core.mBank.cause == 0#64 &&
      t.core.mBank.epc == 0x1000#64 && t.core.mBank.badaddr == p.2.2.2 && t.getX 1#5 == p.2.1 &&
      t.core.delta.addr == some p.2.2.2 && t.core.delta.data1 == none && !t.core.delta.fetchExc)

theorem test_jump_targets : goesTo [
    (0x008000EF#32, 0x0#64, 0x0#64, 0x1008#64),
    (0x800FF0EF#32, 0x0#64, 0x0#64, 0x0#64),
    (0x0000006F#32, 0x0#64, 0x0#64, 0x1000#64),
    (0x001100E7#32, 0x0#64, 0x2003#64, 0x2004#64),
    (0x000080E7#32, 0x3000#64, 0x0#64, 0x3000#64),
    (0x000100E7#32, 0x0#64, 0x2001#64, 0x2000#64),
    (0xFFC102E7#32, 0x0#64, 0x0#64, 0xFFFFFFFFFFFFFFFC#64)] = true := by decide +kernel

theorem test_branch_targets : goesTo [
    (0x00208863#32, 0x5#64, 0x5#64, 0x1010#64),
    (0x00208863#32, 0x5#64, 0x6#64, 0x1004#64),
    (0xFE2098E3#32, 0x5#64, 0x6#64, 0xFF0#64),
    (0x0020C863#32, 0xFFFFFFFFFFFFFFFF#64, 0x0#64, 0x1010#64),
    (0x0020E863#32, 0xFFFFFFFFFFFFFFFF#64, 0x0#64, 0x1004#64),
    (0x0020E863#32, 0x0#64, 0x1#64, 0x1010#64),
    (0x0020D863#32, 0x0#64, 0x0#64, 0x1010#64),
    (0x0020D863#32, 0xFFFFFFFFFFFFFFFF#64, 0x0#64, 0x1004#64),
    (0x0020F863#32, 0xFFFFFFFFFFFFFFFF#64, 0x0#64, 0x1010#64),
    (0x00001163#32, 0x0#64, 0x0#64, 0x1004#64)] = true := by decide +kernel

theorem test_misaligned_targets : misalignedAt [
    (0x002000EF#32, 0x7#64, 0x0#64, 0x1002#64),
    (0x000100E7#32, 0x7#64, 0x2002#64, 0x2002#64),
    (0x7E20FFE3#32, 0xFFFFFFFFFFFFFFFF#64, 0x0#64, 0x1FFE#64),
    (0x00000163#32, 0x7#64, 0x0#64, 0x1002#64)] = true := by decide +kernel

theorem test_link_values :
    runs 0x008000EF#32 start (fun t => t.getX 1#5 == 0x1004#64) = true ∧
    runs 0x000080E7#32 (withX start [(1#5, 0x3000#64)]) (fun t => t.getX 1#5 == 0x1004#64) = true := by
  decide +kernel

/-- At width 32 the link value is the sign-extended sum (42_control_transfer.md R299). -/
theorem test_link_32 : runs 0x008000EF#32
    (withCore start32 fun c => { c with pc := 0x80000000#64 })
    (fun t => t.getX 1#5 == 0xFFFFFFFF80000004#64 && t.core.pc == 0x80000008#64) = true := by decide +kernel

/-! ## Loads and stores (95_test_vectors.md section 2.3) -/

/-- The doubleword `0x0123456789ABCDEF` at `0x2000`, `x10 = 0x2000`. -/
def loaded : State := withBytes (withX start [(10#5, 0x2000#64)]) 0x2000#64 8 0x0123456789ABCDEF#64

/-- Rows: word, the address recorded, the value of `x1`. -/
def loads (l : List (BitVec 32 × Word × Word)) : Bool :=
  l.all fun p => runs p.1 loaded (fun t => wrote 1#5 p.2.2 t && t.core.delta.addr == some p.2.1 &&
    t.core.delta.stWidth == none)

theorem test_loads : loads [
    (0x00050083#32, 0x2000#64, 0xFFFFFFFFFFFFFFEF#64), (0x00054083#32, 0x2000#64, 0xEF#64),
    (0x00251083#32, 0x2002#64, 0xFFFFFFFFFFFF89AB#64), (0x00255083#32, 0x2002#64, 0x89AB#64),
    (0x00052083#32, 0x2000#64, 0xFFFFFFFF89ABCDEF#64), (0x00056083#32, 0x2000#64, 0x89ABCDEF#64),
    (0x00053083#32, 0x2000#64, 0x0123456789ABCDEF#64), (0x00352083#32, 0x2003#64, 0x23456789#64)] = true := by
  decide +kernel

/-- The access is made with `rd = x0` too (R313); a load may overwrite its address register. -/
theorem test_load_x0 :
    runs 0x00053003#32 loaded (fun t => t.core.delta.addr == some 0x2000#64 &&
      t.core.delta.data1 == some 0x0123456789ABCDEF#64 && t.getX 0#5 == 0#64) = true ∧
    runs 0x00052503#32 loaded (fun t => t.getX 10#5 == 0xFFFFFFFF89ABCDEF#64) = true := by decide +kernel

/-- Rows: word, `x1`, the address, the width, the value recorded; the bytes around are unchanged. -/
def stores (l : List (BitVec 32 × Word × Word × Nat × Word)) : Bool :=
  l.all fun p => runs p.1 (withX loaded [(1#5, p.2.1)]) (fun t =>
    t.mem.readLE p.2.2.1 p.2.2.2.1 == p.2.2.2.2 && t.core.delta.addr == some p.2.2.1 &&
    t.core.delta.data1 == some p.2.2.2.2 && t.core.delta.stWidth == some p.2.2.2.1 &&
    t.mem.read (p.2.2.1.toNat - 1) == loaded.mem.read (p.2.2.1.toNat - 1) &&
    t.mem.read (p.2.2.1.toNat + p.2.2.2.1) == loaded.mem.read (p.2.2.1.toNat + p.2.2.2.1))

theorem test_stores : stores [
    (0x001500A3#32, 0x1FF#64, 0x2001#64, 1, 0xFF#64), (0xFE151F23#32, 0xA1B2C3D4#64, 0x1FFE#64, 2, 0xC3D4#64),
    (0x00152223#32, 0xFFFFFFFF00000001#64, 0x2004#64, 4, 0x1#64),
    (0x00153023#32, 0x1122334455667788#64, 0x2000#64, 8, 0x1122334455667788#64)] = true := by decide +kernel

/-- Little-endian (20_memory.md R124), and an access that wraps at the top of memory (R123). -/
theorem test_byte_order : (Memory.writeLE [] 0x10#64 4 0x11223344#64) =
    [(0x10, 0x44#8), (0x11, 0x33#8), (0x12, 0x22#8), (0x13, 0x11#8)] ∧
    (Memory.writeLE [] 0xFFFFFFFFFFFFFFFF#64 2 0xAABB#64) = [(0, 0xAA#8), (2 ^ 64 - 1, 0xBB#8)] ∧
    (Memory.writeLE [(0x10, 0x44#8)] 0x10#64 1 0#64) = [] := by decide +kernel

/-- A store to the test-completion address ends the run, and the next step is refused (20_memory.md
R128, 40_step_and_fetch.md R211). -/
theorem test_exit : runs 0x00152223#32
    (withX start [(1#5, 0x77#64), (10#5, 0x80000FFC#64)])
    (fun t => t.halted == some 0x77#64 && refuses t .runEnded) = true := by decide +kernel

theorem test_fences : runs 0x8330000F#32 start (fun t => t.core.pc == 0x1004#64) = true ∧
    runs 0x0000100F#32 start (fun t => t.core.pc == 0x1004#64) = true := by decide +kernel

/-! ## Atomics (95_test_vectors.md section 2.5) -/

/-- `n` bytes `-2` at `0x2000`, `x6 = 0x2000`, `x7 = 3`. -/
def shared (n : Nat) : State := withBytes
  (withX start [(6#5, 0x2000#64), (7#5, 3#64)]) 0x2000#64 n 0xFFFFFFFFFFFFFFFE#64

/-- Rows: word, the value left in memory; `x5` receives the old one. -/
def amos (n : Nat) (l : List (BitVec 32 × Word)) : Bool :=
  l.all fun p => runs p.1 (shared n) (fun t => t.getX 5#5 == 0xFFFFFFFFFFFFFFFE#64 &&
    t.mem.readLE 0x2000#64 n == p.2 && t.core.delta.data2 == some p.2 &&
    t.core.delta.stWidth == some n && t.core.delta.addr == some 0x2000#64)

theorem test_amo_words : amos 4 [
    (0x087322AF#32, 0x3#64),
    (0x007322AF#32, 0x1#64),
    (0x207322AF#32, 0xFFFFFFFD#64),
    (0x607322AF#32, 0x2#64),
    (0x407322AF#32, 0xFFFFFFFF#64),
    (0x807322AF#32, 0xFFFFFFFE#64),
    (0xA07322AF#32, 0x3#64),
    (0xC07322AF#32, 0x3#64),
    (0xE07322AF#32, 0xFFFFFFFE#64)] = true := by decide +kernel

theorem test_amo_doubles : amos 8 [
    (0x087332AF#32, 0x3#64),
    (0x007332AF#32, 0x1#64),
    (0x207332AF#32, 0xFFFFFFFFFFFFFFFD#64),
    (0x607332AF#32, 0x2#64),
    (0x407332AF#32, 0xFFFFFFFFFFFFFFFF#64),
    (0x807332AF#32, 0xFFFFFFFFFFFFFFFE#64),
    (0xA07332AF#32, 0x3#64),
    (0xC07332AF#32, 0x3#64),
    (0xE07332AF#32, 0xFFFFFFFFFFFFFFFE#64)] = true := by decide +kernel

/-- Sources are read before the destination is written (R348), and the write clears the reservation of
exactly its address (R346). -/
theorem test_amo_sources : runs 0x085322AF#32 (withCore (withX (shared 4) [(5#5, 9#64)])
    fun c => { c with resv := some 0x2000#64 }) (fun t =>
      t.mem.readLE 0x2000#64 4 == 9#64 && t.getX 5#5 == 0xFFFFFFFFFFFFFFFE#64 && t.core.resv == none) = true := by
  decide +kernel

theorem test_amo_misaligned : runs 0x007332AF#32 (withX (shared 8) [(6#5, 0x2004#64)]) (fun t =>
    t.core.mBank.cause == 6#64 && t.core.mBank.badaddr == 0x2004#64 && t.getX 5#5 == 0#64) = true := by
  decide +kernel

theorem test_lr : runs 0x100322AF#32 (shared 4) (fun t =>
    t.getX 5#5 == 0xFFFFFFFFFFFFFFFE#64 && t.core.resv == some 0x2000#64) = true ∧
    runs 0x100332AF#32 (withX (shared 8) [(6#5, 0x2004#64)]) (fun t =>
      t.core.mBank.cause == 4#64 && t.core.mBank.badaddr == 0x2004#64 && t.core.resv == none) = true := by
  decide +kernel

/-- An SC to the reserved address stores and clears the reservation, whatever the width of the LR. -/
theorem test_sc_stores : runs 0x188333AF#32 (withCore (withX (shared 8) [(8#5, 0x1122334455667788#64)])
    fun c => { c with resv := some 0x2000#64 }) (fun t =>
      t.getX 7#5 == 0#64 && t.core.resv == none && t.mem.readLE 0x2000#64 8 == 0x1122334455667788#64 &&
      t.core.delta.data2 == some 0x1122334455667788#64) = true := by decide +kernel

/-- A failing SC writes 1, keeps the reservation and stores nothing. -/
theorem test_sc_fails : runs 0x188323AF#32 (withCore (withX (shared 4) [(8#5, 5#64)])
    fun c => { c with resv := some 0x2008#64 }) (fun t =>
      t.getX 7#5 == 1#64 && t.core.resv == some 0x2008#64 && t.mem.readLE 0x2000#64 4 == 0xFFFFFFFE#64 &&
      t.core.delta.stWidth == none && t.core.delta.addr == some 0x2000#64) = true := by decide +kernel

/-- The alignment test of SC comes first, whatever the reservation. -/
theorem test_sc_misaligned : runs 0x188323AF#32 (withX (shared 4) [(6#5, 0x2001#64)]) (fun t =>
    t.core.mBank.cause == 6#64 && t.core.mBank.badaddr == 0x2001#64 && t.getX 7#5 == 3#64) = true := by
  decide +kernel

/-! ## Control and status registers (95_test_vectors.md section 2.6) -/

/-- `x2` and the current core's registers set from outside. -/
def csrStart (x2 : Word) (f : Core → Core) : State := withCore (withX start [(2#5, x2)]) f

theorem test_csrrw : runs 0x340110F3#32
    (csrStart 0xAA#64 fun c => { c with mBank := { c.mBank with scratch := 0x55#64 } }) (fun t =>
      t.getX 1#5 == 0x55#64 && t.core.mBank.scratch == 0xAA#64 && t.core.delta.addr == some 0x340#64 &&
      t.core.delta.data1 == some 0x55#64 && t.core.delta.data2 == some 0xAA#64) = true := by decide +kernel

/-- Refused at a lower level: no change of the register or of `rd` (scenario S9). -/
theorem test_csrrw_refused : runs 0x340110F3#32
    (withCore (withX start [(1#5, 0x77#64), (2#5, 0xAA#64)]) fun c =>
      { c with cur := .supervisor, mBank := { c.mBank with scratch := 0x55#64, tvec := 0x200#64 } }) (fun t =>
      t.getX 1#5 == 0x77#64 && t.core.mBank.scratch == 0x55#64 && t.core.cur == .machine &&
      t.core.pc == 0x200#64 && t.core.mBank.cause == 2#64 && t.core.mBank.epc == 0x1000#64 &&
      t.core.mstatus == 0x800#64 && t.core.instret == 0#64 && t.core.delta.addr == none) = true := by
  decide +kernel

/-- `CSRRS` with `rs1 = x0` reads a read-only register; with another register number it is a write,
whatever the value. -/
theorem test_csrrs : runs 0xF14020F3#32 start (fun t => wrote 1#5 0#64 t && t.core.delta.addr == none) = true ∧
    runs 0xF14120F3#32 start (fun t => t.core.mBank.cause == 2#64 && t.core.mstatus == 0x1800#64) = true := by
  decide +kernel

theorem test_csrrc : runs 0x300332F3#32 (withCore (withX start [(6#5, 8#64)]) fun c => { c with mstatus := 0x1888#64 })
    (fun t => t.getX 5#5 == 0x1888#64 && t.core.mstatus == 0x1880#64) = true := by decide +kernel

theorem test_csrrwi : runs 0x0021D2F3#32 start (fun t => t.core.fcsr == 0x60#8 && t.getX 5#5 == 0#64 &&
    t.core.mstatus == 0x8000000000006000#64) = true := by decide +kernel

theorem test_csrrsi : runs 0x300060F3#32 (csrStart 0#64 fun c => { c with mstatus := 0x1888#64 }) (fun t =>
    t.getX 1#5 == 0x1888#64 && t.core.mstatus == 0x1888#64 && t.core.delta.addr == none) = true := by
  decide +kernel

theorem test_csrrci : runs 0x300470F3#32 (csrStart 0#64 fun c => { c with mstatus := 0x1888#64 }) (fun t =>
    t.getX 1#5 == 0x1888#64 && t.core.mstatus == 0x1880#64) = true := by decide +kernel

/-- `misa` is constant, an undefined address is refused. -/
theorem test_misa : runs 0x30111073#32 start (fun t =>
      t.core.delta.data1 == some 0x8000000000141129#64 && t.core.delta.data2 == some 0#64 &&
      t.misa == 0x8000000000141129#64) = true ∧
    runs 0x7C0010F3#32 start (fun t => t.core.mBank.cause == 2#64) = true := by decide +kernel

/-- User counters exist only where enabled; a step counts after the instruction (R42, R215). -/
theorem test_cycle : runs 0xC00020F3#32 (csrStart 0#64 fun c => { c with cur := .user })
      (fun t => t.core.mBank.cause == 2#64 && t.core.mstatus == 0#64) = true ∧
    runs 0xC00020F3#32 (csrStart 0#64 fun c => { c with cur := .user, mucounteren := 1#64, cycles := 41#64 })
      (fun t => t.getX 1#5 == 41#64 && t.core.cycles == 42#64 && t.clock == 42#64) = true ∧
    runs 0xB00110F3#32 (csrStart 100#64 fun c => { c with cycles := 41#64 })
      (fun t => t.getX 1#5 == 41#64 && t.core.cycles == 101#64) = true := by decide +kernel

/-- An unrecognised translation mode keeps the field; SD follows FS. -/
theorem test_mstatus : runs 0x300110F3#32 (csrStart 0x03000008#64 fun c => { c with mstatus := 0x09000000#64 })
      (fun t => t.getX 1#5 == 0x09000000#64 && t.core.mstatus == 0x09000008#64) = true ∧
    runs 0x300110F3#32 (csrStart 0x6000#64 id) (fun t => t.core.mstatus == 0x8000000000006000#64) = true := by
  decide +kernel

theorem test_sstatus :
    runs 0x100110F3#32 (csrStart 0xFFFFFFFFFFFFFFFF#64 fun c => { c with mstatus := 0x1800#64 })
      (fun t => t.getX 1#5 == 0#64 && t.core.mstatus == 0x800000000005F933#64) = true ∧
    runs 0x100020F3#32 (csrStart 0#64 fun c => { c with mstatus := 0x8000000009027FFF#64 })
      (fun t => t.getX 1#5 == 0x8000000000006133#64) = true := by decide +kernel

theorem test_mip : runs 0x344110F3#32 (csrStart 0xFFFFFFFFFFFFFFFF#64 fun c => { c with mip := 0x800#64 })
    (fun t => t.getX 1#5 == 0x800#64 && t.core.mip == 0xF77#64) = true := by decide +kernel

/-- The hypervisor bank is inert to CSR writes by default, and is written with `symmetric` (R48). -/
theorem test_hedeleg : runs 0x20211073#32 (csrStart 0xFF#64 id) (fun t =>
      t.core.hedeleg == 0#64 && t.core.delta.addr == some 0x202#64 && t.core.delta.data2 == some 0xFF#64) = true ∧
    runs 0x20211073#32 (csrStart 0xFF#64 id |> fun s => { s with params := { s.params with hypCsrWrites := .symmetric } })
      (fun t => t.core.hedeleg == 0xFF#64) = true := by decide +kernel

/-- `mepc` is stored as written (R80). -/
theorem test_mepc : runs 0x34111073#32 (csrStart 0x1003#64 id) (fun t => t.core.mBank.epc == 0x1003#64) = true := by
  decide +kernel

/-- The 32-bit views (R45, R46). -/
theorem test_views_32 :
    runs 0x342020F3#32 (withCore start32 fun c => { c with mBank := { c.mBank with cause := 0x8000000000000007#64 } })
      (fun t => t.getX 1#5 == 0xFFFFFFFF80000007#64) = true ∧
    runs 0x300020F3#32 (withCore start32 fun c => { c with mstatus := 0x8000000000006000#64 })
      (fun t => t.getX 1#5 == 0xFFFFFFFF80006000#64) = true ∧
    runs 0x301020F3#32 start32 (fun t => t.getX 1#5 == 0x40141129#64) = true ∧
    runs 0x34211073#32 (withX start32 [(2#5, 0xFFFFFFFF80000003#64)])
      (fun t => t.core.mBank.cause == 0x8000000000000003#64) = true := by decide +kernel

/-! ## Traps and returns (95_test_vectors.md section 2.7) -/

/-- The trap vectors of the section, `cur` and `mstatus`. -/
def trapStart (cur : Priv) (m : Word) : State := withCore start fun c =>
  { c with
    cur := cur, mstatus := m
    mBank := { c.mBank with tvec := 0x200#64 }, hBank := { c.hBank with tvec := 0x300#64 }
    sBank := { c.sBank with tvec := 0x400#64 }, uBank := { c.uBank with tvec := 0x500#64 } }

/-- The step trapped into level `p` with cause `c` and status `m`, saving `0x1000`. -/
def trapped (p : Priv) (c m : Word) (t : State) : Bool :=
  t.core.cur == p && (t.core.bank p).cause == c && (t.core.bank p).epc == 0x1000#64 &&
  t.core.pc == (t.core.bank p).tvec && t.core.mstatus == m && t.core.instret == 0#64 &&
  t.core.cycles == 1#64 && t.core.delta.excTaken && (t.core.bank p).badaddr == 0#64

theorem test_ecall :
    runs 0x00000073#32 (trapStart .user 1#64) (trapped .machine 8#64 0x81#64) = true ∧
    runs 0x00000073#32 (withCore (trapStart .user 1#64) fun c => { c with medeleg := 0x100#64 })
      (trapped .hypervisor 8#64 0x41#64) = true ∧
    runs 0x00000073#32 (withCore (trapStart .supervisor 2#64) fun c => { c with medeleg := 0x100#64 })
      (trapped .machine 8#64 0x882#64) = true ∧
    runs 0x00000073#32 (withCore (trapStart .machine 8#64) fun c => { c with medeleg := 0xFFFFFFFFFFFFFFFF#64 })
      (trapped .machine 8#64 0x1880#64) = true := by decide +kernel

/-- `ECALL_CODE = per_privilege` writes 8 plus the level. -/
theorem test_ecall_per_privilege : runs 0x00000073#32
    (trapStart .supervisor 2#64 |> fun s => { s with params := { s.params with ecallCode := .perPrivilege } })
    (trapped .machine 9#64 0x882#64) = true := by decide +kernel

/-- The delegation property S6, and the clamp. -/
theorem test_delegation :
    runs 0x00000073#32 (withCore (trapStart .user 3#64) fun c =>
      { c with medeleg := 0x100#64, hedeleg := 0x100#64 }) (trapped .supervisor 8#64 0x21#64) = true ∧
    runs 0x00000073#32 (withCore (trapStart .supervisor 2#64) fun c =>
      { c with medeleg := 0x200#64, hedeleg := 0x200#64, sedeleg := 0x200#64 })
      (trapped .supervisor 8#64 0x120#64) = true := by decide +kernel

theorem test_ebreak : runs 0x00100073#32 (withCore (trapStart .user 1#64) fun c =>
    { c with medeleg := 8#64, hedeleg := 8#64, sedeleg := 8#64 }) (trapped .user 3#64 0x10#64) = true := by
  decide +kernel

theorem test_illegal : runs 0xFFFFFFFF#32 (withCore (trapStart .supervisor 2#64) fun c => { c with medeleg := 4#64 })
    (fun t => trapped .hypervisor 2#64 0x242#64 t && t.core.delta.rinstr == 0xFFFFFFFF#32 &&
      !t.core.delta.fetchExc) = true := by decide +kernel

/-- The status after a return, the level and the `pc`. -/
def returned (p : Priv) (pc m : Word) (t : State) : Bool :=
  t.core.cur == p && t.core.pc == pc && t.core.mstatus == m && t.core.instret == 1#64

theorem test_mret :
    runs 0x30200073#32 (withCore (trapStart .machine 0x80#64) fun c => { c with mBank := { c.mBank with epc := 0x2003#64 } })
      (fun t => returned .user 0x2000#64 0x81#64 t && t.core.mBank.epc == 0x2003#64) = true ∧
    runs 0x30200073#32 (withCore (trapStart .machine 0x1808#64) fun c => { c with mBank := { c.mBank with epc := 0x2000#64 } })
      (returned .machine 0x2000#64 0x80#64) = true := by decide +kernel

theorem test_sret : runs 0x10200073#32 (withCore (trapStart .machine 0x120#64) fun c =>
    { c with sBank := { c.sBank with epc := 0x4000#64 } }) (returned .supervisor 0x4000#64 0x22#64) = true := by
  decide +kernel

/-- The example of 46_csr_system.md R384. -/
theorem test_hret : runs 0x20200073#32 (withCore (trapStart .machine 0x202#64) fun c =>
    { c with hBank := { c.hBank with epc := 0x8000#64 } }) (returned .supervisor 0x8000#64 0x40#64) = true := by
  decide +kernel

theorem test_uret : runs 0x00200073#32 (withCore (trapStart .supervisor 1#64) fun c =>
    { c with uBank := { c.uBank with epc := 0x5000#64 } }) (returned .user 0x5000#64 0x10#64) = true := by
  decide +kernel

/-- The fatal conditions (60_exceptions.md R521). -/
theorem test_fatal : stops 0x10200073#32 (trapStart .user 0#64) .returnBelowLevel = true ∧
    stops 0x30200073#32 (trapStart .hypervisor 0#64) .returnBelowLevel = true ∧
    stops 0x20200073#32 (trapStart .supervisor 0#64) .returnBelowLevel = true ∧
    stops 0x20200073#32 (trapStart .machine 0x600#64) .returnAboveLevel = true ∧
    stops 0x00000013#32 (trapStart .supervisor 0x0A000000#64) .unimplementedTranslationMode = true ∧
    stops 0x00052083#32 (trapStart .machine 0x0A020800#64) .unimplementedTranslationMode = true := by
  decide +kernel

theorem test_wfi : runs 0x10500073#32 (trapStart .user 0#64) (fun t => t.core.pc == 0x1004#64 &&
    t.core.instret == 1#64 && t.core.cur == .user) = true := by decide +kernel

/-- A misaligned `pc` is never translated (40_step_and_fetch.md R218). -/
theorem test_fetch_misaligned : runs 0#32 (withCore (trapStart .supervisor 0x09000000#64) fun c =>
    { c with pc := 0x80000002#64 }) (fun t => t.core.delta.excTaken && t.core.delta.fetchExc &&
      t.core.delta.rinstr == 0#32 && t.core.delta.addr == some 0x80000002#64 && t.core.mBank.cause == 0#64 &&
      t.core.mBank.epc == 0x80000002#64 && t.core.mBank.badaddr == 0x80000002#64 && t.core.pc == 0x200#64) = true := by
  decide +kernel

/-- A `pc` that no page maps (R219). -/
theorem test_fetch_fault : runs 0#32 (trapStart .supervisor 0x09000000#64) (fun t => t.core.delta.fetchExc &&
    t.core.mBank.cause == 12#64 && t.core.mBank.badaddr == 0x1000#64 && t.core.delta.rinstr == 0#32) = true := by
  decide +kernel

/-! ## Interrupts (95_test_vectors.md section 2.8) -/

/-- Level, status, pending, enable, the three delegation registers. -/
def irqStart (cur : Priv) (m mip mie d hd sd : Word) : State :=
  withCore (withX (trapStart cur m) [(5#5, 1#64)]) fun c =>
    { c with mip := mip, mie := mie, mideleg := d, hideleg := hd, sideleg := sd }

/-- `ADDI x5, x5, 1` runs and the interrupt of cause `2^63 + code` enters level `p`. -/
def interrupted (p : Priv) (code : Nat) (m : Word) (s : State) : Bool :=
  runs 0x00128293#32 s fun t => trapped p (BitVec.ofNat 64 (2 ^ 63 + code)) m t && t.getX 5#5 == 2#64 &&
    t.core.mip == s.core.mip

/-- `ADDI x5, x5, 1` runs and no interrupt is taken. -/
def undisturbed (s : State) : Bool :=
  runs 0x00128293#32 s fun t => t.core.pc == 0x1004#64 && t.core.instret == 1#64 && t.getX 5#5 == 2#64

theorem test_interrupts_taken :
    interrupted .machine 7 0x1880#64 (irqStart .machine 8#64 0x80#64 0x80#64 0#64 0#64 0#64) = true ∧
    interrupted .machine 7 0#64 (irqStart .user 0#64 0x80#64 0x80#64 0#64 0#64 0#64) = true ∧
    interrupted .supervisor 5 0x21#64 (irqStart .user 1#64 0x20#64 0x20#64 0x20#64 0x20#64 0#64) = true ∧
    interrupted .supervisor 5 0x120#64 (irqStart .supervisor 2#64 0x20#64 0x20#64 0x20#64 0x20#64 0#64) = true ∧
    interrupted .machine 5 0x800#64 (irqStart .supervisor 0#64 0x20#64 0x20#64 0#64 0#64 0#64) = true ∧
    interrupted .user 0 0x10#64 (irqStart .user 1#64 1#64 1#64 1#64 1#64 1#64) = true := by decide +kernel

theorem test_interrupt_order :
    interrupted .machine 11 0x1880#64 (irqStart .machine 8#64 0x888#64 0x888#64 0#64 0#64 0#64) = true ∧
    interrupted .machine 3 0x1880#64 (irqStart .machine 8#64 0x88#64 0x88#64 0#64 0#64 0#64) = true ∧
    interrupted .machine 7 0#64 (irqStart .user 0#64 0x82#64 0x82#64 0#64 0#64 0#64) = true := by decide +kernel

theorem test_interrupts_masked :
    undisturbed (irqStart .machine 0#64 0x80#64 0x80#64 0#64 0#64 0#64) = true ∧
    undisturbed (irqStart .machine 8#64 0x80#64 0#64 0#64 0#64 0#64) = true ∧
    undisturbed (irqStart .supervisor 0#64 0x20#64 0x20#64 0x20#64 0x20#64 0#64) = true ∧
    undisturbed (irqStart .machine 0xA#64 0x20#64 0x20#64 0x20#64 0x20#64 0#64) = true ∧
    undisturbed (irqStart .machine 2#64 0x802#64 0x802#64 2#64 2#64 0#64) = true := by decide +kernel

/-- An interrupt beats whatever the instruction asked for; the register writes stand. -/
theorem test_interrupt_wins :
    runs 0x00000073#32 (irqStart .machine 8#64 0x80#64 0x80#64 0#64 0#64 0#64)
      (trapped .machine 0x8000000000000007#64 0x1880#64) = true ∧
    runs 0x30200073#32 (irqStart .machine 0x88#64 0x80#64 0x80#64 0#64 0#64 0#64)
      (trapped .machine 0x8000000000000007#64 0x1880#64) = true ∧
    runs 0x040000EF#32 (irqStart .machine 8#64 0x80#64 0x80#64 0#64 0#64 0#64)
      (fun t => trapped .machine 0x8000000000000007#64 0x1880#64 t && t.getX 1#5 == 0x1004#64) = true ∧
    runs 0x30046073#32 (irqStart .machine 0#64 0x80#64 0x80#64 0#64 0#64 0#64)
      (trapped .machine 0x8000000000000007#64 0x1880#64) = true := by decide +kernel

/-! ## Translation (95_test_vectors.md section 2.9) -/

/-- The machine of T1: `VM = 9`, ASID 5, root `0x80001000`, a page at `0x40201000`, `cycles = 100`. -/
def tree : State :=
  withCore (withBytes (withBytes (withBytes start 0x80001008#64 8 0x20000801#64)
    0x80002008#64 8 0x20000C01#64) 0x80003008#64 8 0x20001417#64) fun c =>
    { c with mstatus := 0x09000000#64, sptbr := 0x0000014000080001#64, cycles := 100#64 }

/-- The answer of `translate`, with the state after it. -/
def answer (s : State) (va : Word) (k : AccessKind) (q : Priv) (mxr pum : Bool) : Option Word × State :=
  match s.translate va k q mxr pum with
  | .mapped pa t => (some pa, t)
  | .unmapped => (none, s)
  | .fatal => (none, s)

/-- After step 1 of T1. -/
def warm : State := (answer tree 0x40201ABC#64 .read .user false false).2

/-- T1, steps 1 and 2. -/
theorem test_t1_walk : (answer tree 0x40201ABC#64 .read .user false false).1 = some 0x80005ABC#64 ∧
    warm.mem.readLE 0x80003008#64 8 = 0x20001457#64 ∧
    warm.core.tlb39[0]? = some (some ⟨5#26, false, 0x40201000#64, 0x7FFFFFF000#64, 0x80005000#64, 0xFFF#64,
      0x20001457#64, 0x80003008#64, 100#64⟩) ∧
    answer (withCore warm fun c => { c with cycles := 101#64 }) 0x40201ABC#64 .read .user false false =
      (some 0x80005ABC#64, withCore warm fun c => { c with cycles := 101#64 }) := by decide +kernel

/-- T1, step 3: the dirty bit, in memory and in the entry, whose age is refreshed. -/
theorem test_t1_dirty :
    let r := answer (withCore warm fun c => { c with cycles := 102#64 }) 0x40201AC0#64 .write .user false false
    r.1 = some 0x80005AC0#64 ∧ r.2.mem.readLE 0x80003008#64 8 = 0x200014D7#64 ∧
    r.2.core.tlb39[0]? = some (some ⟨5#26, false, 0x40201000#64, 0x7FFFFFF000#64, 0x80005000#64, 0xFFF#64,
      0x200014D7#64, 0x80003008#64, 102#64⟩) := by decide +kernel

/-- T1, steps 4 to 8: the permissions. -/
theorem test_t1_permissions :
    (answer warm 0x40201ABC#64 .execute .user false false).1 = none ∧
    (answer warm 0x40201ABC#64 .read .supervisor false false).1 = some 0x80005ABC#64 ∧
    (answer warm 0x40201ABC#64 .read .supervisor false true).1 = none ∧
    (answer warm 0x40201ABC#64 .read .hypervisor false true).1 = some 0x80005ABC#64 ∧
    (answer warm 0x40201ABC#64 .read .machine false true).1 = some 0x40201ABC#64 := by decide +kernel

/-- T1, steps 9 to 11: a stale entry still translates, under its own id only; bits 63:39 are ignored. -/
theorem test_t1_stale :
    let s := withBytes warm 0x80003008#64 8 0#64
    (answer s 0x40201ABC#64 .read .user false false).1 = some 0x80005ABC#64 ∧
    (answer s 0x40201ABC#64 .read .user false false).2.mem.readLE 0x80003008#64 8 = 0#64 ∧
    (answer (withCore s fun c => { c with sptbr := 0x0000018000080001#64 }) 0x40201ABC#64 .read .user
      false false).1 = none ∧
    (answer s 0xFFFFFF8040201ABC#64 .read .user false false).1 = some 0x80005ABC#64 := by decide +kernel

/-- T2: superpages of levels 1 and 2. -/
def superpages : State :=
  withBytes (withBytes tree 0x80002010#64 8 0x2011584B#64) 0x80001018#64 8 0x3048D06F#64

theorem test_t2_superpages :
    (answer superpages 0x40412345#64 .read .supervisor false false).1 = some 0x80412345#64 ∧
    (answer superpages 0xC2345678#64 .write .supervisor false false).1 = some 0xC2345678#64 ∧
    (answer superpages 0xC2345678#64 .write .supervisor false false).2.mem.readLE 0x80001018#64 8 =
      0x3048D0EF#64 ∧
    (answer superpages 0xC2345678#64 .write .supervisor false false).2.core.tlb39[0]? =
      some (some ⟨5#26, true, 0xC0000000#64, 0x7FC0000000#64, 0xC0000000#64, 0x3FFFFFFF#64, 0x3048D0EF#64,
        0x80001018#64, 100#64⟩) := by decide +kernel

/-- T3: invalid entries, a pointer at level 0, an execute-only page. -/
def pages (root last : Word) : State :=
  withCore (withBytes (withBytes (withBytes start 0x80001000#64 8 root) 0x80002000#64 8 0x20000C01#64)
    0x80003000#64 8 last) fun c => { c with mstatus := 0x09000000#64, sptbr := 0x80001#64 }

theorem test_t3_invalid :
    answer (pages 0x20001405#64 0#64) 0#64 .read .supervisor false false = (none, pages 0x20001405#64 0#64) ∧
    (answer (pages 0x20000801#64 0x20001001#64) 0#64 .read .supervisor false false).1 = none ∧
    (answer (pages 0x20000801#64 0x20001009#64) 0x10#64 .read .supervisor false false).1 = none ∧
    (answer (pages 0x20000801#64 0x20001009#64) 0x10#64 .read .supervisor true false).1 = some 0x80004010#64 ∧
    (answer (pages 0x20000801#64 0x20001009#64) 0x10#64 .readWrite .supervisor true false).1 = none ∧
    (answer (pages 0x20000801#64 0x20001009#64) 0x10#64 .execute .supervisor false false).1 = some 0x80004010#64 ∧
    (answer (pages 0x20000801#64 0x20001009#64) 0x10#64 .execute .user false false).1 = none := by decide +kernel

/-- T4: with two slots the third page takes the slot filled first, though it was used last. -/
def twoSlots : State :=
  withCore (withBytes (withBytes (withBytes start 0x80001000#64 8 0x240000CF#64) 0x80001008#64 8 0x340000CF#64)
    0x80001010#64 8 0x440000CF#64) fun c =>
    { c with mstatus := 0x09000000#64, sptbr := 0x80001#64, tlb39 := [none, none] }

def fill (s : State) (n : Word) (va : Word) : State :=
  (answer (withCore s fun c => { c with cycles := n }) va .read .supervisor false false).2

theorem test_t4_eviction :
    let s := fill (fill (fill (fill twoSlots 10#64 0#64) 11#64 0x40000000#64) 12#64 0#64) 13#64 0x80000000#64
    s.core.tlb39.map (fun slot => slot.map fun e => (e.vtag, e.pbase, e.age)) =
      [some (0x80000000#64, 0x100000000#64, 13#64), some (0x40000000#64, 0xC0000000#64, 11#64)] := by
  decide +kernel

/-- T5: a gigapage entry of an id, and the slots SFENCE.VM leaves. -/
def gigapage (asid : BitVec 26) (g : Bool) (vtag : Word) : Option (TlbEntry .sv39) :=
  some ⟨asid, g, vtag, 0x7FC0000000#64, 0x80000000#64, 0x3FFFFFFF#64, 0x200000CF#64, 0x80001000#64, 0#64⟩

/-- The slots still filled after the word, with `sptbr` and `x7`. -/
def leaves (w : BitVec 32) (sptbr x7 : Word) (l : List Bool) : Bool :=
  runs w (withCore (withX start [(7#5, x7)]) fun c =>
    { c with sptbr := sptbr, tlb39 := [gigapage 5#26 false 0#64, gigapage 5#26 true 0x40000000#64,
        gigapage 6#26 false 0#64] })
    fun t => t.core.tlb39.map Option.isSome == l

theorem test_t5_flush :
    leaves 0x10400073#32 0x0000018000000000#64 0#64 [true, true, false] = true ∧
    leaves 0x10400073#32 0x0000014000000000#64 0#64 [false, true, true] = true ∧
    leaves 0x10400073#32 0#64 0#64 [false, false, false] = true ∧
    leaves 0x10438073#32 0x0000018000000000#64 0x40000123#64 [true, false, true] = true ∧
    leaves 0x10438073#32 0x0000018000000000#64 0#64 [false, true, false] = true := by decide +kernel

theorem test_sfence_user : runs 0x10400073#32 (trapStart .user 0#64)
    (fun t => t.core.mBank.cause == 2#64) = true := by decide +kernel

/-- T6: the 2-level format. -/
def tree32 (p1 : Word) : State :=
  withCore (withBytes (withBytes start 0x8000100C#64 4 p1) 0x80002004#64 4 0x20001417#64) fun c =>
    { c with mstatus := 0x08000000#64, sptbr := 0x80001#64 }

theorem test_t6_two_levels :
    (answer (tree32 0x20000801#64) 0x00C01ABC#64 .read .user false false).1 = some 0x80005ABC#64 ∧
    (answer (tree32 0x20000801#64) 0x00C01ABC#64 .read .user false false).2.mem.readLE 0x80002004#64 4 =
      0x20001457#64 ∧
    (answer (tree32 0x2011584B#64) 0xABCD000000C01ABC#64 .read .supervisor false false).1 = some 0x80401ABC#64 := by
  decide +kernel

/-- Scenario S8: a load of an unmapped page. -/
theorem test_s8_load_fault : runs 0x00032383#32
    (withCore (withX start [(6#5, 0x4000#64)]) fun c =>
      { c with mstatus := 0x09020800#64, sptbr := 0x80001#64 }) (fun t =>
      t.core.mBank.cause == 13#64 && t.core.mBank.badaddr == 0x4000#64 && t.core.delta.excTaken &&
      !t.core.delta.fetchExc && t.core.delta.addr == some 0x4000#64 && t.core.delta.data1 == none) = true := by
  decide +kernel

/-! ## Floating point: the dispatch (47_float_single.md, 48_float_double.md)

The library has no body, so only what does not go through it is evaluated; for the rest a test says
which library value lands where. -/

/-- Floating-point registers set from outside. -/
def withF (s : State) (l : List (RegIdx × Word)) : State := l.foldl (fun t p => t.setF p.1 p.2) s

/-- `f1 = a`, `f2 = b`, at rest after reset. -/
def floats (a b : Word) : State := withF start [(1#5, a), (2#5, b)]

/-- The word writes `v` to `f3` and marks the context dirty. -/
def wroteF (v : Word) (t : State) : Bool :=
  t.getF 3#5 == v && t.core.mstatus == 0x8000000000006000#64 && t.core.delta.fpData == some v &&
  t.core.fcsr == 0#8

/-- 1.0 and -2.0 of the examples of R414 to R416 and R452 to R454. -/
theorem test_sign_injection :
    runs 0x202081D3#32 (floats 0xFFFFFFFF3F800000#64 0xFFFFFFFFC0000000#64) (wroteF 0xFFFFFFFFBF800000#64) = true ∧
    runs 0x202091D3#32 (floats 0xFFFFFFFF3F800000#64 0xFFFFFFFFC0000000#64) (wroteF 0xFFFFFFFF3F800000#64) = true ∧
    runs 0x2020A1D3#32 (floats 0xFFFFFFFFBF800000#64 0xFFFFFFFFC0000000#64) (wroteF 0xFFFFFFFF3F800000#64) = true ∧
    runs 0x222081D3#32 (floats 0x3FF0000000000000#64 0xC000000000000000#64) (wroteF 0xBFF0000000000000#64) = true ∧
    runs 0x222091D3#32 (floats 0x3FF0000000000000#64 0xC000000000000000#64) (wroteF 0x3FF0000000000000#64) = true ∧
    runs 0x2220A1D3#32 (floats 0xBFF0000000000000#64 0xC000000000000000#64) (wroteF 0x3FF0000000000000#64) = true := by
  decide +kernel

/-- FMIN.S and FMAX.D: a quiet NaN operand, zeros of both signs (R417, R456). -/
theorem test_min_max :
    runs 0x282081D3#32 (floats 0xFFFFFFFF3F800000#64 0xFFFFFFFF7FC00000#64) (wroteF 0xFFFFFFFF3F800000#64) = true ∧
    runs 0x282081D3#32 (floats 0xFFFFFFFF00000000#64 0xFFFFFFFF80000000#64) (wroteF 0xFFFFFFFF80000000#64) = true ∧
    runs 0x2A2091D3#32 (floats 0x8000000000000000#64 0#64) (wroteF 0#64) = true ∧
    runs 0x282091D3#32 (floats 0x7FC00000#64 0x7FC00000#64) (wroteF 0xFFFFFFFF7FC00000#64) = true := by
  decide +kernel

/-- A signaling NaN raises the invalid flag (R417). -/
theorem test_min_signaling : runs 0x282081D3#32 (floats 0xFFFFFFFF3F800000#64 0xFFFFFFFF7F800001#64)
    (fun t => t.getF 3#5 == 0xFFFFFFFF3F800000#64 && t.core.fcsr == 0x10#8) = true := by decide +kernel

/-- Moves (R421, R428, R469, R472). -/
theorem test_moves :
    runs 0xE00082D3#32 (floats 0xFFFFFFFFBF800000#64 0#64) (fun t => wrote 5#5 0xFFFFFFFFBF800000#64 t &&
      t.core.mstatus == 0#64) = true ∧
    runs 0xF00280D3#32 (withX start [(5#5, 0x123456783F800000#64)]) (fun t =>
      t.getF 1#5 == 0xFFFFFFFF3F800000#64) = true ∧
    runs 0xE20082D3#32 (floats 0x3FF0000000000000#64 0#64) (wrote 5#5 0x3FF0000000000000#64) = true ∧
    runs 0xF20280D3#32 (withX start [(5#5, 0x3FF0000000000000#64)]) (fun t =>
      t.getF 1#5 == 0x3FF0000000000000#64) = true := by decide +kernel

/-- Loads and stores (R403, R404, R441, R442). -/
theorem test_float_memory :
    runs 0x00832087#32 (withBytes (withX start [(6#5, 0x2000#64)]) 0x2008#64 4 0x3F800000#64) (fun t =>
      t.getF 1#5 == 0xFFFFFFFF3F800000#64 && t.core.mstatus == 0x8000000000006000#64) = true ∧
    runs 0x00833087#32 (withBytes (withX start32 [(6#5, 0x2000#64)]) 0x2008#64 8 0x3FF0000000000000#64) (fun t =>
      t.getF 1#5 == 0x3FF0000000000000#64) = true ∧
    runs 0x00132427#32 (withF (withX start [(6#5, 0x2000#64)]) [(1#5, 0xFFFFFFFF3F800000#64)]) (fun t =>
      t.mem.readLE 0x2008#64 8 == 0x3F800000#64 && t.core.delta.fpData == some 0x3F800000#64 &&
      t.core.mstatus == 0#64) = true ∧
    runs 0x00133427#32 (withF (withX start [(6#5, 0x2000#64)]) [(1#5, 0x3FF0000000000000#64)]) (fun t =>
      t.mem.readLE 0x2008#64 8 == 0x3FF0000000000000#64) = true := by decide +kernel

/-- An invalid rounding mode: static 5, dynamic through `frm = 5` (R401, R409). -/
theorem test_invalid_rounding :
    runs 0x0020D1D3#32 start (fun t => t.core.mBank.cause == 2#64 && t.getF 3#5 == 0#64) = true ∧
    runs 0x0020F1D3#32 (withCore start fun c => { c with fcsr := 0xA0#8 }) (fun t => t.core.mBank.cause == 2#64) = true := by
  decide +kernel

/-- The instruction writes `v` to `f[fd]` after accruing the flags `fl`. -/
def gave (i : Instr) (s : State) (fd : RegIdx) (v : Word) (fl : FpFlags) : Prop :=
  exec i s = .next ((s.accrue fl).wrF fd v)

/-- Which library value goes where, with which rounding mode: static, dynamic (`frm = 2`), the two
roundings of a multiply-add, conversions (R401, R402, R407, R419, R427, R457). -/
theorem test_library_single (s : State) :
    gave (.fdivS 3#5 1#5 2#5 1#3) s 3#5 (box (FPLib.div32 .rtz (s.getS 1#5) (s.getS 2#5)).1)
      (FPLib.div32 .rtz (s.getS 1#5) (s.getS 2#5)).2 ∧
    gave (.fcvtSWU 3#5 5#5 4#3) s 3#5 (box (FPLib.cvt_f32_u32 .rmm ((s.getX 5#5).setWidth 32)).1)
      (FPLib.cvt_f32_u32 .rmm ((s.getX 5#5).setWidth 32)).2 ∧
    exec (.fcvtWUS 5#5 1#5 3#3) s = .next ((s.accrue (FPLib.cvt_u32_f32 .rup (s.getS 1#5)).2).wr 5#5
      ((FPLib.cvt_u32_f32 .rup (s.getS 1#5)).1.signExtend 64)) := by
  exact ⟨rfl, rfl, rfl⟩

theorem test_library_double (s : State) :
    gave (.fsubD 3#5 2#5 1#5 0#3) s 3#5 (FPLib.sub64 .rne (s.getF 2#5) (s.getF 1#5)).1
      (FPLib.sub64 .rne (s.getF 2#5) (s.getF 1#5)).2 ∧
    gave (.fcvtSD 3#5 1#5 2#3) s 3#5 (box (FPLib.cvt_f32_f64 .rdn (s.getF 1#5)).1)
      (FPLib.cvt_f32_f64 .rdn (s.getF 1#5)).2 ∧
    gave (.fnmsubD 4#5 1#5 2#5 3#5 0#3) s 4#5
      ((FPLib.sub64 .rne (FPLib.mul64 .rne (s.getF 1#5) (s.getF 2#5)).1 (s.getF 3#5)).1 ^^^ 0x8000000000000000#64)
      ((FPLib.mul64 .rne (s.getF 1#5) (s.getF 2#5)).2 |||
        (FPLib.sub64 .rne (FPLib.mul64 .rne (s.getF 1#5) (s.getF 2#5)).1 (s.getF 3#5)).2) := by
  exact ⟨rfl, rfl, rfl⟩

theorem test_library_dynamic :
    let s := withCore start fun c => { c with fcsr := 0x40#8 }
    gave (.fsqrtS 3#5 1#5 7#3) s 3#5 (box (FPLib.sqrt32 .rdn (s.getS 1#5)).1) (FPLib.sqrt32 .rdn (s.getS 1#5)).2 := by
  rfl

/-! ## The environment's calls -/

/-- Two cores after reset. -/
def pair : State := State.resetOf { Params.default with ncores := 2 }

/-- The calls pending, next first. -/
def calls (s : State) (l : List Input) : State := { s with inputs := l }

/-- The chosen core steps; the other keeps its state (40_step_and_fetch.md R221). -/
theorem test_select : (match step (calls pair [.select 1]) with
    | .next t => t.core.hartid == 1 && t.core.cycles == 1#64 && t.parked == pair.parked.take 0 ++ [pair.core] &&
      t.inputs == []
    | .fault _ => false
    | .refused _ => false) = true := by decide +kernel

theorem test_refused_calls : refuses (calls pair [.select 2]) .noSuchCore = true ∧
    refuses (calls pair [.setIrq 2 3 true]) .noSuchCore = true ∧
    refuses (calls { pair with halted := some 0#64 } [.setIrq 1 3 true]) .runEnded = true ∧
    refuses { pair with fatal := true } .fatalSet = true := by decide +kernel

/-- `SetIrq` is seen by the step it comes before (60_exceptions.md R493, R497); 95_test_vectors.md
program P7 uses it so. -/
theorem test_set_irq : runs 0x00000013#32 (calls (irqStart .machine 8#64 0#64 0x80#64 0#64 0#64 0#64)
    [.setIrq 0 7 true]) (trapped .machine 0x8000000000000007#64 0x1880#64) = true := by decide +kernel

/-- `Reset` clears the end of the run (70_reset_and_hazards.md R531). -/
theorem test_reset_call : (match step (calls { pair with halted := some 0#64, clock := 9#64 } [.reset]) with
    | .next t => t.halted == none && t.core.cycles == 1#64 && t.core.cur == .machine
    | .fault _ => false
    | .refused _ => false) = true := by decide +kernel

/-! ## Witnesses: for every statement with hypotheses, a state and operands that meet them -/

/-- `runs` shows a step that completes. -/
theorem exists_of_runs {w : BitVec 32} {s : State} {p : State → Bool} (h : runs w s p = true) :
    ∃ t, step (s.withFetchWord 32 w.toNat) = .next t ∧ p t = true := by
  unfold runs at h
  split at h
  next t ht => exact ⟨t, ht, h⟩
  · cases h
  · cases h

/-- `stops` shows a step that ends in a fault. -/
theorem fault_of_stops {w : BitVec 32} {s : State} {r : Fault} (h : stops w s r = true) :
    step (s.withFetchWord 32 w.toNat) = .fault r := by
  unfold stops at h
  split at h
  · cases h
  next q hq => rw [hq, eq_of_beq h]
  · cases h

/-- The machine with `ADDI x1, x0, 5` placed at `pc`. -/
def placed : State := start.withFetchWord 32 0x00500093

theorem witness_DecodeEncode : (Instr.srai 1#5 2#5 63#6).wf .w64 = true ∧
    (Instr.srai 1#5 2#5 31#6).wf .w32 = true ∧ (Instr.jal 31#5 0x100000#21).wf .w32 = true := by decide

theorem witness_EncodeDecode : decode .w64 0x8330000F#32 = .ok .fence ∧
    decode .w32 0x067322AF#32 = .ok (.amoaddW 5#5 6#5 7#5) ∧
    decode .w64 0x43F0D293#32 = .ok (.srai 5#5 1#5 63#6) := by exact ⟨rfl, rfl, rfl⟩

theorem witness_WidthDecode : decode .w32 0x41F15093#32 = .ok (.srai 1#5 2#5 31#6) ∧
    (Instr.srai 1#5 2#5 31#6).rv64Only = false ∧ (Instr.srai 1#5 2#5 31#6).shamtBit5 = false := by
  exact ⟨rfl, rfl, rfl⟩

/-- One word for each clause of R187 after the first two words and the low bits. -/
theorem witness_UnknownWords :
    ((0x000000F3 : Nat) % 2 ^ 7 = 0x73 ∧ 0x000000F3#32 &&& 0xFFF07FFF#32 ≠ 0x10400073#32) ∧
    ((0x00004073 : Nat) % 2 ^ 7 = 0x73 ∧ 0x00004073 / 2 ^ 12 % 8 = 4) ∧
    ((0x00007003 : Nat) % 2 ^ 7 = 0x03 ∧ 0x00007003 / 2 ^ 12 % 8 = 7) ∧
    ((0x00004023 : Nat) % 2 ^ 7 = 0x23 ∧ 4 ≤ 0x00004023 / 2 ^ 12 % 8) ∧
    ((0x00002063 : Nat) % 2 ^ 7 = 0x63 ∧ 0x00002063 / 2 ^ 12 % 8 = 2) ∧
    ((0x00001067 : Nat) % 2 ^ 7 = 0x67 ∧ 0x00001067 / 2 ^ 12 % 8 ≠ 0) ∧
    ((0x0000200F : Nat) % 2 ^ 7 = 0x0F ∧ 2 ≤ 0x0000200F / 2 ^ 12 % 8) ∧
    ((0x40001033 : Nat) % 2 ^ 7 = 0x33 ∧ 0x40001033 / 2 ^ 25 = 0x20 ∧ 0x40001033 / 2 ^ 12 % 8 = 1) ∧
    ((0x0000201B : Nat) % 2 ^ 7 = 0x1B ∧ 0x0000201B / 2 ^ 12 % 8 = 2) ∧
    ((0x1010202F : Nat) % 2 ^ 7 = 0x2F ∧ 0x1010202F / 2 ^ 27 = 2 ∧ 0x1010202F / 2 ^ 20 % 32 ≠ 0) ∧
    ((0x00004007 : Nat) % 2 ^ 7 = 0x07 ∧ 0x00004007 / 2 ^ 12 % 8 = 4) ∧
    ((0x04000043 : Nat) % 2 ^ 7 = 0x43 ∧ 2 ≤ 0x04000043 / 2 ^ 25 % 4) ∧
    ((0x5810F1D3 : Nat) % 2 ^ 7 = 0x53 ∧ 0x5810F1D3 / 2 ^ 25 = 0x2C ∧ 0x5810F1D3 / 2 ^ 20 % 32 ≠ 0) := by
  decide

theorem witness_StepRunsDecoded : placed.inputs = [] ∧ placed.fatal = false ∧ placed.halted = none ∧
    placed.core.pc.toNat % 4 = 0 ∧ placed.startStep.translatePc = .mapped 0x1000#64 placed.startStep ∧
    decode placed.params.arch (wordOfBytes (placed.startStep.mem.read 0x1000) (placed.startStep.mem.read 0x1001)
      (placed.startStep.mem.read 0x1002) (placed.startStep.mem.read 0x1003)) = .ok (.addi 1#5 0#5 5#12) := by
  exact ⟨rfl, rfl, rfl, by decide, by decide +kernel, rfl⟩

/-- A misaligned `pc`, an unmapped one, and a word that is no instruction. -/
theorem witness_StepPseudo :
    (withCore start fun c => { c with pc := 0x80000002#64 }).core.pc.toNat % 4 ≠ 0 ∧
    (trapStart .supervisor 0x09000000#64).core.pc.toNat % 4 = 0 ∧
    (trapStart .supervisor 0x09000000#64).startStep.translatePc = .unmapped ∧
    start.startStep.fetch = .word 0#32 (start.startStep.recRinstr 0#32) ∧
    decode start.params.arch 0#32 = .error .unknownPattern := by
  refine ⟨by decide, by decide, by decide +kernel, by decide +kernel, rfl⟩

theorem witness_ClockTick : ∃ t, step placed = .next t :=
  let ⟨t, h, _⟩ := exists_of_runs (w := 0x00500093#32) (s := start) (p := fun _ => true) (by decide +kernel)
  ⟨t, h⟩

/-- A legal core after reset stays legal whatever is set of its level and its supervisor registers. -/
theorem resetCore_ok (p : Params) (c : Nat) (cur : Priv) (m sptbr cycles : Word) (h : statusOk m = true) :
    ({ Core.reset p c with cur := cur, mstatus := m, sptbr := sptbr, cycles := cycles } : Core).Ok p :=
  { Core.Ok.reset p c with status := h }

theorem pair_inv (l : List Input) : (calls pair l).Inv where
  params := (by decide : pair.params.wf = true)
  mem := rfl
  mem0 := rfl
  cores := by
    intro c hc
    rcases List.mem_cons.mp hc with rfl | hc
    · exact Core.Ok.reset _ 0
    · rcases List.mem_cons.mp hc with rfl | hc
      · exact Core.Ok.reset _ 1
      · cases hc
  idle := by
    intro c hc
    rcases List.mem_cons.mp hc with rfl | hc
    · rfl
    · rcases List.mem_cons.mp hc with rfl | hc
      · rfl
      · cases hc
  ids := (by decide : (insertCore pair.core pair.parked).map Core.hartid = List.range pair.params.ncores)

/-- Each clause: the fatal flag, the end of the run, an id that is no core's, the last core's id,
`SetIrq` on the current core, after a fatal error, after the end of the run, on no core, on a parked
core, `Reset`. -/
theorem witness_EnvironmentCalls :
    (({ pair with fatal := true } : State).inputs = []) ∧
    (({ pair with halted := some 0#64 } : State).halted ≠ none) ∧
    (∀ d ∈ (calls pair [.select 2]).core :: (calls pair [.select 2]).parked, d.hartid ≠ 2) ∧
    ((calls pair [.select 1]).Inv ∧ 1 < (calls pair [.select 1]).params.ncores) ∧
    ((calls pair [.setIrq 0 11 true]).inputs = .setIrq pair.core.hartid 11 true :: [] ∧
      (calls pair [.setIrq 0 11 true]).fatal = false ∧ (calls pair [.setIrq 0 11 true]).halted = none) ∧
    (calls { pair with fatal := true } [.setIrq 1 0 true]).fatal = true ∧
    ((calls { pair with halted := some 0#64 } [.setIrq 1 0 true]).fatal = false ∧
      (calls { pair with halted := some 0#64 } [.setIrq 1 0 true]).halted ≠ none) ∧
    (∀ d ∈ (calls pair [.setIrq 2 0 true]).core :: (calls pair [.setIrq 2 0 true]).parked, d.hartid ≠ 2) ∧
    ((calls pair [.setIrq 1 0 false]).core.hartid ≠ 1 ∧
      ∃ d ∈ (calls pair [.setIrq 1 0 false]).parked, d.hartid = 1) ∧
    (calls pair [.reset]).inputs = .reset :: [] :=
  ⟨rfl, by decide, by decide, ⟨pair_inv _, by decide⟩, ⟨rfl, rfl, rfl⟩, rfl, ⟨rfl, by decide⟩, by decide,
    ⟨by decide, by decide⟩, rfl⟩

/-- `SetIrq` on a parked core sets its bit and no other's (60_exceptions.md R497). -/
theorem test_setIrq_parked : (match step (calls pair [.setIrq 1 3 true]) with
    | .next t => t.core.mip == 0#64 && t.parked.map Core.mip == [8#64]
    | .fault _ => false
    | .refused _ => false) = true := by decide +kernel

/-- A dispatchable interrupt; none, with each outcome the instruction can ask for; a return that is
made and one that is not. -/
theorem witness_ResolveOutcomes :
    (irqStart .machine 8#64 0x80#64 0x80#64 0#64 0#64 0#64).core.checkInterrupts = some (7, .machine) ∧
    start.core.checkInterrupts = none ∧ start.core.next = .none ∧
    (start.raise 2#4 none).core.next = .trap 2#4 none ∧
    ((start.setNext (.ret .machine)).core.next = .ret .machine ∧
      ∃ t, (start.setNext (.ret .machine)).privReturn .machine = .next t) ∧
    ((withCore start fun c => { c with mstatus := 0x600#64, next := .ret .hypervisor }).core.next =
        .ret .hypervisor ∧
      (withCore start fun c => { c with mstatus := 0x600#64, next := .ret .hypervisor }).privReturn .hypervisor =
        .fault .returnAboveLevel) ∧
    (start.setNext (.branch 0x1010#64)).core.next = .branch 0x1010#64 :=
  ⟨by decide +kernel, by decide +kernel, rfl, rfl, ⟨rfl, _, rfl⟩, ⟨rfl, rfl⟩, rfl⟩

/-- An exception with a faulting address from a level below, and an interrupt at the same level. -/
theorem witness_TrapEntryEffect :
    (∃ t, (trapStart .user 1#64).trapEntry false 13#4 .machine 0x1000#64 (some 0x4000#64) = t) ∧
    ∃ t, (trapStart .supervisor 2#64).trapEntry true 5#4 .supervisor 0x1000#64 none = t := ⟨⟨_, rfl⟩, _, rfl⟩

/-- A previous-privilege field above the returning level, and one equal to it. -/
theorem witness_PrivReturnEffect :
    Priv.hypervisor.num < (withCore start fun c => { c with mstatus := 0x600#64 }).core.mstatus.toNat / 2 ^ 9 % 4 ∧
    (withCore start fun c => { c with mstatus := 0x1800#64 }).core.mstatus.toNat / 2 ^ 11 % 4 ≤ Priv.machine.num := by
  decide

theorem placed_inv : placed.Inv where
  params := by decide
  mem := by decide +kernel
  mem0 := rfl
  cores := by
    intro c hc
    rcases List.mem_cons.mp hc with rfl | hc
    · exact { Core.Ok.reset Params.default 0 with pcWidth := rfl }
    · cases hc
  idle := by
    intro c hc
    rcases List.mem_cons.mp hc with rfl | hc
    · rfl
    · cases hc
  ids := by decide +kernel

theorem witness_StepKeepsInv : placed.Inv ∧ ∃ t, step placed = .next t := ⟨placed_inv, witness_ClockTick⟩

/-- The largest number of cores, the smallest TLBs, and a loaded byte at the top of memory. -/
theorem witness_ResetInv :
    ({ Params.default with ncores := 256, tlbEntries := 1, mem0 := [(0, 1#8), (2 ^ 64 - 1, 2#8)] } : Params).wf =
      true ∧ Memory.wf [(0, 1#8), (2 ^ 64 - 1, 2#8)] = true := by decide

/-- An instruction that completes and a register it neither reads nor writes; a step that changes the
register its instruction names, and one that instruction does not read. -/
theorem witness_ExecuteFrame : (∃ t, exec (.addi 1#5 0#5 5#12) start = .next t) ∧
    (Instr.addi 1#5 0#5 5#12).xDest ≠ some 2#5 ∧ 2#5 ∉ (Instr.addi 1#5 0#5 5#12).xSources ∧
    placed.inputs = [] ∧ (∃ t, step placed = .next t ∧ t.getX 1#5 ≠ placed.getX 1#5) ∧
    ∀ w u i, placed.startStep.fetch = .word w u → decode placed.params.arch w = .ok i →
      2#5 ∉ i.xSources := by
  refine ⟨⟨_, rfl⟩, by decide, by decide, rfl, ?_, fun w u i h hd => ?_⟩
  · obtain ⟨t, h, hp⟩ := exists_of_runs (w := 0x00500093#32) (s := start) (p := fun t => t.getX 1#5 != 0#64)
      (by decide +kernel)
    exact ⟨t, h, by rw [show placed.getX 1#5 = 0#64 from rfl]; simpa using hp⟩
  · have hf : placed.startStep.fetch = .word 0x00500093#32 (placed.startStep.recRinstr 0x00500093#32) := by
      decide +kernel
    rw [hf] at h
    injection h with h
    subst h
    have e : decode placed.params.arch 0x00500093#32 = .ok (.addi 1#5 0#5 5#12) := rfl
    rw [e] at hd
    injection hd with hd
    subst hd
    decide

theorem witness_LevelFallsOnlyByReturn : ∃ t,
    step ((trapStart .machine 0x80#64).withFetchWord 32 0x30200073) = .next t ∧
      t.core.cur.num < Priv.machine.num :=
  let ⟨t, h, hp⟩ := exists_of_runs (w := 0x30200073#32) (s := trapStart .machine 0x80#64)
    (p := fun t => decide (t.core.cur.num < Priv.machine.num)) (by decide +kernel)
  ⟨t, h, of_decide_eq_true hp⟩

theorem witness_UserCodeConfined : (trapStart .user 0#64).core.cur = .user ∧
    ∃ t, exec (.csrrw 1#5 0x000#12 2#5) (trapStart .user 0#64) = .next t := ⟨rfl, _, rfl⟩

/-- A state that needs a translation in the unimplemented mode 10, a reservation held at address 0. -/
def mode10 : State := withCore (trapStart .supervisor 0x0A000000#64) fun c => { c with resv := some 0#64 }

/-- HRET placed at machine level with `HPP = 3`. -/
def hretAbove : State := (trapStart .machine 0x600#64).withFetchWord 32 0x20200073

/-- What the clauses on the ways into a fatal error assume: each kind of access, a fetch, a return below
its level, a fetched instruction that faults, and HRET resolved with no interrupt. -/
theorem witness_fatalWays :
    (mode10.params.arch.addr (mode10.params.arch.U (mode10.getX 0#5))).toNat % 8 = 0 ∧
    mode10.translateData 0#64 .read = .fatal ∧ mode10.translateData 0#64 .write = .fatal ∧
    mode10.translateData 0#64 .readWrite = .fatal ∧ mode10.core.resv = some 0#64 ∧
    mode10.inputs = [] ∧ mode10.fatal = false ∧ mode10.halted = none ∧ mode10.core.pc.toNat % 4 = 0 ∧
    mode10.startStep.translatePc = .fatal ∧
    returnLevel .sret = some .supervisor ∧ (trapStart .user 0#64).core.cur.num < Priv.supervisor.num ∧
    (match ((trapStart .user 0#64).withFetchWord 32 0x10200073).startStep.fetch with
      | .word w u => decode .w64 w = .ok .sret ∧ exec .sret u = .fault .returnBelowLevel
      | _ => False) ∧
    (match hretAbove.startStep.fetchExecute with
      | .next t => t.core.checkInterrupts = none ∧ t.core.next = .ret .hypervisor ∧
          t.core.mstatus.toNat / 2 ^ 9 % 4 = 3
      | _ => False) := by
  refine ⟨by decide, by decide +kernel, by decide +kernel, by decide +kernel, rfl, rfl, rfl, rfl, by decide,
    by decide +kernel, rfl, by decide, ⟨rfl, rfl⟩, ⟨rfl, rfl, rfl⟩⟩

/-- An instruction below its level; the three faults of a step. -/
theorem witness_FatalConditions : exec .sret (trapStart .user 0#64) = .fault .returnBelowLevel ∧
    step ((trapStart .supervisor 0x0A000000#64).withFetchWord 32 0x00000013) =
      .fault .unimplementedTranslationMode ∧
    step ((trapStart .user 0#64).withFetchWord 32 0x10200073) = .fault .returnBelowLevel ∧
    step ((trapStart .machine 0x600#64).withFetchWord 32 0x20200073) = .fault .returnAboveLevel :=
  ⟨rfl, fault_of_stops (w := 0x00000013#32) test_fatal.2.2.2.2.1, fault_of_stops (w := 0x10200073#32) test_fatal.1,
    fault_of_stops (w := 0x20200073#32) test_fatal.2.2.2.1⟩

theorem witness_MachineLevelCompletes : start.core.cur = .machine ∧ start.core.mstatus.getLsbD 17 = false := by
  decide

theorem witness_ImmediateResults : (Instr.slli 1#5 2#5 63#6).wf start.params.arch = true ∧
    (Instr.slli 1#5 2#5 31#6).wf start32.params.arch = true := by decide

/-- The same hypothesis stands in every clause on an instruction of width 64. -/
theorem witness_WordResults : start.params.arch = .w64 := rfl

/-- A zero divisor (at width 32 only the low half counts), the overflow, and the general case. -/
theorem witness_DivideResults : Xlen.w64.U 0#64 = 0 ∧ Xlen.w32.U 0x100000000#64 = 0 ∧
    (Xlen.w64.S 0x8000000000000000#64 = -2 ^ (Xlen.w64.bits - 1) ∧ Xlen.w64.S 0xFFFFFFFFFFFFFFFF#64 = -1) ∧
    (Xlen.w32.S 0xFFFFFFFF80000000#64 = -2 ^ (Xlen.w32.bits - 1) ∧ Xlen.w32.S 0xFFFFFFFFFFFFFFFF#64 = -1) ∧
    (Xlen.w64.U 0xFFFFFFFFFFFFFFFF#64 ≠ 0 ∧ ¬(Xlen.w64.S 0x8000000000000001#64 = -2 ^ (Xlen.w64.bits - 1))) := by
  decide

theorem witness_WordMulDivResults : start.params.arch = .w64 ∧ lowU 0x100000000#64 = 0 ∧
    (lowS 0x80000000#64 = -2 ^ 31 ∧ lowS 0xFFFFFFFF#64 = -1) ∧
    (lowU 0xFFFFFFFF#64 ≠ 0 ∧ ¬(lowS 0x80000001#64 = -2 ^ 31)) := by decide

/-- An aligned target and a misaligned one, of JAL and of JALR. -/
theorem witness_JumpResults :
    (start.params.arch.addr (start.core.pc.toNat + (16#21).toInt)).toNat % 4 = 0 ∧
    (start.params.arch.addr (start.core.pc.toNat + (2#21).toInt)).toNat % 4 ≠ 0 ∧
    (start.params.arch.addr ((Xlen.w64.S 0x80000101#64 + (4#12).toInt) / 2 * 2)).toNat % 4 = 0 ∧
    (start.params.arch.addr ((Xlen.w64.S 0x80000102#64 + (4#12).toInt) / 2 * 2)).toNat % 4 ≠ 0 := by decide

/-- Taken and not taken, signed and unsigned, to an aligned and to a misaligned target. -/
theorem witness_BranchResults :
    (Xlen.w64.S 0xFFFFFFFFFFFFFFFF#64 < Xlen.w64.S 0#64 ∧ ¬Xlen.w64.U 0xFFFFFFFFFFFFFFFF#64 < Xlen.w64.U 0#64) ∧
    (start.params.arch.addr (start.core.pc.toNat + (0x1FFC#13).toInt)).toNat % 4 = 0 ∧
    (start.params.arch.addr (start.core.pc.toNat + (4094#13).toInt)).toNat % 4 ≠ 0 := by decide

/-- The translation tree of T1, at user level. -/
def userTree : State := withCore tree fun c => { c with cur := .user }

/-- The identity, and a page of the tree. -/
theorem witness_LoadResults : start.translateData 0x2003#64 .read = .mapped 0x2003#64 start ∧
    ∃ u, userTree.translateData 0x40201ABC#64 .read = .mapped 0x80005ABC#64 u := by
  exact ⟨by decide +kernel, _, rfl⟩

theorem witness_StoreResults : start32.translateData 0x2003#64 .write = .mapped 0x2003#64 start32 ∧
    ∃ u, userTree.translateData 0x40201ABC#64 .write = .mapped 0x80005ABC#64 u := by
  exact ⟨by decide +kernel, _, rfl⟩

/-- Each kind of access to an unmapped page; the SC needs its reservation. -/
theorem witness_DataPageFaults : userTree.translateData 0x4000#64 .read = .unmapped ∧
    userTree.translateData 0x4000#64 .write = .unmapped ∧
    userTree.translateData 0x4000#64 .readWrite = .unmapped ∧
    (withCore userTree fun c => { c with resv := some 0x4000#64 }).translateData 0x4000#64 .write = .unmapped ∧
    (withCore userTree fun c => { c with resv := some 0x4000#64 }).core.resv = some 0x4000#64 := by
  decide +kernel

theorem witness_PlainSystemResults : returnLevel .mret = some .machine ∧
    Priv.machine.num ≤ start.core.cur.num ∧
    returnLevel .sret = some .supervisor ∧ (trapStart .user 0#64).core.cur.num < Priv.supervisor.num := by decide

/-- An aligned address that translates, one with and one without its reservation, a misaligned one. -/
theorem witness_ReservedPair : (0x2000#64).toNat % 8 = 0 ∧ (0x2004#64).toNat % 8 ≠ 0 ∧
    (shared 8).translateData 0x2000#64 .read = .mapped 0x2000#64 (shared 8) ∧
    (withCore (shared 8) fun c => { c with resv := some 0x2000#64 }).core.resv = some 0x2000#64 ∧
    (shared 8).core.resv ≠ some 0x2000#64 := by
  exact ⟨by decide, by decide, by decide +kernel, rfl, by decide⟩

theorem witness_AmoWordResults : (0x2000#64).toNat % 4 = 0 ∧ (0x2002#64).toNat % 4 ≠ 0 ∧
    (shared 4).translateData 0x2000#64 .readWrite = .mapped 0x2000#64 (shared 4) ∧
    ∃ u, userTree.translateData 0x40201ABC#64 .readWrite = .mapped 0x80005ABC#64 u := by
  exact ⟨by decide, by decide, by decide +kernel, _, rfl⟩

theorem witness_AmoDoubleResults : (shared 8).params.arch = .w64 ∧ (0x2000#64).toNat % 8 = 0 ∧
    (0x2004#64).toNat % 8 ≠ 0 ∧
    (shared 8).translateData 0x2000#64 .readWrite = .mapped 0x2000#64 (shared 8) := by
  exact ⟨rfl, by decide, by decide, by decide +kernel⟩

theorem witness_ReservationRule : (∃ t, exec (.lrW 5#5 6#5) (shared 4) = .next t) ∧
    (∃ t, start.resolve = .next t) ∧ ∃ w u, start.fetch = .word w u :=
  ⟨⟨_, rfl⟩, ⟨_, rfl⟩, _, _, rfl⟩

/-- Allowed: a write at machine level, a counter of width 32, a user counter where its bit is set.
Refused: a write to a read-only address, a level too low. -/
theorem witness_CsrInstructions : CsrAllowed start 0x340#12 true ∧ (0x340#12, Csr.mscratch) ∈ csrMap ∧
    CsrAllowed start32 0xB80#12 true ∧
    CsrAllowed (withCore start fun c => { c with cur := .user, mucounteren := 4#64 }) 0xC02#12 false ∧
    ¬CsrAllowed start 0xF14#12 true ∧ ¬CsrAllowed (trapStart .user 0#64) 0x100#12 false := by
  refine ⟨⟨⟨.mscratch, by decide⟩, by decide, by decide, by decide, fun _ => trivial⟩, by decide,
    ⟨⟨.mcycleh, by decide⟩, by decide, by decide, by decide, fun _ => trivial⟩,
    ⟨⟨.instret, by decide⟩, by decide, by decide, by decide, fun _ => (by decide : (4#64).getLsbD 2 = true)⟩,
    fun h => absurd (h.writable rfl) (by decide), fun h => absurd h.level (by decide)⟩

theorem witness_CsrReads : (∃ p ∈ csrContents, p.1 = .mcycle) ∧ start.params.arch = .w64 ∧
    start32.params.arch = .w32 := by
  exact ⟨⟨(.mcycle, fun s => s.core.cycles), by simp [csrContents, csrContentsMachine], rfl⟩, rfl, rfl⟩

theorem witness_CsrStoredWrites : (∃ p ∈ storedRegisters, p.1 = .mhcounteren) ∧
    ∃ p ∈ causeRegisters, p.1 = .ucause := by
  exact ⟨by simp [storedRegisters], by simp [causeRegisters]⟩

theorem witness_HypervisorWrites : start.params.hypCsrWrites = .inert ∧
    ({ start with params := { start.params with hypCsrWrites := .symmetric } } : State).params.hypCsrWrites =
      .symmetric ∧ ∃ p ∈ hypRegisters, p.1 = .hbadaddr := by
  exact ⟨rfl, rfl, by simp [hypRegisters]⟩

theorem witness_ViewWrites :
    ({ start32 with params := { start32.params with hypCsrWrites := .symmetric } } : State).params.hypCsrWrites =
      .symmetric := rfl

theorem witness_FieldWrites : start32.params.arch = .w32 ∧ (Csr.mcycle = .mcycleh → start.params.arch = .w32) :=
  ⟨rfl, fun h => by cases h⟩

/-- An inert write to `hcause` at width 32 records its native value (10_state.md R46, R48). -/
theorem test_inert_record :
    (start32.csrWrite 0x242#12 .hcause 0xFFFFFFFF80000002#64).core.delta.data2 = some 0x8000000000000002#64 ∧
    (start32.csrWrite 0x242#12 .hcause 0xFFFFFFFF80000002#64).core.hBank.cause = 0#64 := by decide +kernel

theorem witness_CallsAndBreakpoints : (trapStart .user 1#64).core.checkInterrupts = none := by decide +kernel

/-- Both levels; a filled slot that stays and an address given. -/
theorem witness_FlushResults : (trapStart .user 0#64).core.cur = .user ∧ start.core.cur ≠ .user ∧
    ((withCore start fun c => { c with tlb39 := [gigapage 5#26 true 0#64] }).core.tlb .sv39)[0]? =
      some (gigapage 5#26 true 0#64) := by
  exact ⟨rfl, by decide, rfl⟩

/-- Loads and stores at width 32, at any alignment. -/
theorem witness_FloatMemory : start32.translateData 0x2003#64 .read = .mapped 0x2003#64 start32 ∧
    start32.translateData 0xFFFFFFFF#64 .write = .mapped 0xFFFFFFFF#64 start32 := by decide +kernel

/-- Static and dynamic, at the ends of the range. -/
theorem witness_SingleArithmetic : Selects 0#3 0#8 .rne ∧ Selects 4#3 0#8 .rmm ∧ Selects 7#3 0x80#8 .rmm ∧
    Selects 7#3 0x1F#8 .rne := by
  exact ⟨.inl rfl, .inl rfl, .inr ⟨rfl, rfl⟩, .inr ⟨rfl, rfl⟩⟩

theorem witness_DoubleArithmetic : Selects 1#3 0#8 .rtz ∧ Selects 7#3 0x5F#8 .rdn := ⟨.inl rfl, .inr ⟨rfl, rfl⟩⟩

theorem witness_SingleConversions : Selects 3#3 0#8 .rup ∧ Selects 7#3 0x20#8 .rtz ∧ start.params.arch = .w64 :=
  ⟨.inl rfl, .inr ⟨rfl, rfl⟩, rfl⟩

theorem witness_DoubleConversions : Selects 4#3 0#8 .rmm ∧ Selects 7#3 0x60#8 .rup ∧ start.params.arch = .w64 :=
  ⟨.inl rfl, .inr ⟨rfl, rfl⟩, rfl⟩

/-- NaNs of both kinds, infinity, zeros, numbers: the least and the largest of each class. -/
theorem witness_SingleSelection : (nan32 0x7F800001#32 ∧ snan32 0x7F800001#32) ∧
    (nan32 0xFFC00000#32 ∧ ¬snan32 0xFFC00000#32) ∧ ¬nan32 0x7F800000#32 ∧ ¬nan32 0xFF800000#32 ∧
    ((0x80000000#32).toNat % 2 ^ 31 = 0 ∧ ¬nan32 0x80000000#32) ∧
    ((0x00000001#32).toNat % 2 ^ 31 ≠ 0 ∧ ¬nan32 0x00000001#32) := by
  simp [nan32, snan32]

theorem witness_DoubleSelection : (nan64 0x7FF0000000000001#64 ∧ snan64 0x7FF0000000000001#64) ∧
    (nan64 0xFFF8000000000000#64 ∧ ¬snan64 0xFFF8000000000000#64) ∧ ¬nan64 0x7FF0000000000000#64 ∧
    ¬nan64 0xFFF0000000000000#64 ∧
    ((0x8000000000000000#64).toNat % 2 ^ 63 = 0 ∧ ¬nan64 0x8000000000000000#64) ∧
    ((0x0000000000000001#64).toNat % 2 ^ 63 ≠ 0 ∧ ¬nan64 0x0000000000000001#64) := by
  simp [nan64, snan64]

/-- The reserved codes, and the dynamic mode with `frm = 5`. -/
theorem witness_InvalidRounding : (5#3 = 5#3 ∧ 6#3 = 6#3) ∧
    4 < (withCore start fun c => { c with fcsr := 0xA0#8 }).core.fcsr.toNat / 32 := by decide

/-- Eight bytes that wrap at the top of memory; a canonical memory. -/
theorem witness_MemoryLaws : 8 ≤ 8 ∧ (0xFFFFFFFFFFFFFFFC#64).toNat + 7 > 2 ^ 64 ∧
    Memory.wf [(0, 1#8), (2 ^ 64 - 1, 2#8)] = true := by decide

/-- A level below machine with each implemented mode, with mode 0, and with one that is fatal. -/
theorem witness_TranslateContract : Priv.user ≠ .machine ∧ (0x08000000#64).toNat / 2 ^ 24 % 32 = 8 ∧
    (0x09000000#64).toNat / 2 ^ 24 % 32 = 9 ∧ start.core.mstatus.toNat / 2 ^ 24 % 32 = 0 ∧
    tree.translate 0#64 .read .machine false false = .mapped 0#64 tree ∧
    (trapStart .user 0x0A000000#64).translate 0#64 .read .user false false = .fatal ∧
    start.core.mstatus.getLsbD 17 = false ∧ (0x09020800#64 : Word).getLsbD 17 = true ∧
    Priv.supervisor.num = (0x09020800#64).toNat / 2 ^ 11 % 4 := by
  exact ⟨by decide, by decide, by decide, by decide, by decide +kernel, by decide +kernel, by decide,
    by decide, by decide⟩

/-- With `MPRV` set a data access at machine level is translated as `MPP` says, here supervisor; the
fetch is not (20_memory.md R131). -/
theorem test_mprv : (withCore tree fun c => { c with mstatus := 0x09020800#64 }).translateData 0#64 .read =
      .unmapped ∧
    (withCore tree fun c => { c with mstatus := 0x09000800#64 }).translateData 0#64 .read =
      .mapped 0#64 (withCore tree fun c => { c with mstatus := 0x09000800#64 }) ∧
    (withCore tree fun c => { c with mstatus := 0x09020800#64 }).translatePc =
      .mapped tree.core.pc (withCore tree fun c => { c with mstatus := 0x09020800#64 }) := by
  decide +kernel

/-- No slot of an empty TLB answers. -/
theorem empty_no_answer (j : Nat) (e : TlbEntry .sv39) :
    ¬Answers (tree.core.tlb .sv39) 5#26 0x40201ABC#64 j e := by
  rintro ⟨h, -⟩
  have : tree.core.tlb .sv39 = List.replicate 16 none := rfl
  rw [this, List.getElem?_replicate] at h
  split at h <;> cases h

/-- Each clause: a hit in the lowest slot, permitted (read) and not (a supervisor access with `PUM`), with
the dirty bit to set (write); a miss with a leaf, and one without. -/
theorem witness_TranslateFrame :
    (∃ e, Answers (warm.core.tlb .sv39) 5#26 0x40201ABC#64 0 e ∧
      permOk e.pte .read .user false false = true ∧ permOk e.pte .read .supervisor false true = false ∧
      adUpdate e.pte .write ≠ e.pte) ∧
    (∀ j e, ¬Answers (tree.core.tlb .sv39) 5#26 0x40201ABC#64 j e) ∧
    0 < (tree.core.tlb .sv39).length ∧
    (walk .sv39 tree.mem tree.core.sptbr 0x40201ABC#64 .read .user false false).isSome = true ∧
    walk .sv39 tree.mem tree.core.sptbr 0x40201ABC#64 .read .supervisor false true = none := by
  refine ⟨⟨⟨5#26, false, 0x40201000#64, 0x7FFFFFF000#64, 0x80005000#64, 0xFFF#64, 0x20001457#64,
    0x80003008#64, 100#64⟩, ⟨by decide +kernel, .inr rfl, by decide⟩, by decide, by decide, by decide⟩,
    empty_no_answer, by decide, by decide +kernel, by decide +kernel⟩

/-- A walk that maps, then a hit in the slot it filled. -/
theorem warm_translations :
    tree.translatePaged .sv39 0x40201ABC#64 .read .user false false = .mapped 0x80005ABC#64 warm ∧
    (tree.core.tlb .sv39).lookup (VmFormat.asidOf .sv39 tree.core.sptbr) 0x40201ABC#64 = none ∧
    (walk .sv39 tree.mem tree.core.sptbr 0x40201ABC#64 .read .user false false).isSome = true ∧
    warm.translatePaged .sv39 0x40201ABC#64 .read .user false false = .mapped 0x80005ABC#64 warm ∧
    ((warm.core.tlb .sv39).lookup (VmFormat.asidOf .sv39 warm.core.sptbr) 0x40201ABC#64).isSome = true := by
  decide +kernel

theorem witness_TlbTransparency : tree.Inv ∧
    tree.translatePaged .sv39 0x40201ABC#64 .read .user false false = .mapped 0x80005ABC#64 warm := by
  refine ⟨⟨by decide, by decide +kernel, rfl, ?_, ?_, by decide +kernel⟩, warm_translations.1⟩
  · intro c hc
    rcases List.mem_cons.mp hc with rfl | hc
    · exact { resetCore_ok Params.default 0 .machine 0x09000000#64 0x0000014000080001#64 100#64 (by decide) with
        pcWidth := rfl }
    · cases hc
  · intro c hc
    rcases List.mem_cons.mp hc with rfl | hc
    · rfl
    · cases hc

/-- A leaf of each level reached through valid pointers, and a walk that fails. -/
theorem witness_WalkThreeLevels :
    walk .sv39 superpages.mem superpages.core.sptbr 0xC2345678#64 .write .supervisor false false =
      some ⟨2, 0x3048D06F#64, 0x80001018#64, true⟩ ∧
    walk .sv39 superpages.mem superpages.core.sptbr 0x40412345#64 .read .supervisor false false =
      some ⟨1, 0x2011584B#64, 0x80002010#64, false⟩ ∧
    walk .sv39 superpages.mem superpages.core.sptbr 0x40201ABC#64 .read .user false false =
      some ⟨0, 0x20001417#64, 0x80003008#64, false⟩ ∧
    walk .sv39 superpages.mem superpages.core.sptbr 0#64 .read .user false false = none := by decide +kernel

theorem witness_WalkTwoLevels :
    walk .sv32 (tree32 0x2011584B#64).mem 0x80001#64 0x00C01ABC#64 .read .supervisor false false =
      some ⟨1, 0x2011584B#32, 0x8000100C#64, false⟩ ∧
    walk .sv32 (tree32 0x20000801#64).mem 0x80001#64 0x00C01ABC#64 .read .user false false =
      some ⟨0, 0x20001417#32, 0x80002004#64, false⟩ ∧
    walk .sv32 (tree32 0x20000801#64).mem 0x80001#64 0x00800000#64 .read .user false false = none := by
  decide +kernel

end Sys2Proof.Tests
end

section
/-!
PROOF. Encoding a decoded word gives the word back, its ignored bits cleared (30_encoding.md R189, R192).

A field read from a word and placed again is the word under the field's mask, so a format's encoder on the
fields of `w` answers the row's `match` and the bits of `w` that stand in the format's fields. In every row of
the table those are the bits that neither the row's `mask` fixes nor R192 ignores.
-/

namespace Sys2Proof

/-! ## The fields of a word put back -/

/-- A field read from a word and placed where it was read is the word under the field's mask. -/
theorem place_extractLsb' (lo n : Nat) (w : BitVec 32) :
    place lo (w.extractLsb' lo n) = w &&& place lo (BitVec.allOnes n) := by
  apply BitVec.eq_of_getLsbD_eq
  intro i _
  simp only [BitVec.getLsbD_and, getLsbD_place, BitVec.getLsbD_extractLsb', BitVec.getLsbD_allOnes]
  by_cases hlo : lo ≤ i
  · rw [Nat.add_sub_cancel' hlo]
    ac_rfl
  · simp [hlo]

section
variable (w m : BitVec 32)

theorem encU_fields : encU m (rdField w) (immU w) = m ||| (w &&& 0xffffff80#32) := by
  simp only [encU, rdField, immU, place_extractLsb', BitVec.or_assoc, ← BitVec.and_or_distrib_left]
  rfl

theorem encJ_fields : encJ m (rdField w) (immJ w) = m ||| (w &&& 0xffffff80#32) := by
  simp only [encJ, rdField, immJ, BitVec.extractLsb'_append_eq_of_le, BitVec.extractLsb'_append_eq_right,
    BitVec.extractLsb'_eq_self, Nat.reduceLeDiff, Nat.reduceSub,
    place_extractLsb', BitVec.or_assoc, ← BitVec.and_or_distrib_left]
  rfl

theorem encB_fields : encB m (rs1Field w) (rs2Field w) (immB w) = m ||| (w &&& 0xffff8f80#32) := by
  simp only [encB, rs1Field, rs2Field, immB, BitVec.extractLsb'_append_eq_of_le,
    BitVec.extractLsb'_append_eq_right, BitVec.extractLsb'_eq_self, Nat.reduceLeDiff, Nat.reduceSub,
    place_extractLsb', BitVec.or_assoc, ← BitVec.and_or_distrib_left]
  rfl

theorem encI_fields : encI m (rdField w) (rs1Field w) (immI w) = m ||| (w &&& 0xffff8f80#32) := by
  simp only [encI, rdField, rs1Field, immI, place_extractLsb', BitVec.or_assoc, ← BitVec.and_or_distrib_left]
  rfl

theorem encS_fields : encS m (rs1Field w) (rs2Field w) (immS w) = m ||| (w &&& 0xffff8f80#32) := by
  simp only [encS, rs1Field, rs2Field, immS, BitVec.extractLsb'_append_eq_left,
    BitVec.extractLsb'_append_eq_right, place_extractLsb', BitVec.or_assoc, ← BitVec.and_or_distrib_left]
  rfl

theorem encShift64_fields :
    encShift64 m (rdField w) (rs1Field w) (shamt6 w) = m ||| (w &&& 0x03ff8f80#32) := by
  simp only [encShift64, rdField, rs1Field, shamt6, place_extractLsb', BitVec.or_assoc,
    ← BitVec.and_or_distrib_left]
  rfl

theorem encShift32_fields :
    encShift32 m (rdField w) (rs1Field w) (rs2Field w) = m ||| (w &&& 0x01ff8f80#32) := by
  simp only [encShift32, rdField, rs1Field, rs2Field, place_extractLsb', BitVec.or_assoc,
    ← BitVec.and_or_distrib_left]
  rfl

theorem encR_fields : encR m (rdField w) (rs1Field w) (rs2Field w) = m ||| (w &&& 0x01ff8f80#32) := by
  simp only [encR, rdField, rs1Field, rs2Field, place_extractLsb', BitVec.or_assoc,
    ← BitVec.and_or_distrib_left]
  rfl

theorem encR1_fields : encR1 m (rdField w) (rs1Field w) = m ||| (w &&& 0x000f8f80#32) := by
  simp only [encR1, rdField, rs1Field, place_extractLsb', BitVec.or_assoc, ← BitVec.and_or_distrib_left]
  rfl

theorem encRs1_fields : encRs1 m (rs1Field w) = m ||| (w &&& 0x000f8000#32) := by
  simp only [encRs1, rs1Field, place_extractLsb']
  rfl

theorem encCsr_fields : encCsr m (rdField w) (immI w) (rs1Field w) = m ||| (w &&& 0xffff8f80#32) := by
  simp only [encCsr, rdField, rs1Field, immI, place_extractLsb', BitVec.or_assoc,
    ← BitVec.and_or_distrib_left]
  rfl

theorem encRm_fields :
    encRm m (rdField w) (rs1Field w) (rs2Field w) (rmField w) = m ||| (w &&& 0x01ffff80#32) := by
  simp only [encRm, rdField, rs1Field, rs2Field, rmField, place_extractLsb', BitVec.or_assoc,
    ← BitVec.and_or_distrib_left]
  rfl

theorem encRm1_fields : encRm1 m (rdField w) (rs1Field w) (rmField w) = m ||| (w &&& 0x000fff80#32) := by
  simp only [encRm1, rdField, rs1Field, rmField, place_extractLsb', BitVec.or_assoc,
    ← BitVec.and_or_distrib_left]
  rfl

theorem encR4_fields :
    encR4 m (rdField w) (rs1Field w) (rs2Field w) (rs3Field w) (rmField w) =
      m ||| (w &&& 0xf9ffff80#32) := by
  simp only [encR4, rdField, rs1Field, rs2Field, rs3Field, rmField, place_extractLsb', BitVec.or_assoc,
    ← BitVec.and_or_distrib_left]
  rfl

end

/-- A format without operands: the word is the row's `match`. -/
theorem no_fields (w m : BitVec 32) : m = m ||| (w &&& 0#32) := by simp

/-! ## The ignored bits -/

/-- The bits of a word that decoding ignores (R192), a function of the opcode. -/
def ignoredBits (w : BitVec 32) : BitVec 32 :=
  if w.toNat % 128 = 0x2F then 0x06000000#32
  else if w.toNat % 128 = 0x0F then 0xFFFF8F80#32 else 0#32

theorem ignoredBits_congr {v w : BitVec 32} (h : v.setWidth 7 = w.setWidth 7) :
    ignoredBits v = ignoredBits w := by
  have hmod : v.toNat % 128 = w.toNat % 128 := by
    simpa only [BitVec.toNat_setWidth] using congrArg BitVec.toNat h
  simp only [ignoredBits, hmod]

/-! ## The rows of the table -/

/-- Every row fixes the whole opcode (R184). -/
theorem mask_opcode : ∀ r ∈ table, r.mask.setWidth 7 = BitVec.allOnes 7 := by decide +kernel

/-- No row fixes a bit that R192 ignores. -/
theorem mask_and_ignoredBits : ∀ r ∈ table, r.mask &&& ignoredBits r.mtch = 0#32 := by decide +kernel

/-- Encoding what the row builds from a word gives the row's `match` and the bits of the word that are neither
fixed by the row nor ignored. -/
def Row.Reencodes (r : Row) : Prop :=
  ∀ w, encode (r.build w) = r.mtch ||| (w &&& ~~~(r.mask ||| ignoredBits r.mtch))

/-- A row whose format's operands `f` are the bits neither fixed nor ignored. -/
theorem reencodes_of_fields {r : Row} {f : BitVec 32}
    (henc : ∀ w, encode (r.build w) = r.mtch ||| (w &&& f))
    (hf : ~~~(r.mask ||| ignoredBits r.mtch) = f) : r.Reencodes := by
  intro w
  rw [henc, hf]

/-! The rows of each table, in its order, by the lemma of their format. -/

theorem tableInteger_reencodes : ∀ r ∈ tableInteger, r.Reencodes := by
  simp only [tableInteger, List.forall_mem_cons]
  and_intros
  iterate 2 exact reencodes_of_fields (encU_fields · _) rfl
  iterate 6 exact reencodes_of_fields (encI_fields · _) rfl
  iterate 3 exact reencodes_of_fields (encShift64_fields · _) rfl
  iterate 10 exact reencodes_of_fields (encR_fields · _) rfl
  exact reencodes_of_fields (encI_fields · _) rfl
  iterate 3 exact reencodes_of_fields (encShift32_fields · _) rfl
  iterate 5 exact reencodes_of_fields (encR_fields · _) rfl
  exact List.forall_mem_nil _

theorem tableControl_reencodes : ∀ r ∈ tableControl, r.Reencodes := by
  simp only [tableControl, List.forall_mem_cons]
  and_intros
  exact reencodes_of_fields (encJ_fields · _) rfl
  exact reencodes_of_fields (encI_fields · _) rfl
  iterate 6 exact reencodes_of_fields (encB_fields · _) rfl
  exact List.forall_mem_nil _

theorem tableLoadStore_reencodes : ∀ r ∈ tableLoadStore, r.Reencodes := by
  simp only [tableLoadStore, List.forall_mem_cons]
  and_intros
  iterate 7 exact reencodes_of_fields (encI_fields · _) rfl
  iterate 4 exact reencodes_of_fields (encS_fields · _) rfl
  iterate 2 exact reencodes_of_fields (no_fields · _) rfl
  exact List.forall_mem_nil _

theorem tableMulDiv_reencodes : ∀ r ∈ tableMulDiv, r.Reencodes := by
  simp only [tableMulDiv, List.forall_mem_cons]
  and_intros
  iterate 13 exact reencodes_of_fields (encR_fields · _) rfl
  exact List.forall_mem_nil _

theorem tableAtomic_reencodes : ∀ r ∈ tableAtomic, r.Reencodes := by
  simp only [tableAtomic, List.forall_mem_cons]
  and_intros
  iterate 2 exact reencodes_of_fields (encR1_fields · _) rfl
  iterate 20 exact reencodes_of_fields (encR_fields · _) rfl
  exact List.forall_mem_nil _

theorem tableSystem_reencodes : ∀ r ∈ tableSystem, r.Reencodes := by
  simp only [tableSystem, List.forall_mem_cons]
  and_intros
  iterate 6 exact reencodes_of_fields (encCsr_fields · _) rfl
  iterate 7 exact reencodes_of_fields (no_fields · _) rfl
  exact reencodes_of_fields (encRs1_fields · _) rfl
  exact List.forall_mem_nil _

theorem tableFloatSingle_reencodes : ∀ r ∈ tableFloatSingle, r.Reencodes := by
  simp only [tableFloatSingle, List.forall_mem_cons]
  and_intros
  exact reencodes_of_fields (encI_fields · _) rfl
  exact reencodes_of_fields (encS_fields · _) rfl
  iterate 4 exact reencodes_of_fields (encR4_fields · _) rfl
  iterate 4 exact reencodes_of_fields (encRm_fields · _) rfl
  exact reencodes_of_fields (encRm1_fields · _) rfl
  iterate 5 exact reencodes_of_fields (encR_fields · _) rfl
  iterate 2 exact reencodes_of_fields (encRm1_fields · _) rfl
  exact reencodes_of_fields (encR1_fields · _) rfl
  iterate 3 exact reencodes_of_fields (encR_fields · _) rfl
  exact reencodes_of_fields (encR1_fields · _) rfl
  iterate 2 exact reencodes_of_fields (encRm1_fields · _) rfl
  exact reencodes_of_fields (encR1_fields · _) rfl
  iterate 4 exact reencodes_of_fields (encRm1_fields · _) rfl
  exact List.forall_mem_nil _

theorem tableFloatDouble_reencodes : ∀ r ∈ tableFloatDouble, r.Reencodes := by
  simp only [tableFloatDouble, List.forall_mem_cons]
  and_intros
  exact reencodes_of_fields (encI_fields · _) rfl
  exact reencodes_of_fields (encS_fields · _) rfl
  iterate 4 exact reencodes_of_fields (encR4_fields · _) rfl
  iterate 4 exact reencodes_of_fields (encRm_fields · _) rfl
  exact reencodes_of_fields (encRm1_fields · _) rfl
  iterate 5 exact reencodes_of_fields (encR_fields · _) rfl
  iterate 2 exact reencodes_of_fields (encRm1_fields · _) rfl
  iterate 3 exact reencodes_of_fields (encR_fields · _) rfl
  exact reencodes_of_fields (encR1_fields · _) rfl
  iterate 6 exact reencodes_of_fields (encRm1_fields · _) rfl
  exact reencodes_of_fields (encR1_fields · _) rfl
  iterate 2 exact reencodes_of_fields (encRm1_fields · _) rfl
  exact reencodes_of_fields (encR1_fields · _) rfl
  exact List.forall_mem_nil _

theorem table_reencodes : ∀ r ∈ table, r.Reencodes := by
  simp only [table, List.forall_mem_append]
  exact ⟨⟨⟨⟨⟨⟨⟨tableInteger_reencodes, tableControl_reencodes⟩, tableLoadStore_reencodes⟩,
    tableMulDiv_reencodes⟩, tableAtomic_reencodes⟩, tableSystem_reencodes⟩, tableFloatSingle_reencodes⟩,
    tableFloatDouble_reencodes⟩

/-! ## Decoding, then encoding -/

theorem Row.fits_iff (r : Row) (w : BitVec 32) : r.fits w = true ↔ w &&& r.mask = r.mtch := beq_iff_eq

/-- What decodes is what a row of the table that fits the word builds (R186). -/
theorem exists_row_of_decode {x : Xlen} {w : BitVec 32} {i : Instr} (h : decode x w = .ok i) :
    ∃ r ∈ table, w &&& r.mask = r.mtch ∧ i = r.build w := by
  unfold decode at h
  split at h
  · cases h
  next r hr =>
    have hfits : r.fits w = true := List.find?_some (p := fun r : Row => r.fits w) hr
    refine ⟨r, List.mem_of_find?_eq_some hr, (r.fits_iff w).1 hfits, ?_⟩
    cases x with
    | w64 => exact (Except.ok.inj h).symm
    | w32 =>
      dsimp only at h
      split at h
      · cases h
      · split at h
        · cases h
        · exact (Except.ok.inj h).symm

/-- A word's ignored bits are those of the `match` of a row it fits. -/
theorem ignoredBits_of_fits {r : Row} {w : BitVec 32} (hr : r ∈ table) (hw : w &&& r.mask = r.mtch) :
    ignoredBits r.mtch = ignoredBits w := by
  apply ignoredBits_congr
  rw [← hw, BitVec.setWidth_and, mask_opcode r hr, BitVec.and_allOnes]

/-- The bits under the mask and those under neither the mask nor the ignored bits are all that are not
ignored. -/
theorem masked_or_rest {w mask ign : BitVec 32} (h : mask &&& ign = 0#32) :
    (w &&& mask) ||| (w &&& ~~~(mask ||| ign)) = w &&& ~~~ign := by
  rw [← BitVec.and_or_distrib_left]
  congr 1
  apply BitVec.eq_of_getLsbD_eq
  intro j hj
  have hb := congrArg (BitVec.getLsbD · j) h
  simp only [BitVec.getLsbD_and, BitVec.getLsbD_zero] at hb
  simp only [BitVec.getLsbD_or, BitVec.getLsbD_not, hj, decide_true, Bool.true_and]
  cases hm : mask.getLsbD j <;> simp_all

/-- Encoding a decoded word clears its ignored bits and no other (R189, R192). -/
theorem encode_of_decode {x : Xlen} {w : BitVec 32} {i : Instr} (h : decode x w = .ok i) :
    encode i = w &&& ~~~ignoredBits w := by
  obtain ⟨r, hr, hw, rfl⟩ := exists_row_of_decode h
  have hign : ignoredBits r.mtch = ignoredBits w := ignoredBits_of_fits hr hw
  calc encode (r.build w)
      = r.mtch ||| (w &&& ~~~(r.mask ||| ignoredBits r.mtch)) := table_reencodes r hr w
    _ = (w &&& r.mask) ||| (w &&& ~~~(r.mask ||| ignoredBits r.mtch)) := by rw [hw]
    _ = w &&& ~~~ignoredBits r.mtch := masked_or_rest (mask_and_ignoredBits r hr)
    _ = w &&& ~~~ignoredBits w := by rw [hign]

/-- Settles O2: the word's row gives back its `match` and its fields, which are all bits but the ignored ones. -/
theorem encodeDecode : Obligations.EncodeDecode := by
  intro x w i h
  exact encode_of_decode h

end Sys2Proof
end

section
/-!
PROOF. The integer computational instructions (41_integer.md R231 to R260).

Every one of them answers one of the three shared operations `State.alu`, `State.aluTest`, `State.aluW`, or
`wr` of a sum (LUI, AUIPC). One rule for each says what it writes; an instruction's clause is its rule and the fact
that gives its operation in the integers.
-/

namespace Sys2Proof.Machine

/-! ## What each shared operation writes -/

section
variable {s : State} {i : Instr} {rd : RegIdx} {a b v : Word} {z : Int}

/-- `alu` writes what `sext_64` makes of its operation at the running width. -/
theorem writes_alu {op : (n : Nat) → BitVec n → BitVec n → BitVec n} (h : exec i s = s.alu rd op a b)
    (hv : s.params.arch.sext (s.params.arch.lift2 op a b) = v) : Writes s i rd v :=
  writes_of_wr h hv

/-- `aluTest` writes 1 where its test holds and 0 elsewhere. -/
theorem writes_aluTest {p : (n : Nat) → BitVec n → BitVec n → Bool} {q : Prop} [Decidable q]
    (h : exec i s = s.aluTest rd p a b) (hq : s.params.arch.test p a b = decide q) :
    Writes s i rd (s.params.arch.stored (if q then 1 else 0)) :=
  writes_of_wr h (by
    rw [sext_boolWord, State.xlen, hq]
    simp only [decide_eq_true_eq])

/-- At width 64 `aluW` writes the sign extension of its operation on the low words. -/
theorem writes_aluW {op : BitVec 32 → BitVec 32 → BitVec 32} (hx : s.params.arch = .w64)
    (h : exec i s = s.aluW rd op a b) (hop : op (a.setWidth 32) (b.setWidth 32) = BitVec.ofInt 32 z) :
    Writes s i rd (storedW z) :=
  writes_of_wr h (by rw [hx]; exact sext_liftW op a b z hop)

end

/-! ## Immediates -/

theorem toInt_upperImm (u : BitVec 20) : (upperImm u).toInt = u.toInt * 4096 := by
  rw [upperImm, BitVec.toInt_signExtend_of_le (by decide), BitVec.toInt_append_zero]
  exact Int.mul_comm _ _

/-- The value of AUIPC (R232). -/
theorem sext_pc_add_upperImm (x : Xlen) (pc : Word) (u : BitVec 20) :
    x.sext (pc + upperImm u) = x.stored (pc.toNat + u.toInt * 4096) := by
  rw [stored_add, toInt_upperImm]
  exact stored_congr x (add_emod_congr (toInt_emod x pc) rfl)

/-- SLTIU compares with the immediate cut to the running width (R235). -/
theorem test_testLtu_immWord (x : Xlen) (a : Word) (imm : BitVec 12) :
    x.test testLtu a (immWord imm) = decide ((x.U a : Int) < imm.toInt % 2 ^ x.bits) := by
  rw [test_testLtu, ← U_immWord]
  simp only [Nat.cast_lt]

/-- A shift amount that exists at the running width is used whole. -/
theorem shamt_mod_bits {x : Xlen} {rd rs1 : RegIdx} {sh : BitVec 6}
    (h : (Instr.slli rd rs1 sh).wf x = true) : (sh.setWidth 64).toNat % x.bits = sh.toNat := by
  rw [BitVec.toNat_setWidth_of_le (by decide)]
  apply Nat.mod_eq_of_lt
  cases x with
  | w64 => exact sh.isLt
  | w32 =>
    have h5 : sh.getLsbD 5 = false := by
      simpa [Instr.wf, Instr.evenOffset, Instr.rv64Only, Instr.shamtBit5] using h
    exact BitVec.toNat_lt_of_msb_false h5

/-- The 5-bit amount of a word shift is used whole. -/
theorem shamtW_mod (sh : BitVec 5) : (sh.setWidth 64).toNat % 32 = sh.toNat := by
  rw [BitVec.toNat_setWidth_of_le (by decide)]
  exact Nat.mod_eq_of_lt sh.isLt

/-! ## The operations on low words -/

section
variable (a b : Word)

theorem opAdd_low : opAdd 32 (a.setWidth 32) (b.setWidth 32) = BitVec.ofInt 32 (lowS a + lowS b) := by
  simp only [opAdd, lowS, BitVec.ofInt_add, BitVec.ofInt_toInt]

theorem opSub_low : opSub 32 (a.setWidth 32) (b.setWidth 32) = BitVec.ofInt 32 (lowS a - lowS b) := by
  simp only [opSub, lowS, Int.sub_eq_add_neg, BitVec.ofInt_add, BitVec.ofInt_neg, BitVec.ofInt_toInt,
    BitVec.sub_eq_add_neg]

theorem shiftAmount_low : shiftAmount (b.setWidth 32) = b.toNat % 32 := shiftAmount_eq .w32 b

theorem opSll_low : opSll 32 (a.setWidth 32) (b.setWidth 32) =
    BitVec.ofInt 32 (lowU a * 2 ^ (b.toNat % 32) : Nat) := by
  rw [opSll, shiftLeft_eq_ofInt, shiftAmount_low, lowU_eq]

theorem opSrl_low : opSrl 32 (a.setWidth 32) (b.setWidth 32) =
    BitVec.ofInt 32 (lowU a / 2 ^ (b.toNat % 32) : Nat) := by
  rw [opSrl, ushiftRight_eq_ofInt, shiftAmount_low, lowU_eq]

theorem opSra_low : opSra 32 (a.setWidth 32) (b.setWidth 32) =
    BitVec.ofInt 32 (lowS a / 2 ^ (b.toNat % 32)) := by
  rw [opSra, sshiftRight_eq_ofInt, shiftAmount_low, lowS]

end

/-! ## The statements -/

/-- Settles O22: each instruction's shared operation, with its immediate in the integers. -/
theorem immediateResults : Obligations.ImmediateResults := by
  intro s rd rs1 imm u sh x a
  have hS : x.S (immWord imm) = imm.toInt := S_immWord x imm
  refine ⟨writes_of_wr rfl ?lui, writes_of_wr rfl ?auipc, writes_alu rfl ?addi, writes_aluTest rfl ?slti,
    writes_aluTest rfl ?sltiu, writes_alu rfl ?xori, writes_alu rfl ?ori, writes_alu rfl ?andi, fun hwf =>
    ⟨writes_alu rfl ?slli, writes_alu rfl ?srli, writes_alu rfl ?srai⟩⟩
  case lui => rw [sext_eq_stored, toInt_upperImm]
  case auipc => exact sext_pc_add_upperImm x s.core.pc u
  case addi => rw [← hS]; exact sext_opAdd x a _
  case slti => rw [← hS]; exact test_testLt x a _
  case sltiu => exact test_testLtu_immWord x a imm
  case xori => exact sext_opXor x a _
  case ori => exact sext_opOr x a _
  case andi => exact sext_opAnd x a _
  case slli => rw [← shamt_mod_bits hwf]; exact sext_opSll x a _
  case srli => rw [← shamt_mod_bits hwf]; exact sext_opSrl x a _
  case srai => rw [← shamt_mod_bits hwf]; exact sext_opSra x a _

/-- Settles O23: each instruction's shared operation on the two registers. -/
theorem registerResults : Obligations.RegisterResults := by
  intro s rd rs1 rs2 x a b sh
  exact ⟨writes_alu rfl (sext_opAdd x a b), writes_alu rfl (sext_opSub x a b), writes_alu rfl (sext_opSll x a b),
    writes_aluTest rfl (test_testLt x a b), writes_aluTest rfl (test_testLtu x a b),
    writes_alu rfl (sext_opXor x a b), writes_alu rfl (sext_opSrl x a b), writes_alu rfl (sext_opSra x a b),
    writes_alu rfl (sext_opOr x a b), writes_alu rfl (sext_opAnd x a b)⟩

/-- Settles O24: each instruction's operation on the low words. -/
theorem wordResults : Obligations.WordResults := by
  intro s rd rs1 rs2 imm sh hx a b k
  refine ⟨writes_aluW hx rfl ?addiw, writes_aluW hx rfl ?slliw, writes_aluW hx rfl ?srliw, writes_aluW hx rfl ?sraiw,
    writes_aluW hx rfl (opAdd_low a b), writes_aluW hx rfl (opSub_low a b), writes_aluW hx rfl (opSll_low a b),
    writes_aluW hx rfl (opSrl_low a b), writes_aluW hx rfl (opSra_low a b)⟩
  case addiw => rw [← S_immWord .w32 imm]; exact opAdd_low a _
  case slliw => rw [← shamtW_mod sh]; exact opSll_low a _
  case srliw => rw [← shamtW_mod sh]; exact opSrl_low a _
  case sraiw => rw [← shamtW_mod sh]; exact opSra_low a _

end Sys2Proof.Machine
end

section
/-!
PROOF. Multiplication, division and remainder (44_muldiv.md R320 to R333).

The operations are functions of two `n`-bit words for every `n`. Each instruction answers `State.alu` at
`n = XLEN` or `State.aluW` at `n = 32`, so one account of the operations for every `n` (`DivSpec`) serves the plain
forms and the word forms.
-/

namespace Sys2Proof.Machine

/-! ## Operands at the running width -/

theorem one_lt_bits (x : Xlen) : 1 < x.bits := by cases x <;> decide

theorem S_eq_toInt (x : Xlen) (a : Word) : x.S a = (a.setWidth x.bits).toInt := by
  cases x with
  | w32 => rfl
  | w64 => simp only [Xlen.S, Xlen.bits, BitVec.setWidth_eq]

theorem U_eq_toNat (x : Xlen) (a : Word) : x.U a = (a.setWidth x.bits).toNat :=
  (BitVec.toNat_setWidth ..).symm

/-- `alu` writes the result of its operation on the operands cut to the running width. -/
theorem writes_alu_ofInt {s : State} {i : Instr} {rd : RegIdx} {a b : Word} {z : Int}
    {op : (n : Nat) → BitVec n → BitVec n → BitVec n} (h : exec i s = s.alu rd op a b)
    (hop : op s.params.arch.bits (a.setWidth s.params.arch.bits) (b.setWidth s.params.arch.bits) =
      BitVec.ofInt s.params.arch.bits z) :
    Writes s i rd (s.params.arch.stored z) := by
  refine writes_alu h (sext_lift2 _ a b (fun h64 => ?w64) (fun h32 => ?w32))
  case w64 => rw [h64] at hop; simpa only [Xlen.bits, BitVec.setWidth_eq] using hop
  case w32 => rw [h32] at hop; exact hop

theorem stored_neg_one (x : Xlen) : x.stored (-1) = 0xFFFFFFFFFFFFFFFF#64 := by cases x <;> rfl

theorem stored_zero (x : Xlen) : x.stored 0 = 0#64 := by cases x <;> rfl

theorem storedW_neg_one : storedW (-1) = 0xFFFFFFFFFFFFFFFF#64 := by decide

theorem storedW_zero : storedW 0 = 0#64 := by decide

theorem storedW_neg_two_pow : storedW (-2 ^ 31) = 0xFFFFFFFF80000000#64 := by decide

/-! ## The exact product -/

theorem opMul_low (a b : Word) :
    opMul 32 (a.setWidth 32) (b.setWidth 32) = BitVec.ofInt 32 (lowS a * lowS b) := by
  simp only [opMul, lowS, BitVec.ofInt_mul, BitVec.ofInt_toInt]

theorem opMulhu_eq_ofInt {n : Nat} (a b : BitVec n) :
    opMulhu n a b = BitVec.ofInt n (a.toNat * b.toNat / 2 ^ n) := by
  rw [opMulhu, ← BitVec.ofInt_natCast]
  push_cast
  rfl

/-- Bits `2n-1:n` of an exact product, as the statement writes them. -/
theorem ofInt_div_two_pow (n : Nat) (z : Int) :
    BitVec.ofInt n (z / 2 ^ n) = BitVec.ofInt n ((BitVec.ofInt (2 * n) z).extractLsb' n n).toInt := by
  rw [high_slice, BitVec.ofInt_toInt]

/-! ## The quotient and the remainder in the integers -/

/-- Away from zero and the overflow, DIV and REM give a quotient toward zero and its remainder. -/
theorem DivSpec.exists_quotient {n : Nat} {a b : BitVec n} (h : DivSpec n a b) (hb : b.toNat ≠ 0)
    (hov : ¬(a.toInt = -2 ^ (n - 1) ∧ b.toInt = -1)) :
    ∃ q r : Int, a.toInt = q * b.toInt + r ∧ r.natAbs < b.toInt.natAbs ∧
      (r ≠ 0 → (r < 0 ↔ a.toInt < 0)) ∧
      opDiv n a b = BitVec.ofInt n q ∧ opRem n a b = BitVec.ofInt n r := by
  have hb0 : b.toInt ≠ 0 := by
    rw [Ne, ← BitVec.toInt_zero (w := n), BitVec.toInt_inj]
    rintro rfl
    exact hb rfl
  obtain ⟨heq, hlt, hsign⟩ := tdiv_quotient a.toInt b.toInt hb0
  exact ⟨_, _, heq, hlt, hsign, h.sg hb hov⟩

/-! ## The statements -/

/-- Settles O25: each instruction's operation is the slice of the exact product of its operands. -/
theorem multiplyResults : Obligations.MultiplyResults := by
  intro s rd rs1 rs2 x a b high
  refine ⟨writes_alu rfl (sext_opMul x a b), writes_alu_ofInt rfl ?mulh, writes_alu_ofInt rfl ?mulhsu,
    writes_alu_ofInt rfl ?mulhu⟩
  case mulh => rw [← ofInt_div_two_pow, S_eq_toInt, S_eq_toInt]; rfl
  case mulhsu => rw [← ofInt_div_two_pow, S_eq_toInt, U_eq_toNat]; rfl
  case mulhu => rw [← ofInt_div_two_pow, U_eq_toNat, U_eq_toNat]; exact opMulhu_eq_ofInt _ _

/-- Settles O26: the four operations at `n = XLEN`, case by case. -/
theorem divideResults : Obligations.DivideResults := by
  intro s rd rs1 rs2 x a b
  have spec := divSpec x.bits (one_lt_bits x) (a.setWidth x.bits) (b.setWidth x.bits)
  rw [U_eq_toNat x a, U_eq_toNat x b, S_eq_toInt x a, S_eq_toInt x b, sext_eq_stored_S x a, S_eq_toInt x a]
  refine ⟨fun h0 => ?zero, fun ha hb => ?overflow, fun h0 hov => ?signed, fun h0 => ?unsigned⟩
  case zero =>
    obtain ⟨hdiv, hdivu, hrem, hremu⟩ := spec.zero h0
    rw [← stored_neg_one x]
    exact ⟨writes_alu_ofInt rfl hdiv, writes_alu_ofInt rfl hdivu,
      writes_alu_ofInt rfl (hrem.trans (BitVec.ofInt_toInt ..).symm),
      writes_alu_ofInt rfl (hremu.trans (BitVec.ofInt_toInt ..).symm)⟩
  case overflow =>
    obtain ⟨hdiv, hrem⟩ := spec.ovf ha hb
    rw [← stored_zero x]
    exact ⟨writes_alu_ofInt rfl (hdiv.trans (BitVec.ofInt_toInt ..).symm), writes_alu_ofInt rfl hrem⟩
  case signed =>
    obtain ⟨q, r, heq, hlt, hsign, hdiv, hrem⟩ := spec.exists_quotient h0 hov
    exact ⟨q, r, heq, hlt, hsign, writes_alu_ofInt rfl hdiv, writes_alu_ofInt rfl hrem⟩
  case unsigned =>
    obtain ⟨hdivu, hremu⟩ := spec.un h0
    exact ⟨writes_alu_ofInt rfl hdivu, writes_alu_ofInt rfl hremu⟩

/-- Settles O27: the five operations at `n = 32`, case by case. -/
theorem wordMulDivResults : Obligations.WordMulDivResults := by
  intro s rd rs1 rs2 hx a b
  have spec := divSpec 32 (by decide) (a.setWidth 32) (b.setWidth 32)
  rw [lowU_eq a, lowU_eq b]
  refine ⟨writes_aluW hx rfl (opMul_low a b), fun h0 => ?zero, fun ha hb => ?overflow, fun h0 hov => ?signed,
    fun h0 => ?unsigned⟩
  case zero =>
    obtain ⟨hdiv, hdivu, hrem, hremu⟩ := spec.zero h0
    rw [← storedW_neg_one]
    exact ⟨writes_aluW hx rfl hdiv, writes_aluW hx rfl hdivu,
      writes_aluW hx rfl (hrem.trans (BitVec.ofInt_toInt ..).symm),
      writes_aluW hx rfl (hremu.trans (BitVec.ofInt_toInt ..).symm)⟩
  case overflow =>
    obtain ⟨hdiv, hrem⟩ := spec.ovf ha hb
    rw [← storedW_neg_two_pow, ← storedW_zero, ← ha]
    exact ⟨writes_aluW hx rfl (hdiv.trans (BitVec.ofInt_toInt ..).symm), writes_aluW hx rfl hrem⟩
  case signed =>
    obtain ⟨q, r, heq, hlt, hsign, hdiv, hrem⟩ := spec.exists_quotient h0 hov
    exact ⟨q, r, heq, hlt, hsign, writes_aluW hx rfl hdiv, writes_aluW hx rfl hrem⟩
  case unsigned =>
    obtain ⟨hdivu, hremu⟩ := spec.un h0
    exact ⟨writes_aluW hx rfl hdivu, writes_aluW hx rfl hremu⟩

end Sys2Proof.Machine
end

section
/-!
PROOF. Decoding and the table of 30_encoding.md R185: the row a word fits decides, and no word fits two.

`decode_ok_iff` says once what `decode` answers: the instruction of a row that fits the word and that the width
takes. Every statement about the decoder is that fact and a fact about the rows of the table.
-/

namespace Sys2Proof

/-! ## The row of a word -/

/-- The `match` of one row differs from that of another under the bits both fix. -/
theorem table_pairwise : table.Pairwise fun r r' => r.mtch &&& r'.mask ≠ r'.mtch &&& r.mask := by
  decide +kernel

theorem mtch_and_mask_eq {r r' : Row} {w : BitVec 32} (h : r.fits w = true) (h' : r'.fits w = true) :
    r.mtch &&& r'.mask = r'.mtch &&& r.mask := by
  rw [← (r.fits_iff w).1 h, ← (r'.fits_iff w).1 h', BitVec.and_assoc, BitVec.and_assoc, BitVec.and_comm r.mask]

/-- No word fits two rows. -/
theorem length_filter_fits_le_one (w : BitVec 32) : (table.filter (·.fits w)).length ≤ 1 := by
  have hp := table_pairwise.filter (·.fits w)
  match hl : table.filter (·.fits w) with
  | [] | [_] => simp [hl]
  | r :: r' :: rest =>
    rw [hl] at hp
    have fits : ∀ q ∈ r :: r' :: rest, q.fits w = true := fun q hq => by
      rw [← hl] at hq
      exact (List.mem_filter.1 hq).2
    exact absurd (mtch_and_mask_eq (fits r (by simp)) (fits r' (by simp))) ((List.pairwise_cons.1 hp).1 r' (by simp))

/-- The row a word fits is the one `decode` finds. -/
theorem find?_fits {r : Row} {w : BitVec 32} (hr : r ∈ table) (hw : r.fits w = true) :
    table.find? (·.fits w) = some r := by
  have hmem : r ∈ table.filter (·.fits w) := List.mem_filter.2 ⟨hr, hw⟩
  obtain ⟨q, hq⟩ := List.length_eq_one_iff.1
    (Nat.le_antisymm (length_filter_fits_le_one w) (List.length_pos_of_mem hmem))
  rw [hq, List.mem_singleton] at hmem
  rw [← List.head?_filter, hq, hmem, List.head?_singleton]

/-- What a width takes of a row and a word that fits it (R190). -/
def Row.takes (r : Row) (x : Xlen) (w : BitVec 32) : Prop :=
  x = .w32 → r.only64 = false ∧ (r.shift6 && w.getLsbD 25) = false

/-- `decode` answers the instruction of the row that fits the word, where the width takes it. -/
theorem decode_ok_iff {x : Xlen} {w : BitVec 32} {i : Instr} :
    decode x w = .ok i ↔ ∃ r ∈ table, r.fits w = true ∧ r.takes x w ∧ r.build w = i := by
  constructor
  · intro h
    unfold decode at h
    split at h
    · cases h
    next r hr =>
      refine ⟨r, List.mem_of_find?_eq_some hr, List.find?_some (p := fun r : Row => r.fits w) hr, ?_⟩
      cases x with
      | w64 => exact ⟨nofun, Except.ok.inj h⟩
      | w32 =>
        dsimp only at h
        split at h
        · cases h
        next h64 =>
          split at h
          · cases h
          next h6 =>
            exact ⟨fun _ => ⟨Bool.eq_false_of_not_eq_true h64, Bool.eq_false_of_not_eq_true h6⟩, Except.ok.inj h⟩
  · rintro ⟨r, hr, hw, hx, rfl⟩
    unfold decode
    rw [find?_fits hr hw]
    cases x with
    | w64 => rfl
    | w32 =>
      obtain ⟨h64, h6⟩ := hx rfl
      simp only [h64, h6, Bool.false_eq_true, if_false]

/-! ## Decoding what was encoded -/

section
open Laws.EncodingRow

/-- The row of every instruction's encoding, one lemma of `Laws.EncodingRow` each. -/
theorem encodingRow : ∀ i : Instr, Statement i
  | .lui .. => lui .. | .auipc .. => auipc .. | .addi .. => addi .. | .slti .. => slti ..
  | .sltiu .. => sltiu .. | .xori .. => xori .. | .ori .. => ori .. | .andi .. => andi .. | .slli .. => slli ..
  | .srli .. => srli .. | .srai .. => srai .. | .add .. => add .. | .sub .. => sub .. | .sll .. => sll ..
  | .slt .. => slt .. | .sltu .. => sltu .. | .xor .. => xor .. | .srl .. => srl .. | .sra .. => sra ..
  | .or .. => or .. | .and .. => and .. | .addiw .. => addiw .. | .slliw .. => slliw .. | .srliw .. => srliw ..
  | .sraiw .. => sraiw .. | .addw .. => addw .. | .subw .. => subw .. | .sllw .. => sllw ..
  | .srlw .. => srlw .. | .sraw .. => sraw .. | .jal .. => jal .. | .jalr .. => jalr .. | .beq .. => beq ..
  | .bne .. => bne .. | .blt .. => blt .. | .bge .. => bge .. | .bltu .. => bltu .. | .bgeu .. => bgeu ..
  | .lb .. => lb .. | .lh .. => lh .. | .lw .. => lw .. | .lbu .. => lbu .. | .lhu .. => lhu ..
  | .lwu .. => lwu .. | .ld .. => ld .. | .sb .. => sb .. | .sh .. => sh .. | .sw .. => sw .. | .sd .. => sd ..
  | .fence => fence | .fenceI => fenceI | .mul .. => mul .. | .mulh .. => mulh .. | .mulhsu .. => mulhsu ..
  | .mulhu .. => mulhu .. | .div .. => div .. | .divu .. => divu .. | .rem .. => rem .. | .remu .. => remu ..
  | .mulw .. => mulw .. | .divw .. => divw .. | .divuw .. => divuw .. | .remw .. => remw ..
  | .remuw .. => remuw .. | .lrW .. => lrW .. | .lrD .. => lrD .. | .scW .. => scW .. | .scD .. => scD ..
  | .amoswapW .. => amoswapW .. | .amoaddW .. => amoaddW .. | .amoxorW .. => amoxorW ..
  | .amoandW .. => amoandW .. | .amoorW .. => amoorW .. | .amominW .. => amominW .. | .amomaxW .. => amomaxW ..
  | .amominuW .. => amominuW .. | .amomaxuW .. => amomaxuW .. | .amoswapD .. => amoswapD ..
  | .amoaddD .. => amoaddD .. | .amoxorD .. => amoxorD .. | .amoandD .. => amoandD .. | .amoorD .. => amoorD ..
  | .amominD .. => amominD .. | .amomaxD .. => amomaxD .. | .amominuD .. => amominuD ..
  | .amomaxuD .. => amomaxuD .. | .csrrw .. => csrrw .. | .csrrs .. => csrrs .. | .csrrc .. => csrrc ..
  | .csrrwi .. => csrrwi .. | .csrrsi .. => csrrsi .. | .csrrci .. => csrrci .. | .ecall => ecall
  | .ebreak => ebreak | .uret => uret | .sret => sret | .hret => hret | .mret => mret | .wfi => wfi
  | .sfenceVm .. => sfenceVm .. | .flw .. => flw .. | .fsw .. => fsw .. | .fmaddS .. => fmaddS ..
  | .fmsubS .. => fmsubS .. | .fnmsubS .. => fnmsubS .. | .fnmaddS .. => fnmaddS .. | .faddS .. => faddS ..
  | .fsubS .. => fsubS .. | .fmulS .. => fmulS .. | .fdivS .. => fdivS .. | .fsqrtS .. => fsqrtS ..
  | .fsgnjS .. => fsgnjS .. | .fsgnjnS .. => fsgnjnS .. | .fsgnjxS .. => fsgnjxS .. | .fminS .. => fminS ..
  | .fmaxS .. => fmaxS .. | .fcvtWS .. => fcvtWS .. | .fcvtWUS .. => fcvtWUS .. | .fmvXS .. => fmvXS ..
  | .feqS .. => feqS .. | .fltS .. => fltS .. | .fleS .. => fleS .. | .fclassS .. => fclassS ..
  | .fcvtSW .. => fcvtSW .. | .fcvtSWU .. => fcvtSWU .. | .fmvSX .. => fmvSX .. | .fcvtLS .. => fcvtLS ..
  | .fcvtLUS .. => fcvtLUS .. | .fcvtSL .. => fcvtSL .. | .fcvtSLU .. => fcvtSLU .. | .fld .. => fld ..
  | .fsd .. => fsd .. | .fmaddD .. => fmaddD .. | .fmsubD .. => fmsubD .. | .fnmsubD .. => fnmsubD ..
  | .fnmaddD .. => fnmaddD .. | .faddD .. => faddD .. | .fsubD .. => fsubD .. | .fmulD .. => fmulD ..
  | .fdivD .. => fdivD .. | .fsqrtD .. => fsqrtD .. | .fsgnjD .. => fsgnjD .. | .fsgnjnD .. => fsgnjnD ..
  | .fsgnjxD .. => fsgnjxD .. | .fminD .. => fminD .. | .fmaxD .. => fmaxD .. | .fcvtSD .. => fcvtSD ..
  | .fcvtDS .. => fcvtDS .. | .feqD .. => feqD .. | .fltD .. => fltD .. | .fleD .. => fleD ..
  | .fclassD .. => fclassD .. | .fcvtWD .. => fcvtWD .. | .fcvtWUD .. => fcvtWUD .. | .fcvtDW .. => fcvtDW ..
  | .fcvtDWU .. => fcvtDWU .. | .fcvtLD .. => fcvtLD .. | .fcvtLUD .. => fcvtLUD .. | .fmvXD .. => fmvXD ..
  | .fcvtDL .. => fcvtDL .. | .fcvtDLU .. => fcvtDLU .. | .fmvDX .. => fmvDX ..

end

theorem Instr.wf_iff {x : Xlen} {i : Instr} :
    i.wf x = true ↔ i.evenOffset = true ∧ (x = .w32 → i.rv64Only = false ∧ i.shamtBit5 = false) := by
  cases x <;> simp [Instr.wf]

/-- Settles O1: the row of the instruction's encoding is taken at the width and builds the instruction back. -/
theorem decodeEncode : Obligations.DecodeEncode := by
  intro x i hi
  obtain ⟨heven, hwidth⟩ := Instr.wf_iff.1 hi
  obtain ⟨r, hr, hfits, h64, h6, hbuild⟩ := encodingRow i
  refine decode_ok_iff.2 ⟨r, hr, hfits, fun hx => ?_, hbuild heven⟩
  rw [h64, h6]
  exact hwidth hx

/-! ## What the rows build -/

/-- The instructions a row builds are of width 64 only where the row is, have a shift amount of 32 or more where
the row's check says so, and have an even offset. -/
def Row.BuildsWf (r : Row) : Prop :=
  ∀ w, (r.build w).rv64Only = r.only64 ∧ (r.build w).shamtBit5 = (r.shift6 && w.getLsbD 25) ∧
    (r.build w).evenOffset = true

theorem getLsbD_shamt6 (w : BitVec 32) : (shamt6 w).getLsbD 5 = w.getLsbD 25 := by
  simp [shamt6]

theorem getLsbD_immB (w : BitVec 32) : (immB w).getLsbD 0 = false := by
  rw [immB, BitVec.getLsbD_append]
  rfl

theorem getLsbD_immJ (w : BitVec 32) : (immJ w).getLsbD 0 = false := by
  rw [immJ, BitVec.getLsbD_append]
  rfl

theorem tableInteger_buildsWf : ∀ r ∈ tableInteger, r.BuildsWf := by
  simp only [tableInteger, List.forall_mem_cons]
  and_intros
  iterate 8 exact fun _ => ⟨rfl, rfl, rfl⟩
  iterate 3 exact fun w => ⟨rfl, getLsbD_shamt6 w, rfl⟩
  iterate 19 exact fun _ => ⟨rfl, rfl, rfl⟩
  exact List.forall_mem_nil _

theorem tableControl_buildsWf : ∀ r ∈ tableControl, r.BuildsWf := by
  simp only [tableControl, List.forall_mem_cons]
  and_intros
  · exact fun w => ⟨rfl, rfl, congrArg (!·) (getLsbD_immJ w)⟩
  · exact fun _ => ⟨rfl, rfl, rfl⟩
  iterate 6 exact fun w => ⟨rfl, rfl, congrArg (!·) (getLsbD_immB w)⟩
  exact List.forall_mem_nil _

/-- The rows of the other tables have neither a 6-bit shift amount nor an offset. -/
theorem otherTables_buildWf : ∀ r ∈ tableLoadStore ++ tableMulDiv ++ tableAtomic ++ tableSystem ++
    tableFloatSingle ++ tableFloatDouble, r.BuildsWf := by
  simp only [tableLoadStore, tableMulDiv, tableAtomic, tableSystem, tableFloatSingle, tableFloatDouble,
    List.forall_mem_append, List.forall_mem_cons, List.not_mem_nil, IsEmpty.forall_iff, implies_true, and_true]
  and_intros
  all_goals exact fun _ => ⟨rfl, rfl, rfl⟩

theorem table_buildsWf : ∀ r ∈ table, r.BuildsWf := by
  have others := otherTables_buildWf
  simp only [List.append_assoc] at others
  simp only [table, List.append_assoc]
  exact List.forall_mem_append.2 ⟨tableInteger_buildsWf, List.forall_mem_append.2 ⟨tableControl_buildsWf, others⟩⟩

/-- Settles O3: the row of the word decides the width, and `encode` gives a word of each well-formed instruction. -/
theorem widthDecode : Obligations.WidthDecode := by
  refine ⟨fun w i => ⟨fun h => ?_, fun ⟨h, hwidth⟩ => ?_⟩, fun x i => ⟨fun h => ⟨encode i, decodeEncode x i h⟩, ?_⟩,
    length_filter_fits_le_one⟩
  · obtain ⟨r, hr, hfits, hx, rfl⟩ := decode_ok_iff.1 h
    obtain ⟨h64, h6, -⟩ := table_buildsWf r hr w
    rw [h64, h6]
    exact ⟨decode_ok_iff.2 ⟨r, hr, hfits, nofun, rfl⟩, hx rfl⟩
  · obtain ⟨r, hr, hfits, -, rfl⟩ := decode_ok_iff.1 h
    obtain ⟨h64, h6, -⟩ := table_buildsWf r hr w
    rw [h64, h6] at hwidth
    exact decode_ok_iff.2 ⟨r, hr, hfits, fun _ => hwidth, rfl⟩
  · rintro ⟨w, h⟩
    obtain ⟨r, hr, -, hx, rfl⟩ := decode_ok_iff.1 h
    obtain ⟨h64, h6, heven⟩ := table_buildsWf r hr w
    rw [Instr.wf_iff, h64, h6]
    exact ⟨heven, hx⟩

end Sys2Proof
end

section
/-!
PROOF. Words written out from the encodings, and the unknown words (30_encoding.md R187).

A word that decodes fits a row, so it has the row's value in every field the row's mask covers. For each opcode
of R187's list the rows of that opcode cover the field the list speaks of and hold a value outside the list.
-/

namespace Sys2Proof

/-- Settles O4: the row of each word, found in the table. -/
theorem decodeWords : Obligations.DecodeWords := by
  unfold Obligations.DecodeWords
  decide +kernel

/-! ## Fields that a row fixes -/

/-- The `n` bits of a word from bit `lo`, as a number. -/
def bitsAt (w : BitVec 32) (lo n : Nat) : Nat := w.toNat / 2 ^ lo % 2 ^ n

/-- The row's mask covers the `n` bits from bit `lo`. -/
abbrev Row.Fixes (r : Row) (lo n : Nat) : Prop := r.mask.extractLsb' lo n = BitVec.allOnes n

theorem toNat_extractLsb'_eq_bitsAt (w : BitVec 32) (lo n : Nat) : (w.extractLsb' lo n).toNat = bitsAt w lo n := by
  rw [BitVec.extractLsb'_toNat, Nat.shiftRight_eq_div_pow, bitsAt]

/-- A word that fits a row has the row's value in every field the row fixes. -/
theorem bitsAt_of_fits {r : Row} {w : BitVec 32} {lo n : Nat} (hw : w &&& r.mask = r.mtch) (h : r.Fixes lo n) :
    bitsAt w lo n = bitsAt r.mtch lo n := by
  rw [← toNat_extractLsb'_eq_bitsAt, ← toNat_extractLsb'_eq_bitsAt, ← hw, BitVec.extractLsb'_and, h,
    BitVec.and_allOnes]

/-! ## The rows of each opcode (R184, R185) -/

theorem opcode_rows : ∀ r ∈ table, r.Fixes 0 7 ∧ bitsAt r.mtch 0 7 % 4 = 3 ∧
    bitsAt r.mtch 0 7 ≠ 0x7F := by
  decide +kernel

/-- The opcodes whose rows all fix `funct3`. -/
def funct3Opcodes : List Nat := [0x03, 0x23, 0x63, 0x67, 0x0F, 0x33, 0x3B, 0x1B, 0x2F, 0x07, 0x27, 0x73]

/-- The values of `funct3` among the rows of an opcode. -/
def funct3Values : Nat → List Nat
  | 0x03 => [0, 1, 2, 3, 4, 5, 6]
  | 0x23 => [0, 1, 2, 3]
  | 0x63 => [0, 1, 4, 5, 6, 7]
  | 0x67 => [0]
  | 0x0F => [0, 1]
  | 0x1B => [0, 1, 5]
  | 0x2F | 0x07 | 0x27 => [2, 3]
  | 0x73 => [0, 1, 2, 3, 5, 6, 7]
  | _ => [0, 1, 2, 3, 4, 5, 6, 7]

theorem funct3_rows : ∀ r ∈ table, bitsAt r.mtch 0 7 ∈ funct3Opcodes →
    r.Fixes 12 3 ∧ bitsAt r.mtch 12 3 ∈ funct3Values (bitsAt r.mtch 0 7) := by
  decide +kernel

/-- SYSTEM with `funct3 = 0`: fixed words, and SFENCE.VM. -/
theorem system_rows : ∀ r ∈ table, bitsAt r.mtch 0 7 = 0x73 → bitsAt r.mtch 12 3 = 0 →
    (r.mask = BitVec.allOnes 32 ∧ r.mtch ∈ [0x00000073#32, 0x00100073#32, 0x00200073#32, 0x10200073#32,
      0x20200073#32, 0x30200073#32, 0x10500073#32]) ∨ (r.mask = 0xFFF07FFF#32 ∧ r.mtch = 0x10400073#32) := by
  decide +kernel

theorem register_rows : ∀ r ∈ table, bitsAt r.mtch 0 7 ∈ [0x33, 0x3B] → r.Fixes 25 7 ∧
    (bitsAt r.mtch 25 7 = 0 ∨ bitsAt r.mtch 25 7 = 1 ∨
      (bitsAt r.mtch 25 7 = 0x20 ∧ (bitsAt r.mtch 12 3 = 0 ∨ bitsAt r.mtch 12 3 = 5))) := by
  decide +kernel

theorem amo_rows : ∀ r ∈ table, bitsAt r.mtch 0 7 = 0x2F → r.Fixes 27 5 ∧
    bitsAt r.mtch 27 5 ∈ [0x02, 0x03, 0x01, 0x00, 0x04, 0x0C, 0x08, 0x10, 0x14, 0x18, 0x1C] ∧
    (bitsAt r.mtch 27 5 = 0x02 → r.Fixes 20 5 ∧ bitsAt r.mtch 20 5 = 0) := by
  decide +kernel

theorem multiplyAdd_rows : ∀ r ∈ table, bitsAt r.mtch 0 7 ∈ [0x43, 0x47, 0x4B, 0x4F] →
    r.Fixes 25 2 ∧ bitsAt r.mtch 25 2 < 2 := by
  decide +kernel

theorem float_rows : ∀ r ∈ table, bitsAt r.mtch 0 7 = 0x53 → r.Fixes 25 7 ∧
    (bitsAt r.mtch 25 7 ∈ [0x2C, 0x2D] → r.Fixes 20 5 ∧ bitsAt r.mtch 20 5 = 0) ∧
    (bitsAt r.mtch 25 7 ∈ [0x10, 0x11] → r.Fixes 12 3 ∧ bitsAt r.mtch 12 3 < 3) ∧
    (bitsAt r.mtch 25 7 = 0x70 → r.Fixes 12 3 ∧ bitsAt r.mtch 12 3 < 2) := by
  decide +kernel

/-! ## The words of each opcode -/

section
variable {r : Row} {w : BitVec 32} (hr : r ∈ table) (hw : w &&& r.mask = r.mtch)
include hr hw

theorem opcode_of_fits : bitsAt w 0 7 = bitsAt r.mtch 0 7 := bitsAt_of_fits hw (opcode_rows r hr).1

theorem funct3_of_fits (h : bitsAt w 0 7 ∈ funct3Opcodes) : bitsAt w 12 3 ∈ funct3Values (bitsAt w 0 7) := by
  rw [opcode_of_fits hr hw] at h ⊢
  obtain ⟨hfix, hmem⟩ := funct3_rows r hr h
  rwa [bitsAt_of_fits hw hfix]

theorem system_of_fits (h : bitsAt w 0 7 = 0x73) (h3 : bitsAt w 12 3 = 0) :
    w ∈ [0x00000073#32, 0x00100073#32, 0x00200073#32, 0x10200073#32, 0x20200073#32, 0x30200073#32, 0x10500073#32] ∨
      w &&& 0xFFF07FFF#32 = 0x10400073#32 := by
  rw [opcode_of_fits hr hw] at h
  rw [bitsAt_of_fits hw (funct3_rows r hr (by rw [h]; decide)).1] at h3
  rcases system_rows r hr h h3 with ⟨hmask, hmem⟩ | ⟨hmask, hmtch⟩
  · rw [hmask, BitVec.and_allOnes] at hw
    exact .inl (hw ▸ hmem)
  · exact .inr (by rw [← hmask, hw, hmtch])

theorem register_of_fits (h : bitsAt w 0 7 ∈ [0x33, 0x3B]) : bitsAt w 25 7 = 0 ∨ bitsAt w 25 7 = 1 ∨
    (bitsAt w 25 7 = 0x20 ∧ (bitsAt w 12 3 = 0 ∨ bitsAt w 12 3 = 5)) := by
  rw [opcode_of_fits hr hw] at h
  obtain ⟨hfix, hval⟩ := register_rows r hr h
  have hfix3 := (funct3_rows r hr ((by decide : [0x33, 0x3B] ⊆ funct3Opcodes) h)).1
  rwa [bitsAt_of_fits hw hfix, bitsAt_of_fits hw hfix3]

theorem amo_of_fits (h : bitsAt w 0 7 = 0x2F) :
    bitsAt w 27 5 ∈ [0x02, 0x03, 0x01, 0x00, 0x04, 0x0C, 0x08, 0x10, 0x14, 0x18, 0x1C] ∧
    (bitsAt w 27 5 = 0x02 → bitsAt w 20 5 = 0) := by
  rw [opcode_of_fits hr hw] at h
  obtain ⟨hfix, hmem, hlr⟩ := amo_rows r hr h
  rw [bitsAt_of_fits hw hfix]
  exact ⟨hmem, fun h2 => (bitsAt_of_fits hw (hlr h2).1).trans (hlr h2).2⟩

theorem multiplyAdd_of_fits (h : bitsAt w 0 7 ∈ [0x43, 0x47, 0x4B, 0x4F]) : bitsAt w 25 2 < 2 := by
  rw [opcode_of_fits hr hw] at h
  obtain ⟨hfix, hlt⟩ := multiplyAdd_rows r hr h
  rwa [bitsAt_of_fits hw hfix]

theorem float_of_fits (h : bitsAt w 0 7 = 0x53) :
    (bitsAt w 25 7 ∈ [0x2C, 0x2D] → bitsAt w 20 5 = 0) ∧ (bitsAt w 25 7 ∈ [0x10, 0x11] → bitsAt w 12 3 < 3) ∧
    (bitsAt w 25 7 = 0x70 → bitsAt w 12 3 < 2) := by
  rw [opcode_of_fits hr hw] at h
  obtain ⟨hfix, h2C, h10, h70⟩ := float_rows r hr h
  rw [bitsAt_of_fits hw hfix]
  exact ⟨fun h => (bitsAt_of_fits hw (h2C h).1).trans (h2C h).2,
    fun h => (bitsAt_of_fits hw (h10 h).1).trans_lt (h10 h).2,
    fun h => (bitsAt_of_fits hw (h70 h).1).trans_lt (h70 h).2⟩

end

/-! ## The unknown words -/

/-- A word that fits no row is an error. -/
theorem decode_error_of_no_row {w : BitVec 32} (h : ∀ r ∈ table, w &&& r.mask ≠ r.mtch) (x : Xlen) :
    ∃ e, decode x w = .error e := by
  match hd : decode x w with
  | .error e => exact ⟨e, rfl⟩
  | .ok i =>
    obtain ⟨r, hr, hw, -⟩ := exists_row_of_decode hd
    exact absurd hw (h r hr)

/-- Settles O5: a row that the word fits has the word's value in the field each clause speaks of. -/
theorem unknownWords : Obligations.UnknownWords := by
  intro x w op f3 f5 f7 rs2 h
  refine decode_error_of_no_row (fun r hr hw => ?_) x
  obtain ⟨-, hlow, hones⟩ := opcode_rows r hr
  rw [← opcode_of_fits hr hw] at hlow hones
  have hop : bitsAt w 0 7 = op := by rw [bitsAt, Nat.pow_zero, Nat.div_one]
  have h3 : bitsAt w 12 3 = f3 := rfl
  have h20 : bitsAt w 20 5 = rs2 := rfl
  have h5 : bitsAt w 27 5 = f5 := Nat.mod_eq_of_lt (by omega)
  have h7 : bitsAt w 25 7 = f7 := Nat.mod_eq_of_lt (by omega)
  have funct3 := funct3_of_fits hr hw
  have system := system_of_fits hr hw
  have register := register_of_fits hr hw
  have amo := amo_of_fits hr hw
  have multiplyAdd := multiplyAdd_of_fits hr hw
  have float := float_of_fits hr hw
  have hmod : w.toNat % 4 = op % 4 := (Nat.mod_mod_of_dvd _ (by decide)).symm
  rw [hop] at hlow hones funct3 system register amo multiplyAdd float
  rw [h3] at funct3 system register float
  rw [h7] at register float
  rw [h20] at amo float
  rw [h5] at amo
  clear_value op f3 f5 f7 rs2
  have values {n : Nat} (h : op = n) (hn : n ∈ funct3Opcodes) : f3 ∈ funct3Values n := h ▸ funct3 (h ▸ hn)
  rcases h with rfl | rfl | h | ⟨h, h3, hlist, hfence⟩ | ⟨h, h3⟩ | ⟨h, h3⟩ | ⟨h, h3⟩ | ⟨h, h3⟩ | ⟨h, h3⟩ | ⟨h, h3⟩ |
    ⟨h, h0, h1, h20⟩ | ⟨h, h3⟩ | ⟨h, hamo⟩ | ⟨h | h, h3⟩ | ⟨h, hfmt⟩ | ⟨h, hfloat⟩
  · exact absurd (hop ▸ hlow) (by decide)
  · exact hones hop.symm
  · omega
  · exact (system h h3).elim hlist hfence
  iterate 6
    · have hmem := values h (by decide)
      simp only [funct3Values, List.mem_cons, List.not_mem_nil, or_false] at hmem
      omega
  · rcases register (by simpa using h) with h7 | h7 | h7
    exacts [h0 h7, h1 h7, h20 h7]
  · have hmem := values h (by decide)
    simp only [funct3Values, List.mem_cons, List.not_mem_nil, or_false] at hmem
    omega
  · obtain ⟨hmem5, hlr⟩ := amo h
    have hmem := values h (by decide)
    simp only [funct3Values, List.mem_cons, List.not_mem_nil, or_false] at hmem
    rcases hamo with h3 | h5 | ⟨h5, h2⟩
    · omega
    · exact h5 hmem5
    · exact h2 (hlr h5)
  iterate 2
    · have hmem := values h (by decide)
      simp only [funct3Values, List.mem_cons, List.not_mem_nil, or_false] at hmem
      omega
  · exact absurd (multiplyAdd (by simpa using h)) (Nat.not_lt.2 hfmt)
  · obtain ⟨h2C, h10, h70⟩ := float h
    rcases hfloat with hnone | ⟨h7, h2⟩ | ⟨h7, h3⟩ | ⟨h7, h3⟩
    · exact absurd ((r.fits_iff w).2 hw) (by simp [hnone r hr])
    · exact h2 (h2C (by simpa using h7))
    · exact absurd (h10 (by simpa using h7)) (Nat.not_lt.2 h3)
    · exact absurd (h70 h7) (Nat.not_lt.2 h3)

end Sys2Proof
end

section
/-!
PROOF. The state after reset, and the invariant of the machine (10_state.md R100; 70_reset_and_hazards.md R530).

The invariant holds after reset for all parameters within their bounds. A step makes the environment's calls, each of
which keeps the invariant, and then runs the stages of the current core, which keep it by `stepCurrent_evolves`.
-/

namespace Sys2Proof.Machine

/-! ## Reset -/

/-- The cores after reset are `Core.reset` of an id. -/
theorem mem_cores_resetOf {p : Params} {c : Core} (h : c ∈ (State.resetOf p).core :: (State.resetOf p).parked) :
    ∃ k, c = Core.reset p k := by
  rcases List.mem_cons.1 h with rfl | h
  · exact ⟨0, rfl⟩
  · obtain ⟨k, -, rfl⟩ := List.mem_map.1 h
    exact ⟨k + 1, rfl⟩

/-- The ids of the cores after reset: 0, and those of the parked cores above it. -/
theorem map_hartid_resetOf (p : Params) :
    ((State.resetOf p).core :: (State.resetOf p).parked).map Core.hartid = List.range (p.ncores - 1 + 1) := by
  rw [List.range_succ_eq_map]
  simp [State.resetOf, Core.reset, Function.comp_def]

/-- Settles O16: each core is `Core.reset` of its id. -/
theorem resetValues : Obligations.ResetValues := by
  intro p
  refine ⟨rfl, rfl, rfl, rfl, ?ids, fun c hc => ?core⟩
  case ids =>
    rw [map_hartid_resetOf]
    congr 1
    show p.ncores - 1 + 1 = max 1 p.ncores
    omega
  case core =>
    obtain ⟨k, rfl⟩ := mem_cores_resetOf hc
    refine ⟨fun i => ?regs, zext_eq_addr_toNat _ _, rfl, rfl, rfl, fun slot => List.eq_of_mem_replicate,
      fun slot => List.eq_of_mem_replicate, List.length_replicate, List.length_replicate, rfl, rfl, rfl, rfl,
      fun q => ?bank, rfl, rfl⟩
    case regs => simp [Core.reset]
    case bank => cases q <;> rfl

theorem Params.one_le_ncores {p : Params} (h : p.wf = true) : 1 ≤ p.ncores := by
  simp only [Params.wf, Bool.and_eq_true, decide_eq_true_eq] at h
  omega

theorem resetOf_inv {p : Params} (hp : p.wf = true) (hm : Memory.wf p.mem0 = true) : (State.resetOf p).Inv where
  params := hp
  mem := hm
  mem0 := hm
  cores c hc := by
    obtain ⟨k, rfl⟩ := mem_cores_resetOf hc
    exact Core.Ok.reset p k
  idle c hc := by
    obtain ⟨k, rfl⟩ := mem_cores_resetOf hc
    rfl
  ids := by
    have hids := map_hartid_resetOf p
    rw [Nat.sub_add_cancel (Params.one_le_ncores hp)] at hids
    have hsorted := sorted_of_ids hids
    refine eq_range_of_perm (insertCore_sorted (List.pairwise_cons.1 hsorted).2) ?_
    rw [show (State.resetOf p).params = p from rfl, ← hids]
    exact (insertCore_perm _ _).map _

/-- Settles O15: the default parameters are within their bounds, and their initial memory is the empty list. -/
theorem resetInv : Obligations.ResetInv :=
  ⟨resetOf_inv (by decide) (by decide), fun _ => resetOf_inv⟩

/-! ## The environment's calls keep the invariant -/

/-- Choosing a core changes which cores are current and parked, and nothing else (R221). -/
theorem selectCore_frame {s t : State} {c : Nat} (h : s.selectCore c = .next t) :
    t = { s with core := t.core, parked := t.parked } := by
  unfold State.selectCore at h
  split at h
  · rw [← next_inj h]
  · split at h
    · cases h
    · rw [← next_inj h]

theorem selectCore_inv {s t : State} {c : Nat} (h : s.Inv) (ht : s.selectCore c = .next t) : t.Inv := by
  obtain ⟨hids, -, hmem⟩ := selectCore_ids ht h.ids
  have hframe := selectCore_frame ht
  have hparams : t.params = s.params := by rw [hframe]
  have hram : t.mem = s.mem := by rw [hframe]
  exact
    { params := hparams ▸ h.params
      mem := hram ▸ h.mem
      mem0 := hparams ▸ h.mem0
      cores := fun d hd => hparams ▸ h.cores d ((hmem d).1 hd)
      idle := fun d hd => h.idle d ((hmem d).1 hd)
      ids := hparams ▸ hids }

theorem applyCalls_inv : ∀ (l : List Input) {s t : State}, s.Inv → s.applyCalls l = .next t → t.Inv
  | [], s, t, hs, h => next_inj h ▸ hs.withInputs []
  | .select c :: rest, s, t, hs, h => selectCore_inv (hs.withInputs rest) h
  | .setIrq c i v :: rest, s, t, hs, h => by
    unfold State.applyCalls at h
    split at h
    next u hu => exact applyCalls_inv rest (setIrq_inv hs hu) h
    all_goals cases h
  | .reset :: rest, s, t, hs, h => applyCalls_inv rest (resetOf_inv hs.params hs.mem0) h

/-! ## A step keeps the invariant -/

theorem stepCurrent_inv {s t : State} (hs : s.Inv) (h : s.stepCurrent = .next t) : t.Inv := by
  obtain ⟨hparked, hparams, -, -, hid, hidle, hmem, hok⟩ := stepCurrent_evolves h
  exact
    { params := hparams ▸ hs.params
      mem := hmem hs.mem
      mem0 := hparams ▸ hs.mem0
      cores := by
        rw [hparams, hparked]
        exact List.forall_mem_cons.2 ⟨hok (hs.cores _ (.head _)), (List.forall_mem_cons.1 hs.cores).2⟩
      idle := by
        rw [hparked]
        exact List.forall_mem_cons.2 ⟨hidle, (List.forall_mem_cons.1 hs.idle).2⟩
      ids := by
        rw [hparams, hparked, ← hs.ids]
        exact map_insertCore_hartid _ _ _ _ hid rfl }

/-- Settles O14: the environment's calls keep the invariant, and so do the stages of the current core. -/
theorem stepKeepsInv : Obligations.StepKeepsInv := by
  intro s t hs h
  obtain ⟨u, hcalls, hstep⟩ := step_next h
  exact stepCurrent_inv (applyCalls_inv s.inputs hs hcalls) hstep

end Sys2Proof.Machine
end

section
/-!
PROOF. The stages of a step: fetch, decode, execute, tick, resolve (40_step_and_fetch.md R210 to R220).

One lemma says what a step of a running block is (`step_of_running`), and one for each answer of the fetch what
`fetchExecute` then does. The resolution's outcomes follow the order of its definition.
-/

namespace Sys2Proof.Machine

/-! ## The fetch -/

/-- `pc` is a multiple of 4 exactly when its low two bits are clear. -/
theorem extractLsb'_pc_eq_zero_iff (pc : Word) : pc.extractLsb' 0 2 = 0#2 ↔ pc.toNat % 4 = 0 := by
  rw [← BitVec.toNat_inj]
  simp

theorem toNat_append {m n : Nat} (a : BitVec m) (b : BitVec n) : (a ++ b).toNat = a.toNat * 2 ^ n + b.toNat := by
  rw [BitVec.toNat_append, ← Nat.shiftLeft_add_eq_or_of_lt b.isLt, Nat.shiftLeft_eq]

/-- The word of four bytes, the first at the lowest address (R180). -/
theorem readLE_four (m : Memory) (pa : Word) : (m.readLE pa 4).setWidth 32 =
    wordOfBytes (m.read pa.toNat) (m.read (pa + 1#64).toNat) (m.read (pa + 2#64).toNat)
      (m.read (pa + 3#64).toNat) := by
  apply BitVec.eq_of_toNat_eq
  have hlt : m.nat pa 4 < 2 ^ 32 := nat_lt m pa 4
  rw [BitVec.toNat_setWidth, readLE_toNat m 4 pa (by decide), Nat.mod_eq_of_lt hlt, wordOfBytes,
    toNat_append, toNat_append, toNat_append]
  simp only [Memory.nat, BitVec.add_zero]
  omega

section
variable {s : State}

theorem fetch_of_misaligned (h : s.core.pc.toNat % 4 ≠ 0) : s.fetch = .misaligned :=
  if_neg fun h0 => h ((extractLsb'_pc_eq_zero_iff _).1 h0)

theorem fetch_of_unmapped (ha : s.core.pc.toNat % 4 = 0) (h : s.translatePc = .unmapped) : s.fetch = .unmapped := by
  rw [State.fetch, if_pos ((extractLsb'_pc_eq_zero_iff _).2 ha), h]

theorem fetch_of_fatal (ha : s.core.pc.toNat % 4 = 0) (h : s.translatePc = .fatal) : s.fetch = .fatal := by
  rw [State.fetch, if_pos ((extractLsb'_pc_eq_zero_iff _).2 ha), h]

theorem fetch_of_mapped {pa : Word} {u : State} (ha : s.core.pc.toNat % 4 = 0)
    (h : s.translatePc = .mapped pa u) :
    s.fetch = .word ((u.mem.readLE pa 4).setWidth 32) (u.recRinstr ((u.mem.readLE pa 4).setWidth 32)) := by
  rw [State.fetch, if_pos ((extractLsb'_pc_eq_zero_iff _).2 ha), h]

/-- What the fetch leaves of the state: the translation's frame, and the word recorded. -/
theorem fetch_frame {w : BitVec 32} {u : State} (h : s.fetch = .word w u) :
    u = { s with mem := u.mem, core := { s.core with
      tlb32 := u.core.tlb32, tlb39 := u.core.tlb39, delta := { s.core.delta with rinstr := w } } } := by
  obtain ⟨-, pa, v, hv, -, rfl⟩ := fetch_word h
  rw [translate_frame hv]
  rfl

theorem fetch_xlen {w : BitVec 32} {u : State} (h : s.fetch = .word w u) : u.xlen = s.params.arch := by
  rw [fetch_frame h]
  rfl

theorem fetchExecute_of_ok {w : BitVec 32} {u : State} {i : Instr} (h : s.fetch = .word w u)
    (hd : decode s.params.arch w = .ok i) : s.fetchExecute = exec i u := by
  rw [State.fetchExecute, h]
  simp only [fetch_xlen h, hd]

theorem fetchExecute_of_error {w : BitVec 32} {u : State} {e : DecodeError} (h : s.fetch = .word w u)
    (hd : decode s.params.arch w = .error e) : s.fetchExecute = execUnknown u := by
  rw [State.fetchExecute, h]
  simp only [fetch_xlen h, hd]

/-! ## The step -/

/-- A step of a running block without a pending call: fetch and execute, then tick and resolve (R210). -/
theorem step_of_running (hi : s.inputs = []) (hf : s.fatal = false) (hh : s.halted = none) :
    step s = match s.startStep.fetchExecute with
      | .next t => t.tick.resolve
      | .fault r => .fault r
      | .refused r => .refused r := by
  rw [step_of_no_inputs hi, State.stepCurrent, hf, hh]
  rfl

theorem step_of_fetchExecute_next {t : State} (hi : s.inputs = []) (hf : s.fatal = false) (hh : s.halted = none)
    (h : s.startStep.fetchExecute = .next t) : step s = t.tick.resolve := by
  rw [step_of_running hi hf hh, h]

end

/-- Settles O6: the fetch answers the word at `pa`, and the step runs what it decodes to. -/
theorem stepRunsDecoded : Obligations.StepRunsDecoded := by
  refine ⟨?_, fun s => rfl⟩
  intro s u pa i hi hf hh hpc hpa w hw
  have hfetch := fetch_of_mapped (s := s.startStep) hpc hpa
  rw [readLE_four] at hfetch
  rw [step_of_running hi hf hh, fetchExecute_of_ok hfetch hw]
  rfl

/-- Settles O7: each pseudo-instruction is the raise of its code after what the fetch recorded. -/
theorem stepPseudo : Obligations.StepPseudo := by
  intro s hi hf hh
  refine ⟨fun hpc => ?misaligned, fun hpc hpa => ?unmapped, fun w u e hfetch hw => ?unknown⟩
  case misaligned =>
    have hfetch : s.startStep.fetch = .misaligned := fetch_of_misaligned hpc
    exact ⟨_, raised_raise _ _ _, rfl, rfl,
      step_of_fetchExecute_next hi hf hh (by rw [State.fetchExecute, hfetch]; rfl)⟩
  case unmapped =>
    have hfetch : s.startStep.fetch = .unmapped := fetch_of_unmapped hpc hpa
    exact ⟨_, raised_raise _ _ _, rfl, rfl,
      step_of_fetchExecute_next hi hf hh (by rw [State.fetchExecute, hfetch]; rfl)⟩
  case unknown =>
    refine ⟨_, raised_raise u _ _, ?_, ?_, step_of_fetchExecute_next hi hf hh (fetchExecute_of_error hfetch hw)⟩
    all_goals
      rw [fetch_frame hfetch]
      rfl

/-! ## The clock tick -/

/-- Settles O8: the resolution keeps the count and the clock that the tick has set. -/
theorem clockTick : Obligations.ClockTick := by
  have hclock (u : State) : u.tick.clock.toNat = (u.core.cycles + 1#64).toNat / u.params.tickRatio :=
    Nat.mod_eq_of_lt (Nat.lt_of_le_of_lt (Nat.div_le_self _ _) (BitVec.isLt _))
  refine ⟨fun s t h => ?_, fun u => ⟨rfl, rfl, hclock u⟩⟩
  obtain ⟨s', hcalls, hstep⟩ := step_next h
  obtain ⟨-, -, u, hexec, hres⟩ := stepCurrent_next hstep
  have frame := resolve_frame hres
  exact ⟨s', u, hcalls, hexec, hres, frame.cycles, by rw [frame.clock, frame.cycles, hclock, tick_cycles]⟩

/-! ## The resolution -/

/-- `pc + 4` at the running width (R28, R216). -/
theorem zext_pc_add_four (x : Xlen) (pc : Word) : x.zext (pc + 4#64) = x.addr (pc.toNat + 4) := by
  rw [addr_add]
  exact addr_congr _ (add_emod_congr (toInt_emod x pc) rfl)

/-- Settles O10: the resolution's definition, one outcome at a time. -/
theorem resolveOutcomes : Obligations.ResolveOutcomes := by
  intro s
  refine ⟨fun i p h => ?interrupt, fun hnone => ⟨fun h => ?straight, fun c b h => ?trap, fun p t h ht => ?ret,
    fun p r h hr => ?fatal, fun a h => ?branch⟩⟩
  case interrupt =>
    rw [State.resolve, h]
    rfl
  all_goals rw [State.resolve, hnone, State.applyNext, h]
  case straight => rw [← zext_pc_add_four]; rfl
  case trap => rfl
  case ret =>
    obtain ⟨-, rfl⟩ := privReturn_next ht
    simp only [ht]
    rfl
  case fatal => simp only [hr]
  case branch => rw [← zext_eq_addr_toNat]; rfl

end Sys2Proof.Machine
end

section
/-!
PROOF. Which trap is taken, trap entry, and privilege return (60_exceptions.md R486 to R510).

The search is `List.find?` over the fixed order, so its answer is the first index that is dispatchable. The status
register after a trap or a return is given bit by bit from the lemmas on `setBit` and `putField`.
-/

namespace Sys2Proof.Machine

/-! ## The interrupt search -/

/-- Dispatchable: pending, enabled, and delegated above the current level, or to it with its enable set (R487 to
R490). -/
theorem dispatchable_iff (c : Core) (i : Nat) : c.dispatchable i = true ↔
    c.mip.getLsbD i = true ∧ c.mie.getLsbD i = true ∧ (c.cur.num < (c.intTarget i).num ∨
      (c.intTarget i = c.cur ∧ c.mstatus.getLsbD c.cur.num = true)) := by
  simp [Core.dispatchable, Core.locallyEnabled, Core.globallyEnabled, statusIE, and_assoc]

theorem checkInterrupts_some_iff (c : Core) (i : Nat) (p : Priv) : c.checkInterrupts = some (i, p) ↔
    p = c.intTarget i ∧ c.dispatchable i = true ∧ ∃ before after,
      before ++ i :: after = interruptOrder ∧ ∀ j ∈ before, ¬c.dispatchable j = true := by
  constructor
  · intro h
    obtain ⟨k, hk, heq⟩ := Option.map_eq_some_iff.1 h
    obtain ⟨rfl, rfl⟩ := Prod.mk.inj heq
    obtain ⟨hd, before, after, hsplit, hbefore⟩ := List.find?_eq_some_iff_append.1 hk
    exact ⟨rfl, hd, before, after, hsplit.symm, fun j hj => by simpa using hbefore j hj⟩
  · rintro ⟨rfl, hd, before, after, hsplit, hbefore⟩
    exact Option.map_eq_some_iff.2 ⟨i, List.find?_eq_some_iff_append.2
      ⟨hd, before, after, hsplit.symm, fun j hj => by simpa using hbefore j hj⟩, rfl⟩

theorem mem_interruptOrder_iff (i : Nat) : i ∈ interruptOrder ↔ i < 12 := by
  simp only [interruptOrder, List.mem_cons, List.not_mem_nil, or_false]
  omega

theorem checkInterrupts_none_iff (c : Core) :
    c.checkInterrupts = none ↔ ∀ i, i < 12 → ¬c.dispatchable i = true := by
  rw [Core.checkInterrupts, Option.map_eq_none_iff, List.find?_eq_none]
  simp only [mem_interruptOrder_iff]

/-! ## The level an exception enters -/

theorem num_max (a b : Priv) : (Priv.max a b).num = Nat.max a.num b.num := by
  cases a <;> cases b <;> rfl

/-- The public code of an environment call is 8 plus the level where `ECALL_CODE` says so (R499). -/
theorem publicCode_toNat (e : EcallCode) (code : BitVec 4) (cur : Priv) : (publicCode e code cur).toNat =
    if code = 8#4 ∧ e = .perPrivilege then 8 + cur.num else code.toNat := by
  have := num_lt cur
  unfold publicCode
  split
  · rw [BitVec.toNat_ofNat, Nat.mod_eq_of_lt (by omega)]
  · rfl

/-- Settles O11: the search and the delegation walk, by their definitions. -/
theorem trapSelection : Obligations.TrapSelection := by
  refine ⟨?_, ?_⟩
  · intro c target ready
    have hready (i : Nat) : c.dispatchable i = true ↔ ready i := dispatchable_iff c i
    refine ⟨fun i p => ?_, ?_⟩
    · rw [checkInterrupts_some_iff]
      simp only [hready]
      rfl
    · rw [checkInterrupts_none_iff]
      simp only [hready]
  · intro c code e n walk
    exact ⟨num_max walk c.cur, publicCode_toNat e code c.cur⟩

/-! ## Trap entry -/

/-- The cause register: the interrupt flag with weight `2^63`, and the code (R81). -/
theorem causeWord_toNat (intr : Bool) (code : BitVec 4) :
    (causeWord intr code).toNat = (if intr = true then 2 ^ 63 else 0) + code.toNat := by
  revert intr code
  decide

theorem bank_setBank (c : Core) (p q : Priv) (b : TrapBank) :
    (c.setBank p b).bank q = if q = p then b else c.bank q := by
  cases p <;> cases q <;> rfl

/-- Bit `j` is the lower bit of the previous-privilege field of level `p` (R60). -/
abbrev PrevLow (p : Priv) (j : Nat) : Prop :=
  (p = .machine ∧ j = 11) ∨ (p = .hypervisor ∧ j = 9) ∨ (p = .supervisor ∧ j = 8)

/-- Bit `j` is the upper bit of the previous-privilege field of level `p`; SPP has none (R60). -/
abbrev PrevHigh (p : Priv) (j : Nat) : Prop := (p = .machine ∧ j = 12) ∨ (p = .hypervisor ∧ j = 10)

theorem getLsbD_word (q : Priv) (k : Nat) (hk : k < 64) : q.word.getLsbD k = q.num.testBit k := by
  rw [Priv.word, BitVec.getLsbD_ofNat, decide_eq_true hk, Bool.true_and]

theorem getLsbD_putField_two (m : Word) (lo : Nat) (q : Priv) (j : Nat) (hj : j < 64) :
    (putField m lo 2 q.word).getLsbD j =
      if j = lo then q.num.testBit 0 else if j = lo + 1 then q.num.testBit 1 else m.getLsbD j := by
  rw [getLsbD_putField _ _ _ _ _ hj (by decide), getLsbD_word _ _ (by omega)]
  by_cases h0 : j = lo
  · rw [if_pos (by omega), if_pos h0, h0, Nat.sub_self]
  by_cases h1 : j = lo + 1
  · rw [if_pos (by omega), if_neg h0, if_pos h1, h1, Nat.add_sub_cancel_left]
  · rw [if_neg (by omega), if_neg h0, if_neg h1]

/-- The previous-privilege field of a level written, bit by bit. -/
theorem getLsbD_statusPutPrev_field (m : Word) (p q : Priv) (j : Nat) (hj : j < 64) :
    (statusPutPrev m p q).getLsbD j =
      if PrevLow p j then q.num.testBit 0 else if PrevHigh p j then q.num.testBit 1 else m.getLsbD j := by
  cases p with
  | machine => simpa [PrevLow, PrevHigh, statusPutPrev] using getLsbD_putField_two m 11 q j hj
  | hypervisor => simpa [PrevLow, PrevHigh, statusPutPrev] using getLsbD_putField_two m 9 q j hj
  | supervisor =>
    rw [statusPutPrev, getLsbD_putField _ _ _ _ _ hj (by decide), getLsbD_word _ _ (by omega)]
    by_cases h8 : j = 8
    · subst h8
      simp [PrevLow]
    · rw [if_neg (by omega)]
      simp [PrevLow, PrevHigh, h8]
  | user => simp [PrevLow, PrevHigh, statusPutPrev]

/-- The status register after a trap, bit by bit (R505). -/
theorem getLsbD_statusTrap (m : Word) (cur t : Priv) (j : Nat) (hj : j < 64) : (statusTrap m cur t).getLsbD j =
    if j = 4 + t.num then m.getLsbD cur.num
    else if j = t.num then false
    else if PrevLow t j then cur.num.testBit 0
    else if PrevHigh t j then cur.num.testBit 1
    else m.getLsbD j := by
  have ht := num_lt t
  rw [statusTrap, getLsbD_setBit _ _ _ _ hj, getLsbD_statusPutPrev_field _ _ _ _ hj, getLsbD_setBit _ _ _ _ hj]
  by_cases hIE : j = 4 + t.num
  · have hlow : ¬PrevLow t j := by omega
    have hhigh : ¬PrevHigh t j := by omega
    rw [if_neg (by omega : j ≠ t.num), if_neg hlow, if_neg hhigh, if_pos hIE, if_pos hIE]
    rfl
  · rw [if_neg hIE, if_neg hIE]

/-- Settles O12: the fields `trapEntry` writes, and the status register bit by bit. -/
theorem trapEntryEffect : Obligations.TrapEntryEffect := by
  rintro s t intr code p epc b rfl
  have hbank (q : Priv) : (s.trapEntry intr code p epc b).core.bank q =
      if q = p then (s.core.bank p).enter intr code epc b else s.core.bank q := bank_setBank s.core p q _
  have hp := (hbank p).trans (if_pos rfl)
  rw [hp]
  refine ⟨rfl, causeWord_toNat intr code, ?badaddr, rfl, rfl, fun q hq => (hbank q).trans (if_neg hq),
    zext_eq_addr_toNat _ _, rfl, fun j hj => getLsbD_statusTrap _ _ p j hj, rfl⟩
  case badaddr => cases intr <;> cases b <;> rfl

/-! ## Privilege return -/

/-- Bit `j` is in the previous-privilege field of level `p` (R60). -/
abbrev PrevField (p : Priv) (j : Nat) : Prop :=
  (p = .machine ∧ (j = 11 ∨ j = 12)) ∨ (p = .hypervisor ∧ (j = 9 ∨ j = 10)) ∨ (p = .supervisor ∧ j = 8)

theorem prevField_iff (p : Priv) (j : Nat) : PrevField p j ↔ PrevLow p j ∨ PrevHigh p j := by
  unfold PrevField PrevLow PrevHigh
  tauto

/-- The status register after a return, bit by bit (R510). -/
theorem getLsbD_statusReturn (m : Word) (p : Priv) (j : Nat) (hj : j < 64) : (statusReturn m p).getLsbD j =
    if j = 4 + p.num then true
    else if j = (statusPrev m p).num then m.getLsbD (4 + p.num)
    else if PrevField p j then false
    else m.getLsbD j := by
  have hprev := num_lt (statusPrev m p)
  rw [statusReturn, getLsbD_setBit _ _ _ _ hj, getLsbD_statusPutPrev_field _ _ _ _ hj, getLsbD_setBit _ _ _ _ hj]
  congr 1
  by_cases hIE : j = (statusPrev m p).num
  · have hlow : ¬PrevLow p j := by omega
    have hhigh : ¬PrevHigh p j := by omega
    rw [if_neg hlow, if_neg hhigh, if_pos hIE, if_pos hIE]
    rfl
  · rw [if_neg hIE, if_neg hIE]
    simp only [prevField_iff]
    by_cases hlow : PrevLow p j
    · rw [if_pos hlow, if_pos (.inl hlow)]
      rfl
    · simp only [hlow, false_or, if_false]
      rfl

theorem num_ofCode (c : BitVec 2) : (Priv.ofCode c).num = c.toNat := by
  revert c
  decide

/-- The previous privilege of a level as a field of the status register (R60). -/
theorem num_statusPrev (m : Word) (p : Priv) : (statusPrev m p).num = match p with
    | .machine => m.toNat / 2 ^ 11 % 4
    | .hypervisor => m.toNat / 2 ^ 9 % 4
    | .supervisor => m.toNat / 2 ^ 8 % 2
    | .user => 0 := by
  cases p with
  | machine => simp [statusPrev, num_ofCode, Nat.shiftRight_eq_div_pow]
  | hypervisor => simp [statusPrev, num_ofCode, Nat.shiftRight_eq_div_pow]
  | supervisor =>
    rw [statusPrev, BitVec.getLsbD, Nat.testBit_eq_decide_div_mod_eq]
    rcases Nat.mod_two_eq_zero_or_one (m.toNat / 2 ^ 8) with h | h <;> rw [h] <;> rfl
  | user => rfl

/-- The exception PC with its low two bits clear, at the running width (R510). -/
theorem zext_and_not_three (x : Xlen) (v : Word) : x.zext (v &&& ~~~3#64) = x.addr (v.toNat / 4 * 4 : Nat) := by
  rw [zext_eq_addr_toNat, show (3#64 : Word) = lowMask 2 from rfl, and_not_mask 2 (by decide)]
  rfl

/-- Settles O13: a return above the level is the fault, any other sets the three fields of `privReturn`. -/
theorem privReturnEffect : Obligations.PrivReturnEffect := by
  intro s p prev
  have hprev : (statusPrev s.core.mstatus p).num = prev := num_statusPrev s.core.mstatus p
  rw [State.privReturn, hprev]
  refine ⟨fun h => if_pos h, fun h => ⟨_, if_neg (Nat.not_lt.2 h), hprev, zext_and_not_three _ _, fun j hj => ?_, rfl⟩⟩
  exact (getLsbD_statusReturn _ p j hj).trans (by rw [hprev])

end Sys2Proof.Machine
end

section
/-!
PROOF. The environment's calls (40_step_and_fetch.md R211, R221; 60_exceptions.md R497; 70_reset_and_hazards.md
R531), and the system instructions that only request something of the resolution (46_csr_system.md R380 to R388).
-/

namespace Sys2Proof.Machine

/-! ## Refused calls -/

theorem stepCurrent_of_fatal {s : State} (h : s.fatal = true) : s.stepCurrent = .refused .fatalSet := if_pos h

theorem stepCurrent_of_halted {s : State} (hf : s.fatal = false) (hh : s.halted ≠ none) :
    s.stepCurrent = .refused .runEnded := by
  rw [State.stepCurrent, hf, Option.isSome_iff_ne_none.2 hh]
  rfl

/-- A step whose calls are refused is refused. -/
theorem step_of_refused {s : State} {c : Input} {rest : List Input} {r : Refusal} (hi : s.inputs = c :: rest)
    (h : s.applyCalls (c :: rest) = .refused r) : step s = .refused r := by
  rw [step, State.applyInputs, hi, h]

theorem selectCore_of_no_core {s : State} {c : Nat} (h : ∀ d ∈ s.core :: s.parked, d.hartid ≠ c) :
    s.selectCore c = .refused .noSuchCore := by
  obtain ⟨hcore, hparked⟩ := List.forall_mem_cons.1 h
  rw [State.selectCore, if_neg hcore, takeCore_none hparked]

/-! ## Choosing a core -/

theorem takeCore_of_mem {c : Nat} : ∀ {l : List Core}, (∃ d ∈ l, d.hartid = c) → ∃ r, takeCore c l = some r
  | [], h => by simp at h
  | d :: rest, h => by
    unfold takeCore
    split
    · exact ⟨_, rfl⟩
    next hd =>
      obtain ⟨e, he, hid⟩ := h
      obtain ⟨r, hr⟩ := takeCore_of_mem ⟨e, List.mem_of_ne_of_mem (by rintro rfl; exact hd hid) he, hid⟩
      rw [hr]
      exact ⟨_, rfl⟩

/-- Under the invariant every id below `NCORES` is a core's, and choosing it is accepted. -/
theorem selectCore_of_inv {s : State} {c : Nat} (hs : s.Inv) (hc : c < s.params.ncores) :
    ∃ t, s.selectCore c = .next t := by
  have hmem : c ∈ (insertCore s.core s.parked).map Core.hartid := hs.ids ▸ List.mem_range.2 hc
  obtain ⟨d, hd, hid⟩ := List.mem_map.1 hmem
  unfold State.selectCore
  split
  · exact ⟨s, rfl⟩
  next hcore =>
    have hparked : d ∈ s.parked :=
      List.mem_of_ne_of_mem (by rintro rfl; exact hcore hid) ((insertCore_perm _ _).mem_iff.1 hd)
    obtain ⟨⟨e, others⟩, he⟩ := takeCore_of_mem ⟨d, hparked, hid⟩
    rw [he]
    exact ⟨_, rfl⟩

/-- Settles O9: each call by what `applyCalls` makes of it. -/
theorem environmentCalls : Obligations.EnvironmentCalls := by
  refine ⟨fun s hi hf => ?fatal, fun s hi hf hh => ?ended, fun s c rest hi hnone => ?noCore,
    fun s c rest hs hc hi => ?select, fun s i v rest hf hh hi => ?irq, fun s c i v rest hi =>
    ⟨fun hf => ?irqFatal, fun hf hh => ?irqEnded, fun hf hh hnone => ?irqNoCore, fun hf hh hcore hparked => ?irqParked⟩,
    fun s rest hi => ?reset⟩
  case fatal => rw [step_of_no_inputs hi, stepCurrent_of_fatal hf]
  case ended => rw [step_of_no_inputs hi, stepCurrent_of_halted hf hh]
  case noCore => exact step_of_refused hi (selectCore_of_no_core hnone)
  case select =>
    have hs' := hs.withInputs rest
    obtain ⟨t, ht⟩ := selectCore_of_inv hs' hc
    obtain ⟨-, hid, hmem⟩ := selectCore_ids ht hs'.ids
    refine ⟨t, ?_, hid, (hmem _).1 (.head _), hmem, selectCore_frame ht⟩
    rw [step, State.applyInputs, hi, State.applyCalls, ht]
  case irq =>
    exact step_setIrq hi (by rw [setIrq_of_running hf hh, if_pos rfl])
  case irqFatal =>
    have hirq : s.setIrq c i v = .refused .fatalSet := if_pos hf
    exact step_of_refused hi (by rw [State.applyCalls, hirq])
  case irqEnded =>
    have hirq : s.setIrq c i v = .refused .runEnded := by
      rw [State.setIrq, hf, Option.isSome_iff_ne_none.2 hh]
      rfl
    exact step_of_refused hi (by rw [State.applyCalls, hirq])
  case irqNoCore =>
    obtain ⟨hcore, hparked⟩ := List.forall_mem_cons.1 hnone
    have hirq : s.setIrq c i v = .refused .noSuchCore := by
      rw [setIrq_of_running hf hh, if_neg hcore, if_neg (by simpa using hparked)]
    exact step_of_refused hi (by rw [State.applyCalls, hirq])
  case irqParked =>
    exact step_setIrq hi (by rw [setIrq_of_running hf hh, if_neg hcore, if_pos hparked])
  case reset =>
    rw [step, State.applyInputs, hi, State.applyCalls, ← applyCalls_inputs rest _ rest]
    rfl

/-! ## Requests to the resolution -/

/-- A return instruction's meaning (R382 to R386). -/
theorem exec_of_returnLevel {i : Instr} {p : Priv} (s : State) (h : returnLevel i = some p) : exec i s = s.xret p := by
  unfold returnLevel at h
  split at h
  iterate 4 · cases h; rfl
  · cases h

/-- Settles O33: the three plain instructions answer the state, a return is `xret` of its level. -/
theorem plainSystemResults : Obligations.PlainSystemResults := by
  refine ⟨fun s => ⟨rfl, rfl, rfl⟩, fun s i p hp => ?_⟩
  rw [exec_of_returnLevel s hp]
  exact ⟨fun h => if_neg (Nat.not_lt.2 h), fun h => if_pos h⟩

/-- Without a dispatchable interrupt a raised exception is taken in the same step: neither the raise nor the tick
touches what the search and the delegation read. -/
theorem resolve_tick_raise {s : State} (h : s.core.checkInterrupts = none) (code : BitVec 4) (b : Option Word) :
    (s.raise code b).tick.resolve = .next (((s.raise code b).tick.trapEntry false
      (publicCode s.params.ecallCode code s.core.cur) (s.core.excTarget code) s.core.pc b).setNext .none) := by
  have hirq : (s.raise code b).tick.core.checkInterrupts = none := h
  rw [State.resolve, hirq]
  rfl

/-- Settles O44: code 8 and code 3, their delegation index and their public code. -/
theorem callsAndBreakpoints : Obligations.CallsAndBreakpoints := by
  intro s h level code
  refine ⟨⟨_, rfl, raised_raise _ _ _, ?ecall⟩, ⟨_, rfl, raised_raise _ _ _, ?ebreak⟩⟩
  case ecall =>
    have hcode : publicCode s.params.ecallCode 8#4 s.core.cur = code := by
      unfold publicCode code
      cases s.params.ecallCode <;> rfl
    rw [resolve_tick_raise h, hcode]
    rfl
  case ebreak =>
    rw [resolve_tick_raise h]
    rfl

end Sys2Proof.Machine
end

section
/-!
PROOF. Raw memory, and the walk of the page tables (20_memory.md R120 to R124, R134 to R150).

The walk is unrolled once for both formats: at each level the entry read is a leaf that passes the check, a valid
pointer, or a failure (`walkFrom_leaf`, `walkFrom_pointer`, `walkFrom_fails`). What is left of each statement is the
format's numbers: where an entry stands, which table it points to, and the physical address of its page.
-/

namespace Sys2Proof.Machine

/-! ## Raw memory -/

theorem toNat_add_ofNat (pa : Word) (k : Nat) : (pa + BitVec.ofNat 64 k).toNat = (pa.toNat + k) % 2 ^ 64 := by
  simp

/-- Byte `k` of a value. -/
theorem setWidth_ushiftRight_byte (v : Word) (k : Nat) :
    (v >>> (8 * k)).setWidth 8 = BitVec.ofNat 8 (v.toNat / 256 ^ k) := by
  apply BitVec.eq_of_toNat_eq
  rw [BitVec.toNat_setWidth, BitVec.toNat_ushiftRight, Nat.shiftRight_eq_div_pow, Nat.pow_mul, BitVec.toNat_ofNat]

/-- A read gives back what a write of as many bytes put there. -/
theorem toNat_readLE_writeLE (m : Memory) (pa v : Word) (n : Nat) (hn : n ≤ 8) :
    ((m.writeLE pa n v).readLE pa n).toNat = v.toNat % 256 ^ n := by
  apply Nat.eq_of_testBit_eq
  intro i
  rw [show 256 ^ n = 2 ^ (8 * n) from (Nat.pow_mul 2 8 n).symm, Nat.testBit_mod_two_pow]
  by_cases hi : i < 64
  · exact readLE_writeLE n hn m pa v i hi
  · rw [decide_eq_false (by omega), Bool.false_and]
    exact BitVec.getLsbD_of_ge _ i (by omega)

/-- Settles O55: the laws of `Memory.writeLE` and `Memory.readLE`, in numbers. -/
theorem memoryLaws : Obligations.MemoryLaws := by
  refine ⟨fun m pa v n hn => ⟨fun k hk => ?bytes, fun a ha => ?others, toNat_readLE_writeLE m pa v n hn,
    readLE_toNat m n pa hn, wf_writeLE n pa v⟩, fun m m' => eq_of_read_eq m m' 0⟩
  case bytes =>
    rw [read_writeLE_at n k m pa v hk (by omega), setWidth_ushiftRight_byte]
  case others =>
    refine read_writeLE_of_ne n m pa v fun k hk => ?_
    rw [toNat_add_ofNat]
    exact ha k hk

/-! ## The kinds of an entry (R138) -/

/-- The entry is invalid: `V` is clear, or it is writable without being readable. -/
def PteBad {n : Nat} (p : BitVec n) : Prop := p.getLsbD 0 = false ∨ (p.getLsbD 2 = true ∧ p.getLsbD 1 = false)

/-- The entry points to the next table. -/
def PtePoints {n : Nat} (p : BitVec n) : Prop :=
  ¬PteBad p ∧ p.getLsbD 1 = false ∧ p.getLsbD 2 = false ∧ p.getLsbD 3 = false

/-- The entry is a leaf that passes the permission check. -/
def PteLeaf {n : Nat} (p : BitVec n) (k : AccessKind) (q : Priv) (mxr pum : Bool) : Prop :=
  ¬PteBad p ∧ ¬PtePoints p ∧ permOk p k q mxr pum = true

theorem pteInvalid_iff {n : Nat} (p : BitVec n) : pteInvalid p = true ↔ PteBad p := by
  simp [pteInvalid, PteBad, pteV, pteW, pteR]

theorem pteInvalid_eq_false {n : Nat} {p : BitVec n} (h : ¬PteBad p) : pteInvalid p = false :=
  Bool.eq_false_of_not_eq_true fun hp => h ((pteInvalid_iff p).1 hp)

theorem ptePointer_iff {n : Nat} {p : BitVec n} (h : ¬PteBad p) : ptePointer p = true ↔ PtePoints p := by
  simp [ptePointer, PtePoints, h, pteR, pteW, pteX, and_assoc]

/-! ## One level of the walk (R145) -/

/-- Where the entry of level `i` of the table at `a` stands. -/
def VmFormat.entryAddr (f : VmFormat) (va : Word) (i : Nat) (a : Word) : Word :=
  a + f.vpn va i * BitVec.ofNat 64 f.pteBytes

/-- The entry of level `i` of the table at `a`. -/
def VmFormat.entry (f : VmFormat) (m : Memory) (va : Word) (i : Nat) (a : Word) : BitVec f.pteBits :=
  (m.readLE (f.entryAddr va i a) f.pteBytes).setWidth f.pteBits

section
variable {f : VmFormat} {m : Memory} {va a : Word} {k : AccessKind} {q : Priv} {mxr pum g : Bool} {i : Nat}

/-- The walk from level `i`, by the entry it reads. -/
theorem walkFrom_eq : walkFrom f m va k q mxr pum i a g =
    if pteInvalid (f.entry m va i a) then none
    else if ptePointer (f.entry m va i a) then
      match i with
      | 0 => none
      | j + 1 => walkFrom f m va k q mxr pum j (f.ppnBase (f.entry m va i a)) (g || (f.entry m va i a).getLsbD 5)
    else if permOk (f.entry m va i a) k q mxr pum then
      some ⟨i, f.entry m va i a, f.entryAddr va i a, g || (f.entry m va i a).getLsbD 5⟩
    else none := by
  cases i <;> rfl

theorem walkFrom_leaf (h : PteLeaf (f.entry m va i a) k q mxr pum) : walkFrom f m va k q mxr pum i a g =
    some ⟨i, f.entry m va i a, f.entryAddr va i a, g || (f.entry m va i a).getLsbD 5⟩ := by
  obtain ⟨hbad, hpoint, hperm⟩ := h
  rw [walkFrom_eq, if_neg (mt (pteInvalid_iff _).1 hbad), if_neg (mt (ptePointer_iff hbad).1 hpoint), if_pos hperm]

theorem walkFrom_pointer (h : PtePoints (f.entry m va (i + 1) a)) : walkFrom f m va k q mxr pum (i + 1) a g =
    walkFrom f m va k q mxr pum i (f.ppnBase (f.entry m va (i + 1) a)) (g || (f.entry m va (i + 1) a).getLsbD 5) := by
  rw [walkFrom_eq, if_neg (mt (pteInvalid_iff _).1 h.1), if_pos ((ptePointer_iff h.1).2 h)]

/-- An entry that is neither such a leaf nor a pointer fails, and so does a pointer at level 0. -/
theorem walkFrom_fails (hl : ¬PteLeaf (f.entry m va i a) k q mxr pum)
    (hp : PtePoints (f.entry m va i a) → i = 0) : walkFrom f m va k q mxr pum i a g = none := by
  rw [walkFrom_eq]
  by_cases hbad : PteBad (f.entry m va i a)
  · rw [if_pos ((pteInvalid_iff _).2 hbad)]
  rw [if_neg (mt (pteInvalid_iff _).1 hbad)]
  by_cases hpoint : PtePoints (f.entry m va i a)
  · rw [if_pos ((ptePointer_iff hbad).2 hpoint)]
    cases hp hpoint
    rfl
  · rw [if_neg (mt (ptePointer_iff hbad).1 hpoint), if_neg fun hperm => hl ⟨hbad, hpoint, hperm⟩]

end

/-! ## The formats in numbers (R134 to R137) -/

theorem entryAddr_sv39 (va : Word) (i : Nat) (a : Word) : VmFormat.entryAddr .sv39 va i a =
    a + BitVec.ofNat 64 (va.toNat / 2 ^ (12 + i * 9) % 512 * 8) :=
  congrArg (a + ·) (vpn_eq va i)

theorem entry_sv39 (m : Memory) (va : Word) (i : Nat) (a : Word) : VmFormat.entry .sv39 m va i a =
    BitVec.ofNat 64 (m.nat (VmFormat.entryAddr .sv39 va i a) 8) := by
  rw [VmFormat.entry, ← readLE_eq_ofNat m 8 _ (by decide)]
  exact BitVec.setWidth_eq _

theorem ppnBase_sv32 (p : BitVec 32) : VmFormat.ppnBase .sv32 p = BitVec.ofNat 64 (p.toNat / 2 ^ 10 * 4096) := by
  apply BitVec.eq_of_toNat_eq
  simp only [VmFormat.ppnBase, VmFormat.ppnBits, BitVec.toNat_shiftLeft, and_lowMask_toNat 22 (by decide),
    BitVec.toNat_ushiftRight, BitVec.toNat_setWidth, BitVec.toNat_ofNat, Nat.shiftRight_eq_div_pow,
    Nat.shiftLeft_eq]
  omega

theorem root_sv32 (p : Word) : VmFormat.root .sv32 p = BitVec.ofNat 64 (p.toNat % 2 ^ 22 * 4096) := by
  apply BitVec.eq_of_toNat_eq
  simp only [VmFormat.root, VmFormat.ppnBits, BitVec.toNat_shiftLeft, and_lowMask_toNat 22 (by decide),
    BitVec.toNat_ofNat, Nat.shiftLeft_eq]

theorem entryAddr_sv32 (va : Word) (i : Nat) (a : Word) : VmFormat.entryAddr .sv32 va i a =
    a + BitVec.ofNat 64 (va.toNat / 2 ^ (12 + i * 10) % 1024 * 4) := by
  refine congrArg (a + ·) (BitVec.eq_of_toNat_eq ?_)
  simp only [VmFormat.vpn, VmFormat.indexBits, VmFormat.pageShift, VmFormat.pteBytes, BitVec.toNat_mul,
    and_lowMask_toNat 10 (by decide), BitVec.toNat_ofNat, BitVec.toNat_ushiftRight, Nat.shiftRight_eq_div_pow]
  omega

theorem entry_sv32 (m : Memory) (va : Word) (i : Nat) (a : Word) : VmFormat.entry .sv32 m va i a =
    BitVec.ofNat 32 (m.nat (VmFormat.entryAddr .sv32 va i a) 4) := by
  apply BitVec.eq_of_toNat_eq
  rw [VmFormat.entry, BitVec.toNat_setWidth, BitVec.toNat_ofNat]
  exact congrArg (· % 2 ^ 32) (readLE_toNat m 4 _ (by decide))

/-- The physical address of a leaf of the 2-level format. -/
theorem phys_sv32 (i : Nat) (hi : i < 2) (p : BitVec 32) (va : Word) : (VmFormat.phys .sv32 i p va).toNat =
    p.toNat / 2 ^ 10 * 2 ^ 12 / 2 ^ (12 + i * 10) * 2 ^ (12 + i * 10) + va.toNat % 2 ^ (12 + i * 10) := by
  have hshift : 12 + i * 10 ≤ 64 := by omega
  refine toNat_or_of_low _ _ (12 + i * 10) _ _ _ ?_ (and_lowMask_toNat _ hshift va) (Nat.mod_lt _ (Nat.two_pow_pos _))
    rfl
  rw [VmFormat.pbase, ppnBase_sv32]
  refine (and_not_mask _ hshift _).trans ?_
  rw [BitVec.toNat_ofNat, Nat.mod_eq_of_lt (by omega)]
  rfl

/-! ## The statements -/

/-- Settles O59: the walk from level 2, level by level, and the numbers of the 3-level format. -/
theorem walkThreeLevels : Obligations.WalkThreeLevels := by
  intro m sptbr va k q mxr pum place entry next bad pointer leaf root p2 p1 p0 found
  have e2 : VmFormat.entry .sv39 m va 2 root = p2 := by rw [entry_sv39, entryAddr_sv39]
  have e1 : VmFormat.entry .sv39 m va 1 (next p2) = p1 := by rw [entry_sv39, entryAddr_sv39]
  have e0 : VmFormat.entry .sv39 m va 0 (next p1) = p0 := by rw [entry_sv39, entryAddr_sv39]
  have top : found = walkFrom .sv39 m va k q mxr pum 2 root false :=
    congrArg (walkFrom .sv39 m va k q mxr pum 2 · false) (root_eq sptbr)
  have middle (h2 : pointer p2) : found = walkFrom .sv39 m va k q mxr pum 1 (next p2) (p2.getLsbD 5) := by
    rw [top, walkFrom_pointer (e2.symm ▸ h2), e2, ppnBase_eq, Bool.false_or]
  have bottom (h2 : pointer p2) (h1 : pointer p1) :
      found = walkFrom .sv39 m va k q mxr pum 0 (next p1) (p2.getLsbD 5 || p1.getLsbD 5) := by
    rw [middle h2, walkFrom_pointer (e1.symm ▸ h1), e1, ppnBase_eq]
  refine ⟨fun h2 => ?leaf2, fun h2 h1 => ?leaf1, fun h2 h1 h0 => ?leaf0, fun hnone => ?fails, fun p =>
    ⟨phys_toNat 0 (by decide) p va, phys_toNat 1 (by decide) p va, phys_toNat 2 (by decide) p va⟩⟩
  case leaf2 =>
    rw [top, walkFrom_leaf (e2.symm ▸ h2), e2, entryAddr_sv39, Bool.false_or]
  case leaf1 =>
    rw [middle h2, walkFrom_leaf (e1.symm ▸ h1), e1, entryAddr_sv39]
  case leaf0 =>
    rw [bottom h2 h1, walkFrom_leaf (e0.symm ▸ h0), e0, entryAddr_sv39]
  case fails =>
    obtain ⟨n2, n1, n0⟩ : ¬leaf p2 ∧ ¬(pointer p2 ∧ leaf p1) ∧ ¬(pointer p2 ∧ pointer p1 ∧ leaf p0) := by
      rwa [not_or, not_or] at hnone
    by_cases h2 : pointer p2
    · by_cases h1 : pointer p1
      · rw [bottom h2 h1, walkFrom_fails (e0.symm ▸ fun h0 => n0 ⟨h2, h1, h0⟩) fun _ => rfl]
      · rw [middle h2, walkFrom_fails (e1.symm ▸ fun h => n1 ⟨h2, h⟩) (e1.symm ▸ fun h => absurd h h1)]
    · rw [top, walkFrom_fails (e2.symm ▸ n2) (e2.symm ▸ fun h => absurd h h2)]

/-- Settles O60: the walk from level 1, level by level, and the numbers of the 2-level format. -/
theorem walkTwoLevels : Obligations.WalkTwoLevels := by
  intro m sptbr va k q mxr pum place entry bad pointer leaf root p1 table p0 found
  have e1 : VmFormat.entry .sv32 m va 1 root = p1 := by rw [entry_sv32, entryAddr_sv32]
  have e0 : VmFormat.entry .sv32 m va 0 table = p0 := by rw [entry_sv32, entryAddr_sv32]
  have top : found = walkFrom .sv32 m va k q mxr pum 1 root false :=
    congrArg (walkFrom .sv32 m va k q mxr pum 1 · false) (root_sv32 sptbr)
  have bottom (h1 : pointer p1) : found = walkFrom .sv32 m va k q mxr pum 0 table (p1.getLsbD 5) := by
    rw [top, walkFrom_pointer (e1.symm ▸ h1), e1, ppnBase_sv32, Bool.false_or]
  refine ⟨fun h1 => ?leaf1, fun h1 h0 => ?leaf0, fun hnone => ?fails, fun p => ⟨?phys0, ?phys1⟩⟩
  case leaf1 =>
    rw [top, walkFrom_leaf (e1.symm ▸ h1), e1, entryAddr_sv32, Bool.false_or]
  case leaf0 =>
    rw [bottom h1, walkFrom_leaf (e0.symm ▸ h0), e0, entryAddr_sv32]
  case fails =>
    obtain ⟨n1, n0⟩ := not_or.1 hnone
    by_cases h1 : pointer p1
    · rw [bottom h1, walkFrom_fails (e0.symm ▸ fun h0 => n0 ⟨h1, h0⟩) fun _ => rfl]
    · rw [top, walkFrom_fails (e1.symm ▸ n1) (e1.symm ▸ fun h => absurd h h1)]
  case phys0 =>
    rw [phys_sv32 0 (by decide)]
    omega
  case phys1 =>
    rw [phys_sv32 1 (by decide)]
    omega

end Sys2Proof.Machine
end

section
/-!
PROOF. Address translation and the TLBs (20_memory.md R130 to R160; 46_csr_system.md R390).

A paged translation is decided by the lookup: on a hit `translatePaged_hit`, on a miss `translatePaged_miss`. Both
leave in the slot they write an entry that answers for the address and whose accessed and dirty bits are set, so
translating again hits that slot and finds nothing to update.
-/

namespace Sys2Proof.Machine

/-! ## The contract of `translate` -/

/-- The translation mode as a number (R130). -/
theorem statusVM_eq_iff (m : Word) (v : Nat) (hv : v < 32) :
    statusVM m = BitVec.ofNat 5 v ↔ m.toNat / 2 ^ 24 % 32 = v := by
  rw [← BitVec.toNat_inj, statusVM, BitVec.extractLsb'_toNat, Nat.shiftRight_eq_div_pow, BitVec.toNat_ofNat,
    Nat.mod_eq_of_lt hv]

theorem permOk_iff {n : Nat} (p : BitVec n) (k : AccessKind) (q : Priv) (mxr pum : Bool) :
    permOk p k q mxr pum = true ↔
      (q = .user → p.getLsbD 4 = true) ∧
      (q = .supervisor → pum = true → p.getLsbD 4 = false) ∧
      (k = .read ∨ k = .readWrite → p.getLsbD 1 = true ∨ (p.getLsbD 3 = true ∧ mxr = true)) ∧
      (k = .write ∨ k = .readWrite → p.getLsbD 2 = true) ∧
      (k = .execute → p.getLsbD 3 = true) := by
  unfold permOk pteU pteR pteW pteX
  split
  next h => exact ⟨nofun, fun ⟨hU, _⟩ => by simp [hU h.1] at h⟩
  next hU =>
    split
    next h => exact ⟨nofun, fun ⟨_, hS, _⟩ => by simp [hS h.1 h.2.2] at h⟩
    next hS =>
      have user : q = .user → p.getLsbD 4 = true := fun hq => by simpa [hq] using hU
      have supervisor : q = .supervisor → pum = true → p.getLsbD 4 = false := fun hq hp => by simpa [hq, hp] using hS
      rw [and_iff_right user, and_iff_right supervisor]
      cases k <;> simp

theorem ofCode_num (p : Priv) : Priv.ofCode (BitVec.ofNat 2 p.num) = p := by
  cases p <;> rfl

theorem num_injective {p q : Priv} (h : p.num = q.num) : p = q := by
  rw [← ofCode_num p, h, ofCode_num]

/-- Settles O56: the branches of `translate`, the clauses of `permOk`, and the privilege of each access. -/
theorem translateContract : Obligations.TranslateContract := by
  refine ⟨fun s va k q mxr pum => ?contract, fun f p k q mxr pum => permOk_iff p k q mxr pum, fun s va k => ?access⟩
  case contract =>
    have h0 := statusVM_eq_iff s.core.mstatus 0 (by decide)
    have h8 := statusVM_eq_iff s.core.mstatus 8 (by decide)
    have h9 := statusVM_eq_iff s.core.mstatus 9 (by decide)
    refine ⟨fun h => ?_, fun hq h => ?_, fun hq h => ?_, ?_⟩
    · exact translate_identity s va k q mxr pum (h.imp_right h0.2)
    · rw [State.translate, if_neg hq, if_neg (by rw [h8.2 h]; decide), if_pos (h8.2 h)]
    · rw [State.translate, if_neg hq, if_neg (by rw [h9.2 h]; decide), if_neg (by rw [h9.2 h]; decide),
        if_pos (h9.2 h)]
    · rw [translate_fatal_iff]
      exact and_congr Iff.rfl (and_congr h0.not (and_congr h8.not h9.not))
  case access =>
    refine ⟨fun h => ?_, fun h q hq => ?_, rfl⟩
    · rw [State.translateData, State.dataPriv, statusMPRV, h]
      rfl
    · have hprev : statusPrev s.core.mstatus .machine = q :=
        num_injective ((num_statusPrev s.core.mstatus .machine).trans hq.symm)
      rw [State.translateData, State.dataPriv, statusMPRV, h, hprev]
      rfl

/-! ## The paged translation whole -/

/-- Settles O57: the hit and the miss of `translatePaged`, with what each writes. -/
theorem translateFrame : Obligations.TranslateFrame := by
  intro s f va k q mxr pum id tlb answer
  have hid : f.asidOf s.core.sptbr = id := by cases f <;> rfl
  refine ⟨fun slot e hans hlow => ?hit, fun hnone => ?miss⟩
  case hit =>
    have hlookup : tlb.lookup (f.asidOf s.core.sptbr) va = some (slot, e) := hid ▸ lookup_of_answers hans hlow
    have hanswer : answer = _ := translatePaged_hit hlookup
    rw [hanswer]
    refine ⟨fun h => by rw [h]; rfl, fun h => ⟨s.hitUpdate f slot e (adUpdate e.pte k), adUpdate e.pte k, if_pos h,
      adSet_adUpdate k e.pte, xlatFrame_hitUpdate s f slot e _, fun hp => if_pos hp, fun hp => ?_⟩⟩
    have hupdate : s.hitUpdate f slot e (adUpdate e.pte k) = _ := if_neg hp
    rw [hupdate]
    exact ⟨storedAt_of_writeLE (pteBytes_le f) rfl, tlb_setTlb _ _ _⟩
  case miss =>
    have hlookup : tlb.lookup (f.asidOf s.core.sptbr) va = none := hid ▸ lookup_of_no_answer hnone
    have hanswer : answer = _ := translatePaged_miss hlookup
    rw [hanswer]
    refine ⟨fun h => by rw [h], fun l hl => ⟨s.missUpdate f id l (adUpdate l.pte k) va, adUpdate l.pte k, tlb.victim, ?_⟩⟩
    have hlevel : l.level ≤ f.rootLevel := (walkFrom_some hl).1
    have hmasks := leafMasks_eq f hlevel
    intro pa page offset
    have hpage : page = f.vmatch l.level := congrArg Prod.fst hmasks
    have hoffset : offset = f.voff l.level := congrArg Prod.snd hmasks
    refine ⟨by rw [hl, hid], adSet_adUpdate k l.pte, xlatFrame_missUpdate s f id l _ va, fun h => if_pos h, fun h =>
      storedAt_of_writeLE (pteBytes_le f) (if_neg h), evicts_victim, (tlb_setTlb _ _ _).trans ?_⟩
    rw [hpage, hoffset, phys_and_not_voff]
    rfl

/-! ## Translating again -/

@[simp] theorem adUpdate_adUpdate {n : Nat} (p : BitVec n) (k : AccessKind) :
    adUpdate (adUpdate p k) k = adUpdate p k := by
  rw [adUpdate_eq, adUpdate_eq, BitVec.or_assoc, BitVec.or_self]

/-- A translation that hits an entry whose bits are already set answers its address and changes nothing. -/
theorem translatePaged_settled {u : State} {f : VmFormat} {va : Word} {k : AccessKind} {q : Priv} {mxr pum : Bool}
    {slot : Nat} {e : TlbEntry f} (h : (u.core.tlb f).lookup (f.asidOf u.core.sptbr) va = some (slot, e))
    (hperm : permOk e.pte k q mxr pum = true) (hset : adUpdate e.pte k = e.pte) :
    u.translatePaged f va k q mxr pum = .mapped (e.pbase ||| (va &&& e.voff)) u := by
  rw [translatePaged_hit h, if_pos hperm, State.hitUpdate, if_pos hset]

/-- Under the invariant a TLB has a slot. -/
theorem tlb_length_pos {s : State} (hs : s.Inv) (f : VmFormat) : 0 < (s.core.tlb f).length := by
  rw [((hs.cores s.core (.head _)).tlb f).1]
  have hp := hs.params
  simp only [Params.wf, Bool.and_eq_true, decide_eq_true_eq] at hp
  omega

/-- Settles O58: after the translation the slot it hit or filled answers with its bits set. -/
theorem tlbTransparency : Obligations.TlbTransparency := by
  intro s u f va pa k q mxr pum hs h
  rcases translatePaged_mapped h with ⟨slot, e, hlookup, hperm, rfl, rfl⟩ | ⟨l, hlookup, hwalk, rfl, rfl⟩
  case inl =>
    by_cases hset : adUpdate e.pte k = e.pte
    · rw [State.hitUpdate, if_pos hset]
      exact translatePaged_settled hlookup hperm hset
    · rw [State.hitUpdate, if_neg hset]
      refine translatePaged_settled (slot := slot)
        (e := { e with pte := adUpdate e.pte k, age := s.core.cycles }) ?_ ?_ (adUpdate_adUpdate _ _)
      · exact (congrArg (Tlb.lookup · _ va) (tlb_setTlb _ _ _)).trans
          (lookup_put_same hlookup (lookup_some hlookup).2)
      · exact (permOk_adUpdate ..).trans hperm
  case inr =>
    obtain ⟨-, -, -, hperm, -⟩ := walkFrom_some hwalk
    refine translatePaged_settled (slot := (s.core.tlb f).victim)
      (e := TlbEntry.make (f.asidOf s.core.sptbr) l (adUpdate l.pte k) va s.core.cycles) ?_ ?_ (adUpdate_adUpdate _ _)
    · refine (congrArg (Tlb.lookup · _ va) (tlb_setTlb _ _ _)).trans
        (lookup_put_miss hlookup (victim_lt (tlb_length_pos hs f)) ?_)
      rw [hit_iff]
      exact ⟨.inr rfl, rfl⟩
    · exact (permOk_adUpdate ..).trans hperm

/-! ## Flushing the TLBs -/

theorem getElem?_flush {f : VmFormat} (t : Tlb f) (id : BitVec f.asidBits) (va : Option Word) (k : Nat)
    (e : TlbEntry f) : (t.flush id va)[k]? = some (some e) ↔ t[k]? = some (some e) ∧ e.flushed id va = false := by
  unfold Tlb.flush
  rw [List.getElem?_map, Option.map_eq_some_iff]
  constructor
  · rintro ⟨slot, hslot, h⟩
    cases slot with
    | none => cases h
    | some e' =>
      dsimp only at h
      split at h
      · cases h
      next hkeep =>
        cases h
        exact ⟨hslot, Bool.eq_false_of_not_eq_true hkeep⟩
  · rintro ⟨hslot, hkeep⟩
    exact ⟨some e, hslot, by simp [hkeep]⟩

/-- An entry stays when the flush is of an id other than 0, and it is global or of another id (R160). -/
theorem flushed_none_eq_false_iff {f : VmFormat} (e : TlbEntry f) (id : BitVec f.asidBits) :
    e.flushed id none = false ↔ id.toNat ≠ 0 ∧ (e.asid ≠ id ∨ e.global = true) := by
  have hzero : id = BitVec.ofNat _ 0 ↔ id.toNat = 0 := by rw [← BitVec.toNat_inj, BitVec.toNat_ofNat, Nat.zero_mod]
  simp [TlbEntry.flushed, hzero, Classical.or_iff_not_imp_left]

/-- An entry stays when the address is not in its page (R160). -/
theorem flushed_some_eq_false_iff {f : VmFormat} (e : TlbEntry f) (id : BitVec f.asidBits) (va : Word) :
    e.flushed id (some va) = false ↔ va &&& e.vmatch ≠ e.vtag := by
  simp [TlbEntry.flushed]

theorem tlb_flushTlbs (s : State) (va : Option Word) (f : VmFormat) : (s.flushTlbs va).core.tlb f =
    (s.core.tlb f).flush (f.asidOf s.core.sptbr) va := by
  cases f <;> rfl

/-- Settles O45: SFENCE.VM below the supervisor level raises, elsewhere it is `flushTlbs`. -/
theorem flushResults : Obligations.FlushResults := by
  intro s rs1
  refine ⟨fun h => completes_raised (if_pos h), fun h => ⟨_, if_neg h, rfl, ?_⟩⟩
  intro f id
  have hid : f.asidOf s.core.sptbr = id := by cases f <;> rfl
  rw [tlb_flushTlbs, hid]
  refine ⟨length_flush _ _ _, fun k _ e => (getElem?_flush _ _ _ k e).trans (and_congr Iff.rfl ?_)⟩
  by_cases hrs1 : rs1 = 0#5
  · rw [if_pos hrs1, if_pos hrs1, flushed_none_eq_false_iff]
  · rw [if_neg hrs1, if_neg hrs1, flushed_some_eq_false_iff, amoAddr_eq]

end Sys2Proof.Machine
end

section
/-!
PROOF. The frame of the execute stage, and that no general register is used implicitly (10_state.md R21;
40_step_and_fetch.md R214, R217).

What an instruction writes and reads of the general registers follows from the shared operation it answers: the
two case splits below go over the instructions by that operation and cite its lemma of `Laws/Registers.lean`. A whole
step adds the fetch, the tick and the resolution, which commute with a register given another value.
-/

namespace Sys2Proof.Machine

/-! ## The execute stage -/

theorem exec_ne_refused (i : Instr) (s : State) (r : Refusal) : exec i s ≠ .refused r := by
  intro h
  have answer := exec_answer i s
  rw [h] at answer
  cases answer

section
variable {i : Instr} {s t : State} {r : RegIdx} {v : Word}

/-- An instruction writes no general register but its `rd`. -/
theorem exec_keepsX (h : exec i s = .next t) : KeepsX i.xDest s t := by
  cases i with
  | lui | auipc | addi | slti | sltiu | xori | ori | andi | slli | srli | srai | add | sub | sll | slt | sltu | xor
  | srl | sra | or | and | addiw | slliw | srliw | sraiw | addw | subw | sllw | srlw | sraw | mul | mulh | mulhsu
  | mulhu | div | divu | rem | remu | mulw | divw | divuw | remw | remuw | fmvXS | fclassS | fclassD | fmvXD =>
    exact .next_wr h rfl
  | jal | jalr => exact jump_keepsX h
  | beq | bne | blt | bge | bltu | bgeu => exact branchIf_keepsX h
  | lb | lh | lw | lbu | lhu | lwu | ld => exact load_keepsX h
  | sb | sh | sw | sd => exact store_keepsX h
  | fence | fenceI | wfi | ecall | ebreak => exact .next_x h rfl
  | lrW | lrD => exact loadReserved_keepsX h
  | scW | scD => exact storeConditional_keepsX h
  | amoswapW | amoaddW | amoxorW | amoandW | amoorW | amominW | amomaxW | amominuW | amomaxuW
  | amoswapD | amoaddD | amoxorD | amoandD | amoorD | amominD | amomaxD | amominuD | amomaxuD => exact amo_keepsX h
  | csrrw | csrrs | csrrc | csrrwi | csrrsi | csrrci => exact csrInstr_keepsX h
  | uret => exact xret_keepsX (p := .user) h
  | sret => exact xret_keepsX (p := .supervisor) h
  | hret => exact xret_keepsX (p := .hypervisor) h
  | mret => exact xret_keepsX (p := .machine) h
  | sfenceVm => exact sfenceVm_keepsX h
  | flw => exact loadF_keepsX (ext := fun v => box (unbox v)) h
  | fld => exact loadF_keepsX (ext := id) h
  | fsw | fsd => exact storeF_keepsX h
  | fmaddS | fmsubS | fnmsubS | fnmaddS | faddS | fsubS | fmulS | fdivS | fsqrtS | fcvtSW | fcvtSWU | fcvtSL | fcvtSLU
  | fmaddD | fmsubD | fnmsubD | fnmaddD | faddD | fsubD | fmulD | fdivD | fsqrtD | fcvtSD | fcvtDS | fcvtDW | fcvtDWU
  | fcvtDL | fcvtDLU => exact withRm_keepsX h fun _ h => .next_x h rfl
  | fsgnjS | fsgnjnS | fsgnjxS | fmvSX | fsgnjD | fsgnjnD | fsgnjxD | fmvDX | fminS | fmaxS | fminD | fmaxD =>
    exact .next_x h rfl
  | fcvtWS | fcvtWUS | fcvtLS | fcvtLUS | fcvtWD | fcvtWUD | fcvtLD | fcvtLUD =>
    exact withRm_keepsX h fun _ h => .next_wr h rfl
  | feqS | fltS | fleS | feqD | fltD | fleD => exact .next_wr h rfl

/-- Giving a register that an instruction's `rs1`, `rs2` do not name another value changes of its answer at most
that register. -/
theorem exec_blindX (h : r ∉ i.xSources) : BlindX r (exec i (s.putX r v)) (exec i s) := by
  have ne (q : RegIdx) (hq : q ∈ i.xSources) : r ≠ q := fun hr => h (hr ▸ hq)
  have src (q : RegIdx) (hq : q ∈ i.xSources) : (s.putX r v).getX q = s.getX q := getX_putX (ne q hq)
  cases i with
  | lui | auipc | fmvXS | fclassS | fclassD | fmvXD => exact blindX_wr rfl
  | addi _ a | slti _ a | sltiu _ a | xori _ a | ori _ a | andi _ a | slli _ a | srli _ a | srai _ a =>
    exact blindX_wr (by rw [src a (.head _)]; rfl)
  | addiw _ a | slliw _ a | srliw _ a | sraiw _ a => exact blindX_wr (by rw [src a (.head _)])
  | add _ a b | sub _ a b | sll _ a b | slt _ a b | sltu _ a b | xor _ a b | srl _ a b | sra _ a b | or _ a b
  | and _ a b | mul _ a b | mulh _ a b | mulhsu _ a b | mulhu _ a b | div _ a b | divu _ a b | rem _ a b
  | remu _ a b => exact blindX_wr (by rw [src a (.head _), src b (.tail _ (.head _))]; rfl)
  | addw _ a b | subw _ a b | sllw _ a b | srlw _ a b | sraw _ a b | mulw _ a b | divw _ a b | divuw _ a b
  | remw _ a b | remuw _ a b => exact blindX_wr (by rw [src a (.head _), src b (.tail _ (.head _))])
  | jal => exact blindX_jump rfl
  | jalr _ a => exact blindX_jump (by rw [State.jalrTarget, src a (.head _)]; rfl)
  | beq a b | bne a b | blt a b | bge a b | bltu a b | bgeu a b =>
    exact blindX_branchIf (by rw [src a (.head _), src b (.tail _ (.head _))]; rfl)
  | lb _ a | lh _ a | lw _ a | lbu _ a | lhu _ a | lwu _ a | ld _ a => exact blindX_load (ea_putX (ne a (.head _)) _)
  | sb a b | sh a b | sw a b | sd a b => exact blindX_store (ea_putX (ne a (.head _)) _) (src b (.tail _ (.head _)))
  | fence | fenceI | wfi => exact blindX_self
  | ecall | ebreak => exact blindX_raise rfl
  | lrW _ a | lrD _ a => exact blindX_loadReserved (amoAddr_putX (ne a (.head _)))
  | scW _ a b | scD _ a b =>
    exact blindX_storeConditional (amoAddr_putX (ne a (.head _))) (src b (.tail _ (.head _)))
  | amoswapW _ a b | amoaddW _ a b | amoxorW _ a b | amoandW _ a b | amoorW _ a b | amominW _ a b | amomaxW _ a b
  | amominuW _ a b | amomaxuW _ a b | amoswapD _ a b | amoaddD _ a b | amoxorD _ a b | amoandD _ a b | amoorD _ a b
  | amominD _ a b | amomaxD _ a b | amominuD _ a b | amomaxuD _ a b =>
    exact blindX_amo (amoAddr_putX (ne a (.head _))) (src b (.tail _ (.head _)))
  | csrrw _ _ a | csrrs _ _ a | csrrc _ _ a => exact blindX_csrInstr (src a (.head _))
  | csrrwi | csrrsi | csrrci => exact blindX_csrInstr rfl
  | uret => exact blindX_xret .user
  | sret => exact blindX_xret .supervisor
  | hret => exact blindX_xret .hypervisor
  | mret => exact blindX_xret .machine
  | sfenceVm a => exact blindX_sfenceVm (src a (.head _))
  | flw _ a => exact blindX_loadF (ext := fun v => box (unbox v)) (ea_putX (ne a (.head _)) _)
  | fld _ a => exact blindX_loadF (ext := id) (ea_putX (ne a (.head _)) _)
  | fsw a | fsd a => exact blindX_storeF (ea_putX (ne a (.head _)) _)
  | fmaddS | fmsubS | fnmsubS | fnmaddS | faddS | fsubS | fmulS | fdivS | fsqrtS | fmaddD | fmsubD | fnmsubD | fnmaddD
  | faddD | fsubD | fmulD | fdivD | fsqrtD | fcvtSD | fcvtDS => exact blindX_withRm fun _ => blindX_fpResult rfl rfl
  | fcvtSW _ a | fcvtSWU _ a | fcvtSL _ a | fcvtSLU _ a | fcvtDW _ a | fcvtDWU _ a | fcvtDL _ a | fcvtDLU _ a =>
    exact blindX_withRm fun _ => blindX_fpResult (by rw [src a (.head _)]) (by rw [src a (.head _)])
  | fsgnjS | fsgnjnS | fsgnjxS | fsgnjD | fsgnjnD | fsgnjxD => exact blindX_wrF rfl
  | fmvSX _ a | fmvDX _ a => exact blindX_wrF (by rw [src a (.head _)])
  | fminS | fmaxS | fminD | fmaxD => exact blindX_fpResult rfl rfl
  | fcvtWS | fcvtWUS | fcvtLS | fcvtLUS | fcvtWD | fcvtWUD | fcvtLD | fcvtLUD =>
    exact blindX_withRm fun _ => blindX_intResult
  | feqS | fltS | fleS | feqD | fltD | fleD => exact blindX_intResult

end

/-! ## The step -/

section
variable {s t : State} {r : RegIdx} {v : Word}

theorem blankX_eq_onX (a : Result) : blankX r a = onX r 0#64 a := by
  cases a <;> rfl

/-- What a step does with the answer of the execute stage: the tick and the resolution (40_step_and_fetch.md R210). -/
def finish : Result → Result
  | .next t => t.tick.resolve
  | .fault e => .fault e
  | .refused e => .refused e

theorem stepCurrent_eq_finish (s : State) : s.stepCurrent =
    if s.fatal then .refused .fatalSet
    else if s.halted.isSome then .refused .runEnded
    else finish s.startStep.fetchExecute := by
  unfold State.stepCurrent
  cases s.startStep.fetchExecute <;> rfl

theorem blankX_finish (a : Result) : blankX r (finish a) = finish (blankX r a) := by
  cases a with
  | next u =>
    rw [blankX_eq_onX, finish, ← resolve_putX]
    rfl
  | fault | refused => rfl

theorem fetchExecute_blindX
    (h : ∀ w u i, s.fetch = .word w u → decode s.params.arch w = .ok i → r ∉ i.xSources) :
    BlindX r (s.putX r v).fetchExecute s.fetchExecute := by
  unfold State.fetchExecute
  rw [fetch_putX]
  cases hf : s.fetch with
  | misaligned | unmapped => exact blindX_raise (s := s.recFetchExc) rfl
  | fatal => rfl
  | word w u =>
    simp only [Fetched.putX, putX_xlen, fetch_xlen hf]
    cases hd : decode s.params.arch w with
    | ok i => exact exec_blindX (h w u i hf hd)
    | error e => exact blindX_raise rfl

theorem stepCurrent_blindX
    (h : ∀ w u i, s.startStep.fetch = .word w u → decode s.params.arch w = .ok i → r ∉ i.xSources) :
    BlindX r (s.putX r v).stepCurrent s.stepCurrent := by
  have hblind : blankX r (s.putX r v).startStep.fetchExecute = blankX r s.startStep.fetchExecute :=
    fetchExecute_blindX (s := s.startStep) h
  rw [stepCurrent_eq_finish, stepCurrent_eq_finish]
  change BlindX r (if s.fatal then _ else if s.halted.isSome then _ else _) _
  split
  · rfl
  split
  · rfl
  rw [BlindX, blankX_finish, blankX_finish, hblind]

/-- A step changes no register but the one its fetched instruction names. -/
theorem xDest_of_step {t : State} (hi : s.inputs = []) (h : step s = .next t) (hr : t.getX r ≠ s.getX r) :
    ∃ w u i, s.startStep.fetch = .word w u ∧ decode s.params.arch w = .ok i ∧ i.xDest = some r := by
  rw [step_of_no_inputs hi] at h
  obtain ⟨-, -, e, he, hres⟩ := stepCurrent_next h
  have hx : t.getX r = e.getX r := KeepsX.of_x (d := none) (resolve_frame hres).x r nofun
  rw [hx] at hr
  rcases fetchExecute_cases he with ⟨-, he⟩ | ⟨-, he⟩ | ⟨-, he⟩ | ⟨w, u, i, hf, hd, he⟩ | ⟨w, u, d, hf, -, he⟩
  · exact absurd (by cases he; rfl) hr
  · exact absurd (by cases he; rfl) hr
  · cases he
  · rw [fetch_xlen hf] at hd
    refine ⟨w, u, i, hf, hd, by_contra fun hne => hr ?_⟩
    exact (exec_keepsX he r hne).trans (KeepsX.of_x (d := none) (fetch_x hf) r nofun)
  · exact absurd (by cases he; exact KeepsX.of_x (d := none) (fetch_x hf) r nofun) hr

end

/-- Settles O17: the frame of the execute stage is that of its evolution, and the registers follow from the
case splits over the shared operations, lifted to the step. -/
theorem executeFrame : Obligations.ExecuteFrame := by
  refine ⟨fun i s => ⟨fun t h => (exec_evolves h).frame, exec_ne_refused i s⟩,
    fun i s => ⟨fun t r h hd => exec_keepsX h r hd, fun r v h => exec_blindX h⟩,
    fun s hi => ⟨fun t r => xDest_of_step hi, fun r v h => ?_⟩, fun s v n r => ⟨rfl, rfl, rfl, rfl, rfl, rfl, rfl⟩⟩
  rw [step_of_no_inputs hi, step_of_no_inputs (s := s.putX r v) hi]
  exact stepCurrent_blindX h

end Sys2Proof.Machine
end

section
/-!
PROOF. What the answers of the execute stage leave and where a step can end (10_state.md R29, R41, R43;
45_atomics.md R346, R347; 60_exceptions.md R485, R521).

Each statement is a case split over the answers of `exec_answer`: which outcome is requested, what stands in
the reservation, which registers user level reaches, and which answers are faults.
-/

namespace Sys2Proof.Machine

theorem translateData_frame {s u : State} {va pa : Word} {k : AccessKind} (h : s.translateData va k = .mapped pa u) :
    ∃ m t32 t39, u = { s with mem := m, core := { s.core with tlb32 := t32, tlb39 := t39 } } :=
  ⟨_, _, _, translate_frame h⟩

/-! ## The outcome requested -/

/-- The slot after an instruction: as it was, a trap, a branch, or the return of a return instruction at or above
its level. -/
theorem exec_requests {i : Instr} {s t : State} (h : exec i s = .next t) :
    t.core.next = s.core.next ∨ (∃ c b, t.core.next = .trap c b) ∨ (∃ a, t.core.next = .branch a) ∨
      ∃ p, returnLevel i = some p ∧ p.num ≤ s.core.cur.num ∧ t.core.next = .ret p := by
  have answer := exec_answer i s
  rw [h] at answer
  cases answer with
  | self | wr | wrF | failed | flushed | fp | fpInt => exact .inl rfl
  | raise c b => exact .inr (.inl ⟨c, b, rfl⟩)
  | jump _ _ a => exact .inr (.inr (.inl ⟨a, rfl⟩))
  | branch a => exact .inr (.inr (.inl ⟨a, rfl⟩))
  | loaded _ _ _ _ _ hu | loadedF _ _ _ _ _ hu | reserved _ _ _ _ _ _ hu | stored _ _ _ _ _ _ _ hu
  | storedF _ _ _ _ _ _ _ hu | conditional _ _ _ _ _ _ _ _ _ _ hu | swapped _ _ _ _ _ _ _ _ _ hu =>
    obtain ⟨m, t32, t39, rfl⟩ := translateData_frame hu
    exact .inl rfl
  | csrWritten a c rd w v => exact .inl (csrFrame_csrWrite s a c w).next
  | ret p hp hl => exact .inr (.inr (.inr ⟨p, hp, hl, rfl⟩))

/-- The slot after fetch and execute, from the start of a step: empty, a trap, a branch, or the return of the fetched
return instruction, which is at or above its level. -/
theorem fetchExecute_requests {s t : State} (hidle : s.core.next = .none) (h : s.fetchExecute = .next t) :
    t.core.next = .none ∨ (∃ c b, t.core.next = .trap c b) ∨ (∃ a, t.core.next = .branch a) ∨
      ∃ w u i p, s.fetch = .word w u ∧ decode s.params.arch w = .ok i ∧ returnLevel i = some p ∧
        p.num ≤ s.core.cur.num ∧ t.core.next = .ret p := by
  rcases fetchExecute_cases h with ⟨-, h⟩ | ⟨-, h⟩ | ⟨-, h⟩ | ⟨w, u, i, hf, hd, h⟩ | ⟨w, u, d, -, -, h⟩
  · cases h
    exact .inr (.inl ⟨_, _, rfl⟩)
  · cases h
    exact .inr (.inl ⟨_, _, rfl⟩)
  · cases h
  · have hframe := fetch_frame hf
    have hnext : u.core.next = .none := by rw [hframe]; exact hidle
    have hcur : u.core.cur = s.core.cur := by rw [hframe]
    rw [fetch_xlen hf] at hd
    rcases exec_requests h with hn | hn | hn | ⟨p, hp, hl, hn⟩
    · exact .inl (hn.trans hnext)
    · exact .inr (.inl hn)
    · exact .inr (.inr (.inl hn))
    · exact .inr (.inr (.inr ⟨w, u, i, p, hf, hd, hp, hcur ▸ hl, hn⟩))
  · cases h
    exact .inr (.inl ⟨_, _, rfl⟩)

/-! ## The level -/

theorem checkInterrupts_level {c : Core} {i : Nat} {p : Priv} (h : c.checkInterrupts = some (i, p)) :
    c.cur.num ≤ p.num := by
  obtain ⟨rfl, hd, -⟩ := (checkInterrupts_some_iff c i p).1 h
  obtain ⟨-, -, hlt | ⟨heq, -⟩⟩ := (dispatchable_iff c i).1 hd
  · exact hlt.le
  · rw [heq]

theorem excTarget_level (c : Core) (code : BitVec 4) : c.cur.num ≤ (c.excTarget code).num := by
  rw [Core.excTarget, num_max]
  exact Nat.le_max_right ..

/-- The resolution lowers the level only where a return is requested. -/
theorem ret_of_level_lt {s t : State} (h : s.resolve = .next t) (hl : t.core.cur.num < s.core.cur.num) :
    ∃ p, s.core.next = .ret p := by
  rcases resolve_cases h with ⟨i, p, hi, h⟩ | ⟨-, ⟨-, h⟩ | ⟨c, b, -, h⟩ | ⟨a, -, h⟩ | ⟨p, u, hn, -, -⟩ | ⟨p, hn, -, -⟩⟩
  · cases h
    exact absurd (checkInterrupts_level hi) (Nat.not_le.2 hl)
  · cases h
    exact absurd hl (Nat.lt_irrefl _)
  · cases h
    exact absurd (excTarget_level s.core c) (Nat.not_le.2 hl)
  · cases h
    exact absurd hl (Nat.lt_irrefl _)
  · exact ⟨p, hn⟩
  · exact ⟨p, hn⟩

/-- Settles O18: traps go no lower than the current level, and a return is requested by a return instruction. -/
theorem levelFallsOnlyByReturn : Obligations.LevelFallsOnlyByReturn := by
  intro s t hi h hl
  rw [step_of_no_inputs hi] at h
  obtain ⟨-, -, e, he, hres⟩ := stepCurrent_next h
  have hcur : e.core.cur = s.core.cur := (fetchExecute_evolves he).frame.cur
  obtain ⟨p, hp⟩ := ret_of_level_lt hres (hcur ▸ hl)
  rcases fetchExecute_requests rfl he with hn | ⟨c, b, hn⟩ | ⟨a, hn⟩ | ⟨w, u, i, q, hf, hd, hq, -, -⟩
  · cases hn.symm.trans hp
  · cases hn.symm.trans hp
  · cases hn.symm.trans hp
  · exact ⟨w, u, i, hf, hd, by rw [hq]; rfl⟩

/-! ## The reservation -/

/-- Settles O37: the answers that touch the reservation are LR and the writes at exactly its address. -/
theorem reservationRule : Obligations.ReservationRule := by
  refine ⟨fun i s t h => ?_, fun s t h => (resolve_frame h).resv, fun s u w h => by rw [fetch_frame h]⟩
  have answer := exec_answer i s
  rw [h] at answer
  cases answer with
  | self | wr | wrF | raise | jump | branch | failed | flushed | fp | fpInt | ret => exact .inl rfl
  | loaded _ _ _ _ _ hu | loadedF _ _ _ _ _ hu =>
    obtain ⟨m, t32, t39, rfl⟩ := translateData_frame hu
    exact .inl rfl
  | reserved va _ _ _ _ hr hu => exact .inr (.inl ⟨va, hr, rfl⟩)
  | stored va _ _ _ _ _ hs hu | storedF va _ _ _ _ _ hs hu | swapped va _ _ _ _ _ _ _ hs hu =>
    obtain ⟨m, t32, t39, rfl⟩ := translateData_frame hu
    by_cases hr : s.core.resv = some va
    · exact .inr (.inr ⟨va, hs, hr, if_pos hr⟩)
    · exact .inl (if_neg hr)
  | conditional va _ _ _ _ _ _ _ hs hr hu => exact .inr (.inr ⟨va, hs, hr, rfl⟩)
  | csrWritten a c rd w v => exact .inl (csrFrame_csrWrite s a c w).resv

/-! ## User level -/

/-- The registers that an address writable at user level names. -/
def userWritable : List Csr :=
  [.ustatus, .fflags, .frm, .fcsr, .uie, .utvec, .uscratch, .uepc, .ucause, .ubadaddr, .uip]

theorem mem_userWritable {a : CsrAddr} {c : Csr} (hc : Csr.ofAddr a = some c) (ha : csrAccess a .user true = true) :
    c ∈ userWritable := by
  have table : ∀ p ∈ csrMap, csrAccess p.1 .user true = true → p.2 ∈ userWritable := by decide
  exact table (a, c) ((mem_csrMap_iff a c).2 hc) ha

theorem trapBank_eq {b b' : TrapBank} (htvec : b'.tvec = b.tvec) (hscratch : b'.scratch = b.scratch)
    (hepc : b'.epc = b.epc) (hcause : b'.cause = b.cause) (hbad : b'.badaddr = b.badaddr) : b' = b := by
  cases b
  cases b'
  simp_all

/-- What user level leaves of a state: the statement's list. -/
structure UserConfined (s t : State) : Prop where
  bank : ∀ q, q ≠ .user → t.core.bank q = s.core.bank q
  registers : [t.core.medeleg, t.core.mideleg, t.core.hedeleg, t.core.hideleg, t.core.sedeleg, t.core.sideleg,
      t.core.sptbr, t.core.mucounteren, t.core.mscounteren, t.core.mhcounteren, t.core.cycles, t.core.instret] =
    [s.core.medeleg, s.core.mideleg, s.core.hedeleg, s.core.hideleg, s.core.sedeleg, s.core.sideleg,
      s.core.sptbr, s.core.mucounteren, s.core.mscounteren, s.core.mhcounteren, s.core.cycles, s.core.instret]
  mie : t.core.mie &&& ~~~0x111#64 = s.core.mie &&& ~~~0x111#64
  mip : t.core.mip &&& ~~~0x001#64 = s.core.mip &&& ~~~0x001#64
  mstatus : t.core.mstatus &&& ~~~0x8000000000006011#64 = s.core.mstatus &&& ~~~0x8000000000006011#64

theorem statusDirty_confined (m : Word) :
    statusDirty m &&& ~~~0x8000000000006011#64 = m &&& ~~~0x8000000000006011#64 := by
  rw [statusDirty, BitVec.and_or_distrib_right]
  simp

theorem ustatus_confined (m v : Word) : statusSummary (maskWrite m ustatusMask v) &&& ~~~0x8000000000006011#64 =
    m &&& ~~~0x8000000000006011#64 := by
  apply BitVec.eq_of_getLsbD_eq
  intro j hj
  have mask : ∀ j : Fin 64, (0x8000000000006011#64 : Word).getLsbD j = false →
      j.val ≠ 63 ∧ ustatusMask.getLsbD j = false := by decide
  rw [BitVec.getLsbD_and, BitVec.getLsbD_and, getLsbD_statusSummary _ _ hj, getLsbD_maskWrite _ _ _ _ hj,
    BitVec.getLsbD_not]
  cases hm : (0x8000000000006011#64 : Word).getLsbD j with
  | true => simp
  | false =>
    obtain ⟨h63, hu⟩ := mask ⟨j, hj⟩ hm
    rw [if_neg h63, hu]
    rfl

section
variable {s u : State}

theorem UserConfined.refl (s : State) : UserConfined s s := ⟨fun _ _ => rfl, rfl, rfl, rfl, rfl⟩

theorem UserConfined.translated {va pa : Word} {k : AccessKind} (hu : s.translateData va k = .mapped pa u) :
    UserConfined s u := by
  obtain ⟨m, t32, t39, rfl⟩ := translateData_frame hu
  exact ⟨fun _ _ => rfl, rfl, rfl, rfl, rfl⟩

/-! Each update of the state outside the listed registers keeps what user level left. -/

theorem UserConfined.wr (h : UserConfined s u) (rd : RegIdx) (v : Word) : UserConfined s (u.wr rd v) :=
  ⟨h.bank, h.registers, h.mie, h.mip, h.mstatus⟩

theorem UserConfined.wrF (h : UserConfined s u) (fd : RegIdx) (v : Word) : UserConfined s (u.wrF fd v) :=
  ⟨h.bank, h.registers, h.mie, h.mip, (statusDirty_confined _).trans h.mstatus⟩

theorem UserConfined.recAddr (h : UserConfined s u) (va : Word) : UserConfined s (u.recAddr va) :=
  ⟨h.bank, h.registers, h.mie, h.mip, h.mstatus⟩

theorem UserConfined.recData1 (h : UserConfined s u) (v : Word) : UserConfined s (u.recData1 v) :=
  ⟨h.bank, h.registers, h.mie, h.mip, h.mstatus⟩

theorem UserConfined.recData2 (h : UserConfined s u) (v : Word) : UserConfined s (u.recData2 v) :=
  ⟨h.bank, h.registers, h.mie, h.mip, h.mstatus⟩

theorem UserConfined.recFp (h : UserConfined s u) (v : Word) : UserConfined s (u.recFp v) :=
  ⟨h.bank, h.registers, h.mie, h.mip, h.mstatus⟩

theorem UserConfined.setResv (h : UserConfined s u) (o : Option Word) : UserConfined s (u.setResv o) :=
  ⟨h.bank, h.registers, h.mie, h.mip, h.mstatus⟩

theorem UserConfined.setNext (h : UserConfined s u) (n : Next) : UserConfined s (u.setNext n) :=
  ⟨h.bank, h.registers, h.mie, h.mip, h.mstatus⟩

theorem UserConfined.pwrite (h : UserConfined s u) (va pa : Word) (n : Nat) (v : Word) :
    UserConfined s (u.pwrite va pa n v) :=
  ⟨h.bank, h.registers, h.mie, h.mip, h.mstatus⟩

theorem UserConfined.raise (s : State) (c : BitVec 4) (b : Option Word) : UserConfined s (s.raise c b) :=
  ⟨fun _ _ => rfl, rfl, rfl, rfl, rfl⟩

theorem UserConfined.flushTlbs (s : State) (va : Option Word) : UserConfined s (s.flushTlbs va) :=
  ⟨fun _ _ => rfl, rfl, rfl, rfl, rfl⟩

theorem UserConfined.accrue (s : State) (fl : FpFlags) : UserConfined s (s.accrue fl) := by
  refine ⟨fun _ _ => rfl, rfl, rfl, rfl, ?_⟩
  show (if fl = 0#5 then s.core.mstatus else statusDirty s.core.mstatus) &&& _ = _
  split
  · rfl
  · exact statusDirty_confined _

end

theorem UserConfined.csrWrite {s : State} {a : CsrAddr} {c : Csr} {w : Word} (hc : c ∈ userWritable) :
    UserConfined s (s.csrWrite a c w) := by
  have frame := csrFrame_csrWrite s a c w
  have ne {d : Csr} (hd : d ∉ userWritable) : c ≠ d := fun e => hd (e ▸ hc)
  have bases : ∀ c ∈ userWritable, c.base ≠ .mcycle ∧ c.base ≠ .minstret ∧ (c = .uie ∨ c.base ≠ .mie) ∧
    (c = .uip ∨ c.base ≠ .mip) ∧ (c = .ustatus ∨ c.base = .fcsr ∨ c.base ≠ .mstatus ∧ c.base ≠ .fcsr) := by decide
  obtain ⟨hcycle, hinstret, hmie, hmip, hstatus⟩ := bases c hc
  refine ⟨fun q hq => ?_, ?_, ?_, ?_, ?_⟩
  · have banks : ∀ q : Priv, q ≠ .user → Csr.tvecOf q ∉ userWritable ∧ Csr.scratchOf q ∉ userWritable ∧
        Csr.epcOf q ∉ userWritable ∧ Csr.causeOf q ∉ userWritable ∧ Csr.badaddrOf q ∉ userWritable := by
      intro q hq
      cases q with
      | user => exact absurd rfl hq
      | supervisor | hypervisor | machine => decide
    obtain ⟨htvec, hscratch, hepc, hcause, hbad⟩ := banks q hq
    exact trapBank_eq (frame.tvec q (ne htvec)) (frame.scratch q (ne hscratch)) (frame.epc q (ne hepc))
      (frame.cause q (ne hcause)) (frame.badaddr q (ne hbad))
  · rw [frame.medeleg (ne (by decide)), frame.mideleg (ne (by decide)), frame.hedeleg (ne (by decide)),
      frame.hideleg (ne (by decide)), frame.sedeleg (ne (by decide)), frame.sideleg (ne (by decide)),
      frame.sptbr (ne (by decide)), frame.mucounteren (ne (by decide)), frame.mscounteren (ne (by decide)),
      frame.mhcounteren (ne (by decide)), frame.cycles hcycle, frame.instret hinstret]
  · rcases hmie with rfl | h
    · exact maskWrite_and_not _ _ _
    · rw [frame.mie h]
  · rcases hmip with rfl | h
    · exact maskWrite_and_not _ _ _
    · rw [frame.mip h]
  · rcases hstatus with rfl | h | ⟨h, hf⟩
    · exact ustatus_confined _ _
    · rcases frame.dirty h with e | e
      · rw [e]
      · rw [e]
        exact statusDirty_confined _
    · rw [frame.mstatus h hf]

theorem exec_userConfined {i : Instr} {s t : State} (hu : s.core.cur = .user) (h : exec i s = .next t) :
    UserConfined s t := by
  have answer := exec_answer i s
  rw [h] at answer
  have kept := UserConfined.refl s
  cases answer with
  | self => exact kept
  | wr rd v => exact kept.wr rd v
  | wrF fd v => exact kept.wrF fd v
  | raise c b => exact .raise s c b
  | jump rd v a => exact (kept.wr rd v).setNext _
  | branch a => exact kept.setNext _
  | ret p => exact kept.setNext _
  | failed va v rd => exact (kept.recAddr va).wr rd v
  | flushed va => exact .flushTlbs s va
  | loaded va _ _ rd v hu => exact ((UserConfined.translated hu).recAddr va).wr rd v
  | loadedF va _ _ fd v hu => exact ((UserConfined.translated hu).recAddr va).wrF fd v
  | reserved va _ _ rd v _ hu => exact (((UserConfined.translated hu).recAddr va).setResv _).wr rd v
  | stored va pa _ n d r _ hu => exact ((UserConfined.translated hu).pwrite va pa n d).recData1 r
  | storedF va pa _ n d r _ hu => exact ((UserConfined.translated hu).pwrite va pa n d).recFp r
  | conditional va pa _ n d r v rd _ _ hu =>
    exact ((((UserConfined.translated hu).pwrite va pa n d).setResv none).recData2 r).wr rd v
  | swapped va pa _ n d r v rd _ hu =>
    exact ((((UserConfined.translated hu).recAddr va).pwrite va pa n d).recData2 r).wr rd v
  | csrWritten a c rd w v hc ha =>
    rw [hu] at ha
    exact (UserConfined.csrWrite (mem_userWritable hc ha)).wr rd v
  | fp fd v fl => exact (UserConfined.accrue s fl).wrF fd v
  | fpInt rd v fl => exact (UserConfined.accrue s fl).wr rd v

/-- Settles O19: an instruction at user level reaches no more than the user bank, by cases over its answer. -/
theorem userCodeConfined : Obligations.UserCodeConfined := fun _ _ _ hu h =>
  have confined := exec_userConfined hu h
  ⟨confined.bank, confined.registers, confined.mie, confined.mip, confined.mstatus⟩

/-! ## Faults -/

theorem exec_fault {i : Instr} {s : State} {r : Fault} (h : exec i s = .fault r) :
    (r = .unimplementedTranslationMode ∧ s.dataPriv ≠ .machine ∧
      statusVM s.core.mstatus ≠ 0#5 ∧ statusVM s.core.mstatus ≠ 8#5 ∧ statusVM s.core.mstatus ≠ 9#5) ∨
    (r = .returnBelowLevel ∧ ∃ p, returnLevel i = some p ∧ s.core.cur.num < p.num) := by
  have answer := exec_answer i s
  rw [h] at answer
  cases answer with
  | untranslated va k hu => exact .inl ⟨rfl, translate_fatal_iff.1 hu⟩
  | belowLevel p hp hl => exact .inr ⟨rfl, p, hp, hl⟩

/-- Settles O21: neither fault of `exec_fault` can happen at machine level, where data accesses are made as machine. -/
theorem machineLevelCompletes : Obligations.MachineLevelCompletes := by
  intro i s hcur hmprv
  cases h : exec i s with
  | next t => exact ⟨t, rfl⟩
  | refused r => exact absurd h (exec_ne_refused i s r)
  | fault r =>
    rcases exec_fault h with ⟨-, hpriv, -⟩ | ⟨-, p, -, hl⟩
    · have hdata : s.dataPriv = .machine := by
        have hm : statusMPRV s.core.mstatus = false := hmprv
        rw [State.dataPriv, hm, hcur]
        rfl
      exact absurd hdata hpriv
    · have := num_lt p
      rw [hcur] at hl
      exact absurd hl (Nat.not_lt.2 (Nat.le_of_lt_succ this))

theorem translatePc_of_fetch_fatal {s : State} (h : s.fetch = .fatal) : s.translatePc = .fatal := by
  unfold State.fetch at h
  split at h
  · split at h
    · assumption
    · cases h
    · cases h
  · cases h

theorem fetchExecute_fault {s : State} {r : Fault} (h : s.fetchExecute = .fault r) :
    (r = .unimplementedTranslationMode ∧
      statusVM s.core.mstatus ≠ 0#5 ∧ statusVM s.core.mstatus ≠ 8#5 ∧ statusVM s.core.mstatus ≠ 9#5) ∨
    r = .returnBelowLevel := by
  rcases fetchExecute_cases h with ⟨-, h⟩ | ⟨-, h⟩ | ⟨hf, h⟩ | ⟨w, u, i, hf, hd, h⟩ | ⟨w, u, d, -, -, h⟩
  · cases h
  · cases h
  · cases h
    exact .inl ⟨rfl, (translate_fatal_iff.1 (translatePc_of_fetch_fatal hf)).2⟩
  · rcases exec_fault h with ⟨hr, -, hmode⟩ | ⟨hr, -⟩
    · have hstatus : u.core.mstatus = s.core.mstatus := by rw [fetch_frame hf]
      exact .inl ⟨hr, hstatus ▸ hmode⟩
    · exact .inr hr
  · cases h

/-- The resolution faults only by a return whose previous-privilege field is above its level. -/
theorem resolve_fault {s : State} {r : Fault} (h : s.resolve = .fault r) :
    r = .returnAboveLevel ∧ s.core.checkInterrupts = none ∧
      ∃ p, s.core.next = .ret p ∧ p.num < (statusPrev s.core.mstatus p).num := by
  rcases resolve_cases h with ⟨i, p, -, h⟩ | ⟨hi, ⟨-, h⟩ | ⟨c, b, -, h⟩ | ⟨a, -, h⟩ | ⟨p, u, -, -, h⟩ | ⟨p, hn, hp, h⟩⟩
  · cases h
  · cases h
  · cases h
  · cases h
  · cases h
  · cases h
    refine ⟨rfl, hi, p, hn, by_contra fun hle => ?_⟩
    rw [State.privReturn, if_neg hle] at hp
    cases hp

/-- Only the hypervisor's field can hold a level above its own (10_state.md R60). -/
theorem statusPrev_above {m : Word} {p : Priv} (h : p.num < (statusPrev m p).num) :
    p = .hypervisor ∧ m.toNat / 2 ^ 9 % 4 = 3 := by
  rw [num_statusPrev] at h
  cases p with
  | machine | supervisor | user => simp only [Priv.num] at h; omega
  | hypervisor => simp only [Priv.num] at h; exact ⟨rfl, by omega⟩

theorem stepCurrent_fault {s : State} {r : Fault} (h : s.stepCurrent = .fault r) :
    s.startStep.fetchExecute = .fault r ∨ ∃ t, s.startStep.fetchExecute = .next t ∧ t.tick.resolve = .fault r := by
  unfold State.stepCurrent at h
  split at h
  · cases h
  split at h
  · cases h
  cases he : s.startStep.fetchExecute with
  | next t =>
    rw [he] at h
    exact .inr ⟨t, rfl, h⟩
  | fault e =>
    rw [he] at h
    exact .inl (by rw [Host.Outcome.fault.inj h])
  | refused e =>
    rw [he] at h
    cases h

theorem step_fault {s : State} {r : Fault} (hi : s.inputs = []) (h : step s = .fault r) :
    (r = .unimplementedTranslationMode ∧ s.startStep.fetchExecute = .fault r ∧
      statusVM s.core.mstatus ≠ 0#5 ∧ statusVM s.core.mstatus ≠ 8#5 ∧ statusVM s.core.mstatus ≠ 9#5) ∨
    (r = .returnBelowLevel ∧ s.startStep.fetchExecute = .fault r) ∨
    (r = .returnAboveLevel ∧ ∃ t, s.startStep.fetchExecute = .next t ∧
      t.core.checkInterrupts = none ∧ t.core.next = .ret .hypervisor ∧ t.core.mstatus.toNat / 2 ^ 9 % 4 = 3) := by
  rw [step_of_no_inputs hi] at h
  rcases stepCurrent_fault h with he | ⟨t, he, hr⟩
  · rcases fetchExecute_fault he with ⟨hr, hmode⟩ | hr
    · exact .inl ⟨hr, he, hmode⟩
    · exact .inr (.inl ⟨hr, he⟩)
  · obtain ⟨rfl, hnone, p, hp, hl⟩ := resolve_fault hr
    obtain ⟨rfl, hfield⟩ := statusPrev_above hl
    exact .inr (.inr ⟨rfl, t, he, hnone, hp, hfield⟩)

/-- A return of the hypervisor whose field holds the machine level is fatal (60_exceptions.md R510). -/
theorem resolve_hret_fatal {s : State} (hnone : s.core.checkInterrupts = none) (hn : s.core.next = .ret .hypervisor)
    (hfield : s.core.mstatus.toNat / 2 ^ 9 % 4 = 3) : s.resolve = .fault .returnAboveLevel := by
  have hl : Priv.hypervisor.num < (statusPrev s.core.mstatus .hypervisor).num := by
    rw [num_statusPrev]
    simp only [Priv.num]
    omega
  unfold State.resolve State.applyNext State.privReturn
  rw [hnone, hn]
  simp only [if_pos hl]

section
variable {s : State} (r rs1 rs2 : RegIdx) (imm : BitVec 12)

theorem loads_fatal (hu : s.translateData (s.ea rs1 imm) .read = .fatal) :
    ∀ i ∈ [Instr.lb r rs1 imm, .lh r rs1 imm, .lw r rs1 imm, .lbu r rs1 imm, .lhu r rs1 imm, .lwu r rs1 imm,
      .ld r rs1 imm, .flw r rs1 imm, .fld r rs1 imm], exec i s = .fault .unimplementedTranslationMode := by
  simp only [List.forall_mem_cons]
  exact ⟨fatal_load rfl hu, fatal_load rfl hu, fatal_load rfl hu, fatal_load rfl hu, fatal_load rfl hu,
    fatal_load rfl hu, fatal_load (ext := id) rfl hu, fatal_loadF (ext := fun v => box (unbox v)) rfl hu,
    fatal_loadF (ext := id) rfl hu, nofun⟩

theorem stores_fatal (hu : s.translateData (s.ea rs1 imm) .write = .fatal) :
    ∀ i ∈ [Instr.sb rs1 rs2 imm, .sh rs1 rs2 imm, .sw rs1 rs2 imm, .sd rs1 rs2 imm, .fsw rs1 rs2 imm,
      .fsd rs1 rs2 imm], exec i s = .fault .unimplementedTranslationMode := by
  simp only [List.forall_mem_cons]
  exact ⟨fatal_store rfl hu, fatal_store rfl hu, fatal_store rfl hu, fatal_store rfl hu, fatal_storeF rfl hu,
    fatal_storeF rfl hu, nofun⟩

theorem wordAtomics_fatal (ha : (s.amoAddr rs1).toNat % 4 = 0)
    (hu : s.translateData (s.amoAddr rs1) .readWrite = .fatal) :
    ∀ i ∈ [Instr.amoswapW r rs1 rs2, .amoaddW r rs1 rs2, .amoxorW r rs1 rs2, .amoandW r rs1 rs2, .amoorW r rs1 rs2,
      .amominW r rs1 rs2, .amomaxW r rs1 rs2, .amominuW r rs1 rs2, .amomaxuW r rs1 rs2],
      exec i s = .fault .unimplementedTranslationMode := by
  simp only [List.forall_mem_cons]
  exact ⟨fatal_amo rfl ha hu, fatal_amo rfl ha hu, fatal_amo rfl ha hu, fatal_amo rfl ha hu, fatal_amo rfl ha hu,
    fatal_amo rfl ha hu, fatal_amo rfl ha hu, fatal_amo rfl ha hu, fatal_amo rfl ha hu, nofun⟩

theorem doubleAtomics_fatal (ha : (s.amoAddr rs1).toNat % 8 = 0)
    (hu : s.translateData (s.amoAddr rs1) .readWrite = .fatal) :
    ∀ i ∈ [Instr.amoswapD r rs1 rs2, .amoaddD r rs1 rs2, .amoxorD r rs1 rs2, .amoandD r rs1 rs2, .amoorD r rs1 rs2,
      .amominD r rs1 rs2, .amomaxD r rs1 rs2, .amominuD r rs1 rs2, .amomaxuD r rs1 rs2],
      exec i s = .fault .unimplementedTranslationMode := by
  simp only [List.forall_mem_cons]
  exact ⟨fatal_amo rfl ha hu, fatal_amo rfl ha hu, fatal_amo rfl ha hu, fatal_amo rfl ha hu, fatal_amo rfl ha hu,
    fatal_amo rfl ha hu, fatal_amo rfl ha hu, fatal_amo rfl ha hu, fatal_amo rfl ha hu, nofun⟩

end

/-- Settles O20: the faults of the execute stage and of the resolution, and each way into them. -/
theorem fatalConditions : Obligations.FatalConditions := by
  refine ⟨fun i s r => exec_fault, fun s r => step_fault, fun s r rs1 rs2 imm => ?access,
    fun i p s hp hl => ?below, fun s hi hf hh => ⟨fun hpc hpa => ?fetch, fun w u i r hw hd he => ?executed,
      fun t he hnone hn hfield => ?resolved⟩⟩
  case access =>
    intro x va av fatal
    have hva : va = s.ea rs1 imm := (ea_eq s rs1 imm).symm
    have hav : av = s.amoAddr rs1 := (amoAddr_eq s rs1).symm
    clear_value va av
    subst hva hav
    refine ⟨loads_fatal r rs1 imm, stores_fatal rs1 rs2 imm, fun ha => ⟨?_, ?_, wordAtomics_fatal r rs1 rs2 ha⟩,
      fun ha => ⟨?_, ?_, doubleAtomics_fatal r rs1 rs2 ha⟩⟩
    · exact fun hu => List.forall_mem_singleton.2 (fatal_reserved rfl ha hu)
    · exact fun hr hu => List.forall_mem_singleton.2 (fatal_conditional rfl ha hr hu)
    · exact fun hu => List.forall_mem_singleton.2 (fatal_reserved rfl ha hu)
    · exact fun hr hu => List.forall_mem_singleton.2 (fatal_conditional rfl ha hr hu)
  case below => rw [exec_of_returnLevel s hp, State.xret, if_pos hl]
  case fetch =>
    have hfetch : s.startStep.fetch = .fatal := fetch_of_fatal hpc hpa
    rw [step_of_running hi hf hh, State.fetchExecute, hfetch]
  case executed => rw [step_of_running hi hf hh, fetchExecute_of_ok hw hd, he]
  case resolved =>
    rw [step_of_fetchExecute_next hi hf hh he]
    exact resolve_hret_fatal hnone hn hfield

end Sys2Proof.Machine
end

section
/-!
PROOF. Jumps, branches, loads, stores and atomics (42_control_transfer.md, 43_load_store.md, 45_atomics.md), and the
floating-point transfers (R403, R404, R441, R442).

Each instruction obeys the rule of its shared operation (`Laws/Rules.lean`); what is left is its address, its value
and, for the AMOs, its operation on unsigned integers.
-/

namespace Sys2Proof.Machine

/-! ## Jumps and branches -/

/-- Settles O28: the rule of the jumps at the two targets. -/
theorem jumpResults : Obligations.JumpResults := fun s rd rs1 off imm =>
  ⟨relTarget_eq s (by decide) off ▸ jumpRule_of rfl, jalrTarget_eq s rs1 imm ▸ jumpRule_of rfl⟩

/-- Settles O29: the rule of the branches with each comparison read as integers. -/
theorem branchResults : Obligations.BranchResults := by
  intro s rs1 rs2 off x a b target
  have htarget : target = s.relTarget off := (relTarget_eq s (by decide) off).symm
  rw [htarget]
  refine ⟨branchRule_of rfl ?_, branchRule_of rfl ?_, branchRule_of rfl ?_, branchRule_of rfl ?_,
    branchRule_of rfl ?_, branchRule_of rfl ?_⟩ <;> rw [State.xlen]
  · simp [test_testEq, x, a, b]
  · simp [test_testEq, x, a, b]
  · simp [test_testLt, x, a, b]
  · simp [test_testLt, x, a, b]
  · simp [test_testLtu, x, a, b]
  · simp [test_testLtu, x, a, b]

/-! ## Loads and stores -/

theorem sext_w64 {x : Xlen} (h : x = .w64) (v : Word) : x.sext v = v := by
  rw [h]
  rfl

/-- Settles O30: the rule of the loads with the value each extension makes of the bytes. -/
theorem loadResults : Obligations.LoadResults := by
  intro s rd rs1 imm x va
  have hva : va = s.ea rs1 imm := (ea_eq s rs1 imm).symm
  rw [hva]
  refine ⟨loadRule_of (by decide) rfl (signExt_ofNat x 8 (by decide)),
    loadRule_of (by decide) rfl (signExt_ofNat x 16 (by decide)),
    loadRule_of (by decide) rfl (signExt_ofNat x 32 (by decide)),
    loadRule_of (ext := id) (by decide) rfl (sext_small x), loadRule_of (ext := id) (by decide) rfl (sext_small x),
    fun hx => ⟨loadRule_of (ext := id) (by decide) rfl fun v => sext_w64 hx _,
      loadRule_of (ext := id) (by decide) rfl fun v => sext_w64 hx _⟩⟩

/-- Settles O31: the rule of the stores. -/
theorem storeResults : Obligations.StoreResults := by
  intro s rs1 rs2 imm x va
  have hva : va = s.ea rs1 imm := (ea_eq s rs1 imm).symm
  rw [hva]
  exact ⟨storeRule_of (by decide) rfl, storeRule_of (by decide) rfl, storeRule_of (by decide) rfl,
    fun _ => storeRule_of (by decide) rfl⟩

/-- Settles O46: the rules of the floating-point transfers, a single boxed on its way in. -/
theorem floatMemory : Obligations.FloatMemory := by
  intro s r rs1 imm va
  have hva : va = s.ea rs1 imm := (ea_eq s rs1 imm).symm
  rw [hva]
  refine ⟨loadFRule_of (ext := fun v => box (unbox v)) (by decide) rfl fun v => ?_,
    loadFRule_of (ext := id) (by decide) rfl fun v => rfl, storeFRule_of (by decide) rfl,
    storeFRule_of (by decide) rfl⟩
  rw [box_eq_boxed, unbox, BitVec.setWidth_ofNat_of_le (by decide)]

/-! ## Page faults -/

section
variable {s : State} {i : Instr} {rd : RegIdx} {va d : Word} {n : Nat}

theorem raised_reserved (h : exec i s = s.loadReserved rd va n) (ha : va.toNat % n = 0)
    (hu : s.translateData va .read = .unmapped) : Completes i s fun t => Raised s t 13#4 (some va) := by
  refine completes_raised ?_
  rw [h, State.loadReserved, if_pos ((aligned_iff_emod _ _).2 ha), State.vread, hu]
  rfl

theorem raised_conditional (h : exec i s = s.storeConditional rd va n d) (ha : va.toNat % n = 0)
    (hr : s.core.resv = some va) (hu : s.translateData va .write = .unmapped) :
    Completes i s fun t => Raised s t 15#4 (some va) := by
  refine completes_raised ?_
  rw [h, State.storeConditional, if_pos ((aligned_iff_emod _ _).2 ha), if_pos hr, State.vwrite, hu]

end

/-- Settles O32: each shared access raises its code where its translation is unmapped. -/
theorem dataPageFaults : Obligations.DataPageFaults := by
  intro s r rs1 rs2 imm x va av
  have hva : va = s.ea rs1 imm := (ea_eq s rs1 imm).symm
  have hav : av = s.amoAddr rs1 := (amoAddr_eq s rs1).symm
  clear_value va av
  subst hva hav
  simp only [List.forall_mem_cons]
  refine ⟨fun hu => ?loads, fun hu => ?stores,
    fun hu => ⟨fun ha => raised_reserved rfl ha hu, fun ha => raised_reserved rfl ha hu⟩,
    fun hu hr => ⟨fun ha => raised_conditional rfl ha hr hu, fun ha => raised_conditional rfl ha hr hu⟩,
    fun hu => ⟨fun ha => ?words, fun ha => ?doubles⟩⟩
  case loads =>
    exact ⟨raised_load rfl hu, raised_load rfl hu, raised_load rfl hu, raised_load rfl hu, raised_load rfl hu,
      raised_load rfl hu, raised_load (ext := id) rfl hu, raised_loadF (ext := fun v => box (unbox v)) rfl hu,
      raised_loadF (ext := id) rfl hu, nofun⟩
  case stores =>
    exact ⟨raised_store rfl hu, raised_store rfl hu, raised_store rfl hu, raised_store rfl hu, raised_storeF rfl hu,
      raised_storeF rfl hu, nofun⟩
  all_goals
    exact ⟨raised_amo rfl ha hu, raised_amo rfl ha hu, raised_amo rfl ha hu, raised_amo rfl ha hu,
      raised_amo rfl ha hu, raised_amo rfl ha hu, raised_amo rfl ha hu, raised_amo rfl ha hu, raised_amo rfl ha hu,
      nofun⟩

/-! ## Atomics -/

/-- Settles O34: the rules of LR and SC. -/
theorem reservedPair : Obligations.ReservedPair := by
  refine ⟨fun s rd rs1 => ?_, fun s rd rs1 rs2 => ?_⟩
  · rw [← amoAddr_eq]
    exact ⟨reserveRule_of (by decide) (.inl rfl) rfl, fun hx => reserveRule_of (by decide) (.inr hx) rfl⟩
  · rw [← amoAddr_eq]
    exact ⟨conditionalRule_of (by decide) rfl, fun _ => conditionalRule_of (by decide) rfl⟩

/-! The operations of the AMOs as operations on unsigned integers. -/

section
variable {k : Nat} (a b : Nat)

theorem toNat_amoSwap : (amoSwap k (BitVec.ofNat k a) (BitVec.ofNat k b)).toNat = b % 2 ^ k := rfl

theorem toNat_opAdd : (opAdd k (BitVec.ofNat k a) (BitVec.ofNat k b)).toNat = (a + b) % 2 ^ k := by
  simp [opAdd]

theorem toNat_opXor : (opXor k (BitVec.ofNat k a) (BitVec.ofNat k b)).toNat = (a ^^^ b) % 2 ^ k := by
  simp [opXor, Nat.xor_mod_two_pow]

theorem toNat_opAnd : (opAnd k (BitVec.ofNat k a) (BitVec.ofNat k b)).toNat = (a &&& b) % 2 ^ k := by
  simp [opAnd, Nat.and_mod_two_pow]

theorem toNat_opOr : (opOr k (BitVec.ofNat k a) (BitVec.ofNat k b)).toNat = (a ||| b) % 2 ^ k := by
  simp [opOr, Nat.or_mod_two_pow]

theorem toNat_amoMin : (amoMin k (BitVec.ofNat k a) (BitVec.ofNat k b)).toNat =
    (if (BitVec.ofNat k a).toInt < (BitVec.ofNat k b).toInt then a else b) % 2 ^ k := by
  simp only [amoMin, BitVec.slt_iff_toInt_lt]
  split <;> rfl

theorem toNat_amoMax : (amoMax k (BitVec.ofNat k a) (BitVec.ofNat k b)).toNat =
    (if (BitVec.ofNat k a).toInt < (BitVec.ofNat k b).toInt then b else a) % 2 ^ k := by
  simp only [amoMax, BitVec.slt_iff_toInt_lt]
  split <;> rfl

variable {a b}

theorem ult_ofNat_iff (ha : a < 2 ^ k) (hb : b < 2 ^ k) :
    (BitVec.ofNat k a).ult (BitVec.ofNat k b) = true ↔ a < b := by
  rw [BitVec.ult_iff_lt, BitVec.lt_def, BitVec.toNat_ofNat, BitVec.toNat_ofNat, Nat.mod_eq_of_lt ha,
    Nat.mod_eq_of_lt hb]

theorem toNat_amoMinu (ha : a < 2 ^ k) (hb : b < 2 ^ k) :
    (amoMinu k (BitVec.ofNat k a) (BitVec.ofNat k b)).toNat = (if a < b then a else b) % 2 ^ k := by
  simp only [amoMinu, ult_ofNat_iff ha hb]
  split <;> rfl

theorem toNat_amoMaxu (ha : a < 2 ^ k) (hb : b < 2 ^ k) :
    (amoMaxu k (BitVec.ofNat k a) (BitVec.ofNat k b)).toNat = (if a < b then b else a) % 2 ^ k := by
  simp only [amoMaxu, ult_ofNat_iff ha hb]
  split <;> rfl

end

/-- Settles O35: the rule of the AMOs with each operation read as one on unsigned integers. -/
theorem amoWordResults : Obligations.AmoWordResults := by
  intro s rd rs1 rs2 va b
  have hva : va = s.amoAddr rs1 := (amoAddr_eq s rs1).symm
  rw [hva]
  exact ⟨amoRule_of (by decide) (.inl rfl) rfl fun a b _ _ => toNat_amoSwap a b,
    amoRule_of (by decide) (.inl rfl) rfl fun a b _ _ => toNat_opAdd a b,
    amoRule_of (by decide) (.inl rfl) rfl fun a b _ _ => toNat_opXor a b,
    amoRule_of (by decide) (.inl rfl) rfl fun a b _ _ => toNat_opAnd a b,
    amoRule_of (by decide) (.inl rfl) rfl fun a b _ _ => toNat_opOr a b,
    amoRule_of (by decide) (.inl rfl) rfl fun a b _ _ => toNat_amoMin a b,
    amoRule_of (by decide) (.inl rfl) rfl fun a b _ _ => toNat_amoMax a b,
    amoRule_of (by decide) (.inl rfl) rfl fun _ _ ha hb => toNat_amoMinu ha hb,
    amoRule_of (by decide) (.inl rfl) rfl fun _ _ ha hb => toNat_amoMaxu ha hb⟩

/-- Settles O36: as for the words, on eight bytes. -/
theorem amoDoubleResults : Obligations.AmoDoubleResults := by
  intro s rd rs1 rs2 hx va b
  have hva : va = s.amoAddr rs1 := by rw [State.amoAddr, State.xlen, hx]; rfl
  rw [hva]
  exact ⟨amoRule_of (by decide) (.inr hx) rfl fun a b _ _ => toNat_amoSwap a b,
    amoRule_of (by decide) (.inr hx) rfl fun a b _ _ => toNat_opAdd a b,
    amoRule_of (by decide) (.inr hx) rfl fun a b _ _ => toNat_opXor a b,
    amoRule_of (by decide) (.inr hx) rfl fun a b _ _ => toNat_opAnd a b,
    amoRule_of (by decide) (.inr hx) rfl fun a b _ _ => toNat_opOr a b,
    amoRule_of (by decide) (.inr hx) rfl fun a b _ _ => toNat_amoMin a b,
    amoRule_of (by decide) (.inr hx) rfl fun a b _ _ => toNat_amoMax a b,
    amoRule_of (by decide) (.inr hx) rfl fun _ _ ha hb => toNat_amoMinu ha hb,
    amoRule_of (by decide) (.inr hx) rfl fun _ _ ha hb => toNat_amoMaxu ha hb⟩

end Sys2Proof.Machine
end

section
/-!
PROOF. The control and status registers (10_state.md R43 to R94; 46_csr_system.md R371 to R377).

A write is the store of its native value and its record (`csrWrite_delta`, `csrFrame_csrWrite`); the register's
own storage is read off `csrStore`, once for each list of registers that follow one rule.
-/

namespace Sys2Proof.Machine

/-! ## The CSR instructions and reads -/

/-- Settles O38: the common procedure of the CSR instructions with each new value. -/
theorem csrInstructions : Obligations.CsrInstructions := by
  intro s rd rs1 z a v k
  have hk : k = z.setWidth 64 := BitVec.ofNat_toNat ..
  rw [hk]
  exact ⟨csrRule_of rfl fun _ => sext_swap _ _ _, csrRule_of rfl fun _ => sext_opOr _ _ _,
    csrRule_of rfl fun _ => sext_clear _ _ _, csrRule_of rfl fun _ => sext_swap _ _ _,
    csrRule_of rfl fun _ => sext_opOr _ _ _, csrRule_of rfl fun _ => sext_clear _ _ _⟩

theorem fflags_native (v : BitVec 8) : (fcsrFflags v).setWidth 64 = BitVec.ofNat 64 (v.toNat % 32) := by
  apply BitVec.eq_of_toNat_eq
  simp [fcsrFflags]

theorem frm_native (v : BitVec 8) : (fcsrFrm v).setWidth 64 = BitVec.ofNat 64 (v.toNat / 32) := by
  have := v.isLt
  apply BitVec.eq_of_toNat_eq
  simp [fcsrFrm, Nat.shiftRight_eq_div_pow]
  omega

theorem misa_native (s : State) : s.misa = match s.params.arch with
    | .w32 => 0x4000000000141129#64
    | .w64 => 0x8000000000141129#64 := by
  unfold State.misa
  cases s.params.arch <;> rfl

theorem csrNative_user (s : State) : ∀ p ∈ csrContentsUser, s.csrNative p.1 = p.2 s :=
  List.map_inj_left.1 (by
    simp only [csrContentsUser, List.map, State.csrNative, fflags_native, frm_native, ustatusMask, BitVec.ofNat_toNat])

theorem csrNative_machine (s : State) : ∀ p ∈ csrContentsMachine, s.csrNative p.1 = p.2 s :=
  List.map_inj_left.1 (by simp only [csrContentsMachine, List.map, State.csrNative, misa_native] <;> rfl)

theorem csrNative_of_contents (s : State) : ∀ p ∈ csrContents, s.csrNative p.1 = p.2 s := by
  simp only [csrContents, List.forall_mem_append]
  exact ⟨⟨⟨csrNative_user s, List.map_inj_left.1 rfl⟩, List.map_inj_left.1 rfl⟩, csrNative_machine s⟩

/-- Settles O39: the map holds every register, and a read is the view of its native contents. -/
theorem csrReads : Obligations.CsrReads := by
  refine ⟨fun c => ⟨?_, ?_⟩, fun s p hp => ?_⟩
  · cases c <;> decide
  · have mapped : c ∈ csrMap.map Prod.snd := by cases c <;> decide
    obtain ⟨⟨a, d⟩, ha, rfl⟩ := List.mem_map.1 mapped
    exact ⟨a, ha⟩
  · rw [State.csrRead, csrNative_of_contents s p hp, State.xlen]
    cases s.params.arch with
    | w64 => rfl
    | w32 => rw [viewOf_eq]

/-! ## Registers stored as written -/

/-- The registers without a rule of their own in R46. -/
def Csr.isPlain (c : Csr) : Bool := !(c.isStatus || c.isCause || c.isHigh || c == .mcycle || c == .minstret)

theorem native_of_isPlain (s : State) {c : Csr} (w : Word) (h : c.isPlain = true) :
    s.csrNativeWrite c w = plainNative s.params.arch w := by
  refine native_plain s c w fun old => ?_
  simp only [Csr.isPlain, Bool.not_eq_true', Bool.or_eq_false_iff] at h
  obtain ⟨⟨⟨⟨hstatus, hcause⟩, hhigh⟩, hcycle⟩, hinstret⟩ := h
  simp [Csr.unview32, hstatus, hcause, hhigh, hcycle, hinstret]

theorem native_of_isCause (s : State) {c : Csr} (w : Word) (h : c.isCause = true) :
    s.csrNativeWrite c w = causeNative s.params.arch w := by
  refine native_cause s c w fun old => ?_
  cases c with
  | mcause | hcause | scause | ucause => rfl
  | _ => cases h

theorem native_of_isStatus (s : State) {c : Csr} (w : Word) (h : c.isStatus = true) :
    s.csrNativeWrite c w = statusNative s.params.arch (s.csrNative c) w := by
  refine native_status s c w fun old => ?_
  simp [Csr.unview32, h]

theorem hypWrite_symmetric {s : State} (h : s.params.hypCsrWrites = .symmetric) (t : State) : s.hypWrite t = t := by
  rw [State.hypWrite, h]

section
variable (s : State) (a : CsrAddr) (w : Word)

theorem stored_registers :
    ∀ p ∈ storedRegisters ++ causeRegisters, p.2 (s.csrWrite a p.1 w) = s.csrNativeWrite p.1 w := by
  simp [storedRegisters, causeRegisters, State.csrWrite, State.csrStore, or_imp, forall_and]

/-- A register that reads as its native write value follows the rule of its list. -/
theorem stored_rule {p : Csr × (State → Word)} {v : Word} (hp : p.2 (s.csrWrite a p.1 w) = s.csrNativeWrite p.1 w)
    (hv : s.csrNativeWrite p.1 w = v) : p.2 (s.csrWrite a p.1 w) = v ∧ CsrFrame p.1 s (s.csrWrite a p.1 w) ∧
      (s.csrWrite a p.1 w).core.delta = (s.recCsr a v).core.delta :=
  ⟨hp.trans hv, csrFrame_csrWrite s a p.1 w, hv ▸ csrWrite_delta s a p.1 w⟩

end

/-- Settles O40: each listed register reads as its native write value. -/
theorem csrStoredWrites : Obligations.CsrStoredWrites := by
  intro s a w p
  have plain : ∀ p ∈ storedRegisters.map Prod.fst, p.isPlain = true := by decide
  have cause : ∀ p ∈ causeRegisters.map Prod.fst, p.isCause = true := by decide
  refine ⟨fun hp => stored_rule s a w (stored_registers s a w p (List.mem_append_left _ hp)) ?_,
    fun hp => stored_rule s a w (stored_registers s a w p (List.mem_append_right _ hp)) ?_⟩
  · exact native_of_isPlain s w (plain _ (List.mem_map_of_mem hp))
  · exact native_of_isCause s w (cause _ (List.mem_map_of_mem hp))

theorem stored_hypRegisters {s : State} (h : s.params.hypCsrWrites = .symmetric) (a : CsrAddr) (w : Word) :
    ∀ p ∈ hypRegisters, p.2 (s.csrWrite a p.1 w) = s.csrNativeWrite p.1 w := by
  simp [hypRegisters, State.csrWrite, State.csrStore, or_imp, forall_and, hypWrite_symmetric h]

/-- Settles O41: an inert write is its record; a symmetric one stores as the supervisor's does. -/
theorem hypervisorWrites : Obligations.HypervisorWrites := by
  intro s a w plain cause
  have inert {c : Csr} (h : s.params.hypCsrWrites = .inert) := csrWrite_inert h a w c
  refine ⟨fun h => ⟨?_, ?_, fun c hc => ?_⟩, fun h p hp => ?_, fun h => ?_, ?_⟩
  · rw [inert h (by decide), native_of_isStatus s w rfl]
    rfl
  · rw [inert h (by decide), native_of_isCause s w rfl]
  · have listed : ∀ c ∈ [Csr.hedeleg, .hideleg, .hie, .htvec, .hscratch, .hepc, .hbadaddr, .hip],
      c.isPlain = true := by decide
    have sub : ∀ c ∈ [Csr.hedeleg, .hideleg, .hie, .htvec, .hscratch, .hepc, .hbadaddr, .hip],
      c ∈ [Csr.hstatus, .hedeleg, .hideleg, .hie, .htvec, .hscratch, .hepc, .hcause, .hbadaddr, .hip] := by decide
    rw [inert h (sub c hc), native_of_isPlain s w (listed c hc)]
  · have listed : ∀ c ∈ hypRegisters.map Prod.fst, c.isPlain = true := by decide
    exact stored_rule s a w (stored_hypRegisters h a w p hp) (native_of_isPlain s w (listed _ (List.mem_map_of_mem hp)))
  · refine stored_rule s a w (p := (.hcause, fun t => t.core.hBank.cause)) ?_ (native_of_isCause s w rfl)
    simp only [State.csrWrite, State.csrStore, hypWrite_symmetric h]
    rfl
  · show s.recCsr a (s.csrNativeWrite .misa w) = _
    rw [native_of_isPlain s w rfl]

/-! ## The status register, its views and the interrupt registers -/

theorem getLsbD_mstatusWrite (old v : Word) {j : Nat} (hj : j < 63) : (statusSummary (mstatusWrite old v)).getLsbD j =
    if (24 ≤ j ∧ j ≤ 28) ∧ v.toNat / 2 ^ 24 % 32 ∉ [0, 1, 2, 8, 9, 10, 11, 12] then old.getLsbD j
    else v.getLsbD j := by
  rw [getLsbD_statusSummary _ _ (by omega), if_neg (by omega), mstatusWrite]
  simp only [← vmRecognised_iff]
  by_cases hv : vmRecognised (statusVM v) = true
  · simp [hv]
  · rw [if_neg hv, getLsbD_putField _ _ _ _ _ (by omega) (by decide)]
    by_cases h : 24 ≤ j ∧ j < 24 + 5
    · rw [if_pos h, if_pos ⟨by omega, hv⟩, BitVec.getLsbD_ushiftRight, Nat.add_sub_cancel' h.1]
    · rw [if_neg h, if_neg (by omega)]

/-- Settles O42: each view is a masked write of its register, and `mstatus` keeps an unrecognised mode's field. -/
theorem viewWrites : Obligations.ViewWrites := by
  refine ⟨fun s a w => ?status, fun s a w => ?pending⟩
  case status =>
    intro old sd masked v t
    have hv : s.csrNativeWrite .mstatus w = v := native_of_isStatus s w rfl
    have ht : t.core.mstatus = statusSummary (mstatusWrite old v) := by rw [← hv]; rfl
    refine ⟨⟨csrFrame_csrWrite s a _ w, hv ▸ csrWrite_delta s a _ w, ?_, fun j hj => ?_⟩,
      statusView_rule s a w _ _ rfl (native_of_isStatus s w rfl),
      statusView_rule s a w _ _ rfl (native_of_isStatus s w rfl),
      fun h => statusView_rule s a w _ _ ?_ (native_of_isStatus s w rfl)⟩
    · rw [ht]
      exact statusSummary_bit63 _
    · rw [ht]
      exact getLsbD_mstatusWrite old v hj
    · simp only [State.csrWrite, State.csrStore, hypWrite_symmetric h]
      rfl
  case pending =>
    intro v enables pends
    have hv {c : Csr} (h : c.isPlain = true) : s.csrNativeWrite c w = v := native_of_isPlain s w h
    refine ⟨maskedView_rule s a w _ _ v (f := Core.mie) rfl (hv rfl),
      maskedView_rule s a w _ _ v (f := Core.mie) rfl (hv rfl),
      maskedView_rule s a w _ _ v (f := Core.mip) rfl (hv rfl),
      maskedView_rule s a w _ _ v (f := Core.mip) rfl (hv rfl),
      maskedView_rule s a w _ _ v (f := Core.mip) rfl (hv rfl),
      fun h => ⟨maskedView_rule s a w _ _ v (f := Core.mie) ?_ (hv rfl),
        maskedView_rule s a w _ _ v (f := Core.mip) ?_ (hv rfl)⟩⟩
    all_goals
      simp only [State.csrWrite, State.csrStore, hypWrite_symmetric h]
      rfl

/-! ## The floating-point status and the counters -/

theorem toNat_append_add {m n : Nat} (x : BitVec m) (y : BitVec n) : (x ++ y).toNat = x.toNat * 2 ^ n + y.toNat := by
  rw [BitVec.toNat_append, Nat.shiftLeft_eq, Nat.mul_comm, ← Nat.two_pow_add_eq_or_of_lt y.isLt]

/-- The low 32 bits of a plain native value are those written. -/
theorem plainNative_low (x : Xlen) (w : Word) : (plainNative x w).toNat % 2 ^ 32 = w.toNat % 2 ^ 32 := by
  cases x with
  | w64 => rfl
  | w32 =>
    have low : ((BitVec.ofNat 32 w.toNat).signExtend 64).setWidth 32 = BitVec.ofNat 32 w.toNat := by
      rw [setWidth_signExtend, BitVec.signExtend_eq]
    show ((BitVec.ofNat 32 w.toNat).signExtend 64).toNat % 2 ^ 32 = _
    rw [← BitVec.toNat_setWidth, low, BitVec.toNat_ofNat]

section
variable (s : State) (a : CsrAddr) (w : Word)

theorem fcsr_csrWrite_fcsr : (s.csrWrite a .fcsr w).core.fcsr.toNat = w.toNat % 256 := by
  have low := plainNative_low s.params.arch w
  show ((s.csrNativeWrite .fcsr w).setWidth 8).toNat = _
  rw [native_of_isPlain s w rfl, BitVec.toNat_setWidth]
  omega

theorem fcsr_csrWrite_frm :
    (s.csrWrite a .frm w).core.fcsr.toNat = w.toNat % 8 * 32 + s.core.fcsr.toNat % 32 := by
  have low := plainNative_low s.params.arch w
  show ((s.csrNativeWrite .frm w).extractLsb' 0 3 ++ s.core.fcsr.extractLsb' 0 5).toNat = _
  rw [native_of_isPlain s w rfl, toNat_append_add, BitVec.extractLsb'_toNat, BitVec.extractLsb'_toNat,
    Nat.shiftRight_zero, Nat.shiftRight_zero]
  omega

theorem fcsr_csrWrite_fflags :
    (s.csrWrite a .fflags w).core.fcsr.toNat = s.core.fcsr.toNat / 32 * 32 + w.toNat % 32 := by
  have low := plainNative_low s.params.arch w
  have := s.core.fcsr.isLt
  show (s.core.fcsr.extractLsb' 5 3 ++ (s.csrNativeWrite .fflags w).extractLsb' 0 5).toNat = _
  rw [native_of_isPlain s w rfl, toNat_append_add, BitVec.extractLsb'_toNat, BitVec.extractLsb'_toNat,
    Nat.shiftRight_zero, Nat.shiftRight_eq_div_pow]
  omega

/-- A write of the floating-point status marks the context dirty and records its native value. -/
theorem fcsr_rule : ∀ c ∈ [Csr.fcsr, .frm, .fflags], CsrFrame c s (s.csrWrite a c w) ∧
    (s.csrWrite a c w).core.mstatus = s.core.mstatus ||| 0x8000000000006000#64 ∧
    (s.csrWrite a c w).core.delta = (s.recCsr a (plainNative s.params.arch w)).core.delta := by
  have listed : ∀ c ∈ [Csr.fcsr, .frm, .fflags], c.isPlain = true := by decide
  intro c hc
  refine ⟨csrFrame_csrWrite s a c w, ?_, native_of_isPlain s w (listed c hc) ▸ csrWrite_delta s a c w⟩
  simp only [List.mem_cons, List.not_mem_nil, or_false] at hc
  obtain rfl | rfl | rfl := hc <;> rfl

/-- The native value of a write to the low half of a counter (R84). -/
theorem toNat_native_low {c : Csr} (h : c = .mcycle ∨ c = .minstret) : (s.csrNativeWrite c w).toNat =
    match s.params.arch with
    | .w64 => w.toNat
    | .w32 => (s.csrNative c).toNat / 2 ^ 32 * 2 ^ 32 + w.toNat % 2 ^ 32 := by
  unfold State.csrNativeWrite State.xlen
  cases s.params.arch with
  | w64 => rfl
  | w32 =>
    have half : c.unview32 w (s.csrNative c) = (s.csrNative c).extractLsb' 32 32 ++ w.extractLsb' 0 32 := by
      obtain rfl | rfl := h <;> rfl
    have := (s.csrNative c).isLt
    show (c.unview32 w (s.csrNative c)).toNat = _
    rw [half, toNat_append_add, BitVec.extractLsb'_toNat, BitVec.extractLsb'_toNat, Nat.shiftRight_zero,
      Nat.shiftRight_eq_div_pow]
    simp only
    omega

/-- The native value of a write to the high half of a counter (R84). -/
theorem toNat_native_high {c : Csr} (hx : s.params.arch = .w32) (h : c.isHigh = true) :
    (s.csrNativeWrite c w).toNat = w.toNat % 2 ^ 32 * 2 ^ 32 + (s.csrNative c).toNat % 2 ^ 32 := by
  have half : s.csrNativeWrite c w = w.extractLsb' 0 32 ++ (s.csrNative c).extractLsb' 0 32 := by
    rw [State.csrNativeWrite, State.xlen, hx]
    cases c with
    | mcycleh | minstreth | cycleh | timeh | instreth => rfl
    | _ => cases h
  rw [half, toNat_append_add, BitVec.extractLsb'_toNat, BitVec.extractLsb'_toNat, Nat.shiftRight_zero,
    Nat.shiftRight_zero]

theorem cycles_csrWrite {c : Csr} (h : c ∈ [Csr.mcycle, .mcycleh]) :
    (s.csrWrite a c w).core.cycles = s.csrNativeWrite c w := by
  simp only [List.mem_cons, List.not_mem_nil, or_false] at h
  obtain rfl | rfl := h <;> rfl

theorem instret_csrWrite {c : Csr} (h : c ∈ [Csr.minstret, .minstreth]) :
    (s.csrWrite a c w).core.instret = s.csrNativeWrite c w := by
  simp only [List.mem_cons, List.not_mem_nil, or_false] at h
  obtain rfl | rfl := h <;> rfl

end

/-- Settles O43: each write stores its native value, whose halves and fields are those the address names. -/
theorem fieldWrites : Obligations.FieldWrites := by
  refine ⟨fun s a w => ?_, fun s a w => ?_⟩
  · intro fc fr ff
    refine ⟨fcsr_csrWrite_fcsr s a w, fcsr_csrWrite_frm s a w, fcsr_csrWrite_fflags s a w, ?_⟩
    simp only [List.forall_mem_cons]
    exact ⟨fcsr_rule s a w _ (by decide), fcsr_rule s a w _ (by decide), fcsr_rule s a w _ (by decide),
      List.forall_mem_nil _⟩
  · intro lower upper
    refine ⟨toNat_native_low s w (.inl rfl), toNat_native_low s w (.inr rfl),
      fun hx => ⟨toNat_native_high s w hx rfl, toNat_native_high s w hx rfl⟩,
      fun c _ => csrFrame_csrWrite s a c w, fun c hc _ => ?_, fun c hc _ => ?_⟩
    · show _ = (s.recCsr a (s.csrWrite a c w).core.cycles).core.delta
      rw [cycles_csrWrite s a w hc, csrWrite_delta]
    · show _ = (s.recCsr a (s.csrWrite a c w).core.instret).core.delta
      rw [instret_csrWrite s a w hc, csrWrite_delta]

end Sys2Proof.Machine
end

section
/-!
PROOF. Floating point over the library (47_float_single.md R401 to R432; 48_float_double.md R443 to R472). The
values and flags are the library's free ones (log entry 3).

Each instruction is its rounding-mode check, then a result with its flags; what is left is how a single stands in
its register and how an integer result is extended.
-/

namespace Sys2Proof.Machine

section
variable {s : State} {i : Instr} {r : RegIdx} {rm : BitVec 3} {m : RoundingMode} {a : RoundingMode → Word}
  {fl : RoundingMode → FpFlags} {v : Word} {accrued : FpFlags}

theorem fpWrites_rounded (h : Selects rm s.core.fcsr m)
    (hi : exec i s = s.withRm rm fun m => s.fpResult r (a m) (fl m)) (hv : a m = v) (hfl : fl m = accrued) :
    FpWrites s i r v accrued :=
  fpWrites_withRm h (r := fun m => (a m, fl m)) hi hv hfl

theorem fpWritesX_rounded (h : Selects rm s.core.fcsr m)
    (hi : exec i s = s.withRm rm fun m => s.intResult r (a m) (fl m)) (hv : s.params.arch.sext (a m) = v)
    (hfl : fl m = accrued) : FpWritesX s i r v accrued :=
  fpWritesX_withRm h (r := fun m => (a m, fl m)) hi hv hfl

end

/-! ## Arithmetic -/

/-- Settles O47: each form is the library's value, boxed, behind the rounding-mode check. -/
theorem singleArithmetic : Obligations.SingleArithmetic := by
  intro s fd fs1 fs2 fs3 rm m h
  simp only [← box_eq_boxed, ← getS_eq]
  and_intros <;> exact fpWrites_rounded h rfl rfl rfl

/-- Settles O48: as for the singles, on whole registers. -/
theorem doubleArithmetic : Obligations.DoubleArithmetic := by
  intro s fd fs1 fs2 fs3 rm m h
  and_intros <;> exact fpWrites_rounded h rfl rfl rfl

/-! ## Comparisons, conversions and moves -/

/-- A class mask has ten bits, so its extension is the mask. -/
theorem sext_class (x : Xlen) (v : BitVec 10) : x.sext (v.setWidth 64) = BitVec.ofNat 64 v.toNat := by
  have := v.isLt
  cases x with
  | w64 => exact (BitVec.ofNat_toNat _ _).symm
  | w32 =>
    have narrow : (v.setWidth 64).setWidth 32 = v.setWidth 32 := BitVec.setWidth_setWidth_of_le _ (by decide)
    have positive : (v.setWidth 32).msb = false := by
      rw [BitVec.msb_eq_decide, BitVec.toNat_setWidth]
      simp only [decide_eq_false_iff_not]
      omega
    show ((v.setWidth 64).setWidth 32).signExtend 64 = _
    rw [narrow, BitVec.signExtend_eq_setWidth_of_msb_false positive]
    apply BitVec.eq_of_toNat_eq
    simp only [BitVec.toNat_setWidth, BitVec.toNat_ofNat]
    omega

/-- Settles O51: each comparison extends the library's truth value, and a class is its mask. -/
theorem floatComparisons : Obligations.FloatComparisons := by
  intro s rd fs1 fs2
  have truth (b : Bool) : s.params.arch.sext (boolWord b) = if b = true then 1#64 else 0#64 := by
    cases s.params.arch <;> cases b <;> rfl
  simp only [← getS_eq]
  exact ⟨fpWritesX_of rfl (truth _), fpWritesX_of rfl (truth _),
    fpWritesX_of rfl (truth _), writes_of_wr rfl (sext_class _ _), fpWritesX_of rfl (truth _),
    fpWritesX_of rfl (truth _), fpWritesX_of rfl (truth _), writes_of_wr rfl (sext_class _ _)⟩

/-- Settles O52: each conversion is the library's value, extended or boxed, and the moves copy the low word. -/
theorem singleConversions : Obligations.SingleConversions := by
  intro s r rs rm m h
  simp only [← box_eq_boxed, ← getS_eq, BitVec.ofNat_toNat]
  exact ⟨fpWritesX_rounded h rfl (sext_signExtend32 _ _) rfl, fpWritesX_rounded h rfl (sext_signExtend32 _ _) rfl,
    writes_of_wr rfl (sext_signExtend32 _ _), fpWrites_rounded h rfl rfl rfl, fpWrites_rounded h rfl rfl rfl,
    wrF_of rfl rfl,
    fun hx => ⟨fpWritesX_rounded h rfl (sext_w64 hx _) rfl, fpWritesX_rounded h rfl (sext_w64 hx _) rfl,
      fpWrites_rounded h rfl rfl rfl, fpWrites_rounded h rfl rfl rfl⟩⟩

/-- Settles O53: as for the singles, on whole registers. -/
theorem doubleConversions : Obligations.DoubleConversions := by
  intro s r rs rm m h
  simp only [← box_eq_boxed, ← getS_eq, BitVec.ofNat_toNat]
  exact ⟨fpWrites_rounded h rfl rfl rfl, fpWrites_rounded h rfl rfl rfl,
    fpWritesX_rounded h rfl (sext_signExtend32 _ _) rfl,
    fpWritesX_rounded h rfl (sext_signExtend32 _ _) rfl, fpWrites_rounded h rfl rfl rfl,
    fpWrites_rounded h rfl rfl rfl,
    fun hx => ⟨fpWritesX_rounded h rfl (sext_w64 hx _) rfl, fpWritesX_rounded h rfl (sext_w64 hx _) rfl,
      fpWrites_rounded h rfl rfl rfl, fpWrites_rounded h rfl rfl rfl, writes_of_wr rfl (sext_w64 hx _),
      wrF_of rfl rfl⟩⟩

/-! ## Sign injection, minimum and maximum, single -/

section
variable {a b : BitVec 32}

theorem isNan32_of (h : nan32 a) : isNan32 a = true := (nan32_iff a).2 h

theorem isNan32_of_not (h : ¬nan32 a) : isNan32 a = false := Bool.eq_false_iff.2 fun hn => h ((nan32_iff a).1 hn)

theorem minMax32_of_nans (ha : nan32 a) (hb : nan32 b) : min32 a b = 0x7FC00000#32 ∧ max32 a b = 0x7FC00000#32 := by
  simp [min32, max32, isNan32_of ha, isNan32_of hb]

theorem minMax32_of_nan_left (ha : nan32 a) (hb : ¬nan32 b) : min32 a b = b ∧ max32 a b = b := by
  simp [min32, max32, isNan32_of ha, isNan32_of_not hb]

theorem minMax32_of_nan_right (ha : ¬nan32 a) (hb : nan32 b) : min32 a b = a ∧ max32 a b = a := by
  simp [min32, max32, isNan32_of_not ha, isNan32_of hb]

theorem minMax32_of_zeros (ha : ¬nan32 a) (hb : ¬nan32 b) (hz : a.toNat % 2 ^ 31 = 0 ∧ b.toNat % 2 ^ 31 = 0) :
    min32 a b = BitVec.ofNat 32 (Nat.max (a.toNat / 2 ^ 31) (b.toNat / 2 ^ 31) * 2 ^ 31) ∧
      max32 a b = BitVec.ofNat 32 (Nat.min (a.toNat / 2 ^ 31) (b.toNat / 2 ^ 31) * 2 ^ 31) := by
  rw [← (or_zero32 a b hz.1 hz.2).1, ← (or_zero32 a b hz.1 hz.2).2]
  simp [min32, max32, isNan32_of_not ha, isNan32_of_not hb, (zero32_iff a b).2 hz]

theorem minMax32_of_ordered (ha : ¬nan32 a) (hb : ¬nan32 b) (hz : ¬(a.toNat % 2 ^ 31 = 0 ∧ b.toNat % 2 ^ 31 = 0)) :
    min32 a b = (if (FPLib.lt32 a b).1 = true then a else b) ∧
      max32 a b = if (FPLib.lt32 a b).1 = true then b else a := by
  have notZeros : bothZero32 a b = false := Bool.eq_false_iff.2 fun hn => hz ((zero32_iff a b).1 hn)
  simp [min32, max32, isNan32_of_not ha, isNan32_of_not hb, notZeros]

theorem minMaxFlags32_of_snan (h : snan32 a ∨ snan32 b) : minMaxFlags32 a b = 0x10#5 := by
  rw [← snan32_iff, ← snan32_iff] at h
  exact if_pos (by simpa using h)

theorem minMaxFlags32_of_quiet (ha : ¬snan32 a) (hb : ¬snan32 b) : minMaxFlags32 a b = 0#5 := by
  rw [← snan32_iff] at ha hb
  exact if_neg (by simp [ha, hb])

/-- A minimum or maximum whose value is `v` writes it, with the flag of a signaling operand. -/
theorem minMax32_result {s : State} {i : Instr} {fd : RegIdx} {v w : BitVec 32}
    (h : exec i s = s.fpResult fd (box w) (minMaxFlags32 a b)) (hv : w = v) :
    (snan32 a ∨ snan32 b → FpWrites s i fd (box v) 0x10#5) ∧
      (¬snan32 a → ¬snan32 b → FpWrites s i fd (box v) 0#5) := by
  have written : FpWrites s i fd (box v) (minMaxFlags32 a b) := fpWrites_of (hv ▸ h)
  exact ⟨fun hs => minMaxFlags32_of_snan hs ▸ written, fun ha hb => minMaxFlags32_of_quiet ha hb ▸ written⟩

/-- The minimum and the maximum of the two operands, each with its flag. -/
theorem minMaxS_results {s : State} {fd fs1 fs2 : RegIdx} {v w : BitVec 32}
    (h : min32 (s.getS fs1) (s.getS fs2) = v ∧ max32 (s.getS fs1) (s.getS fs2) = w) :
    ((snan32 (s.getS fs1) ∨ snan32 (s.getS fs2) → FpWrites s (.fminS fd fs1 fs2) fd (box v) 0x10#5) ∧
      (¬snan32 (s.getS fs1) → ¬snan32 (s.getS fs2) → FpWrites s (.fminS fd fs1 fs2) fd (box v) 0#5)) ∧
    ((snan32 (s.getS fs1) ∨ snan32 (s.getS fs2) → FpWrites s (.fmaxS fd fs1 fs2) fd (box w) 0x10#5) ∧
      (¬snan32 (s.getS fs1) → ¬snan32 (s.getS fs2) → FpWrites s (.fmaxS fd fs1 fs2) fd (box w) 0#5)) :=
  ⟨minMax32_result rfl h.1, minMax32_result rfl h.2⟩

end

/-- Settles O49: sign injection by the sign each form takes, minimum and maximum by the class of the operands. -/
theorem singleSelection : Obligations.SingleSelection := by
  intro s fd fs1 fs2
  simp only [← box_eq_boxed, ← getS_eq]
  refine ⟨wrF_of rfl (congrArg box (signFrom32_eq _ _)), wrF_of rfl ?negated, wrF_of rfl ?xored,
    fun ha hb => minMaxS_results (minMax32_of_nans ha hb),
    fun ha hb => minMaxS_results (minMax32_of_nan_left ha hb),
    fun ha hb => minMaxS_results (minMax32_of_nan_right ha hb),
    fun ha hb hz => minMaxS_results (minMax32_of_zeros ha hb hz),
    fun ha hb hz => ⟨fun h => minMaxS_results ?less, fun h => minMaxS_results ?notLess⟩⟩
  case negated => rw [signFrom32_eq, not_sign32]
  case xored => rw [signFrom32_eq, xor_sign32]
  case less => simpa [h] using minMax32_of_ordered ha hb hz
  case notLess => simpa [h] using minMax32_of_ordered ha hb hz

/-! ## Sign injection, minimum and maximum, double -/

section
variable {a b : BitVec 64}

theorem isNan64_of (h : nan64 a) : isNan64 a = true := (nan64_iff a).2 h

theorem isNan64_of_not (h : ¬nan64 a) : isNan64 a = false := Bool.eq_false_iff.2 fun hn => h ((nan64_iff a).1 hn)

theorem minMax64_of_nans (ha : nan64 a) (hb : nan64 b) :
    min64 a b = 0x7FF8000000000000#64 ∧ max64 a b = 0x7FF8000000000000#64 := by
  simp [min64, max64, isNan64_of ha, isNan64_of hb]

theorem minMax64_of_nan_left (ha : nan64 a) (hb : ¬nan64 b) : min64 a b = b ∧ max64 a b = b := by
  simp [min64, max64, isNan64_of ha, isNan64_of_not hb]

theorem minMax64_of_nan_right (ha : ¬nan64 a) (hb : nan64 b) : min64 a b = a ∧ max64 a b = a := by
  simp [min64, max64, isNan64_of_not ha, isNan64_of hb]

theorem minMax64_of_zeros (ha : ¬nan64 a) (hb : ¬nan64 b) (hz : a.toNat % 2 ^ 63 = 0 ∧ b.toNat % 2 ^ 63 = 0) :
    min64 a b = BitVec.ofNat 64 (Nat.max (a.toNat / 2 ^ 63) (b.toNat / 2 ^ 63) * 2 ^ 63) ∧
      max64 a b = BitVec.ofNat 64 (Nat.min (a.toNat / 2 ^ 63) (b.toNat / 2 ^ 63) * 2 ^ 63) := by
  rw [← (or_zero64 a b hz.1 hz.2).1, ← (or_zero64 a b hz.1 hz.2).2]
  simp [min64, max64, isNan64_of_not ha, isNan64_of_not hb, (zero64_iff a b).2 hz]

theorem minMax64_of_ordered (ha : ¬nan64 a) (hb : ¬nan64 b) (hz : ¬(a.toNat % 2 ^ 63 = 0 ∧ b.toNat % 2 ^ 63 = 0)) :
    min64 a b = (if (FPLib.lt64 a b).1 = true then a else b) ∧
      max64 a b = if (FPLib.lt64 a b).1 = true then b else a := by
  have notZeros : bothZero64 a b = false := Bool.eq_false_iff.2 fun hn => hz ((zero64_iff a b).1 hn)
  simp [min64, max64, isNan64_of_not ha, isNan64_of_not hb, notZeros]

theorem minMaxFlags64_of_snan (h : snan64 a ∨ snan64 b) : minMaxFlags64 a b = 0x10#5 := by
  rw [← snan64_iff, ← snan64_iff] at h
  exact if_pos (by simpa using h)

theorem minMaxFlags64_of_quiet (ha : ¬snan64 a) (hb : ¬snan64 b) : minMaxFlags64 a b = 0#5 := by
  rw [← snan64_iff] at ha hb
  exact if_neg (by simp [ha, hb])

/-- A minimum or maximum whose value is `v` writes it, with the flag of a signaling operand. -/
theorem minMax64_result {s : State} {i : Instr} {fd : RegIdx} {v w : BitVec 64}
    (h : exec i s = s.fpResult fd w (minMaxFlags64 a b)) (hv : w = v) :
    (snan64 a ∨ snan64 b → FpWrites s i fd v 0x10#5) ∧
      (¬snan64 a → ¬snan64 b → FpWrites s i fd v 0#5) := by
  have written : FpWrites s i fd v (minMaxFlags64 a b) := fpWrites_of (hv ▸ h)
  exact ⟨fun hs => minMaxFlags64_of_snan hs ▸ written, fun ha hb => minMaxFlags64_of_quiet ha hb ▸ written⟩

/-- The minimum and the maximum of the two operands, each with its flag. -/
theorem minMaxD_results {s : State} {fd fs1 fs2 : RegIdx} {v w : BitVec 64}
    (h : min64 (s.getF fs1) (s.getF fs2) = v ∧ max64 (s.getF fs1) (s.getF fs2) = w) :
    ((snan64 (s.getF fs1) ∨ snan64 (s.getF fs2) → FpWrites s (.fminD fd fs1 fs2) fd v 0x10#5) ∧
      (¬snan64 (s.getF fs1) → ¬snan64 (s.getF fs2) → FpWrites s (.fminD fd fs1 fs2) fd v 0#5)) ∧
    ((snan64 (s.getF fs1) ∨ snan64 (s.getF fs2) → FpWrites s (.fmaxD fd fs1 fs2) fd w 0x10#5) ∧
      (¬snan64 (s.getF fs1) → ¬snan64 (s.getF fs2) → FpWrites s (.fmaxD fd fs1 fs2) fd w 0#5)) :=
  ⟨minMax64_result rfl h.1, minMax64_result rfl h.2⟩

end

/-- Settles O50: as for the singles, on whole registers. -/
theorem doubleSelection : Obligations.DoubleSelection := by
  intro s fd fs1 fs2
  refine ⟨wrF_of rfl (signFrom64_eq _ _), wrF_of rfl ?negated, wrF_of rfl ?xored,
    fun ha hb => minMaxD_results (minMax64_of_nans ha hb),
    fun ha hb => minMaxD_results (minMax64_of_nan_left ha hb),
    fun ha hb => minMaxD_results (minMax64_of_nan_right ha hb),
    fun ha hb hz => minMaxD_results (minMax64_of_zeros ha hb hz),
    fun ha hb hz => ⟨fun h => minMaxD_results ?less, fun h => minMaxD_results ?notLess⟩⟩
  case negated => rw [signFrom64_eq, not_sign64]
  case xored => rw [signFrom64_eq, xor_sign64]
  case less => simpa [h] using minMax64_of_ordered ha hb hz
  case notLess => simpa [h] using minMax64_of_ordered ha hb hz

/-! ## Invalid rounding modes -/

theorem rmEff_of_invalid {rm : BitVec 3} {fcsr : BitVec 8}
    (h : rm = 5#3 ∨ rm = 6#3 ∨ (rm = 7#3 ∧ 4 < fcsr.toNat / 32)) : rmEff rm fcsr = none := by
  obtain rfl | rfl | ⟨rfl, hf⟩ := h
  · rfl
  · rfl
  · have field : (fcsrFrm fcsr).toNat = fcsr.toNat / 32 := by
      have := fcsr.isLt
      simp [fcsrFrm, Nat.shiftRight_eq_div_pow]
      omega
    rw [← field] at hf
    rw [rmEff, if_pos rfl]
    revert hf
    generalize fcsrFrm fcsr = frm
    revert frm
    decide

theorem raised_of_invalid {s : State} {i : Instr} {rm : BitVec 3} {k : RoundingMode → Result}
    (hrm : rmEff rm s.core.fcsr = none) (h : exec i s = s.withRm rm k) :
    Completes i s fun t => Raised s t 2#4 none :=
  completes_raised (by rw [h, State.withRm, hrm])

/-- Settles O54: every listed instruction checks its rounding mode first. -/
theorem invalidRounding : Obligations.InvalidRounding := by
  intro s r a b c rm h i hi
  have hrm := rmEff_of_invalid h
  fin_cases hi <;> exact raised_of_invalid hrm rfl

end Sys2Proof.Machine
end
